-- ==== Sys2Proof/Word.lean ====
section
/-! DEFINITION. The value types of GIC-CORE: bytes, 64-bit lengths, 10-bit tree links (R9 to R11, R33). -/

namespace Sys2Proof

/-- A symbol, pixel or stream byte: 8 bits (R9). -/
abbrev Byte := BitVec 8

/-- A quantity of width `LEN_W = 64` (R11). -/
abbrev Word := BitVec 64

/-- A slot number of the node file, 10 bits (R33). -/
abbrev Link := BitVec 10

/-- `NIL`, the absent link and the "absent" entry of the symbol table, is the 10-bit value 1023 (R33, R35). -/
abbrev nilLink : Link := 1023#10

end Sys2Proof
end

