-- ==== Sys2Proof/Syntax.lean ====
section
/-! DEFINITION. The instructions of GIC-CORE: one constructor per row of the opcode table (R106), that is the ten
stream elements (R85), the three run forms (R91) and the ten host commands (R215); and the formats by which a
stream position says which element comes next. -/

namespace Sys2Proof

/-- One constructor per row of the opcode table (R106). -/
inductive Instr where
  /-- SET, format S: the RLE settings byte; `kw`, `kh` are `K_w - 1`, `K_h - 1` (R87). -/
  | set (scan model : Bool) (kw kh : BitVec 3)
  /-- DIMW, format DW: the width, in `k + 1` big-endian bytes (R88). -/
  | dimw (k : BitVec 3) (w : Word)
  /-- DIMH, format DH: the height, in `k + 1` big-endian bytes (R88). -/
  | dimh (k : BitVec 3) (h : Word)
  /-- GRP, format G: a group byte; bit `i` classifies item `i` (R89). -/
  | grp (c : Byte)
  /-- CNT, format C: a counter fragment (R90). -/
  | cnt (f : Byte)
  /-- LIT, format V: a literal value (R90). -/
  | lit (v : Byte)
  /-- OUT, format O: the outer settings byte; `reserved` is its bits 7:4 (R95). -/
  | out (reserved : BitVec 4) (huf : Bool) (pad : BitVec 3)
  /-- CODE, format B: one code bit, 1 = right (R97). -/
  | code (b : Bool)
  /-- ESC, format L: an escape literal (R98). -/
  | esc (v : Byte)
  /-- RAW, format X: a pass-through byte (R96). -/
  | raw (x : Byte)
  /-- RUN1: a run of one byte `v` (R91). -/
  | run1 (v : Byte)
  /-- RUN2: a run of two bytes `v` (R91). -/
  | run2 (v : Byte)
  /-- RUNN: a run of `n ≥ 3` bytes `v` (R91). -/
  | runn (n : Word) (v : Byte)
  /-- RLE_ENC_H, command 1 (R129). -/
  | rleEncH
  /-- RLE_ENC_V, command 2 (R134). -/
  | rleEncV
  /-- RLE_ENC_A, command 3 (R135). -/
  | rleEncA
  /-- RLE_DEC, command 4 (R145). -/
  | rleDec
  /-- HUF_ENC, command 5 (R187). -/
  | hufEnc
  /-- HUF_DEC, command 6 (R200). -/
  | hufDec
  /-- DIFF_FWD, command 7 (R223). -/
  | diffFwd
  /-- DIFF_INV, command 8 (R224). -/
  | diffInv
  /-- COMPRESS, command 9 (R229). -/
  | compress
  /-- DECOMPRESS, command 10 (R230). -/
  | decompress
deriving DecidableEq, Repr

/-- The format of the next thing to decode. No element carries opcode bits: position or decoder state selects the
format (R85, last column). -/
inductive Format where
  | s
  /-- DW of `k + 1` bytes. -/
  | dw (k : BitVec 3)
  /-- DH of `k + 1` bytes. -/
  | dh (k : BitVec 3)
  | g
  | c
  | v
  | o
  | b
  | l
  | x
  /-- A run of the item sequence: `digits` C items, then one V item (R91). -/
  | run (digits : Nat)
  /-- A value written to `CMD` (R215). -/
  | cmd
deriving DecidableEq, Repr

/-- The written form of an element: whole bytes at rising addresses, or bits in stream order (formats B and L of
the Huffman payload, R65, R66). -/
inductive Code where
  | bytes (bs : List Byte)
  | bits (bs : List Bool)
deriving DecidableEq, Repr

end Sys2Proof
end

