-- ==== Sys2Proof/WellFormed.lean ====
section
/-! DEFINITION. Which operands an instruction can carry in its encoding (R87 to R98, R215). -/

namespace Sys2Proof

/-- The operand ranges the encodings admit: a dimension fits its `K` bytes (R88), `RUNN` is for `n ≥ 3` (R91);
every other operand has exactly the values its field can hold. -/
def Instr.wf : Instr → Bool
  | .set _ _ _ _ => true
  | .dimw k w => w.toNat < 256 ^ (k.toNat + 1)
  | .dimh k h => h.toNat < 256 ^ (k.toNat + 1)
  | .grp _ => true
  | .cnt _ => true
  | .lit _ => true
  | .out _ _ _ => true
  | .code _ => true
  | .esc _ => true
  | .raw _ => true
  | .run1 _ => true
  | .run2 _ => true
  | .runn n _ => 3 ≤ n.toNat
  | .rleEncH => true
  | .rleEncV => true
  | .rleEncA => true
  | .rleDec => true
  | .hufEnc => true
  | .hufDec => true
  | .diffFwd => true
  | .diffInv => true
  | .compress => true
  | .decompress => true

end Sys2Proof
end

