-- ==== Sys2Proof/Decode.lean ====
section
/-! DEFINITION. The decoder of the stream elements and of the host commands, total and rejecting by name, and the
encoder, both written from the formats of 30_encoding.md (R85 to R98) and the command codes (R215). -/

namespace Sys2Proof

/-- `BE_k(v)`: the `k`-byte big-endian form of `v`, byte `i` being `(v div 256^(k-1-i)) mod 256` (R16). -/
def beBytes : Nat → Nat → List Byte
  | 0, _ => []
  | k + 1, v => BitVec.ofNat 8 (v / 256 ^ k) :: beBytes k v

/-- `unBE(s)`: the number a byte sequence spells big-endian (R16). -/
def unBE (bs : List Byte) : Nat := bs.foldl (fun n b => n * 256 + b.toNat) 0

/-- The smallest `j ≥ k` with `v < 256^j`, looked for in at most `fuel` places. -/
def byteCountFrom (v k : Nat) : Nat → Nat
  | 0 => k
  | fuel + 1 => if v < 256 ^ k then k else byteCountFrom v (k + 1) fuel

/-- `K(v)`: the smallest `k ≥ 0` with `v < 256^k`, for `v < 2^64` (R16). -/
def byteCount (v : Nat) : Nat := byteCountFrom v 0 8

/-- The counter digits of a run of length `n ≥ 2`: `BE_k(m)` with `m = n - 2`, `k = max(1, K(m))` (R91, R126). -/
def runDigits (n : Nat) : List Byte := beBytes (max 1 (byteCount (n - 2))) (n - 2)

/-- The run form of a run of length `n` (R91). -/
def runForm (n : Word) (v : Byte) : Instr :=
  if n.toNat ≤ 1 then .run1 v else if n.toNat = 2 then .run2 v else .runn n v

/-- The RLE settings byte `scan*128 + model*64 + (K_w-1)*8 + (K_h-1)` (R87). -/
def settingsByte (scan model : Bool) (kw kh : BitVec 3) : Byte :=
  BitVec.ofNat 8 (scan.toNat * 128 + model.toNat * 64 + kw.toNat * 8 + kh.toNat)

/-- The outer settings byte: bits 7:4 reserved, bit 3 `huf`, bits 2:0 `pad` (R95). -/
def outerByte (reserved : BitVec 4) (huf : Bool) (pad : BitVec 3) : Byte :=
  BitVec.ofNat 8 (reserved.toNat * 16 + huf.toNat * 8 + pad.toNat)

/-- Stream bit `i` of an escape literal is `(v >> (7-i)) & 1`: most significant bit first (R66, R98). -/
def literalBits (v : Byte) : List Bool :=
  [v.getLsbD 7, v.getLsbD 6, v.getLsbD 5, v.getLsbD 4, v.getLsbD 3, v.getLsbD 2, v.getLsbD 1, v.getLsbD 0]

/-- The byte that 8 literal bits spell, first bit read = bit 7 (R98, R197). -/
def literalValue (bs : List Bool) : Byte := bs.foldl (fun s b => (s <<< 1) ||| (BitVec.ofBool b).zeroExtend 8) 0#8

/-- Why a written form is no instruction. -/
inductive Reject where
  /-- A `CMD` value that is not 1 to 10 (R215, R216). -/
  | unknownCommand (c : Byte)
  /-- The form does not have the length or kind its format has (R85). -/
  | wrongLength
  /-- A run counter whose length does not fit 64 bits (R102, R144). -/
  | counterRange
deriving DecidableEq, Repr

/-- The host command of a `CMD` value (R215). -/
def decodeCommand (c : Byte) : Except Reject Instr :=
  match c.toNat with
  | 1 => .ok .rleEncH
  | 2 => .ok .rleEncV
  | 3 => .ok .rleEncA
  | 4 => .ok .rleDec
  | 5 => .ok .hufEnc
  | 6 => .ok .hufDec
  | 7 => .ok .diffFwd
  | 8 => .ok .diffInv
  | 9 => .ok .compress
  | 10 => .ok .decompress
  | _ => .error (.unknownCommand c)

/-- Fields of the RLE settings byte; all 256 values are legal (R87). -/
def decodeSettings (b : Byte) : Instr :=
  .set (b.getLsbD 7) (b.getLsbD 6) (b.extractLsb' 3 3) (b.extractLsb' 0 3)

/-- Fields of the outer settings byte (R95). -/
def decodeOuter (b : Byte) : Instr :=
  .out (b.extractLsb' 4 4) (b.getLsbD 3) (b.extractLsb' 0 3)

/-- The run that `digits` counter items and one value item stand for: length 1 without counter, else the counter
plus 2, leading zero digits accepted (R91, R92). -/
def decodeRun (digits : Nat) (bs : List Byte) : Except Reject Instr :=
  if bs.length ≠ digits + 1 then .error .wrongLength
  else
    let v := bs.getLastD 0#8
    let n := if digits = 0 then 1 else unBE (bs.take digits) + 2
    if n < 2 ^ 64 then .ok (runForm (BitVec.ofNat 64 n) v) else .error .counterRange

/-- The instruction that a written form stands for in the format its position selects (R85 to R98). -/
def decode : Format → Code → Except Reject Instr
  | .s, .bytes [b] => .ok (decodeSettings b)
  | .dw k, .bytes bs =>
      if bs.length = k.toNat + 1 then .ok (.dimw k (BitVec.ofNat 64 (unBE bs))) else .error .wrongLength
  | .dh k, .bytes bs =>
      if bs.length = k.toNat + 1 then .ok (.dimh k (BitVec.ofNat 64 (unBE bs))) else .error .wrongLength
  | .g, .bytes [b] => .ok (.grp b)
  | .c, .bytes [b] => .ok (.cnt b)
  | .v, .bytes [b] => .ok (.lit b)
  | .o, .bytes [b] => .ok (decodeOuter b)
  | .x, .bytes [b] => .ok (.raw b)
  | .b, .bits [b] => .ok (.code b)
  | .l, .bits bs => if bs.length = 8 then .ok (.esc (literalValue bs)) else .error .wrongLength
  | .run digits, .bytes bs => decodeRun digits bs
  | .cmd, .bytes [b] => decodeCommand b
  | _, _ => .error .wrongLength

/-- The format in which an instruction is written. -/
def Instr.format : Instr → Format
  | .set _ _ _ _ => .s
  | .dimw k _ => .dw k
  | .dimh k _ => .dh k
  | .grp _ => .g
  | .cnt _ => .c
  | .lit _ => .v
  | .out _ _ _ => .o
  | .code _ => .b
  | .esc _ => .l
  | .raw _ => .x
  | .run1 _ => .run 0
  | .run2 _ => .run 1
  | .runn n _ => .run (runDigits n.toNat).length
  | .rleEncH => .cmd
  | .rleEncV => .cmd
  | .rleEncA => .cmd
  | .rleDec => .cmd
  | .hufEnc => .cmd
  | .hufDec => .cmd
  | .diffFwd => .cmd
  | .diffInv => .cmd
  | .compress => .cmd
  | .decompress => .cmd

/-- The written form of a well-formed instruction, from the same tables (R87 to R98, R215). -/
def encode : Instr → Code
  | .set scan model kw kh => .bytes [settingsByte scan model kw kh]
  | .dimw k w => .bytes (beBytes (k.toNat + 1) w.toNat)
  | .dimh k h => .bytes (beBytes (k.toNat + 1) h.toNat)
  | .grp c => .bytes [c]
  | .cnt f => .bytes [f]
  | .lit v => .bytes [v]
  | .out reserved huf pad => .bytes [outerByte reserved huf pad]
  | .code b => .bits [b]
  | .esc v => .bits (literalBits v)
  | .raw x => .bytes [x]
  | .run1 v => .bytes [v]
  | .run2 v => .bytes [0x00#8, v]
  | .runn n v => .bytes (runDigits n.toNat ++ [v])
  | .rleEncH => .bytes [1#8]
  | .rleEncV => .bytes [2#8]
  | .rleEncA => .bytes [3#8]
  | .rleDec => .bytes [4#8]
  | .hufEnc => .bytes [5#8]
  | .hufDec => .bytes [6#8]
  | .diffFwd => .bytes [7#8]
  | .diffInv => .bytes [8#8]
  | .compress => .bytes [9#8]
  | .decompress => .bytes [10#8]

/-- The instruction in a word of the opcode table. The table gives a word no stream position, and the elements
carry no opcode bits (R85), so (log entry 11): one byte is a `CMD` value where it is one, else the byte at position 0
of an RLE frame; two or more bytes are the items of a run, the first item in the most significant byte, as the table
numbers the row RUN2. -/
def decodeTableWord (nbits w : Nat) : Option Instr :=
  if nbits = 8 then
    match decode .cmd (.bytes [BitVec.ofNat 8 w]) with
    | .ok i => some i
    | .error _ => (decode .s (.bytes [BitVec.ofNat 8 w])).toOption
  else if nbits % 8 = 0 ∧ 16 ≤ nbits ∧ nbits ≤ 72 then
    (decode (.run (nbits / 8 - 1)) (.bytes (beBytes (nbits / 8) w))).toOption
  else none

end Sys2Proof
end

