-- ==== Sys2Proof/Config.lean ====
section
/-! DEFINITION. What an implementation fixes (R9 to R13), the unaudited literals of the source kept as named
constants (93_implementation_defined.md section 3), and the free values: constants without a body. -/

namespace Sys2Proof.Config

/-- N, the alphabet size (R9). -/
abbrev alphabet : Nat := 256

/-- The node file holds 2N+1 nodes (R10). -/
abbrev nodeFileSize : Nat := 513

/-- The index of the NYT root of a fresh tree, `2*N+1` (R161). -/
abbrev rootIndex : BitVec 32 := 513#32

/-- Items in a full group (R89). -/
abbrev groupSize : Nat := 8

/-- The pad item is the literal `0x00` (R93, R128). -/
abbrev padLiteral : Byte := 0x00#8

/-- The sum of `ri` and `pad` that ends a coded stream (R198). -/
abbrev stopSum : Nat := 9

/-- The `BUF_CAP` that the reset state carries. DESIGN CHOICE (log entry 4), unsafe: R12 leaves `BUF_CAP` open;
no statement rests on this number, since every statement is about every `State.bufCap`. -/
abbrev resetBufCap : Word := 0x100000#64

/-- FREE VALUE (log entry 7): word number `which` of what the `event`-th ended command leaves in the registers
that the spec calls unspecified after it (R217, R252; V3, V4). -/
opaque freeWord (event which : Nat) : BitVec 64

/-- FREE VALUE (log entry 2): the byte that address `addr` of buffer number `space` holds when nothing has written
it (R271; V2). -/
opaque unwrittenByte (space addr : Nat) : BitVec 8

end Sys2Proof.Config
end

