-- ==== Sys2Proof/Machine/State.lean ====
section
/-! DEFINITION. The state of GIC-CORE as plain data (10_state.md), the spec's fault codes (R241), the reasons the
model stops, and the state after power-on reset (R271). -/

namespace Sys2Proof.Machine

/-- The four buffer memories (R43, R60). -/
inductive Space where
  | inp
  | out
  | outb
  | mid
deriving DecidableEq, Repr

/-- A buffer memory: the bytes that have been written, addresses strictly rising; an unlisted address has no stored
value (log entry 2). -/
abbrev Memory := List Host.Cell

/-- The faults of a command (R241). `ERR_*` of the spec; taking one is `State.raise` (R252). -/
inductive Err where
  /-- `ERR_BAD_CMD` (R242) -/
  | badCmd
  /-- `ERR_RLE_ENC_DIM_ZERO` (R243) -/
  | rleEncDimZero
  /-- `ERR_RLE_ENC_DIM_MISMATCH` (R245) -/
  | rleEncDimMismatch
  /-- `ERR_ALLOC` (R244) -/
  | alloc
  /-- `ERR_RLE_DEC_SHORT_HEADER` (R246) -/
  | rleDecShortHeader
  /-- `ERR_RLE_DEC_DIM_ZERO` (R247) -/
  | rleDecDimZero
  /-- `ERR_RLE_DEC_DIM_RANGE` (R249) -/
  | rleDecDimRange
  /-- `ERR_RLE_DEC_COUNT_OVERFLOW` (R248) -/
  | rleDecCountOverflow
  /-- `ERR_RLE_DEC_VERT_OVERRUN` (R250) -/
  | rleDecVertOverrun
  /-- `ERR_RLE_DEC_SHORT_DATA` (R251) -/
  | rleDecShortData
  /-- `ERR_HUF_ENC_EMPTY` (R264) -/
  | hufEncEmpty
  /-- `ERR_HUF_DEC_EMPTY` (R265) -/
  | hufDecEmpty
  /-- `ERR_HUF_DEC_TRUNC_LITERAL` (R266) -/
  | hufDecTruncLiteral
  /-- `ERR_HUF_DEC_ABSENT_CHILD` (R267) -/
  | hufDecAbsentChild
  /-- `ERR_HUF_DEC_DUP_LITERAL` (R268) -/
  | hufDecDupLiteral
  /-- `ERR_HUF_TREE_CORRUPT` (R269) -/
  | hufTreeCorrupt
  /-- `ERR_PIPE_DIM` (R263) -/
  | pipeDim
deriving DecidableEq, Repr

/-- The model stops with a fault. -/
inductive Fault where
  /-- An access to an address at or above `BUF_CAP`, which does not exist (R43). Raised by a byte access of an engine
  or by a host write to IN; no command reaches it. Safe: the model stops. -/
  | noSuchAddress
deriving DecidableEq, Repr

/-- The model gives no meaning. -/
inductive Refusal where
  /-- An instruction without a meaning; raised by no arm of `exec` here. Safe. -/
  | notModelled (mnemonic : String)
  /-- A host access while `STATUS.state` is BUSY, which R21 and R277 (V7) leave without an effect; raised by `step`
  only, in states that no run reaches (R272). Safe. -/
  | hostAccessWhileBusy
  /-- The bits a position selects decode to no instruction; raised by the element fetch, and never reached, because
  every element format accepts every value (R87 to R98). Safe. -/
  | undecodable
  /-- A loop of a command has run longer than its bound; raised by `runTurns`, and never reached, because every
  command terminates (R272). Safe. -/
  | ranTooLong
deriving DecidableEq, Repr

/-- Why an operation did not complete. -/
inductive Stop where
  /-- a `raise` of the spec (R252) -/
  | err (e : Err)
  | fault (f : Fault)
  | refuse (r : Refusal)
deriving DecidableEq, Repr

/-- The result of an operation that may stop. -/
abbrev Run (α : Type) := Except Stop α

/-- What the next step selects (R85, last column); the model's own field (log entry 3). -/
inductive Seq where
  /-- between commands: the next host access -/
  | host
  /-- RLE decoder, frame byte 0: format S -/
  | rleSet
  /-- RLE decoder, after S: format DW -/
  | rleDimW
  /-- RLE decoder, after DW: format DH -/
  | rleDimH
  /-- RLE decoder, payload: format G, C or V -/
  | rlePayload
  /-- Huffman decoder, frame byte 0: format O -/
  | hufOuter
  /-- Huffman decoder, pass-through: format X -/
  | hufRaw
  /-- Huffman decoder, coded payload: format B or L -/
  | hufBits
  /-- RLE encoder, scanning pixels into runs -/
  | encScan
  /-- RLE encoder, all runs written: the end of the payload -/
  | encClose
deriving DecidableEq, Repr

/-- One access of the host (R21 to R26, R43, R275). Reads have no effect (R70) and are no steps. -/
inductive HostAccess where
  | writeIn (addr : Word) (b : Byte)
  | writeInLen (n : Word)
  | writeArgW (w : Word)
  | writeArgH (h : Word)
  | writeArgFlags (f : Byte)
  | writeCmd (c : Byte)
deriving DecidableEq, Repr

/-- One entry of the node file (R33). -/
structure TreeNode where
  parent : Link
  left : Link
  right : Link
  index : BitVec 32
  weight : BitVec 64
  value : Byte
deriving DecidableEq, Repr, Inhabited

/-- The Huffman tree (R33 to R35) with the register of its update walk (R38). -/
structure Tree where
  nodes : Vector TreeNode 513
  root : Link
  nyt : Link
  nnodes : Link
  sym : Vector Link 256
  unode : Link
deriving DecidableEq, Repr

/-- Scan registers (R28) and group packer (R29) of the RLE encoder. -/
structure EncRegs where
  eW : Word
  eH : Word
  eN : Word
  eModel : Bool
  eScan : Bool
  eT : Word
  cur : Byte
  cnt : Word
  g : Byte
  gcnt : BitVec 4
  gbuf : Vector Byte 8
deriving DecidableEq, Repr

/-- Cursor (R30), header registers (R31), pair and reconstruction registers (R32) of the RLE decoder. -/
structure DecRegs where
  rp : Word
  dG : Byte
  gbit : BitVec 4
  dScan : Bool
  dModel : Bool
  dKw : BitVec 4
  dKh : BitVec 4
  dW : Word
  dH : Word
  dN : Word
  acc : Word
  nfrag : Bool
  written : Word
  vx : Word
  vy : Word
deriving DecidableEq, Repr

/-- Bit writer (R37), encoder sequencing (R38), decoder sequencing (R39), bit reader (R40). -/
structure HufRegs where
  wb : Word
  wi : BitVec 3
  ip : Word
  pad : BitVec 3
  dcur : Link
  rb : Word
  ri : BitVec 4
deriving DecidableEq, Repr

/-- The state (R20). The last five fields are the model's own (INVENTORY.md). -/
structure State where
  /-- `CMD` (R21) -/
  cmd : Byte
  /-- `STATUS` (R22) -/
  status : Byte
  /-- `ERR` (R23) -/
  err : Byte
  /-- `ARG_W` (R24) -/
  argW : Word
  /-- `ARG_H` (R24) -/
  argH : Word
  /-- `ARG_FLAGS` (R25) -/
  argFlags : Byte
  /-- `IN_LEN` (R26) -/
  inLen : Word
  /-- `OUT_LEN` (R26, R41) -/
  outLen : Word
  /-- `RES_OUTER` (R27) -/
  resOuter : Byte
  /-- `RES_W` (R27) -/
  resW : Word
  /-- `RES_H` (R27) -/
  resH : Word
  /-- `RES_FLAGS` (R27) -/
  resFlags : Byte
  /-- buffer IN (R43) -/
  inMem : Memory
  /-- buffer OUT (R43) -/
  outMem : Memory
  /-- buffer OUTB (R43) -/
  outbMem : Memory
  /-- buffer MID (R43) -/
  midMem : Memory
  /-- `OUTB_LEN`, the append counter of OUTB (R41) -/
  outbLen : Word
  /-- `MID_LEN`, the number of valid bytes in MID (R17, R43) -/
  midLen : Word
  /-- RLE encoder registers -/
  enc : EncRegs
  /-- RLE decoder registers -/
  dec : DecRegs
  /-- Huffman tree -/
  tree : Tree
  /-- Huffman registers -/
  huf : HufRegs
  /-- the differential unit's register (R42) -/
  prev : Byte
  /-- `BUF_CAP` (R12): a parameter, changed by no step -/
  bufCap : Word
  /-- model: the host accesses still to come, oldest first -/
  pending : List HostAccess
  /-- model: what the next step selects -/
  seq : Seq
  /-- model: the buffer that the running stage reads as its input -/
  src : Space
  /-- model: the `dest` argument of the encoding pass (R122) -/
  dest : Space
  /-- model: how many commands have ended, which numbers the free values -/
  freeCount : Nat
deriving DecidableEq, Repr

/-- Power-on RLE encoder registers: unspecified in R271, zero by DESIGN CHOICE (log entry 1). -/
def EncRegs.reset : EncRegs :=
  { eW := 0, eH := 0, eN := 0, eModel := false, eScan := false, eT := 0, cur := 0, cnt := 0, g := 0, gcnt := 0,
    gbuf := Vector.replicate 8 0 }

/-- Power-on RLE decoder registers: unspecified in R271, zero by DESIGN CHOICE (log entry 1). -/
def DecRegs.reset : DecRegs :=
  { rp := 0, dG := 0, gbit := 0, dScan := false, dModel := false, dKw := 0, dKh := 0, dW := 0, dH := 0, dN := 0,
    acc := 0, nfrag := false, written := 0, vx := 0, vy := 0 }

/-- Power-on tree: unspecified in R271, zero by DESIGN CHOICE (log entry 1). -/
def Tree.reset : Tree :=
  { nodes := Vector.replicate 513 { parent := 0, left := 0, right := 0, index := 0, weight := 0, value := 0 },
    root := 0, nyt := 0, nnodes := 0, sym := Vector.replicate 256 0, unode := 0 }

/-- Power-on Huffman registers: unspecified in R271, zero by DESIGN CHOICE (log entry 1). -/
def HufRegs.reset : HufRegs := { wb := 0, wi := 0, ip := 0, pad := 0, dcur := 0, rb := 0, ri := 0 }

/-- The state after power-on reset. `CMD`, `STATUS`, `ERR` and `OUT_LEN` are 0 by R271; everything else is
unspecified there and zero by DESIGN CHOICE (log entry 1, unsafe); the memories list nothing (log entry 2);
`BUF_CAP` carries `Config.resetBufCap` (log entry 4). -/
def State.reset : State :=
  { cmd := 0, status := 0, err := 0, argW := 0, argH := 0, argFlags := 0, inLen := 0, outLen := 0,
    resOuter := 0, resW := 0, resH := 0, resFlags := 0, inMem := [], outMem := [], outbMem := [], midMem := [],
    outbLen := 0, midLen := 0, enc := EncRegs.reset, dec := DecRegs.reset, tree := Tree.reset,
    huf := HufRegs.reset, prev := 0, bufCap := Config.resetBufCap, pending := [], seq := .host, src := .inp,
    dest := .out, freeCount := 0 }

end Sys2Proof.Machine
end

