-- ==== Sys2Proof/Machine/Flags.lean ====
section
/-! DEFINITION. Every flag and status value the spec computes. There are no condition codes (R44): these are the
values of `STATUS`, `ERR`, `RES_FLAGS` and `RES_OUTER`, and the fields of `ARG_FLAGS`. -/

namespace Sys2Proof.Machine

/-- `STATUS` after a successful command: state DONE, ok (R22). -/
def statusOk : Byte := 0x06#8

/-- `STATUS` after a failed command: state DONE, not ok (R22, R252). -/
def statusFailed : Byte := 0x02#8

/-- `STATUS.state = BUSY`, never observable (R22, R272). -/
def statusBusy (status : Byte) : Bool := status.extractLsb' 0 2 == 1#2

/-- The fault codes (R241). -/
def Err.code : Err → Byte
  | .badCmd => 1#8
  | .rleEncDimZero => 2#8
  | .rleEncDimMismatch => 3#8
  | .alloc => 4#8
  | .rleDecShortHeader => 5#8
  | .rleDecDimZero => 6#8
  | .rleDecDimRange => 7#8
  | .rleDecCountOverflow => 8#8
  | .rleDecVertOverrun => 9#8
  | .rleDecShortData => 10#8
  | .hufEncEmpty => 11#8
  | .hufDecEmpty => 12#8
  | .hufDecTruncLiteral => 13#8
  | .hufDecAbsentChild => 14#8
  | .hufDecDupLiteral => 15#8
  | .hufTreeCorrupt => 16#8
  | .pipeDim => 17#8

/-- `ARG_FLAGS.model` (R25). -/
def State.argModel (s : State) : Bool := s.argFlags.getLsbD 0

/-- `ARG_FLAGS.adaptive` (R25). -/
def State.argAdaptive (s : State) : Bool := s.argFlags.getLsbD 1

/-- `RES_FLAGS`: bit 0 `convert_from_model`, bit 1 scan direction, bits 7:2 zero (R27, R149). -/
def resultFlags (model scan : Bool) : Byte := BitVec.ofNat 8 (model.toNat + 2 * scan.toNat)

/-- `pad = (8 - wi) mod 8` (R189). -/
def padField (wi : BitVec 3) : BitVec 3 := BitVec.ofNat 3 ((8 - wi.toNat) % 8)

/-- `RES_OUTER` of a coded payload, `0x08 | pad` (R190). -/
def codedOuter (wi : BitVec 3) : Byte := outerByte 0#4 true (padField wi)

/-- `RES_OUTER` of a pass-through payload, `0x00` (R190). -/
def rawOuter : Byte := outerByte 0#4 false 0#3

end Sys2Proof.Machine
end

