-- ==== Sys2Proof/Machine/Ops.lean ====
section
/-! DEFINITION. The named operations over memories and registers (R17, R60 to R75), taking a fault (R252), ending a
command (R130, R149, R190, R200) and starting one (R216, R273). -/

namespace Sys2Proof.Machine

/-- The canonical form of a memory: addresses strictly rising. An unlisted address has no stored value, so no entry
can equal what it reads as. -/
abbrev Memory.wf (m : Memory) : Prop := m.Pairwise (fun c d => c.1 < d.1)

/-- The byte stored at `a`, if any. -/
def Memory.read : Memory → Nat → Option Byte
  | [], _ => none
  | c :: m, a => if c.1 = a then some c.2 else Memory.read m a

/-- Store byte `v` at `a`, keeping the canonical form. -/
def Memory.write : Memory → Nat → Byte → Memory
  | [], a, v => [(a, v)]
  | c :: m, a, v =>
    if a < c.1 then (a, v) :: c :: m
    else if a = c.1 then (a, v) :: m
    else c :: Memory.write m a v

/-- The memory with everything at and above address `n` forgotten (R191; V4). -/
def Memory.below (m : Memory) (n : Nat) : Memory := m.filter (fun c => c.1 < n)

/-- The memory that holds `bs` from address `a` on and nothing else. -/
def Memory.ofBytes : Nat → List Byte → Memory
  | _, [] => []
  | a, b :: bs => (a, b) :: Memory.ofBytes (a + 1) bs

/-- A number for each space, for the free bytes. -/
def Space.number : Space → Nat
  | .inp => 0
  | .out => 1
  | .outb => 2
  | .mid => 3

/-- The memory of a space (R43). -/
def State.mem (s : State) : Space → Memory
  | .inp => s.inMem
  | .out => s.outMem
  | .outb => s.outbMem
  | .mid => s.midMem

/-- The state with the memory of a space replaced. -/
def State.setMem (s : State) (sp : Space) (m : Memory) : State :=
  match sp with
  | .inp => { s with inMem := m }
  | .out => { s with outMem := m }
  | .outb => { s with outbMem := m }
  | .mid => { s with midMem := m }

/-- `<space>_LEN` (R17). -/
def State.len (s : State) : Space → Word
  | .inp => s.inLen
  | .out => s.outLen
  | .outb => s.outbLen
  | .mid => s.midLen

/-- The state with `<space>_LEN` replaced. -/
def State.setLen (s : State) (sp : Space) (n : Word) : State :=
  match sp with
  | .inp => { s with inLen := n }
  | .out => { s with outLen := n }
  | .outb => { s with outbLen := n }
  | .mid => { s with midLen := n }

/-- What address `a` of a space reads as: the byte stored there, or a free value where nothing is stored
(log entry 2). -/
def State.peek (s : State) (sp : Space) (a : Nat) : Byte :=
  ((s.mem sp).read a).getD (Config.unwrittenByte sp.number a)

/-- The first `n` bytes of a space. -/
def State.bytes (s : State) (sp : Space) (n : Nat) : List Byte := (List.range n).map (s.peek sp)

/-- What a host that has read `STATUS.state = DONE` may read: `OUT[0 .. OUT_LEN-1]` (R73, R277). -/
def State.output (s : State) : List Byte := s.bytes .out s.outLen.toNat

/-- `MemRead(space, addr, 1)` (R17); the address must exist (R43). -/
def State.memRead (s : State) (sp : Space) (a : Nat) : Run Byte :=
  if a < s.bufCap.toNat then .ok (s.peek sp a) else .error (.fault .noSuchAddress)

/-- `MemWrite(space, addr, 1, v)` (R17); the address must exist (R43). -/
def State.memWrite (s : State) (sp : Space) (a : Nat) (v : Byte) : Run State :=
  if a < s.bufCap.toNat then .ok (s.setMem sp ((s.mem sp).write a v)) else .error (.fault .noSuchAddress)

/-- `Append(space, v)`: write at `<space>_LEN` and count, `ERR_ALLOC` when the buffer is full (R17, R244). -/
def State.append (s : State) (sp : Space) (v : Byte) : Run State :=
  if s.bufCap.toNat ≤ (s.len sp).toNat then .error (.err .alloc)
  else
    let t := s.setMem sp ((s.mem sp).write (s.len sp).toNat v)
    .ok (t.setLen sp (s.len sp + 1#64))

/-- `Append` of each byte in order. -/
def State.appendAll (s : State) (sp : Space) : List Byte → Run State
  | [] => .ok s
  | v :: vs => do
    let t ← s.append sp v
    State.appendAll t sp vs

/-- The space as it is before its first byte is appended: length 0, earlier contents forgotten (R122, R273). -/
def State.clear (s : State) (sp : Space) : State := (s.setMem sp []).setLen sp 0#64

/-- The length of the running stage's input: `IN_LEN`, or the length of MID in a later stage (R229, R230). -/
def State.inputLen (s : State) : Nat := (s.len s.src).toNat

/-- Byte `a` of the running stage's input (R62). -/
def State.inputByte (s : State) (a : Nat) : Run Byte := s.memRead s.src a

/-- `n` bytes of the running stage's input from address `a` on. -/
def State.inputBytes (s : State) (a : Nat) : Nat → Run (List Byte)
  | 0 => .ok []
  | n + 1 => do
    let b ← s.inputByte a
    let bs ← State.inputBytes s (a + 1) n
    .ok (b :: bs)

/-- Hand a stage's output to the next stage: OUT moves to MID, which becomes the input (R43, R229, R230). -/
def State.toMid (s : State) : State :=
  { s with midMem := s.outMem.below s.outLen.toNat, midLen := s.outLen, src := .mid, outMem := [], outLen := 0#64 }

/-- A free bit (log entry 7). -/
def freeBit (event which : Nat) : Bool := (Config.freeWord event which).getLsbD 0

/-- Free RLE encoder registers (V3, V4; log entry 7). -/
def EncRegs.free (n : Nat) : EncRegs :=
  { eW := Config.freeWord n 10, eH := Config.freeWord n 11, eN := Config.freeWord n 12, eModel := freeBit n 13,
    eScan := freeBit n 14, eT := Config.freeWord n 15, cur := (Config.freeWord n 16).setWidth 8,
    cnt := Config.freeWord n 17, g := (Config.freeWord n 18).setWidth 8, gcnt := (Config.freeWord n 19).setWidth 4,
    gbuf := Vector.ofFn fun i => (Config.freeWord n (20 + i)).setWidth 8 }

/-- Free RLE decoder registers (V3, V4; log entry 7). -/
def DecRegs.free (n : Nat) : DecRegs :=
  { rp := Config.freeWord n 30, dG := (Config.freeWord n 31).setWidth 8, gbit := (Config.freeWord n 32).setWidth 4,
    dScan := freeBit n 33, dModel := freeBit n 34, dKw := (Config.freeWord n 35).setWidth 4,
    dKh := (Config.freeWord n 36).setWidth 4, dW := Config.freeWord n 37, dH := Config.freeWord n 38,
    dN := Config.freeWord n 39, acc := Config.freeWord n 40, nfrag := freeBit n 41,
    written := Config.freeWord n 42, vx := Config.freeWord n 43, vy := Config.freeWord n 44 }

/-- A free node of the node file (V3, V4; log entry 7). -/
def TreeNode.free (n slot : Nat) : TreeNode :=
  { parent := (Config.freeWord n (1000 + 6 * slot)).setWidth 10,
    left := (Config.freeWord n (1001 + 6 * slot)).setWidth 10,
    right := (Config.freeWord n (1002 + 6 * slot)).setWidth 10,
    index := (Config.freeWord n (1003 + 6 * slot)).setWidth 32,
    weight := Config.freeWord n (1004 + 6 * slot), value := (Config.freeWord n (1005 + 6 * slot)).setWidth 8 }

/-- A free tree (V3, V4; log entry 7). -/
def Tree.free (n : Nat) : Tree :=
  { nodes := Vector.ofFn fun i => TreeNode.free n i, root := (Config.freeWord n 50).setWidth 10,
    nyt := (Config.freeWord n 51).setWidth 10, nnodes := (Config.freeWord n 52).setWidth 10,
    sym := Vector.ofFn fun i => (Config.freeWord n (100 + i)).setWidth 10,
    unode := (Config.freeWord n 53).setWidth 10 }

/-- Free Huffman registers (V3, V4; log entry 7). -/
def HufRegs.free (n : Nat) : HufRegs :=
  { wb := Config.freeWord n 60, wi := (Config.freeWord n 61).setWidth 3, ip := Config.freeWord n 62,
    pad := (Config.freeWord n 63).setWidth 3, dcur := (Config.freeWord n 64).setWidth 10,
    rb := Config.freeWord n 65, ri := (Config.freeWord n 66).setWidth 4 }

/-- Everything that the spec calls unspecified after every command becomes a free value: all working registers, the
tree, OUTB, MID, OUT at and above `OUT_LEN`, and the result registers (R217, R252, R274; V3, V4; log entry 7). The
block is between commands again. -/
def State.forget (s : State) : State :=
  let n := s.freeCount
  { s with
    resOuter := (Config.freeWord n 0).setWidth 8, resW := Config.freeWord n 1, resH := Config.freeWord n 2,
    resFlags := (Config.freeWord n 3).setWidth 8, outMem := s.outMem.below s.outLen.toNat, outbMem := [],
    midMem := [], outbLen := Config.freeWord n 4, midLen := Config.freeWord n 5, enc := EncRegs.free n,
    dec := DecRegs.free n, tree := Tree.free n, huf := HufRegs.free n, prev := (Config.freeWord n 6).setWidth 8,
    seq := .host, src := .inp, dest := .out, freeCount := n + 1 }

/-- `raise F`: taking a fault, the one description of R252. `ERR <- code(F); OUT_LEN <- 0; STATUS <- 0x02`; IN,
`IN_LEN`, `ARG_*` and `CMD` are unchanged and nothing else is defined. No state is saved and nothing returns from a
fault: the next write to `CMD` starts the next command from scratch (R254, R255). -/
def State.raise (s : State) (e : Err) : State :=
  { ({ s with outMem := [], outLen := 0#64 } : State).forget with err := e.code, status := statusFailed }

/-- The result registers that a command writes; one that it does not write is free after it (R217). -/
structure Results where
  outer : Option Byte := none
  w : Option Word := none
  h : Option Word := none
  flags : Option Byte := none
deriving DecidableEq, Repr

/-- The end of a successful command: `ERR <- 0; STATUS <- 0x06` with the results it writes (R130, R149, R190, R200,
R223, R229, R230). -/
def State.finish (s : State) (r : Results) : State :=
  let t := s.forget
  { t with
    err := 0#8, status := statusOk, resOuter := r.outer.getD t.resOuter, resW := r.w.getD t.resW,
    resH := r.h.getD t.resH, resFlags := r.flags.getD t.resFlags }

/-- What a step answers for the result of an operation: a raise is taken as R252 says, and is a next state. -/
def State.outcome (s : State) : Run State → Host.Outcome State Fault Refusal
  | .ok t => .next t
  | .error (.err e) => .next (s.raise e)
  | .error (.fault f) => .fault f
  | .error (.refuse r) => .refused r

/-- The state in which a command's body starts: the append counter 0, OUT's earlier contents forgotten, input IN
(R273). -/
def State.begin (s : State) : State :=
  { s with outMem := [], outLen := 0#64, seq := .host, src := .inp, dest := .out }

/-- `StartCommand`, after the code is known: `ERR_ALLOC` when the host claims more input than IN can hold, else the
body of the command (R216, R253). -/
def State.command (s : State) (body : State → Run State) : Host.Outcome State Fault Refusal :=
  if s.bufCap.toNat < s.inLen.toNat then s.outcome (.error (.err .alloc)) else s.outcome (body s.begin)

end Sys2Proof.Machine
end

