-- ==== Sys2Proof/Machine/Operands.lean ====
section
/-! DEFINITION. How the engines assemble the operands of the elements: scan addressing (R71), count assembly (R92,
R144), the bit reader (R196, R197), the choice of the next format (R85). -/

namespace Sys2Proof.Machine

/-- The address of scan position `t`: row-major for a horizontal scan, column-major for a vertical one (R71). -/
def scanAddress (horizontal : Bool) (w h t : Nat) : Nat :=
  if horizontal then t else (t % h) * w + t / h

/-- `Pix(t)` of the RLE encoder (R125). -/
def State.pix (s : State) (t : Nat) : Run Byte :=
  s.inputByte (scanAddress s.enc.eScan s.enc.eW.toNat s.enc.eH.toNat t)

/-- The run length of a completed pair: accumulator plus 2 if a fragment was seen, else 1 (R92, R143). -/
def DecRegs.count (d : DecRegs) : Nat := if d.nfrag then d.acc.toNat + 2 else 1

/-- `Accumulate(b)`: one counter fragment, refusing a count that does not fit 64 bits (R144). -/
def DecRegs.accumulate (d : DecRegs) (b : Byte) : Run DecRegs :=
  if d.acc.extractLsb' 56 8 ≠ 0#8 then .error (.err .rleDecCountOverflow)
  else
    let acc := (d.acc <<< 8) ||| b.setWidth 64
    if 2 ^ 64 - 3 < acc.toNat then .error (.err .rleDecCountOverflow)
    else .ok { d with acc := acc, nfrag := true }

/-- The classifier bit of the next item, LSB first (R64, R143). -/
def DecRegs.classifier (d : DecRegs) : Bool := d.dG.getLsbD d.gbit.toNat

/-- `L`: the number of payload bytes of the Huffman frame (R195). -/
def State.payloadLen (s : State) : Nat := s.inputLen - 1

/-- The reader's position with the late advance made (R196). -/
def readerAt (rb ri : Nat) : Nat × Nat := if ri = 8 then (rb + 1, 0) else (rb, ri)

/-- The bit that `ReadBit` returns at a position, none at the end of the payload (R196). -/
def State.peekBit (s : State) (rb ri : Nat) : Run (Option Bool) :=
  let p := readerAt rb ri
  if s.payloadLen ≤ p.1 then .ok none
  else do
    let b ← s.inputByte (1 + p.1)
    .ok (some (b.getLsbD p.2))

/-- The next `n` bits, none when the payload ends before them (R197). -/
def State.peekBits (s : State) (rb ri : Nat) : Nat → Run (Option (List Bool))
  | 0 => .ok (some [])
  | n + 1 => do
    let v ← s.peekBit rb ri
    match v with
    | none => .ok none
    | some b =>
      let p := readerAt rb ri
      let rest ← State.peekBits s p.1 (p.2 + 1) n
      .ok (rest.map (b :: ·))

/-- The reader's registers after one bit has been taken (R196). -/
def HufRegs.takeBit (h : HufRegs) : HufRegs :=
  if h.ri = 8#4 then { h with rb := h.rb + 1#64, ri := 1#4 } else { h with ri := h.ri + 1#4 }

/-- The reader's registers after `n` bits have been taken. -/
def HufRegs.takeBits (h : HufRegs) : Nat → HufRegs
  | 0 => h
  | n + 1 => HufRegs.takeBits h.takeBit n

/-- `IsEnd`: `ri + pad = 9` in the last payload byte (R198). -/
def State.isEnd (s : State) : Bool :=
  s.huf.ri.toNat + s.huf.pad.toNat = Config.stopSum && s.payloadLen = s.huf.rb.toNat + 1

end Sys2Proof.Machine
end

