-- ==== Sys2Proof/Machine/Tree.lean ====
section
/-! DEFINITION. The adaptive Huffman tree that both Huffman engines use: TreeInit (R161), Split (R164),
FindCandidate (R165), Swap (R166), Update (R167), Path (R168). An operation answers none only on a tree that violates
what the rules guarantee (R162, R169 to R173); its caller raises `ERR_HUF_TREE_CORRUPT` then (R269, log entry 9). -/

namespace Sys2Proof.Machine

/-- What a link that is no slot of the node file reads as: no links at all. -/
def TreeNode.absent : TreeNode :=
  { parent := nilLink, left := nilLink, right := nilLink, index := 0, weight := 0, value := 0 }

/-- `node[l]` (R17, R33). -/
def Tree.node (t : Tree) (l : Link) : TreeNode := (t.nodes[l.toNat]?).getD TreeNode.absent

/-- `node[l] <- n` (R17, R33). -/
def Tree.put (t : Tree) (l : Link) (n : TreeNode) : Tree := { t with nodes := t.nodes.setIfInBounds l.toNat n }

/-- `sym[b]` (R35, R163). -/
def Tree.symOf (t : Tree) (b : Byte) : Link := t.sym[b.toNat]'(b.isLt)

/-- `sym[b] <- l` (R35, R164). -/
def Tree.setSym (t : Tree) (b : Byte) (l : Link) : Tree := { t with sym := t.sym.set b.toNat l b.isLt }

/-- `IsInternal(n)` (R160). -/
def Tree.isInternal (t : Tree) (l : Link) : Bool := (t.node l).left != nilLink

/-- `IsRight(n)` (R160). -/
def Tree.isRight (t : Tree) (l : Link) : Bool := (t.node (t.node l).parent).right == l

/-- `TreeInit` (R161). -/
def Tree.init (t : Tree) : Tree :=
  { t.put 0#10
      { parent := nilLink, left := nilLink, right := nilLink, index := Config.rootIndex, weight := 0, value := 0 } with
    root := 0#10, nyt := 0#10, nnodes := 1#10, sym := Vector.replicate 256 nilLink }

/-- `Split(b)`: the NYT leaf gets a new NYT (left) and the leaf of `b` (right, born with weight 1); answers the old
NYT's slot (R164). None when the node file has no two slots left, which the rules exclude (R162). -/
def Tree.split (t : Tree) (b : Byte) : Option (Tree × Link) :=
  if Config.nodeFileSize < t.nnodes.toNat + 2 then none
  else
    let o := t.nyt
    let l := t.nnodes
    let r := t.nnodes + 1#10
    let index := (t.node o).index
    let t1 := t.put l { parent := o, left := nilLink, right := nilLink, index := index - 2#32, weight := 0, value := 0 }
    let t2 := t1.put r { parent := o, left := nilLink, right := nilLink, index := index - 1#32, weight := 1, value := b }
    let t3 := t2.put o { t2.node o with left := l, right := r }
    some ({ t3 with nnodes := t.nnodes + 2#10, nyt := l }.setSym b r, o)

/-- The breadth-first search of `FindCandidate`, right child before left child, over the queue (R36, R165). -/
def Tree.search (t : Tree) (n : Link) : Nat → List Link → Option Link
  | 0, _ => none
  | _ + 1, [] => none
  | fuel + 1, c :: q =>
    if (t.node c).weight = (t.node n).weight ∧ (t.node n).index.toNat ≤ (t.node c).index.toNat then some c
    else if t.isInternal c then Tree.search t n fuel (q ++ [(t.node c).right, (t.node c).left])
    else Tree.search t n fuel q

/-- `FindCandidate(n)`: the first node in breadth-first order of the same weight and no smaller index (R165). -/
def Tree.findCandidate (t : Tree) (n : Link) : Option Link := t.search n Config.nodeFileSize [t.root]

/-- Whether `a` is met on the way from `n` up through its parents, `n` itself not counted. -/
def Tree.isAncestor (t : Tree) (a : Link) : Nat → Link → Bool
  | 0, _ => false
  | fuel + 1, n =>
    let p := (t.node n).parent
    if p = nilLink then false else p == a || Tree.isAncestor t a fuel p

/-- `Swap(a, b)` on two nodes of which neither is the other's ancestor: exchange parents, sides and indices (R166). -/
def Tree.exchange (t : Tree) (a b : Link) : Tree :=
  let pa := (t.node a).parent
  let pb := (t.node b).parent
  let sa := t.isRight a
  let sb := t.isRight b
  let t1 := t.put pa (if sa then { t.node pa with right := b } else { t.node pa with left := b })
  let t2 := t1.put pb (if sb then { t1.node pb with right := a } else { t1.node pb with left := a })
  let ia := (t2.node a).index
  let ib := (t2.node b).index
  let t3 := t2.put a { t2.node a with parent := pb, index := ib }
  t3.put b { t3.node b with parent := pa, index := ia }

/-- `Swap(a, b)`, refused for a node and its own ancestor (R166, D27). -/
def Tree.swap (t : Tree) (a b : Link) : Option Tree :=
  if t.isAncestor a Config.nodeFileSize b || t.isAncestor b Config.nodeFileSize a then none
  else some (t.exchange a b)

/-- One turn of `Update` at `unode`: candidate, swap, increment (R167). -/
def Tree.updateAt (t : Tree) : Option Tree := do
  let c ← t.findCandidate t.unode
  let t1 ← if c ≠ t.unode ∧ c ≠ (t.node t.unode).parent then t.swap t.unode c else some t
  some (t1.put t1.unode { t1.node t1.unode with weight := (t1.node t1.unode).weight + 1#64 })

/-- The walk of `Update` from `unode` to the root (R167). -/
def Tree.climb : Nat → Tree → Option Tree
  | 0, _ => none
  | fuel + 1, t => do
    let t1 ← t.updateAt
    if t1.unode = t1.root then some t1
    else Tree.climb fuel { t1 with unode := (t1.node t1.unode).parent }

/-- `Update(n)` (R167). -/
def Tree.update (t : Tree) (n : Link) : Option Tree := Tree.climb Config.nodeFileSize { t with unode := n }

/-- The loop of `Path`: the bits from `n` up to the root, the bit nearest the root first. -/
def Tree.pathFrom (t : Tree) : Nat → Link → List Bool → Option (List Bool)
  | 0, _, _ => none
  | fuel + 1, n, bits =>
    if n = t.root then some bits else Tree.pathFrom t fuel (t.node n).parent (t.isRight n :: bits)

/-- `Path(n)`: the code of a node, root end first (R168). -/
def Tree.path (t : Tree) (n : Link) : Option (List Bool) := t.pathFrom Config.nodeFileSize n []

/-- The result of a tree operation, or `ERR_HUF_TREE_CORRUPT` (R269). -/
def orCorrupt {α : Type} : Option α → Run α
  | some a => .ok a
  | none => .error (.err .hufTreeCorrupt)

end Sys2Proof.Machine
end

