-- ==== Sys2Proof/Machine/HufDecode.lean ====
section
/-! DEFINITION. The Huffman decoder (44_huffman_decoder.md): the meanings of OUT, RAW, CODE and ESC, and the emission
of a symbol. -/

namespace Sys2Proof.Machine

/-- OUT: bit 3 chooses pass-through or the coded payload; bits 7:4 are ignored, and `pad` too in pass-through (R95,
R200, R202). The pass-through cursor is `rb` (log entry 10). -/
def runOut (_reserved : BitVec 4) (huf : Bool) (pad : BitVec 3) (s : State) : Run State :=
  let s := s.clear .out
  if huf then
    let t := s.tree.init
    .ok { s with seq := .hufBits, tree := t, huf := { s.huf with pad := pad, rb := 0#64, ri := 0#4, dcur := t.root } }
  else .ok { s with seq := .hufRaw, huf := { s.huf with rb := 0#64 } }

/-- RAW: one pass-through byte is appended (R96, R202). -/
def runRaw (x : Byte) (s : State) : Run State := do
  let t ← s.append .out x
  .ok { t with huf := { t.huf with rb := t.huf.rb + 1#64 } }

/-- CODE: one bit is taken and steers one descent step, right if 1 (R97, R203). -/
def runCode (b : Bool) (s : State) : Run State :=
  let child := if b then (s.tree.node s.huf.dcur).right else (s.tree.node s.huf.dcur).left
  if child = nilLink then .error (.err .hufDecAbsentChild)
  else .ok { s with huf := { s.huf.takeBit with dcur := child } }

/-- ESC: eight bits are taken as a new symbol, which is appended and introduced; the tree is updated from the old NYT
node and the descent restarts (R98, R204). -/
def runEsc (v : Byte) (s : State) : Run State :=
  if s.tree.symOf v ≠ nilLink then .error (.err .hufDecDupLiteral)
  else do
    let t ← s.append .out v
    let p ← orCorrupt (t.tree.split v)
    let u ← orCorrupt (p.1.update p.2)
    .ok { t with tree := u, huf := { t.huf.takeBits 8 with dcur := u.root } }

/-- The symbol step: the leaf's value is appended, the tree updated from the leaf, the descent restarted. It consumes
no element (R205). -/
def State.emitSymbol (s : State) : Run State := do
  let t ← s.append .out (s.tree.node s.huf.dcur).value
  let u ← orCorrupt (t.tree.update s.huf.dcur)
  .ok { t with tree := u, huf := { t.huf with dcur := u.root } }

/-- OUT (R200). -/
def execOut (reserved : BitVec 4) (huf : Bool) (pad : BitVec 3) (s : State) : Host.Outcome State Fault Refusal :=
  s.outcome (runOut reserved huf pad s)

/-- RAW (R202). -/
def execRaw (x : Byte) (s : State) : Host.Outcome State Fault Refusal := s.outcome (runRaw x s)

/-- CODE (R203). -/
def execCode (b : Bool) (s : State) : Host.Outcome State Fault Refusal := s.outcome (runCode b s)

/-- ESC (R204). -/
def execEsc (v : Byte) (s : State) : Host.Outcome State Fault Refusal := s.outcome (runEsc v s)

end Sys2Proof.Machine
end

