-- ==== Sys2Proof/Machine/RleDecode.lean ====
section
/-! DEFINITION. The RLE decoder (41_rle_decoder.md): the meanings of SET, DIMW, DIMH, GRP, CNT and LIT, the two
reconstructions, and the end of the frame. -/

namespace Sys2Proof.Machine

/-- `value` at the `k` OUT addresses from `a` on (R146). -/
def State.fill (a : Nat) (value : Byte) : Nat → State → Run State
  | 0, s => .ok s
  | k + 1, s => do
    let t ← s.memWrite .out a value
    State.fill (a + 1) value k t

/-- `WriteH(count, value)`: horizontal reconstruction; an overlong run is truncated (R146). -/
def State.writeH (s : State) (count : Nat) (value : Byte) : Run State := do
  let k := min count (s.dec.dN.toNat - s.dec.written.toNat)
  let t ← State.fill s.dec.written.toNat value k s
  .ok { t with dec := { t.dec with written := t.dec.written + BitVec.ofNat 64 k } }

/-- One pixel of the vertical reconstruction and the advance of its cursor (R148). -/
def State.writePixelV (s : State) (value : Byte) : Run State := do
  let t ← s.memWrite .out (s.dec.vy.toNat * s.dec.dW.toNat + s.dec.vx.toNat) value
  let vy := t.dec.vy + 1#64
  if vy = t.dec.dH then
    .ok { t with dec := { t.dec with vy := 0#64, vx := t.dec.vx + 1#64, written := t.dec.written + 1#64 } }
  else .ok { t with dec := { t.dec with vy := vy, written := t.dec.written + 1#64 } }

/-- `k` pixels of the vertical reconstruction (R148). -/
def State.writePixelsV (value : Byte) : Nat → State → Run State
  | 0, s => .ok s
  | k + 1, s => do
    let t ← s.writePixelV value
    State.writePixelsV value k t

/-- `WriteV(count, value)`: vertical reconstruction; an overlong run is a fault (R148, R250). -/
def State.writeV (s : State) (count : Nat) (value : Byte) : Run State :=
  if s.dec.dN.toNat - s.dec.written.toNat < count then .error (.err .rleDecVertOverrun)
  else State.writePixelsV value count s

/-- A pair `(count, value)` written in the frame's scan direction (R145). -/
def State.writePair (s : State) (count : Nat) (value : Byte) : Run State :=
  if s.dec.dScan then s.writeH count value else s.writeV count value

/-- SET: the settings byte is taken into the header registers; the header must be whole (R141). -/
def runSet (scan model : Bool) (kw kh : BitVec 3) (s : State) : Run State :=
  if s.inputLen < 1 + (kw.toNat + 1) + (kh.toNat + 1) then .error (.err .rleDecShortHeader)
  else
    .ok { s with
      seq := .rleDimW,
      dec := { s.dec with
        dScan := scan, dModel := model, dKw := kw.setWidth 4 + 1#4, dKh := kh.setWidth 4 + 1#4 } }

/-- DIMW: the width register (R141). -/
def runDimw (_k : BitVec 3) (w : Word) (s : State) : Run State :=
  .ok { s with seq := .rleDimH, dec := { s.dec with dW := w } }

/-- DIMH: the height register ends `ParseHeader` (R141); then `CheckHeaderDims` (R142), and the payload begins with no
active group byte and no pair begun (R143). -/
def runDimh (_k : BitVec 3) (h : Word) (s : State) : Run State :=
  if s.dec.dW = 0#64 ∨ h = 0#64 then .error (.err .rleDecDimZero)
  else if s.bufCap.toNat < s.dec.dW.toNat * h.toNat then .error (.err .rleDecDimRange)
  else
    .ok { s with
      seq := .rlePayload,
      dec := { s.dec with
        dH := h, rp := BitVec.ofNat 64 (1 + s.dec.dKw.toNat + s.dec.dKh.toNat), gbit := 8#4, written := 0#64,
        vx := 0#64, vy := 0#64, dN := BitVec.ofNat 64 (s.dec.dW.toNat * h.toNat), acc := 0#64, nfrag := false } }

/-- GRP: the group byte becomes the active one (R143). -/
def runGrp (c : Byte) (s : State) : Run State :=
  .ok { s with dec := { s.dec with dG := c, rp := s.dec.rp + 1#64, gbit := 0#4 } }

/-- CNT: one item is consumed and accumulated as a counter fragment (R143, R144). -/
def runCnt (f : Byte) (s : State) : Run State := do
  let d ← DecRegs.accumulate { s.dec with rp := s.dec.rp + 1#64, gbit := s.dec.gbit + 1#4 } f
  .ok { s with dec := d }

/-- LIT: one item is consumed and ends the pair, which is written; the next pair starts with no fragment (R92, R143,
R145). -/
def runLit (v : Byte) (s : State) : Run State := do
  let t ← { s with dec := { s.dec with rp := s.dec.rp + 1#64, gbit := s.dec.gbit + 1#4 } }.writePair s.dec.count v
  .ok { t with dec := { t.dec with acc := 0#64, nfrag := false } }

/-- The end of the pairs: `CheckCount`, then the image is whole (R145, R147, R149). -/
def State.endRle (s : State) : Run State :=
  if s.dec.written.toNat < s.dec.dN.toNat then .error (.err .rleDecShortData)
  else .ok { s with seq := .host, outLen := s.dec.dN }

/-- The results that RLE_DEC writes (R149). -/
def State.rleResults (s : State) : Results :=
  { w := some s.dec.dW, h := some s.dec.dH, flags := some (resultFlags s.dec.dModel s.dec.dScan) }

/-- SET (R141). -/
def execSet (scan model : Bool) (kw kh : BitVec 3) (s : State) : Host.Outcome State Fault Refusal :=
  s.outcome (runSet scan model kw kh s)

/-- DIMW (R141). -/
def execDimw (k : BitVec 3) (w : Word) (s : State) : Host.Outcome State Fault Refusal := s.outcome (runDimw k w s)

/-- DIMH (R141, R142). -/
def execDimh (k : BitVec 3) (h : Word) (s : State) : Host.Outcome State Fault Refusal := s.outcome (runDimh k h s)

/-- GRP (R143). -/
def execGrp (c : Byte) (s : State) : Host.Outcome State Fault Refusal := s.outcome (runGrp c s)

/-- CNT (R144). -/
def execCnt (f : Byte) (s : State) : Host.Outcome State Fault Refusal := s.outcome (runCnt f s)

/-- LIT (R143, R146, R148). -/
def execLit (v : Byte) (s : State) : Host.Outcome State Fault Refusal := s.outcome (runLit v s)

end Sys2Proof.Machine
end

