-- ==== Sys2Proof/Machine/RleEncode.lean ====
section
/-! DEFINITION. The RLE encoder below its scan (40_rle_encoder.md): dimensions, header, group packer, the runs RUN1,
RUN2, RUNN, and the end of the payload. -/

namespace Sys2Proof.Machine

/-- `CheckDims`, for a width and a height given as numbers (R121). -/
def State.checkDims (s : State) (w h : Word) : Run State :=
  if w = 0#64 ∨ h = 0#64 then .error (.err .rleEncDimZero)
  else if w.toNat * h.toNat ≠ s.inputLen then .error (.err .rleEncDimMismatch)
  else .ok { s with enc := { s.enc with eW := w, eH := h, eN := BitVec.ofNat 64 (w.toNat * h.toNat) } }

/-- `EmitHeader`: settings byte, width and height in their minimal byte counts (R123, R124). -/
def State.emitHeader (s : State) : Run State :=
  let kw := byteCount s.enc.eW.toNat
  let kh := byteCount s.enc.eH.toNat
  let settings := settingsByte s.enc.eScan s.enc.eModel (BitVec.ofNat 3 (kw - 1)) (BitVec.ofNat 3 (kh - 1))
  s.appendAll s.dest ([settings] ++ beBytes kw s.enc.eW.toNat ++ beBytes kh s.enc.eH.toNat)

/-- `Flush(dest)`: the group byte, then the staged items (R127). -/
def State.flush (s : State) : Run State := do
  let t ← s.appendAll s.dest (s.enc.g :: s.enc.gbuf.toList.take s.enc.gcnt.toNat)
  .ok { t with enc := { t.enc with g := 0#8, gcnt := 0#4 } }

/-- `Put(dest, c, b)`: stage item `b` with class `c`, writing the group out at 8 items (R127). -/
def State.put (s : State) (c : Bool) (b : Byte) : Run State :=
  let e := s.enc
  let t := { s with
    enc := { e with
      g := if c then e.g ||| (1#8 <<< e.gcnt.toNat) else e.g,
      gbuf := e.gbuf.setIfInBounds e.gcnt.toNat b, gcnt := e.gcnt + 1#4 } }
  if t.enc.gcnt.toNat = Config.groupSize then t.flush else .ok t

/-- `Put` of each byte as a counter fragment (R126). -/
def State.putDigits (s : State) : List Byte → Run State
  | [] => .ok s
  | d :: ds => do
    let t ← s.put true d
    State.putDigits t ds

/-- `EmitRun(dest, n, v)`: the counter digits of `n - 2` when `n ≥ 2`, then the value (R126). -/
def State.emitRun (s : State) (n : Nat) (v : Byte) : Run State := do
  let t ← if 2 ≤ n then s.putDigits (runDigits n) else .ok s
  t.put false v

/-- `Finalise(dest)`: one pad item if a group is open, and the group is written (R128). -/
def State.finalise (s : State) : Run State :=
  if s.enc.gcnt = 0#4 then .ok s
  else do
    let t ← s.put false Config.padLiteral
    if t.enc.gcnt = 0#4 then .ok t else t.flush

/-- RUN1: a run of length 1 into the packer (R91, R126). -/
def runRun1 (v : Byte) (s : State) : Run State := s.emitRun 1 v

/-- RUN2: a run of length 2 into the packer (R91, R126). -/
def runRun2 (v : Byte) (s : State) : Run State := s.emitRun 2 v

/-- RUNN: a run of length `n` into the packer (R91, R126). -/
def runRunn (n : Word) (v : Byte) (s : State) : Run State := s.emitRun n.toNat v

/-- RUN1 (R126). -/
def execRun1 (v : Byte) (s : State) : Host.Outcome State Fault Refusal := s.outcome (runRun1 v s)

/-- RUN2 (R126). -/
def execRun2 (v : Byte) (s : State) : Host.Outcome State Fault Refusal := s.outcome (runRun2 v s)

/-- RUNN (R126). -/
def execRunn (n : Word) (v : Byte) (s : State) : Host.Outcome State Fault Refusal := s.outcome (runRunn n v s)

end Sys2Proof.Machine
end

