-- ==== Sys2Proof/Machine/Engine.lean ====
section
/-! DEFINITION. The sequencing of the element streams: which element a position selects (R85), one turn of a decoder's
or of the encoder scan's loop (R125, R145, R200), and the loop itself. -/

namespace Sys2Proof.Machine

/-- What a turn of a loop does. -/
inductive Turn where
  /-- an element runs -/
  | element (i : Instr)
  /-- the RLE encoder takes one more pixel into the open run (R125) -/
  | extend
  /-- the Huffman decoder emits the leaf it has reached (R205) -/
  | emit
  /-- the loop ends -/
  | stop
deriving DecidableEq, Repr

/-- The element that the selected format reads from a written form. -/
def elementOf (f : Format) (c : Code) : Run Turn :=
  match decode f c with
  | .ok i => .ok (.element i)
  | .error _ => .error (.refuse .undecodable)

/-- The format of the next payload byte of the RLE frame: G without an active group, else by the classifier (R85,
R143). -/
def DecRegs.format (d : DecRegs) : Format := if d.gbit = 8#4 then .g else if d.classifier then .c else .v

/-- The turn of the RLE decoder's payload: the loop ends when the image is full or the frame has no more bytes (R143,
R145). -/
def State.nextRle (s : State) : Run Turn :=
  if s.dec.dN.toNat ≤ s.dec.written.toNat ∨ s.inputLen ≤ s.dec.rp.toNat then .ok .stop
  else do
    let b ← s.inputByte s.dec.rp.toNat
    elementOf s.dec.format (.bytes [b])

/-- The turn of the Huffman decoder's coded payload (R199, R200). -/
def State.nextHuf (s : State) : Run Turn :=
  if s.isEnd then .ok .stop
  else if s.tree.isInternal s.huf.dcur then do
    let v ← s.peekBit s.huf.rb.toNat s.huf.ri.toNat
    match v with
    | none => .ok .stop
    | some b => elementOf .b (.bits [b])
  else if s.huf.dcur = s.tree.nyt then do
    let v ← s.peekBits s.huf.rb.toNat s.huf.ri.toNat 8
    match v with
    | none => .error (.err .hufDecTruncLiteral)
    | some bs => elementOf .l (.bits bs)
  else .ok .emit

/-- The turn of the encoder's scan: the next pixel joins the open run, or the run is written (R125). The encoder makes
its elements; it decodes none. -/
def State.nextScan (s : State) : Run Turn :=
  if s.enc.eT.toNat < s.enc.eN.toNat then do
    let v ← s.pix s.enc.eT.toNat
    if v = s.enc.cur then .ok .extend else .ok (.element (runForm s.enc.cnt s.enc.cur))
  else .ok (.element (runForm s.enc.cnt s.enc.cur))

/-- What the next turn does, by position and decoder state (R85). -/
def State.nextTurn (s : State) : Run Turn :=
  match s.seq with
  | .host => .ok .stop
  | .rleSet =>
    if s.inputLen < 1 then .error (.err .rleDecShortHeader)
    else do
      let b ← s.inputByte 0
      elementOf .s (.bytes [b])
  | .rleDimW => do
    let k := (s.dec.dKw - 1#4).setWidth 3
    let bs ← s.inputBytes 1 (k.toNat + 1)
    elementOf (.dw k) (.bytes bs)
  | .rleDimH => do
    let k := (s.dec.dKh - 1#4).setWidth 3
    let bs ← s.inputBytes (1 + s.dec.dKw.toNat) (k.toNat + 1)
    elementOf (.dh k) (.bytes bs)
  | .rlePayload => s.nextRle
  | .hufOuter =>
    if s.inputLen = 0 then .error (.err .hufDecEmpty)
    else do
      let b ← s.inputByte 0
      elementOf .o (.bytes [b])
  | .hufRaw =>
    if s.payloadLen ≤ s.huf.rb.toNat then .ok .stop
    else do
      let b ← s.inputByte (1 + s.huf.rb.toNat)
      elementOf .x (.bytes [b])
  | .hufBits => s.nextHuf
  | .encScan => s.nextScan
  | .encClose => .ok .stop

/-- An element inside a stream. A host command stands in no stream, and no stream format decodes to one. -/
def runElement (i : Instr) (s : State) : Run State :=
  match i with
  | .set scan model kw kh => runSet scan model kw kh s
  | .dimw k w => runDimw k w s
  | .dimh k h => runDimh k h s
  | .grp c => runGrp c s
  | .cnt f => runCnt f s
  | .lit v => runLit v s
  | .out reserved huf pad => runOut reserved huf pad s
  | .code b => runCode b s
  | .esc v => runEsc v s
  | .raw x => runRaw x s
  | .run1 v => runRun1 v s
  | .run2 v => runRun2 v s
  | .runn n v => runRunn n v s
  | .rleEncH => .error (.refuse .undecodable)
  | .rleEncV => .error (.refuse .undecodable)
  | .rleEncA => .error (.refuse .undecodable)
  | .rleDec => .error (.refuse .undecodable)
  | .hufEnc => .error (.refuse .undecodable)
  | .hufDec => .error (.refuse .undecodable)
  | .diffFwd => .error (.refuse .undecodable)
  | .diffInv => .error (.refuse .undecodable)
  | .compress => .error (.refuse .undecodable)
  | .decompress => .error (.refuse .undecodable)

/-- The open run grows by the pixel at `e_t` (R125). -/
def State.extendRun (s : State) : State :=
  { s with enc := { s.enc with cnt := s.enc.cnt + 1#64, eT := s.enc.eT + 1#64 } }

/-- After the encoder's scan has written a run: the pixel at `e_t` opens the next run, or the payload is to be closed
(R125). Outside the scan nothing follows an element. -/
def State.afterElement (s : State) : Run State :=
  if s.seq = .encScan then
    if s.enc.eT.toNat < s.enc.eN.toNat then do
      let v ← s.pix s.enc.eT.toNat
      .ok { s with enc := { s.enc with cur := v, cnt := 1#64, eT := s.enc.eT + 1#64 } }
    else .ok { s with seq := .encClose }
  else .ok s

/-- The end of a loop: the RLE decoder checks its count (R147), the encoder closes the last group (R128), the Huffman
decoder has nothing left to do (R200). -/
def State.endLoop (s : State) : Run State :=
  match s.seq with
  | .rlePayload => s.endRle
  | .encClose => do
    let t ← s.finalise
    .ok { t with seq := .host }
  | _ => .ok { s with seq := .host }

/-- One turn of the loop that `seq` stands in. -/
def State.turn (s : State) : Run State := do
  let n ← s.nextTurn
  match n with
  | .element i => do
    let t ← runElement i s
    t.afterElement
  | .extend => .ok s.extendRun
  | .emit => s.emitSymbol
  | .stop => s.endLoop

/-- The loop: turns until it has ended. Every command ends within its bound (R272); a statement says so. -/
def runTurns : Nat → State → Run State
  | 0, s => if s.seq = .host then .ok s else .error (.refuse .ranTooLong)
  | fuel + 1, s =>
    if s.seq = .host then .ok s
    else do
      let t ← s.turn
      runTurns fuel t

/-- What a loop that ends as a step of its own completes: RLE_DEC, HUF_DEC, or the one-pass RLE encoder commands (R130,
R149, R200). -/
def State.loopResults (s : State) : Results :=
  match s.seq with
  | .rlePayload => s.rleResults
  | .encClose => { flags := some (resultFlags false s.enc.eScan) }
  | _ => {}

end Sys2Proof.Machine
end

