-- ==== Sys2Proof/Machine/HufEncode.lean ====
section
/-! DEFINITION. The Huffman encoder (43_huffman_encoder.md): bit writer, symbol coding, arbitration. -/

namespace Sys2Proof.Machine

/-- The writer's position after one more bit (R183). It never wraps (R11, R15): at its last value it stays, where
`enc_size` is `2^64`, longer than every input, so that the run ends in pass-through (R79, R183; DEDUCED, log entry 13). -/
def HufRegs.advance (h : HufRegs) : HufRegs :=
  if h.wi ≠ 7#3 then { h with wi := h.wi + 1#3 }
  else if h.wb = BitVec.allOnes 64 then h
  else { h with wi := 0#3, wb := h.wb + 1#64 }

/-- `WriteBit(v)`: a byte not yet written counts as 0; bits past `BUF_CAP` are counted and not stored (R183). -/
def State.writeBit (s : State) (v : Bool) : Run State := do
  let t ←
    if s.huf.wb.toNat < s.bufCap.toNat then do
      let old ← if s.huf.wi = 0#3 then .ok 0#8 else s.memRead .out s.huf.wb.toNat
      s.memWrite .out s.huf.wb.toNat (old ||| ((BitVec.ofBool v).setWidth 8 <<< s.huf.wi.toNat))
    else .ok s
  .ok { t with huf := t.huf.advance }

/-- `WriteBit` of each bit in order. -/
def State.writeBits (s : State) : List Bool → Run State
  | [] => .ok s
  | v :: vs => do
    let t ← s.writeBit v
    State.writeBits t vs

/-- `EmitPath(n)`: the code of a node, root end first (R184). -/
def State.emitPath (s : State) (n : Link) : Run State := do
  let bits ← orCorrupt (s.tree.path n)
  s.writeBits bits

/-- `EmitLiteral(b)`: the 8 bits of a new symbol, most significant first (R185). -/
def State.emitLiteral (s : State) (b : Byte) : Run State := s.writeBits (literalBits b)

/-- `EncodeSymbol(b)` (R186). -/
def State.encodeSymbol (s : State) (b : Byte) : Run State :=
  if s.tree.symOf b = nilLink then do
    let t ← s.emitPath s.tree.nyt
    let p ← orCorrupt (t.tree.split b)
    let u ← State.emitLiteral { t with tree := p.1 } b
    let tree ← orCorrupt (u.tree.update p.2)
    .ok { u with tree := tree }
  else do
    let n := s.tree.symOf b
    let t ← s.emitPath n
    let tree ← orCorrupt (t.tree.update n)
    .ok { t with tree := tree }

/-- The encode loop over the next `k` input bytes from `ip` on (R187). -/
def State.encodeSymbols : Nat → State → Run State
  | 0, s => .ok s
  | k + 1, s => do
    let b ← s.inputByte s.huf.ip.toNat
    let t ← s.encodeSymbol b
    State.encodeSymbols k { t with huf := { t.huf with ip := t.huf.ip + 1#64 } }

/-- `enc_size`: the bytes that hold a written bit (R188). -/
def HufRegs.encSize (h : HufRegs) : Nat := h.wb.toNat + (if h.wi = 0#3 then 0 else 1)

/-- The next `k` input bytes from `i` on, copied to the same addresses of OUT (R190). -/
def State.copyInput : Nat → Nat → State → Run State
  | 0, _, s => .ok s
  | k + 1, i, s => do
    let b ← s.inputByte i
    let t ← s.memWrite .out i b
    State.copyInput k (i + 1) t

/-- `Arbitrate`: the coded form, or the input itself when the coded form is strictly longer (R190). -/
def State.arbitrate (s : State) : Run State :=
  if s.inputLen < s.huf.encSize then do
    let t ← State.copyInput s.inputLen 0 s
    .ok { t with
      huf := { t.huf with wb := BitVec.ofNat 64 s.inputLen, wi := 0#3 }, outLen := BitVec.ofNat 64 s.inputLen,
      resOuter := rawOuter }
  else .ok { s with outLen := BitVec.ofNat 64 s.huf.encSize, resOuter := codedOuter s.huf.wi }

/-- The body of `HUF_ENC` up to its completion: payload in OUT, outer byte in `RES_OUTER` (R181, R187). -/
def State.hufEncBody (s : State) : Run State :=
  if s.inputLen = 0 then .error (.err .hufEncEmpty)
  else do
    let s := s.clear .out
    let t ← State.encodeSymbols s.inputLen
      { s with tree := s.tree.init, huf := { s.huf with wb := 0#64, wi := 0#3, ip := 0#64 } }
    t.arbitrate

end Sys2Proof.Machine
end

