-- ==== Sys2Proof/Machine/Commands.lean ====
section
/-! DEFINITION. The ten host commands (45_commands_pipeline.md): the meanings of RLE_ENC_H, RLE_ENC_V, RLE_ENC_A,
RLE_DEC, HUF_ENC, HUF_DEC, DIFF_FWD, DIFF_INV, COMPRESS and DECOMPRESS. -/

namespace Sys2Proof.Machine

/-- The start of `Scan`: the first pixel opens a run (R125). -/
def State.openScan (s : State) : Run State := do
  let v ← s.pix 0
  .ok { s with seq := .encScan, enc := { s.enc with cur := v, cnt := 1#64, eT := 1#64 } }

/-- `EncodePass(scan, dest)`: one whole RLE frame into `dest` (R122). -/
def State.encodePass (s : State) (scan : Bool) (dest : Space) : Run State := do
  let s := s.clear dest
  let s := { s with
    dest := dest, enc := { s.enc with eScan := scan, eModel := s.argModel, g := 0#8, gcnt := 0#4, eT := 0#64 } }
  let t ← s.emitHeader
  let u ← t.openScan
  runTurns (u.enc.eN.toNat + 2) u

/-- The body of a one-pass RLE encoder command (R129, R134). -/
def State.rleEncBody (scan : Bool) (w h : Word) (s : State) : Run State := do
  let t ← s.checkDims w h
  t.encodePass scan .out

/-- The body of the adaptive RLE encoder: both passes, the shorter frame ends in OUT, a tie goes to vertical; answers
the scan direction kept (R135). -/
def State.rleEncABody (w h : Word) (s : State) : Run (State × Bool) := do
  let t ← s.checkDims w h
  let a ← t.encodePass true .out
  let b ← a.encodePass false .outb
  if b.outbLen.toNat ≤ b.outLen.toNat then .ok ({ b with outMem := b.outbMem, outLen := b.outbLen }, false)
  else .ok (b, true)

/-- The body of `RLE_DEC` (R145). -/
def State.rleDecBody (s : State) : Run State :=
  runTurns (s.inputLen + 4) { s.clear .out with seq := .rleSet }

/-- The body of `HUF_DEC` (R200). -/
def State.hufDecBody (s : State) : Run State :=
  runTurns (8 * s.inputLen + s.bufCap.toNat + 4) { s with seq := .hufOuter }

/-- The loop of `DIFF_FWD` over the next `k` input bytes from `i` on (R223). -/
def State.diffFwdFrom : Nat → Nat → State → Run State
  | 0, _, s => .ok s
  | k + 1, i, s => do
    let x ← s.inputByte i
    let t ← s.append .out (if i = 0 then x else x - s.prev)
    State.diffFwdFrom k (i + 1) { t with prev := x }

/-- The body of `DIFF_FWD` (R223). -/
def State.diffFwdBody (s : State) : Run State := State.diffFwdFrom s.inputLen 0 (s.clear .out)

/-- The loop of `DIFF_INV` over the next `k` input bytes from `i` on (R224). -/
def State.diffInvFrom : Nat → Nat → State → Run State
  | 0, _, s => .ok s
  | k + 1, i, s => do
    let y ← s.inputByte i
    let x := if i = 0 then y else s.prev + y
    let t ← State.append { s with prev := x } .out x
    State.diffInvFrom k (i + 1) t

/-- The body of `DIFF_INV` (R224). -/
def State.diffInvBody (s : State) : Run State := State.diffInvFrom s.inputLen 0 (s.clear .out)

/-- The RLE stage of `COMPRESS`; answers the scan direction of the frame it leaves in OUT (R229). -/
def State.compressRle (s : State) (h : Word) : Run (State × Bool) :=
  if s.argAdaptive then s.rleEncABody s.argW h
  else do
    let t ← s.rleEncBody true s.argW h
    .ok (t, true)

/-- The body of `COMPRESS`: differential if asked for, RLE encoder, Huffman encoder, then the outer byte in front of
the payload (R229). -/
def compressBody (s : State) : Run State :=
  if s.argW = 0#64 ∨ s.inLen = 0#64 then .error (.err .rleEncDimZero)
  else if s.inLen.toNat % s.argW.toNat ≠ 0 then .error (.err .pipeDim)
  else do
    let h := BitVec.ofNat 64 (s.inLen.toNat / s.argW.toNat)
    let x ←
      if s.argModel then do
        let d ← s.diffFwdBody
        .ok d.toMid
      else .ok s
    let f ← x.compressRle h
    let p ← f.1.toMid.hufEncBody
    if p.bufCap.toNat < 1 + p.outLen.toNat then .error (.err .alloc)
    else
      .ok (State.finish
        { p with
          outMem := Memory.ofBytes 0 (p.resOuter :: p.output), outLen := p.outLen + 1#64 }
        { outer := some p.resOuter, flags := some (resultFlags false f.2) })

/-- The body of `DECOMPRESS`: Huffman decoder, RLE decoder, inverse differential if the frame says so (R230). -/
def decompressBody (s : State) : Run State := do
  let f ← s.hufDecBody
  let img ← f.toMid.rleDecBody
  let x ← if img.dec.dModel then img.toMid.diffInvBody else .ok img
  .ok (x.finish img.rleResults)

/-- RLE_ENC_H (R129, R130). -/
def execRleEncH (s : State) : Host.Outcome State Fault Refusal :=
  s.command fun s => do
    let t ← s.rleEncBody true s.argW s.argH
    .ok (t.finish { flags := some (resultFlags false true) })

/-- RLE_ENC_V (R134, R130). -/
def execRleEncV (s : State) : Host.Outcome State Fault Refusal :=
  s.command fun s => do
    let t ← s.rleEncBody false s.argW s.argH
    .ok (t.finish { flags := some (resultFlags false false) })

/-- RLE_ENC_A (R135, R130). -/
def execRleEncA (s : State) : Host.Outcome State Fault Refusal :=
  s.command fun s => do
    let t ← s.rleEncABody s.argW s.argH
    .ok (t.1.finish { flags := some (resultFlags false t.2) })

/-- RLE_DEC (R145, R149). -/
def execRleDec (s : State) : Host.Outcome State Fault Refusal :=
  s.command fun s => do
    let t ← s.rleDecBody
    .ok (t.finish t.rleResults)

/-- HUF_ENC (R187, R190). -/
def execHufEnc (s : State) : Host.Outcome State Fault Refusal :=
  s.command fun s => do
    let t ← s.hufEncBody
    .ok (t.finish { outer := some t.resOuter })

/-- HUF_DEC (R200). -/
def execHufDec (s : State) : Host.Outcome State Fault Refusal :=
  s.command fun s => do
    let t ← s.hufDecBody
    .ok (t.finish {})

/-- DIFF_FWD (R223). -/
def execDiffFwd (s : State) : Host.Outcome State Fault Refusal :=
  s.command fun s => do
    let t ← s.diffFwdBody
    .ok (t.finish {})

/-- DIFF_INV (R224). -/
def execDiffInv (s : State) : Host.Outcome State Fault Refusal :=
  s.command fun s => do
    let t ← s.diffInvBody
    .ok (t.finish {})

/-- COMPRESS (R229). -/
def execCompress (s : State) : Host.Outcome State Fault Refusal := s.command compressBody

/-- DECOMPRESS (R230). -/
def execDecompress (s : State) : Host.Outcome State Fault Refusal := s.command decompressBody

end Sys2Proof.Machine
end

