-- ==== Sys2Proof/Machine/Dispatch.lean ====
section
/-! DEFINITION. One arm per instruction. -/

namespace Sys2Proof.Machine

def exec (i : Instr) (s : State) : Host.Outcome State Fault Refusal :=
  match i with
  | .set scan model kw kh => Sys2Proof.Machine.execSet scan model kw kh s
  | .dimw k w => Sys2Proof.Machine.execDimw k w s
  | .dimh k h => Sys2Proof.Machine.execDimh k h s
  | .grp c => Sys2Proof.Machine.execGrp c s
  | .cnt f => Sys2Proof.Machine.execCnt f s
  | .lit v => Sys2Proof.Machine.execLit v s
  | .out reserved huf pad => Sys2Proof.Machine.execOut reserved huf pad s
  | .code b => Sys2Proof.Machine.execCode b s
  | .esc v => Sys2Proof.Machine.execEsc v s
  | .raw x => Sys2Proof.Machine.execRaw x s
  | .run1 v => Sys2Proof.Machine.execRun1 v s
  | .run2 v => Sys2Proof.Machine.execRun2 v s
  | .runn n v => Sys2Proof.Machine.execRunn n v s
  | .rleEncH => Sys2Proof.Machine.execRleEncH s
  | .rleEncV => Sys2Proof.Machine.execRleEncV s
  | .rleEncA => Sys2Proof.Machine.execRleEncA s
  | .rleDec => Sys2Proof.Machine.execRleDec s
  | .hufEnc => Sys2Proof.Machine.execHufEnc s
  | .hufDec => Sys2Proof.Machine.execHufDec s
  | .diffFwd => Sys2Proof.Machine.execDiffFwd s
  | .diffInv => Sys2Proof.Machine.execDiffInv s
  | .compress => Sys2Proof.Machine.execCompress s
  | .decompress => Sys2Proof.Machine.execDecompress s

end Sys2Proof.Machine
end

