-- ==== Sys2Proof/Machine/Step.lean ====
section
/-! DEFINITION. One step: a host access, the write to `CMD` with the whole command it starts being one (R272); or, in
the element-by-element view, one turn of a stream (log entry 3). -/

namespace Sys2Proof.Machine

/-- A write of `c` to `CMD` (R21, R216). -/
def State.writeCmd (s : State) (c : Byte) : Host.Outcome State Fault Refusal :=
  match decode .cmd (.bytes [c]) with
  | .ok i => exec i { s with cmd := c }
  | .error _ => .next (State.raise { s with cmd := c } .badCmd)

/-- One host access (R21 to R26, R43). -/
def State.access (s : State) (a : HostAccess) : Host.Outcome State Fault Refusal :=
  match a with
  | .writeIn addr b => s.outcome (s.memWrite .inp addr.toNat b)
  | .writeInLen n => .next { s with inLen := n }
  | .writeArgW w => .next { s with argW := w }
  | .writeArgH h => .next { s with argH := h }
  | .writeArgFlags f => .next { s with argFlags := f }
  | .writeCmd c => s.writeCmd c

/-- Between commands: the first pending host access, or nothing (R271: nothing runs until the host writes `CMD`). -/
def State.hostStep (s : State) : Host.Outcome State Fault Refusal :=
  match s.pending with
  | [] => .next s
  | a :: rest =>
    if statusBusy s.status then .refused .hostAccessWhileBusy else State.access { s with pending := rest } a

/-- Inside a stream: the element that the position selects, or the turn that takes none. -/
def State.streamStep (s : State) : Host.Outcome State Fault Refusal :=
  match s.nextTurn with
  | .ok (.element i) =>
    match exec i s with
    | .next t => t.outcome t.afterElement
    | .fault f => .fault f
    | .refused r => .refused r
  | .ok .extend => .next s.extendRun
  | .ok .emit => s.outcome s.emitSymbol
  | .ok .stop => s.outcome (s.endLoop.map fun t => t.finish s.loopResults)
  | .error e => s.outcome (.error e)

/-- One step of the machine. -/
def step (s : State) : Host.Outcome State Fault Refusal := if s.seq = .host then s.hostStep else s.streamStep

/-- The state whose very next step runs the instruction of a table word (log entry 12): a command is the host's next
access; the settings byte stands at position 0 of an RLE frame whose other header bytes are 0; a run is the open run of
the RLE encoder's scan with every pixel visited. -/
def State.withFetchWord (s : State) (nbits w : Nat) : State :=
  match decodeTableWord nbits w with
  | some (.set _ _ _ _) =>
    { s with
      seq := .rleSet, src := .inp, inLen := 17#64,
      inMem := Memory.ofBytes 0 (BitVec.ofNat 8 w :: List.replicate 16 0#8) }
  | some (.run1 v) => { s with seq := .encScan, enc := { s.enc with eT := 0#64, eN := 0#64, cnt := 1#64, cur := v } }
  | some (.run2 v) => { s with seq := .encScan, enc := { s.enc with eT := 0#64, eN := 0#64, cnt := 2#64, cur := v } }
  | some (.runn n v) => { s with seq := .encScan, enc := { s.enc with eT := 0#64, eN := 0#64, cnt := n, cur := v } }
  | _ => { s with seq := .host, pending := .writeCmd (BitVec.ofNat 8 w) :: s.pending }

end Sys2Proof.Machine
end

