-- ==== Sys2Proof/Reference.lean ====
section
/-! DEFINITION. What the engines compute, said once more over lists and without registers, cursors or buffers, from the
format rules (R86 to R99, R141 to R148, R186 to R190, R223, R224). The statements compare the machine with these. -/

namespace Sys2Proof.Reference

open Sys2Proof.Machine

/-- The maximal runs of a pixel sequence (R125). -/
def runs : List Byte → List (Nat × Byte)
  | [] => []
  | b :: bs =>
    match runs bs with
    | [] => [(1, b)]
    | (n, v) :: rs => if v = b then (n + 1, v) :: rs else (1, b) :: (n, v) :: rs

/-- The items of a run, each with its class, 1 = counter fragment (R91). -/
def runItems (n : Nat) (v : Byte) : List (Bool × Byte) :=
  (if 2 ≤ n then (runDigits n).map (fun d => (true, d)) else []) ++ [(false, v)]

/-- The classifier bits of a group, bit `i` for item `i` (R64, R89). -/
def classBits : List (Bool × Byte) → Nat
  | [] => 0
  | i :: is => i.1.toNat + 2 * classBits is

/-- A group: the group byte, then its items (R89). -/
def groupBytes (items : List (Bool × Byte)) : List Byte := BitVec.ofNat 8 (classBits items) :: items.map (·.2)

/-- The full groups of an item sequence and the items left over, in at most `fuel` groups. -/
def fullGroups : Nat → List (Bool × Byte) → List Byte × List (Bool × Byte)
  | 0, items => ([], items)
  | fuel + 1, items =>
    if items.length < 8 then ([], items)
    else
      let r := fullGroups fuel (items.drop 8)
      (groupBytes (items.take 8) ++ r.1, r.2)

/-- The payload of an item sequence: full groups, then the open group closed by one pad item (R89, R93). -/
def payload (items : List (Bool × Byte)) : List Byte :=
  let r := fullGroups items.length items
  r.1 ++ (if r.2 = [] then [] else groupBytes (r.2 ++ [(false, Config.padLiteral)]))

/-- The header: settings byte, width and height in minimal byte counts (R86 to R88). -/
def header (scan model : Bool) (w h : Nat) : List Byte :=
  [settingsByte scan model (BitVec.ofNat 3 (byteCount w - 1)) (BitVec.ofNat 3 (byteCount h - 1))] ++
    beBytes (byteCount w) w ++ beBytes (byteCount h) h

/-- The pixels in scan order (R71). -/
def scanOrder (scan : Bool) (w h : Nat) (pixels : List Byte) : List Byte :=
  (List.range (w * h)).map fun t => pixels.getD (scanAddress scan w h t) 0#8

/-- The RLE frame of an image (R86, R122). -/
def rleFrame (scan model : Bool) (w h : Nat) (pixels : List Byte) : List Byte :=
  header scan model w h ++
    payload ((runs (scanOrder scan w h pixels)).flatMap fun r => runItems r.1 r.2)

/-- What the RLE decoder reports (R140). -/
structure Image where
  w : Nat
  h : Nat
  model : Bool
  scan : Bool
  pixels : List Byte
deriving DecidableEq, Repr

/-- The classifiers of a group byte, LSB first (R64). -/
def classifiers (b : Byte) : List Bool :=
  [b.getLsbD 0, b.getLsbD 1, b.getLsbD 2, b.getLsbD 3, b.getLsbD 4, b.getLsbD 5, b.getLsbD 6, b.getLsbD 7]

/-- The pixels of an RLE payload in scan order: the classifiers left of the group, the counter so far, the pixels so
far (R143 to R148). -/
def payloadPixels (scan : Bool) (n : Nat) : List Byte → List Bool → Option Nat → List Byte → Except Err (List Byte)
  | [], _, _, out => if out.length < n then .error .rleDecShortData else .ok out
  | b :: bs, cls, acc, out =>
    if n ≤ out.length then .ok out
    else
      match cls with
      | [] => payloadPixels scan n bs (classifiers b) acc out
      | true :: cs =>
        let a := acc.getD 0
        if 2 ^ 56 ≤ a then .error .rleDecCountOverflow
        else if 2 ^ 64 - 3 < a * 256 + b.toNat then .error .rleDecCountOverflow
        else payloadPixels scan n bs cs (some (a * 256 + b.toNat)) out
      | false :: cs =>
        let count := match acc with
          | none => 1
          | some a => a + 2
        if scan then payloadPixels scan n bs cs none (out ++ List.replicate (min count (n - out.length)) b)
        else if n - out.length < count then .error .rleDecVertOverrun
        else payloadPixels scan n bs cs none (out ++ List.replicate count b)

/-- The image in a frame, for buffers of `cap` bytes (R141 to R149). -/
def rleImage (cap : Nat) (frame : List Byte) : Except Err Image :=
  match frame with
  | [] => .error .rleDecShortHeader
  | s :: rest =>
    let kw := (s.extractLsb' 3 3).toNat + 1
    let kh := (s.extractLsb' 0 3).toNat + 1
    if rest.length < kw + kh then .error .rleDecShortHeader
    else
      let w := unBE (rest.take kw)
      let h := unBE ((rest.drop kw).take kh)
      if w = 0 ∨ h = 0 then .error .rleDecDimZero
      else if cap < w * h then .error .rleDecDimRange
      else
        let scan := s.getLsbD 7
        match payloadPixels scan (w * h) (rest.drop (kw + kh)) [] none [] with
        | .error e => .error e
        | .ok px =>
          .ok { w := w, h := h, model := s.getLsbD 6, scan := scan,
                pixels := if scan then px else scanOrder false h w px }

/-- The bits of one symbol and the tree after it (R186). -/
def symbolCode (t : Tree) (b : Byte) : Option (List Bool × Tree) :=
  if t.symOf b = nilLink then do
    let p ← t.path t.nyt
    let r ← t.split b
    let u ← r.1.update r.2
    some (p ++ literalBits b, u)
  else do
    let p ← t.path (t.symOf b)
    let u ← t.update (t.symOf b)
    some (p, u)

/-- The bit stream of a byte sequence (R187). -/
def streamBits : Tree → List Byte → Option (List Bool)
  | _, [] => some []
  | t, b :: bs => do
    let r ← symbolCode t b
    let rest ← streamBits r.2 bs
    some (r.1 ++ rest)

/-- The number that bits spell, first bit least significant. -/
def bitsValue : List Bool → Nat
  | [] => 0
  | b :: bs => b.toNat + 2 * bitsValue bs

/-- Bits packed into bytes, LSB first, the last byte's unused high bits 0, in at most `fuel` bytes (R65, R99). -/
def packBits : Nat → List Bool → List Byte
  | 0, _ => []
  | fuel + 1, bits =>
    if bits = [] then [] else BitVec.ofNat 8 (bitsValue (bits.take 8)) :: packBits fuel (bits.drop 8)

/-- Outer byte and payload of a byte sequence whose bit stream is `bits` (R188 to R190). -/
def hufFrame (input : List Byte) (bits : List Bool) : Byte × List Byte :=
  if input.length < (bits.length + 7) / 8 then (0x00#8, input)
  else (BitVec.ofNat 8 (8 + (8 - bits.length % 8) % 8), packBits bits.length bits)

/-- The symbols of a coded Huffman payload, in at most `fuel` turns: the tree, the current node, the bits not yet read,
the symbols so far (R198 to R200, R203 to R206). With `pad` not 0 the stop rule holds when `pad - 1` bits are left. -/
def hufSymbols (cap pad : Nat) : Nat → Tree → Link → List Bool → List Byte → Except Err (List Byte)
  | 0, _, _, _, _ => .error .hufTreeCorrupt
  | fuel + 1, t, l, bits, out =>
    if bits.length + 1 = pad then .ok out
    else if t.isInternal l then
      match bits with
      | [] => .ok out
      | b :: rest =>
        let child := if b then (t.node l).right else (t.node l).left
        if child = nilLink then .error .hufDecAbsentChild else hufSymbols cap pad fuel t child rest out
    else if l = t.nyt then
      let v := literalValue (bits.take 8)
      if bits.length < 8 then .error .hufDecTruncLiteral
      else if t.symOf v ≠ nilLink then .error .hufDecDupLiteral
      else if cap ≤ out.length then .error .alloc
      else
        match (t.split v).bind fun p => p.1.update p.2 with
        | none => .error .hufTreeCorrupt
        | some u => hufSymbols cap pad fuel u u.root (bits.drop 8) (out ++ [v])
    else if cap ≤ out.length then .error .alloc
    else
      match t.update l with
      | none => .error .hufTreeCorrupt
      | some u => hufSymbols cap pad fuel u u.root bits (out ++ [(t.node l).value])

/-- The bytes in a Huffman frame, for buffers of `cap` bytes, from the one-node tree `t` (R195 to R206). A turn reads a
bit, reads a literal, or emits a symbol that a bit has led to, so two turns a bit and one more are enough. A coded frame
without payload is a truncated literal (R207): the stop rule needs a last byte (R198). -/
def hufBytes (cap : Nat) (t : Tree) (frame : List Byte) : Except Err (List Byte) :=
  match frame with
  | [] => .error .hufDecEmpty
  | outer :: payload =>
    if outer.getLsbD 3 = false then .ok payload
    else if payload = [] then .error .hufDecTruncLiteral
    else
      hufSymbols cap (outer.extractLsb' 0 3).toNat (16 * payload.length + 1) t t.root (payload.flatMap classifiers) []

/-- The forward differential transform with the byte before the sequence (R223). -/
def diffFrom : Byte → List Byte → List Byte
  | _, [] => []
  | p, x :: xs => (x - p) :: diffFrom x xs

/-- The inverse differential transform with the byte before the sequence (R224). -/
def undiffFrom : Byte → List Byte → List Byte
  | _, [] => []
  | p, y :: ys => (p + y) :: undiffFrom (p + y) ys

end Sys2Proof.Reference
end

