-- ==== Sys2Proof/Safety.lean ====
section
/-! DEFINITION. The terms in which statements speak: what a host may rely on, the invariant of the machine, a valid
Huffman tree (R169 to R173), the inputs of a command (R217). -/

namespace Sys2Proof

/-- The ten host commands (R215). -/
def Instr.isCommand : Instr → Bool
  | .set _ _ _ _ => false
  | .dimw _ _ => false
  | .dimh _ _ => false
  | .grp _ => false
  | .cnt _ => false
  | .lit _ => false
  | .out _ _ _ => false
  | .code _ => false
  | .esc _ => false
  | .raw _ => false
  | .run1 _ => false
  | .run2 _ => false
  | .runn _ _ => false
  | .rleEncH => true
  | .rleEncV => true
  | .rleEncA => true
  | .rleDec => true
  | .hufEnc => true
  | .hufDec => true
  | .diffFwd => true
  | .diffInv => true
  | .compress => true
  | .decompress => true

namespace Machine

/-- The input of a command: `IN[0 .. IN_LEN-1]`. -/
def State.input (s : State) : List Byte := s.bytes .inp s.inLen.toNat

/-- The state after the host has written `bs` to `IN[0 ..]` and their number to `IN_LEN` (R275). -/
def State.feed (s : State) (bs : List Byte) : State :=
  { s with inMem := Memory.ofBytes 0 bs, inLen := BitVec.ofNat 64 bs.length }

/-- The command has succeeded (R22, R23). -/
abbrev State.succeeded (s : State) : Prop := s.status = statusOk ∧ s.err = 0#8

/-- The command has failed with `e` (R252). -/
abbrev State.failedWith (s : State) (e : Err) : Prop := s.status = statusFailed ∧ s.err = e.code ∧ s.outLen = 0#64

/-- All stored addresses lie below `n`. -/
abbrev Memory.within (m : Memory) (n : Nat) : Prop := ∀ c ∈ m, c.1 < n

/-- The four memories are in canonical form and hold nothing at or above `BUF_CAP` (R43). -/
abbrev State.memoriesSound (s : State) : Prop :=
  (s.inMem.wf ∧ s.outMem.wf ∧ s.outbMem.wf ∧ s.midMem.wf) ∧
  (s.inMem.within s.bufCap.toNat ∧ s.outMem.within s.bufCap.toNat ∧ s.outbMem.within s.bufCap.toNat ∧
    s.midMem.within s.bufCap.toNat)

/-- What `STATUS`, `ERR` and `OUT_LEN` can show between commands (R22, R23, R241, R252), and that OUT holds nothing at
or above `OUT_LEN` then. -/
abbrev State.reportSound (s : State) : Prop :=
  ((s.status = 0x00#8 ∧ s.err = 0#8 ∧ s.outLen = 0#64) ∨ (s.status = statusOk ∧ s.err = 0#8) ∨
    (s.status = statusFailed ∧ s.err ≠ 0#8 ∧ s.err.toNat ≤ 17 ∧ s.outLen = 0#64)) ∧
  s.outMem.within s.outLen.toNat

/-- Inside an RLE frame's payload the counts stand to each other as R32 and R148 say. -/
abbrev State.payloadSound (s : State) : Prop :=
  1 ≤ s.dec.dN.toNat ∧ s.dec.dN.toNat = s.dec.dW.toNat * s.dec.dH.toNat ∧ s.dec.dN.toNat ≤ s.bufCap.toNat ∧
  s.dec.written.toNat ≤ s.dec.dN.toNat ∧
  (s.dec.dScan = false →
    s.dec.written.toNat = s.dec.vx.toNat * s.dec.dH.toNat + s.dec.vy.toNat ∧ s.dec.vy.toNat < s.dec.dH.toNat)

/-- Between SET and the end of the header the frame is known to hold the whole header (R141). -/
abbrev State.headerSound (s : State) : Prop :=
  (1 ≤ s.dec.dKw.toNat ∧ s.dec.dKw.toNat ≤ 8) ∧ (1 ≤ s.dec.dKh.toNat ∧ s.dec.dKh.toNat ≤ 8) ∧
  1 + s.dec.dKw.toNat + s.dec.dKh.toNat ≤ s.inputLen

/-- During a scan the pixel count is that of the dimensions, and fits (R121). -/
abbrev State.scanSound (s : State) : Prop :=
  s.enc.eN.toNat = s.enc.eW.toNat * s.enc.eH.toNat ∧ s.enc.eN.toNat ≤ s.bufCap.toNat

/-- The invariant of the machine. -/
abbrev State.Inv (s : State) : Prop :=
  s.memoriesSound ∧ s.bufCap ≠ 0#64 ∧ s.outLen.toNat ≤ s.bufCap.toNat ∧
  (s.status = 0x00#8 ∨ s.status = statusOk ∨ s.status = statusFailed) ∧
  (s.src = .inp ∨ s.src = .mid) ∧ (s.dest = .out ∨ s.dest = .outb) ∧
  (s.seq = .host → s.reportSound) ∧
  (s.seq ≠ .host → s.inputLen ≤ s.bufCap.toNat) ∧
  (s.seq = .rleDimW ∨ s.seq = .rleDimH → s.headerSound) ∧
  (s.seq = .rlePayload → s.payloadSound) ∧
  (s.seq = .encScan → s.scanSound)

/-- The host writes to IN only where IN exists (R43). -/
abbrev HostAccess.inRange (cap : Nat) : HostAccess → Bool
  | .writeIn addr _ => addr.toNat < cap
  | .writeInLen _ => true
  | .writeArgW _ => true
  | .writeArgH _ => true
  | .writeArgFlags _ => true
  | .writeCmd _ => true

/-- The number of symbols the tree has seen (R162). -/
def Tree.seen (t : Tree) : Nat := (List.range 256).countP fun b => t.symOf (BitVec.ofNat 8 b) ≠ nilLink

/-- A slot in use (R33). -/
abbrev Tree.live (t : Tree) (l : Link) : Prop := l.toNat < t.nnodes.toNat

/-- The weight of a slot as a number. -/
abbrev Tree.weightOf (t : Tree) (l : Link) : Nat := (t.node l).weight.toNat

/-- The index of a slot as a number. -/
abbrev Tree.indexOf (t : Tree) (l : Link) : Nat := (t.node l).index.toNat

/-- What holds of the tree after `n` symbols (R160, R162, R163, R169 to R173). -/
structure Tree.Valid (t : Tree) (n : Nat) : Prop where
  /-- R162: `1 + 2d` nodes after `d` distinct symbols -/
  size : t.nnodes.toNat = 1 + 2 * t.seen
  root_slot : t.root = 0#10
  root_parent : (t.node t.root).parent = nilLink
  nyt_live : t.live t.nyt
  nyt_leaf : (t.node t.nyt).left = nilLink ∧ (t.node t.nyt).right = nilLink
  /-- R160, R173: a node has no child or two, which know their parent -/
  children : ∀ l, t.live l →
    ((t.node l).left = nilLink ∧ (t.node l).right = nilLink) ∨
    (t.live (t.node l).left ∧ t.live (t.node l).right ∧ (t.node l).left ≠ (t.node l).right ∧
      (t.node (t.node l).left).parent = l ∧ (t.node (t.node l).right).parent = l)
  /-- every other node hangs under a parent -/
  parents : ∀ l, t.live l → l ≠ t.root →
    t.live (t.node l).parent ∧
      ((t.node (t.node l).parent).left = l ∨ (t.node (t.node l).parent).right = l)
  /-- the parent links lead to the root -/
  rooted : ∃ depth : Link → Nat, depth t.root = 0 ∧
    ∀ l, t.live l → l ≠ t.root → depth l = depth (t.node l).parent + 1
  /-- R170: the indices are the integers from the NYT leaf's to 513 -/
  index_range : ∀ l, t.live l → 514 - t.nnodes.toNat ≤ t.indexOf l ∧ t.indexOf l ≤ 513
  index_unique : ∀ l m, t.live l → t.live m → t.indexOf l = t.indexOf m → l = m
  nyt_index : t.indexOf t.nyt = 514 - t.nnodes.toNat
  /-- R171 -/
  siblings : ∀ l, t.live l → t.isInternal l = true →
    t.indexOf (t.node l).right = t.indexOf (t.node l).left + 1
  /-- R169 -/
  weight_sum : ∀ l, t.live l → t.isInternal l = true →
    t.weightOf l = t.weightOf (t.node l).left + t.weightOf (t.node l).right
  root_weight : t.weightOf t.root = n
  /-- R173 -/
  zero_weight : ∀ l, t.live l → (t.weightOf l = 0 ↔ l = t.nyt)
  /-- R163 -/
  sym_leaf : ∀ b, t.symOf b ≠ nilLink →
    t.live (t.symOf b) ∧ t.symOf b ≠ t.nyt ∧ t.isInternal (t.symOf b) = false ∧ (t.node (t.symOf b)).value = b
  leaf_sym : ∀ l, t.live l → l ≠ t.nyt → t.isInternal l = false → t.symOf (t.node l).value = l

/-- The items staged in the open group, each with its class (R29, R127). -/
def State.openItems (s : State) : List (Bool × Byte) :=
  (List.range s.enc.gcnt.toNat).map fun i => (s.enc.g.getLsbD i, (s.enc.gbuf[i]?).getD 0#8)

/-- The packer holds at most 7 items, its group byte has no bit beyond them, and it writes to OUT or OUTB (R29, R122,
R127). -/
abbrev State.packerSound (s : State) : Prop :=
  s.enc.gcnt.toNat ≤ 7 ∧ s.enc.g.toNat < 2 ^ s.enc.gcnt.toNat ∧ (s.dest = .out ∨ s.dest = .outb)

/-- The RLE frame that the RLE stage of COMPRESS leaves, and its scan direction (R229). -/
def State.stageFrame (s : State) : List Byte × Bool :=
  let w := s.argW.toNat
  let h := s.inLen.toNat / s.argW.toNat
  let x := if s.argModel then Reference.diffFrom 0#8 s.input else s.input
  let fh := Reference.rleFrame true s.argModel w h x
  let fv := Reference.rleFrame false s.argModel w h x
  if s.argAdaptive ∧ fv.length ≤ fh.length then (fv, false) else (fh, true)

/-- Two states agree on the inputs that R217 lists for a command, and on `BUF_CAP` (R232). -/
def sameInputs (i : Instr) (s t : State) : Prop :=
  s.bufCap = t.bufCap ∧ s.inLen = t.inLen ∧ s.input = t.input ∧
  (i = .rleEncH ∨ i = .rleEncV ∨ i = .rleEncA → s.argW = t.argW ∧ s.argH = t.argH ∧ s.argModel = t.argModel) ∧
  (i = .compress → s.argW = t.argW ∧ s.argModel = t.argModel ∧ s.argAdaptive = t.argAdaptive)

/-- Two states agree on what a command has reported: `STATUS`, `ERR`, `OUT_LEN`, the valid bytes of OUT and, after
success, the result registers and the bits of `RES_FLAGS` that R217 lists for it. -/
def sameReport (i : Instr) (s t : State) : Prop :=
  s.status = t.status ∧ s.err = t.err ∧ s.outLen = t.outLen ∧ s.output = t.output ∧
  (s.status = statusOk →
    (i = .hufEnc ∨ i = .compress → s.resOuter = t.resOuter) ∧
    (i = .rleDec ∨ i = .decompress → s.resW = t.resW ∧ s.resH = t.resH ∧ s.resFlags = t.resFlags) ∧
    (i = .rleEncH ∨ i = .rleEncV ∨ i = .rleEncA ∨ i = .compress → s.resFlags.getLsbD 1 = t.resFlags.getLsbD 1))

end Machine

end Sys2Proof
end

