-- ==== Sys2Proof/Certificates/Slice0/Obligations.lean ====
section
/-! DEFINITION. The statements for the provers, from the numbered rules of the spec. -/

open Sys2Proof Sys2Proof.Machine

/-! ### Encodings -/

/-- R87 to R98, R215: decoding the written form of a well-formed instruction gives it back, for every operand value. -/
def Obligations.DecodeOfEncode : Prop :=
  ∀ i : Instr, i.wf = true → decode i.format (encode i) = .ok i

/-- R85 to R98, R215: outside the run forms (whose counters may carry leading zero digits, R92) each written form has
one meaning, and encoding the meaning gives the form back. -/
def Obligations.EncodeOfDecode : Prop :=
  ∀ (f : Format) (c : Code) (i : Instr),
    (∀ k, f ≠ .run k) → decode f c = .ok i → i.wf = true ∧ i.format = f ∧ encode i = c

/-- R92: a run's digits may begin with zeros, which change nothing: prefixing one gives the same run of length at least
2. -/
def Obligations.LeadingZeroDigitsChangeNothing : Prop :=
  ∀ (digits : List Byte) (v : Byte), digits ≠ [] →
    decode (.run (digits.length + 1)) (.bytes (0x00#8 :: digits ++ [v])) =
      decode (.run digits.length) (.bytes (digits ++ [v]))

/-- Words written out from R87, R88, R91, R95, R98 and R215 decode to what they stand for: `88 01 33 01` is the header
of R124's example, `0B` the outer byte of R194, the payload byte `82` the literal 41 of R66. -/
def Obligations.WordsOfTheSpecDecode : Prop :=
  decode .s (.bytes [0x88#8]) = .ok (.set true false 1#3 0#3) ∧
  decode (.dw 1#3) (.bytes [0x01#8, 0x33#8]) = .ok (.dimw 1#3 307#64) ∧
  decode (.dh 0#3) (.bytes [0x01#8]) = .ok (.dimh 0#3 1#64) ∧
  decode (.run 2) (.bytes [0x01#8, 0x2A#8, 0x09#8]) = .ok (.runn 300#64 0x09#8) ∧
  decode .o (.bytes [0x0B#8]) = .ok (.out 0#4 true 3#3) ∧
  decode .l (.bits ((List.range 8).map (0x82#8).getLsbD)) = .ok (.esc 0x41#8) ∧
  decode .cmd (.bytes [9#8]) = .ok .compress

/-- R215: exactly the `CMD` values 1 to 10 are commands. -/
def Obligations.CommandCodesAreOneToTen : Prop :=
  ∀ c : Byte,
    (1 ≤ c.toNat ∧ c.toNat ≤ 10 → ∃ i, decode .cmd (.bytes [c]) = .ok i ∧ i.isCommand = true) ∧
    (c.toNat = 0 ∨ 10 < c.toNat → decode .cmd (.bytes [c]) = .error (.unknownCommand c))

/-- R16, R126: the digits of a counter spell `n - 2`, are one to eight, and a counter of more than one digit does not
begin with a zero; a run is never more than `n` items. -/
def Obligations.RunDigitsSpellTheCounter : Prop :=
  ∀ n : Nat, 2 ≤ n → n < 2 ^ 64 →
    unBE (runDigits n) = n - 2 ∧ 1 ≤ (runDigits n).length ∧ (runDigits n).length ≤ 8 ∧
    (runDigits n).length + 1 ≤ n ∧
    (1 < (runDigits n).length → (runDigits n).headD 0#8 ≠ 0x00#8)

/-! ### Steps -/

/-- R21, R272: a write to `CMD` that is the next host access runs the command it names, whole, in one step. -/
def Obligations.StepRunsTheWrittenCommand : Prop :=
  ∀ (s : State) (c : Byte) (rest : List HostAccess) (i : Instr),
    s.seq = .host → statusBusy s.status = false → s.pending = .writeCmd c :: rest →
    decode .cmd (.bytes [c]) = .ok i →
    step s = exec i { s with pending := rest, cmd := c }

/-- In the element-by-element view, which is the model's choice (log entry 3: a command of R272 is one step), the byte at
the decoder's cursor, decoded in the format that R85 has its position select, is the instruction that the step runs. The
positions: settings byte, payload of an RLE frame, outer byte, pass-through (whose cursor `rb` is log entry 10). -/
def Obligations.StepRunsTheByteAtTheCursor : Prop :=
  ∀ (s : State) (a : Nat) (f : Format) (i : Instr),
    a < s.inputLen → a < s.bufCap.toNat →
    ((s.seq = .rleSet ∧ a = 0 ∧ f = .s) ∨
      (s.seq = .rlePayload ∧ a = s.dec.rp.toNat ∧ s.dec.written.toNat < s.dec.dN.toNat ∧
        f = (if s.dec.gbit = 8#4 then .g else if s.dec.dG.getLsbD s.dec.gbit.toNat then .c else .v)) ∨
      (s.seq = .hufOuter ∧ a = 0 ∧ f = .o) ∨
      (s.seq = .hufRaw ∧ a = 1 + s.huf.rb.toNat ∧ f = .x)) →
    decode f (.bytes [s.peek s.src a]) = .ok i →
    step s = exec i s

/-- In the element-by-element view, which is the model's choice (log entry 3), the step after the settings byte runs the
width field, then the height field, read from the bytes that R141 gives them. -/
def Obligations.StepRunsTheDimensionFields : Prop :=
  ∀ (s : State) (k : BitVec 3) (i : Instr) (a : Nat),
    a + k.toNat < s.bufCap.toNat →
    (s.seq = .rleDimW → s.dec.dKw.toNat = k.toNat + 1 → a = 1 →
      decode (.dw k) (.bytes ((List.range (k.toNat + 1)).map fun j => s.peek s.src (a + j))) = .ok i →
      step s = exec i s) ∧
    (s.seq = .rleDimH → s.dec.dKh.toNat = k.toNat + 1 → a = 1 + s.dec.dKw.toNat →
      decode (.dh k) (.bytes ((List.range (k.toNat + 1)).map fun j => s.peek s.src (a + j))) = .ok i →
      step s = exec i s)

/-- In the element-by-element view, which is the model's choice (log entry 3): in a coded payload that has not ended, at
an internal node, the step runs the code bit at the cursor, the move to the next byte being made first when 8 bits of
this one are taken (R196, R200, R203). -/
def Obligations.StepRunsTheCodeBitAtTheCursor : Prop :=
  ∀ (s : State) (j k : Nat),
    s.seq = .hufBits → s.isEnd = false → s.tree.isInternal s.huf.dcur = true →
    (j, k) = (if s.huf.ri.toNat = 8 then (s.huf.rb.toNat + 1, 0) else (s.huf.rb.toNat, s.huf.ri.toNat)) →
    j + 1 < s.inputLen → j + 1 < s.bufCap.toNat →
    step s = exec (.code ((s.peek s.src (1 + j)).getLsbD k)) s

/-- In the element-by-element view, which is the model's choice (log entry 3): at the NYT leaf the step runs the literal
spelled by the 8 bits from the cursor on, most significant first; with fewer than 8 bits left it raises
`ERR_HUF_DEC_TRUNC_LITERAL` (R196, R197, R200, R204). -/
def Obligations.StepRunsTheLiteralAtTheCursor : Prop :=
  ∀ s : State,
    s.seq = .hufBits → s.isEnd = false → s.tree.isInternal s.huf.dcur = false → s.huf.dcur = s.tree.nyt →
    s.huf.ri.toNat ≤ 8 → s.inputLen ≤ s.bufCap.toNat →
    (8 * s.huf.rb.toNat + s.huf.ri.toNat + 8 ≤ 8 * (s.inputLen - 1) →
      step s = exec
        (.esc (literalValue ((List.range 8).map fun i =>
          (s.peek s.src (1 + (8 * s.huf.rb.toNat + s.huf.ri.toNat + i) / 8)).getLsbD
            ((8 * s.huf.rb.toNat + s.huf.ri.toNat + i) % 8)))) s) ∧
    (8 * (s.inputLen - 1) < 8 * s.huf.rb.toNat + s.huf.ri.toNat + 8 →
      step s = .next (s.raise .hufDecTruncLiteral))

/-- The turns of R125's scan as steps. That they are steps, and the position behind the last run, are the model's choice
(log entry 3). A pixel equal to `cur` joins the open run; another pixel has the open run written in its form and opens the
next run; when every pixel is visited the open run is written and the payload is then to be closed. A run that does not
fit raises its fault and ends the scan. -/
def Obligations.StepRunsTheOpenRun : Prop :=
  ∀ (s : State) (a : Nat), s.seq = .encScan → (s.src = .inp ∨ s.src = .mid) → (s.dest = .out ∨ s.dest = .outb) →
    a = scanAddress s.enc.eScan s.enc.eW.toNat s.enc.eH.toNat s.enc.eT.toNat →
    (s.enc.eT.toNat < s.enc.eN.toNat → a < s.bufCap.toNat → s.peek s.src a = s.enc.cur →
      step s = .next { s with enc := { s.enc with cnt := s.enc.cnt + 1#64, eT := s.enc.eT + 1#64 } }) ∧
    (∀ t, exec (runForm s.enc.cnt s.enc.cur) s = .next t → t.seq = .encScan →
      (s.enc.eT.toNat < s.enc.eN.toNat → a < s.bufCap.toNat → s.peek s.src a ≠ s.enc.cur →
        step s = .next
          { t with enc := { t.enc with cur := s.peek s.src a, cnt := 1#64, eT := s.enc.eT + 1#64 } }) ∧
      (s.enc.eN.toNat ≤ s.enc.eT.toNat → step s = .next { t with seq := .encClose })) ∧
    (∀ e, exec (runForm s.enc.cnt s.enc.cur) s = .next (s.raise e) →
      (s.enc.eT.toNat < s.enc.eN.toNat → a < s.bufCap.toNat → s.peek s.src a ≠ s.enc.cur →
        step s = .next (s.raise e)) ∧
      (s.enc.eN.toNat ≤ s.enc.eT.toNat → step s = .next (s.raise e)))

/-- R216, R242: a `CMD` value that is no command raises `ERR_BAD_CMD` before any other test; `CMD` still holds it. -/
def Obligations.UnknownCommandIsBadCmd : Prop :=
  ∀ (s : State) (c : Byte) (rest : List HostAccess),
    s.seq = .host → statusBusy s.status = false → s.pending = .writeCmd c :: rest →
    (c.toNat = 0 ∨ 10 < c.toNat) →
    ∃ t, step s = .next t ∧ t.failedWith .badCmd ∧ t.err = 1#8 ∧ t.cmd = c ∧ t.inMem = s.inMem ∧
      t.inLen = s.inLen ∧ t.argW = s.argW ∧ t.argH = s.argH ∧ t.argFlags = s.argFlags ∧ t.pending = rest

/-- R24 to R26, R43: a host write changes the register or the byte of IN it names and nothing else. R271: without a
pending host access a step changes nothing. That a write to an address of IN at or above `BUF_CAP`, which by R43 does not
exist, stops with the fault `noSuchAddress` is the model's choice (log entry 17). -/
def Obligations.HostWritesChangeOnlyTheirTarget : Prop :=
  (∀ s : State, s.seq = .host → s.pending = [] → step s = .next s) ∧
  ∀ (s : State) (a : HostAccess) (rest : List HostAccess),
    s.seq = .host → statusBusy s.status = false → s.pending = a :: rest →
    (∀ n, a = .writeInLen n → step s = .next { s with pending := rest, inLen := n }) ∧
    (∀ w, a = .writeArgW w → step s = .next { s with pending := rest, argW := w }) ∧
    (∀ h, a = .writeArgH h → step s = .next { s with pending := rest, argH := h }) ∧
    (∀ f, a = .writeArgFlags f → step s = .next { s with pending := rest, argFlags := f }) ∧
    (∀ (x : Word) (b : Byte), a = .writeIn x b →
      (x.toNat < s.bufCap.toNat →
        ∃ t, step s = .next t ∧ { t with inMem := s.inMem } = { s with pending := rest } ∧
          t.peek .inp x.toNat = b ∧ ∀ y, y ≠ x.toNat → t.peek .inp y = s.peek .inp y) ∧
      (s.bufCap.toNat ≤ x.toNat → step s = .fault .noSuchAddress))

/-! ### Reset, faults, command start -/

/-- R271: what power-on reset leaves in the registers that the rule gives a value. The other fields are the model's
choice (log entry 1) and are not stated. -/
def Obligations.ResetRegisters : Prop :=
  State.reset.cmd = 0#8 ∧ State.reset.status = 0x00#8 ∧ State.reset.err = 0#8 ∧ State.reset.outLen = 0#64

/-- The invariant holds after reset; the parts of it about `BUF_CAP` rest on the model's choice (log entry 4). -/
def Obligations.ResetHasTheInvariant : Prop := State.reset.Inv

/-- R252, R241: `raise F` leaves `ERR` = the code of `F`, `OUT_LEN` = 0, `STATUS` = 0x02 and no output, and leaves IN,
`IN_LEN`, `ARG_*` and `CMD` unchanged. The codes are 1 to 17, one per fault, in the order of R241's table. -/
def Obligations.RaiseSetsTheFault : Prop :=
  (∀ (s : State) (e : Err),
    (s.raise e).err = e.code ∧ (s.raise e).outLen = 0#64 ∧ (s.raise e).status = 0x02#8 ∧ (s.raise e).output = [] ∧
    (s.raise e).inMem = s.inMem ∧ (s.raise e).inLen = s.inLen ∧ (s.raise e).argW = s.argW ∧
    (s.raise e).argH = s.argH ∧ (s.raise e).argFlags = s.argFlags ∧ (s.raise e).cmd = s.cmd) ∧
  [Err.badCmd, .rleEncDimZero, .rleEncDimMismatch, .alloc, .rleDecShortHeader, .rleDecDimZero, .rleDecDimRange,
    .rleDecCountOverflow, .rleDecVertOverrun, .rleDecShortData, .hufEncEmpty, .hufDecEmpty, .hufDecTruncLiteral,
    .hufDecAbsentChild, .hufDecDupLiteral, .hufTreeCorrupt, .pipeDim].map (fun e => e.code.toNat) =
    (List.range 17).map (· + 1)

/-- R216, R253: every command first raises `ERR_ALLOC` when `IN_LEN > BUF_CAP`, before its own tests. -/
def Obligations.OverlongInputIsAllocFault : Prop :=
  ∀ (i : Instr) (s : State), i.isCommand = true → s.bufCap.toNat < s.inLen.toNat →
    exec i s = .next (s.raise .alloc)

/-- R121, R229, R181, R195: the tests on the arguments that the commands make first. A zero dimension wins over a
mismatch; COMPRESS refuses an empty input and a length that its width does not divide; the Huffman engines refuse an
empty input. -/
def Obligations.ArgumentTestsRaiseTheirFaults : Prop :=
  ∀ s : State, s.inLen.toNat ≤ s.bufCap.toNat →
    (∀ i, i = .rleEncH ∨ i = .rleEncV ∨ i = .rleEncA →
      (s.argW = 0#64 ∨ s.argH = 0#64 → exec i s = .next (s.raise .rleEncDimZero)) ∧
      (s.argW ≠ 0#64 → s.argH ≠ 0#64 → s.argW.toNat * s.argH.toNat ≠ s.inLen.toNat →
        exec i s = .next (s.raise .rleEncDimMismatch))) ∧
    (s.argW = 0#64 ∨ s.inLen = 0#64 → exec .compress s = .next (s.raise .rleEncDimZero)) ∧
    (s.argW ≠ 0#64 → s.inLen ≠ 0#64 → s.inLen.toNat % s.argW.toNat ≠ 0 →
      exec .compress s = .next (s.raise .pipeDim)) ∧
    (s.inLen = 0#64 → exec .hufEnc s = .next (s.raise .hufEncEmpty)) ∧
    (s.inLen = 0#64 → exec .hufDec s = .next (s.raise .hufDecEmpty)) ∧
    (s.inLen = 0#64 → exec .decompress s = .next (s.raise .hufDecEmpty)) ∧
    (s.inLen = 0#64 → exec .rleDec s = .next (s.raise .rleDecShortHeader))

/-! ### Elements of the RLE frame -/

/-- R141, R246: SET takes its fields into the header registers when the frame holds the whole header, else it raises
`ERR_RLE_DEC_SHORT_HEADER`. Which part of ParseHeader is SET's, and the next position, are the model's choice (log
entry 3). -/
def Obligations.SetReadsTheSettings : Prop :=
  ∀ (s : State) (scan model : Bool) (kw kh : BitVec 3),
    (kw.toNat + kh.toNat + 3 ≤ s.inputLen →
      ∃ t, exec (.set scan model kw kh) s = .next t ∧
        { t with seq := s.seq, dec := s.dec } = s ∧ t.seq = .rleDimW ∧
        { t.dec with dScan := s.dec.dScan, dModel := s.dec.dModel, dKw := s.dec.dKw, dKh := s.dec.dKh } = s.dec ∧
        t.dec.dScan = scan ∧ t.dec.dModel = model ∧ t.dec.dKw.toNat = kw.toNat + 1 ∧
        t.dec.dKh.toNat = kh.toNat + 1) ∧
    (s.inputLen < kw.toNat + kh.toNat + 3 →
      exec (.set scan model kw kh) s = .next (s.raise .rleDecShortHeader))

/-- R141, R142, R143: DIMW sets the width; DIMH raises on a zero dimension and on an image larger than `BUF_CAP`, else
it sets the height and the pixel count, puts the cursor behind the header and begins the payload. Which part of
ParseHeader and CheckHeaderDims is whose, and the next positions, are the model's choice (log entry 3). -/
def Obligations.DimensionsBeginThePayload : Prop :=
  ∀ (s : State) (k : BitVec 3) (x : Word),
    exec (.dimw k x) s = .next { s with seq := .rleDimH, dec := { s.dec with dW := x } } ∧
    (s.dec.dW = 0#64 ∨ x = 0#64 → exec (.dimh k x) s = .next (s.raise .rleDecDimZero)) ∧
    (s.dec.dW ≠ 0#64 → x ≠ 0#64 → s.bufCap.toNat < s.dec.dW.toNat * x.toNat →
      exec (.dimh k x) s = .next (s.raise .rleDecDimRange)) ∧
    (s.dec.dW ≠ 0#64 → x ≠ 0#64 → s.dec.dW.toNat * x.toNat ≤ s.bufCap.toNat →
      ∃ t, exec (.dimh k x) s = .next t ∧ { t with seq := s.seq, dec := s.dec } = s ∧ t.seq = .rlePayload ∧
        t.dec.dH = x ∧ t.dec.dN.toNat = s.dec.dW.toNat * x.toNat ∧
        t.dec.rp.toNat = 1 + s.dec.dKw.toNat + s.dec.dKh.toNat ∧ t.dec.gbit = 8#4 ∧ t.dec.written = 0#64 ∧
        t.dec.vx = 0#64 ∧ t.dec.vy = 0#64 ∧ t.dec.acc = 0#64 ∧ t.dec.nfrag = false ∧ t.dec.dW = s.dec.dW ∧
        t.dec.dScan = s.dec.dScan ∧ t.dec.dModel = s.dec.dModel ∧ t.dec.dKw = s.dec.dKw ∧
        t.dec.dKh = s.dec.dKh ∧ t.dec.dG = s.dec.dG)

/-- R143: GRP makes its byte the active group and takes one byte of the frame; nothing else changes. -/
def Obligations.GrpOpensAGroup : Prop :=
  ∀ (s : State) (c : Byte),
    exec (.grp c) s = .next { s with dec := { s.dec with dG := c, rp := s.dec.rp + 1#64, gbit := 0#4 } }

/-- R143, R144: CNT shifts its byte into the accumulator when the count still fits, and raises
`ERR_RLE_DEC_COUNT_OVERFLOW` otherwise; nothing but the pair registers and the cursor changes. -/
def Obligations.CntAccumulatesOrOverflows : Prop :=
  ∀ (s : State) (f : Byte),
    (s.dec.acc.toNat < 2 ^ 56 → s.dec.acc.toNat * 256 + f.toNat ≤ 2 ^ 64 - 3 →
      ∃ t, exec (.cnt f) s = .next t ∧ { t with dec := s.dec } = s ∧
        { t.dec with acc := s.dec.acc, nfrag := s.dec.nfrag, rp := s.dec.rp, gbit := s.dec.gbit } = s.dec ∧
        t.dec.acc.toNat = s.dec.acc.toNat * 256 + f.toNat ∧ t.dec.nfrag = true ∧
        t.dec.rp = s.dec.rp + 1#64 ∧ t.dec.gbit = s.dec.gbit + 1#4) ∧
    (2 ^ 56 ≤ s.dec.acc.toNat ∨ 2 ^ 64 - 3 < s.dec.acc.toNat * 256 + f.toNat →
      exec (.cnt f) s = .next (s.raise .rleDecCountOverflow))

/-- R92, R143, R146: LIT in a horizontal frame writes its value at the next `min(count, d_N - written)` addresses of
OUT, where the count is 1 without fragments and the accumulator plus 2 with, and no other byte of any memory. -/
def Obligations.LitWritesAHorizontalRun : Prop :=
  ∀ (s : State) (v : Byte),
    s.dec.dScan = true → s.dec.written.toNat ≤ s.dec.dN.toNat → s.dec.dN.toNat ≤ s.bufCap.toNat →
    ∃ t, exec (.lit v) s = .next t ∧ { t with dec := s.dec, outMem := s.outMem } = s ∧
      { t.dec with rp := s.dec.rp, gbit := s.dec.gbit, acc := s.dec.acc, nfrag := s.dec.nfrag,
                   written := s.dec.written } = s.dec ∧
      t.dec.rp = s.dec.rp + 1#64 ∧ t.dec.gbit = s.dec.gbit + 1#4 ∧ t.dec.acc = 0#64 ∧ t.dec.nfrag = false ∧
      t.dec.written.toNat =
        s.dec.written.toNat +
          min (if s.dec.nfrag then s.dec.acc.toNat + 2 else 1) (s.dec.dN.toNat - s.dec.written.toNat) ∧
      (∀ a, s.dec.written.toNat ≤ a → a < t.dec.written.toNat → t.peek .out a = v) ∧
      (∀ a, a < s.dec.written.toNat ∨ t.dec.written.toNat ≤ a → t.peek .out a = s.peek .out a)

/-- R71, R92, R143, R148, R250: LIT in a vertical frame raises `ERR_RLE_DEC_VERT_OVERRUN` for a run longer than the
pixels left; else it writes its value at the column-major places of the next `count` pixels and no other byte, and the
cursor stays at column `written div d_H`, row `written mod d_H`. -/
def Obligations.LitWritesAVerticalRun : Prop :=
  ∀ (s : State) (v : Byte) (count : Nat),
    s.dec.dScan = false → s.payloadSound → count = (if s.dec.nfrag then s.dec.acc.toNat + 2 else 1) →
    (s.dec.dN.toNat - s.dec.written.toNat < count →
      exec (.lit v) s = .next (s.raise .rleDecVertOverrun)) ∧
    (count ≤ s.dec.dN.toNat - s.dec.written.toNat →
      ∃ t, exec (.lit v) s = .next t ∧ { t with dec := s.dec, outMem := s.outMem } = s ∧
        { t.dec with rp := s.dec.rp, gbit := s.dec.gbit, acc := s.dec.acc, nfrag := s.dec.nfrag,
                     written := s.dec.written, vx := s.dec.vx, vy := s.dec.vy } = s.dec ∧
        t.dec.rp = s.dec.rp + 1#64 ∧ t.dec.gbit = s.dec.gbit + 1#4 ∧ t.dec.acc = 0#64 ∧ t.dec.nfrag = false ∧
        t.dec.written.toNat = s.dec.written.toNat + count ∧
        t.dec.vx.toNat = t.dec.written.toNat / s.dec.dH.toNat ∧
        t.dec.vy.toNat = t.dec.written.toNat % s.dec.dH.toNat ∧
        (∀ p, s.dec.written.toNat ≤ p → p < t.dec.written.toNat →
          t.peek .out (scanAddress false s.dec.dW.toNat s.dec.dH.toNat p) = v) ∧
        (∀ a, (∀ p, s.dec.written.toNat ≤ p → p < t.dec.written.toNat →
            a ≠ scanAddress false s.dec.dW.toNat s.dec.dH.toNat p) →
          t.peek .out a = s.peek .out a))

/-- R91, R126, R127: RUN1, RUN2 and RUNN add the items of the run to those staged in the packer, write each group of 8
with its group byte to the destination and stage the rest; nothing else changes. -/
def Obligations.RunFormsPackTheirItems : Prop :=
  ∀ (s : State) (n : Word) (v : Byte) (items : List (Bool × Byte)) (r : List Byte × List (Bool × Byte)),
    s.packerSound → 1 ≤ n.toNat → items = s.openItems ++ Reference.runItems n.toNat v →
    r = Reference.fullGroups items.length items → (s.len s.dest).toNat + r.1.length ≤ s.bufCap.toNat →
    ∃ t, exec (runForm n v) s = .next t ∧ t.packerSound ∧ t.openItems = r.2 ∧
      (t.len s.dest).toNat = (s.len s.dest).toNat + r.1.length ∧
      t.bytes s.dest (t.len s.dest).toNat = s.bytes s.dest (s.len s.dest).toNat ++ r.1 ∧
      (∀ a, (t.len s.dest).toNat ≤ a → t.peek s.dest a = s.peek s.dest a) ∧
      (∀ sp, sp ≠ s.dest → t.mem sp = s.mem sp ∧ t.len sp = s.len sp) ∧
      { t with enc := s.enc, outMem := s.outMem, outbMem := s.outbMem, outLen := s.outLen, outbLen := s.outbLen } = s ∧
      { t.enc with g := s.enc.g, gcnt := s.enc.gcnt, gbuf := s.enc.gbuf } = s.enc

/-- R17, R127: a run form whose full groups do not fit in the destination raises `ERR_ALLOC`. -/
def Obligations.RunFormsRaiseAllocWhenFull : Prop :=
  ∀ (s : State) (n : Word) (v : Byte) (items : List (Bool × Byte)),
    s.packerSound → 1 ≤ n.toNat → items = s.openItems ++ Reference.runItems n.toNat v →
    (s.len s.dest).toNat ≤ s.bufCap.toNat →
    s.bufCap.toNat < (s.len s.dest).toNat + (Reference.fullGroups items.length items).1.length →
    exec (runForm n v) s = .next (s.raise .alloc)

/-! ### Elements of the Huffman frame, and the tree -/

/-- R95, R161, R200, R202: OUT empties the output; with bit 3 clear it begins the pass-through, with bit 3 set it loads
`pad`, makes the one-node tree (a NYT root of index 513 and weight 0, every symbol absent) and begins the payload at
bit 0 with the root as current node. Bits 7:4 have no part. The model's choices in it: the next positions (log entry 3),
the register `rb` as the cursor of the pass-through (log entry 10), and that OUT's earlier bytes are forgotten (log
entry 18). -/
def Obligations.OutBeginsThePayload : Prop :=
  ∀ (s : State) (reserved : BitVec 4) (pad : BitVec 3),
    (∃ t, exec (.out reserved false pad) s = .next t ∧ t.seq = .hufRaw ∧ t.huf = { s.huf with rb := 0#64 } ∧
      t.outLen = 0#64 ∧ t.outMem = [] ∧
      { t with seq := s.seq, huf := s.huf, outLen := s.outLen, outMem := s.outMem } = s) ∧
    (∃ t, exec (.out reserved true pad) s = .next t ∧ t.seq = .hufBits ∧
      t.huf = { s.huf with pad := pad, rb := 0#64, ri := 0#4, dcur := 0#10 } ∧ t.outLen = 0#64 ∧ t.outMem = [] ∧
      t.tree.root = 0#10 ∧ t.tree.nyt = 0#10 ∧ t.tree.nnodes = 1#10 ∧ (∀ b, t.tree.symOf b = nilLink) ∧
      t.tree.node 0#10 =
        { parent := nilLink, left := nilLink, right := nilLink, index := 513#32, weight := 0#64, value := 0#8 } ∧
      { t with seq := s.seq, huf := s.huf, tree := s.tree, outLen := s.outLen, outMem := s.outMem } = s)

/-- R17, R96, R202: RAW appends its byte to OUT and moves on by one payload byte; with OUT full it raises
`ERR_ALLOC`. That it counts the payload bytes in the register `rb` is the model's choice (log entry 10). -/
def Obligations.RawAppendsItsByte : Prop :=
  ∀ (s : State) (x : Byte),
    (s.outLen.toNat < s.bufCap.toNat →
      ∃ t, exec (.raw x) s = .next t ∧ t.outLen.toNat = s.outLen.toNat + 1 ∧
        t.peek .out s.outLen.toNat = x ∧ (∀ a, a ≠ s.outLen.toNat → t.peek .out a = s.peek .out a) ∧
        t.huf = { s.huf with rb := s.huf.rb + 1#64 } ∧
        { t with huf := s.huf, outLen := s.outLen, outMem := s.outMem } = s) ∧
    (s.bufCap.toNat ≤ s.outLen.toNat → exec (.raw x) s = .next (s.raise .alloc))

/-- R97, R196, R203: CODE takes one bit of the payload and moves to the right child on 1, to the left child on 0; an
absent child raises `ERR_HUF_DEC_ABSENT_CHILD`. -/
def Obligations.CodeDescendsOneStep : Prop :=
  ∀ (s : State) (b : Bool) (child : Link),
    child = (if b then (s.tree.node s.huf.dcur).right else (s.tree.node s.huf.dcur).left) →
    (child = nilLink → exec (.code b) s = .next (s.raise .hufDecAbsentChild)) ∧
    (child ≠ nilLink → s.huf.ri.toNat ≤ 8 → s.huf.rb.toNat + 1 < 2 ^ 64 →
      ∃ t, exec (.code b) s = .next t ∧ t.huf.dcur = child ∧
        8 * t.huf.rb.toNat + t.huf.ri.toNat = 8 * s.huf.rb.toNat + s.huf.ri.toNat + 1 ∧
        1 ≤ t.huf.ri.toNat ∧ t.huf.ri.toNat ≤ 8 ∧ { t with huf := s.huf } = s ∧
        { t.huf with dcur := s.huf.dcur, rb := s.huf.rb, ri := s.huf.ri } = s.huf)

/-- R164, R167, R204: the first literal after OUT makes the tree of R164's example, with the literal's symbol: slot 0
with children slot 1, the NYT leaf of index 511, and slot 2, the symbol's leaf of index 512 and weight 1. -/
def Obligations.FirstLiteralMakesTheFirstSplit : Prop :=
  ∀ (s : State) (pad : BitVec 3) (v : Byte), 1 ≤ s.bufCap.toNat →
    ∃ t u, exec (.out 0#4 true pad) s = .next t ∧ exec (.esc v) t = .next u ∧
      u.outLen = 1#64 ∧ u.output = [v] ∧ u.tree.nnodes = 3#10 ∧ u.tree.nyt = 1#10 ∧ u.tree.root = 0#10 ∧
      u.tree.node 0#10 =
        { parent := nilLink, left := 1#10, right := 2#10, index := 513#32, weight := 1#64, value := 0#8 } ∧
      u.tree.node 1#10 =
        { parent := 0#10, left := nilLink, right := nilLink, index := 511#32, weight := 0#64, value := 0#8 } ∧
      u.tree.node 2#10 =
        { parent := 0#10, left := nilLink, right := nilLink, index := 512#32, weight := 1#64, value := v } ∧
      (∀ b, u.tree.symOf b = if b = v then 2#10 else nilLink) ∧
      u.huf.dcur = 0#10 ∧ u.huf.rb = 0#64 ∧ u.huf.ri = 8#4

/-- R204, R167, R169 to R173: on a valid tree ESC of a new symbol, with room in OUT, completes: the symbol is appended,
gets a leaf, the tree stays valid with one symbol more, and 8 bits are taken; a symbol that has a leaf raises
`ERR_HUF_DEC_DUP_LITERAL`. -/
def Obligations.EscIntroducesItsSymbol : Prop :=
  ∀ (s : State) (v : Byte) (n : Nat),
    s.tree.Valid n → n + 1 < 2 ^ 64 → s.huf.ri.toNat ≤ 8 → s.huf.rb.toNat + 1 < 2 ^ 64 →
    (s.tree.symOf v ≠ nilLink → exec (.esc v) s = .next (s.raise .hufDecDupLiteral)) ∧
    (s.tree.symOf v = nilLink → s.bufCap.toNat ≤ s.outLen.toNat → exec (.esc v) s = .next (s.raise .alloc)) ∧
    (s.tree.symOf v = nilLink → s.outLen.toNat < s.bufCap.toNat →
      ∃ t, exec (.esc v) s = .next t ∧ t.tree.Valid (n + 1) ∧ t.tree.symOf v ≠ nilLink ∧
        (∀ b, b ≠ v → t.tree.symOf b = s.tree.symOf b) ∧ t.huf.dcur = t.tree.root ∧
        8 * t.huf.rb.toNat + t.huf.ri.toNat = 8 * s.huf.rb.toNat + s.huf.ri.toNat + 8 ∧
        t.outLen.toNat = s.outLen.toNat + 1 ∧ t.peek .out s.outLen.toNat = v ∧
        (∀ a, a ≠ s.outLen.toNat → t.peek .out a = s.peek .out a) ∧
        { t with tree := s.tree, huf := s.huf, outLen := s.outLen, outMem := s.outMem } = s ∧
        { t.huf with dcur := s.huf.dcur, rb := s.huf.rb, ri := s.huf.ri } = s.huf)

/-- R161, R162, R169 to R173: a fresh tree is valid. -/
def Obligations.FreshTreeIsValid : Prop := ∀ t : Tree, t.init.Valid 0

/-- R162, R164, R167, R169 to R173: on every valid tree the two operations of a symbol, `Split` with `Update` for a new
one and `Update` for a known one, complete and leave a valid tree with one symbol more. In particular no `Swap` is asked
for a node and its own ancestor (R172). -/
def Obligations.TreeOperationsKeepTheTreeValid : Prop :=
  ∀ (t : Tree) (n : Nat) (b : Byte), t.Valid n → n + 1 < 2 ^ 64 →
    (t.symOf b = nilLink → ∃ t1 o t2, t.split b = some (t1, o) ∧ o = t.nyt ∧ t1.update o = some t2 ∧
      t2.Valid (n + 1) ∧ t2.symOf b ≠ nilLink) ∧
    (t.symOf b ≠ nilLink → ∃ t2, t.update (t.symOf b) = some t2 ∧ t2.Valid (n + 1) ∧ t2.symOf b = t.symOf b)

/-- R174: in a valid tree no leaf's code begins another leaf's code. -/
def Obligations.CodesAreAPrefixCode : Prop :=
  ∀ (t : Tree) (n : Nat) (l m : Link) (p q : List Bool), t.Valid n →
    t.live l → t.live m → t.isInternal l = false → t.isInternal m = false →
    t.path l = some p → t.path m = some q → p <+: q → l = m

/-- R164 to R168, R176: after the symbols 61 62 63 the codes are 61 = 0, 62 = 11, 63 = 101, NYT = 100. -/
def Obligations.CodesOfTheWorkedExample : Prop :=
  ∀ t : Tree, ∃ t1 t2 t3 : Tree, ∃ c1 c2 c3 : List Bool,
    Reference.symbolCode t.init 0x61#8 = some (c1, t1) ∧ Reference.symbolCode t1 0x62#8 = some (c2, t2) ∧
    Reference.symbolCode t2 0x63#8 = some (c3, t3) ∧ c1.length = 8 ∧ c2.length = 9 ∧ c3.length = 10 ∧
    t3.path (t3.symOf 0x61#8) = some [false] ∧ t3.path (t3.symOf 0x62#8) = some [true, true] ∧
    t3.path (t3.symOf 0x63#8) = some [true, false, true] ∧ t3.path t3.nyt = some [true, false, false]

/-! ### Commands -/

/-- R75, R217, R252, R274: whatever a command does, `CMD`, the arguments, `IN_LEN`, IN, `BUF_CAP` and the host's
accesses to come are unchanged, the block is between commands again, and OUT keeps nothing at or above `OUT_LEN`. -/
def Obligations.CommandsKeepTheHostsRegisters : Prop :=
  ∀ (i : Instr) (s t : State), i.isCommand = true → exec i s = .next t →
    t.cmd = s.cmd ∧ t.argW = s.argW ∧ t.argH = s.argH ∧ t.argFlags = s.argFlags ∧ t.inLen = s.inLen ∧
    t.inMem = s.inMem ∧ t.bufCap = s.bufCap ∧ t.pending = s.pending ∧ t.seq = .host ∧
    (∀ c ∈ t.outMem, c.1 < t.outLen.toNat)

/-- R22, R23, R252, R272: every command, from every state, ends in one step with DONE: either success with `ERR` = 0,
or a fault code 1 to 17 with `OUT_LEN` = 0. It neither stops the machine nor runs past the bound of its loops. -/
def Obligations.EveryCommandEnds : Prop :=
  ∀ (i : Instr) (s : State), i.isCommand = true →
    ∃ t, exec i s = .next t ∧ (t.succeeded ∨ ∃ e, t.failedWith e)

/-- R217, R232: a command's report is a function of the inputs that R217 lists for it and of `BUF_CAP`: no other
register, memory byte, tree node or earlier output has a part. -/
def Obligations.ReportDependsOnInputsOnly : Prop :=
  ∀ (i : Instr) (s t : State), i.isCommand = true → sameInputs i s t →
    ∃ s' t', exec i s = .next s' ∧ exec i t = .next t' ∧ sameReport i s' t'

/-- R241, R172, R203: no command ever reports code 14 (absent child) or 16 (corrupt tree). -/
def Obligations.UnreachableFaultsAreNotReported : Prop :=
  ∀ (i : Instr) (s t : State), i.isCommand = true → exec i s = .next t → t.err ≠ 14#8 ∧ t.err ≠ 16#8

/-- R223: DIFF_FWD writes the first byte and then each byte less the one before, mod 256. -/
def Obligations.DiffFwdWritesDifferences : Prop :=
  ∀ s : State, s.inLen.toNat ≤ s.bufCap.toNat →
    ∃ t, exec .diffFwd s = .next t ∧ t.succeeded ∧ t.outLen = s.inLen ∧
      t.output = Reference.diffFrom 0#8 s.input ∧
      (∀ i, i < s.inLen.toNat → t.peek .out i =
        if i = 0 then s.peek .inp 0 else s.peek .inp i - s.peek .inp (i - 1))

/-- R224: DIFF_INV writes the running sums mod 256. -/
def Obligations.DiffInvWritesSums : Prop :=
  ∀ s : State, s.inLen.toNat ≤ s.bufCap.toNat →
    ∃ t, exec .diffInv s = .next t ∧ t.succeeded ∧ t.outLen = s.inLen ∧
      t.output = Reference.undiffFrom 0#8 s.input ∧
      (∀ i, i < s.inLen.toNat → t.peek .out i =
        if i = 0 then s.peek .inp 0 else t.peek .out (i - 1) + s.peek .inp i)

/-- R225: DIFF_INV after DIFF_FWD returns the input, for every byte sequence and whatever the width arguments are. -/
def Obligations.DiffInvUndoesDiffFwd : Prop :=
  ∀ s : State, s.inLen.toNat ≤ s.bufCap.toNat →
    ∃ t u, exec .diffFwd s = .next t ∧ t.succeeded ∧ exec .diffInv (t.feed t.output) = .next u ∧ u.succeeded ∧
      u.output = s.input

/-- R121 to R131, R134: RLE_ENC_H and RLE_ENC_V write the RLE frame of the image in their scan direction; a frame that
does not fit raises `ERR_ALLOC`. -/
def Obligations.RleEncodersWriteTheFrame : Prop :=
  ∀ (s : State) (scan : Bool) (f : List Byte),
    s.inLen.toNat ≤ s.bufCap.toNat → s.argW ≠ 0#64 → s.argH ≠ 0#64 →
    s.argW.toNat * s.argH.toNat = s.inLen.toNat →
    f = Reference.rleFrame scan s.argModel s.argW.toNat s.argH.toNat s.input →
    (f.length ≤ s.bufCap.toNat →
      ∃ t, exec (if scan then .rleEncH else .rleEncV) s = .next t ∧ t.succeeded ∧ t.outLen.toNat = f.length ∧
        t.output = f ∧ t.resFlags.getLsbD 1 = scan) ∧
    (s.bufCap.toNat < f.length →
      exec (if scan then .rleEncH else .rleEncV) s = .next (s.raise .alloc))

/-- R130, R135: RLE_ENC_A keeps the shorter of the two frames and the vertical one on a tie, and reports its scan
direction; both passes must fit. -/
def Obligations.AdaptiveEncoderKeepsTheShorter : Prop :=
  ∀ (s : State) (fh fv : List Byte),
    s.inLen.toNat ≤ s.bufCap.toNat → s.argW ≠ 0#64 → s.argH ≠ 0#64 →
    s.argW.toNat * s.argH.toNat = s.inLen.toNat →
    fh = Reference.rleFrame true s.argModel s.argW.toNat s.argH.toNat s.input →
    fv = Reference.rleFrame false s.argModel s.argW.toNat s.argH.toNat s.input →
    (fh.length ≤ s.bufCap.toNat → fv.length ≤ s.bufCap.toNat →
      ∃ t, exec .rleEncA s = .next t ∧ t.succeeded ∧
        t.output = (if fv.length ≤ fh.length then fv else fh) ∧ t.outLen.toNat = t.output.length ∧
        t.resFlags.getLsbD 1 = decide (fh.length < fv.length)) ∧
    (s.bufCap.toNat < fh.length ∨ s.bufCap.toNat < fv.length → exec .rleEncA s = .next (s.raise .alloc))

/-- R131: the length of a pass's frame, with `P` the number of items that its runs produce. -/
def Obligations.FrameLength : Prop :=
  ∀ (scan model : Bool) (w h p : Nat) (pixels : List Byte),
    1 ≤ w → w < 2 ^ 64 → 1 ≤ h → h < 2 ^ 64 →
    p = ((Reference.runs (Reference.scanOrder scan w h pixels)).flatMap
      fun r => Reference.runItems r.1 r.2).length →
    (Reference.rleFrame scan model w h pixels).length =
      1 + byteCount w + byteCount h + p + (p + 7) / 8 + (if p % 8 ≠ 0 then 1 else 0) ∧ 1 ≤ p ∧
    (w * h < 2 ^ 64 → p ≤ w * h)

/-- R141 to R149, R253: RLE_DEC answers the image that the frame holds, with its dimensions and flags, or the first
fault that the frame's bytes raise. -/
def Obligations.RleDecoderReadsTheFrame : Prop :=
  ∀ s : State, s.inLen.toNat ≤ s.bufCap.toNat →
    (∀ img, Reference.rleImage s.bufCap.toNat s.input = .ok img →
      ∃ t, exec .rleDec s = .next t ∧ t.succeeded ∧ t.outLen.toNat = img.w * img.h ∧ t.output = img.pixels ∧
        t.resW.toNat = img.w ∧ t.resH.toNat = img.h ∧ t.resFlags = resultFlags img.model img.scan) ∧
    (∀ e, Reference.rleImage s.bufCap.toNat s.input = .error e → exec .rleDec s = .next (s.raise e))

/-- R133: the frame that an RLE encoder command writes is decoded by RLE_DEC to the same image, the same W and H, the
model flag and the scan direction. -/
def Obligations.RleRoundTrip : Prop :=
  ∀ (s t : State) (i : Instr), i = .rleEncH ∨ i = .rleEncV ∨ i = .rleEncA →
    exec i s = .next t → t.succeeded →
    ∃ u, exec .rleDec (t.feed t.output) = .next u ∧ u.succeeded ∧ u.output = s.input ∧ u.resW = s.argW ∧
      u.resH = s.argH ∧ u.resFlags.getLsbD 0 = s.argModel ∧ u.resFlags.getLsbD 1 = t.resFlags.getLsbD 1

/-- R183 to R190: HUF_ENC writes the packed bit stream of its input with outer byte `08 | pad`, or the input itself
with outer byte `00` when the coded form is strictly longer, for every length of input (R79; log entry 13 for a coded
form that 64 bits cannot count). -/
def Obligations.HufEncoderWritesTheStream : Prop :=
  ∀ (s : State) (bits : List Bool),
    1 ≤ s.inLen.toNat → s.inLen.toNat ≤ s.bufCap.toNat →
    Reference.streamBits s.tree.init s.input = some bits →
    ∃ t, exec .hufEnc s = .next t ∧ t.succeeded ∧ (t.resOuter, t.output) = Reference.hufFrame s.input bits ∧
      t.outLen.toNat = t.output.length

/-- R181, R244: HUF_ENC succeeds on every input of at least one byte that fits in IN, whatever `BUF_CAP` is. -/
def Obligations.HufEncoderNeverFaultsOnInput : Prop :=
  ∀ s : State, 1 ≤ s.inLen.toNat → s.inLen.toNat ≤ s.bufCap.toNat →
    ∃ t, exec .hufEnc s = .next t ∧ t.succeeded

/-- R192: `OUT_LEN ≤ IN_LEN` always after HUF_ENC, the outer byte is `00` or one of `08` to `0F`, and all nine occur. -/
def Obligations.HufEncoderSizeAndOuterByte : Prop :=
  (∀ s t : State, exec .hufEnc s = .next t → t.succeeded →
    t.outLen.toNat ≤ s.inLen.toNat ∧ (t.resOuter = 0x00#8 ∨ (8 ≤ t.resOuter.toNat ∧ t.resOuter.toNat ≤ 15))) ∧
  (∀ o : Byte, o = 0x00#8 ∨ (8 ≤ o.toNat ∧ o.toNat ≤ 15) →
    ∃ s t : State, exec .hufEnc s = .next t ∧ t.succeeded ∧ t.resOuter = o)

/-- R185, R186, R190: one input byte costs its 8 literal bits, most significant first, so HUF_ENC stores it
bit-reversed with outer byte `08` (the literal `41` as `82`, R66). -/
def Obligations.OneByteIsStoredBitReversed : Prop :=
  ∀ (s : State) (b : Byte), s.inLen = 1#64 → 1 ≤ s.bufCap.toNat → s.peek .inp 0 = b →
    ∃ t, exec .hufEnc s = .next t ∧ t.succeeded ∧ t.resOuter = 0x08#8 ∧ t.outLen = 1#64 ∧
      ∀ i, i < 8 → (t.peek .out 0).getLsbD i = b.getLsbD (7 - i)

/-- R195 to R206, R253: HUF_DEC answers the bytes that its frame holds, coded or not and whoever made it, or the first
fault that the frame raises: the stop rule, the end of the stream, the descent, the escape and symbol steps and the
capacity of OUT are those of `Reference.hufBytes`. With bit 3 of the outer byte clear it copies the rest of the frame out
verbatim, whatever the other seven bits are. -/
def Obligations.HufDecoderReadsTheFrame : Prop :=
  ∀ s : State, s.inLen.toNat ≤ s.bufCap.toNat →
    (∀ out, Reference.hufBytes s.bufCap.toNat s.tree.init s.input = .ok out →
      ∃ t, exec .hufDec s = .next t ∧ t.succeeded ∧ t.outLen.toNat = out.length ∧ t.output = out) ∧
    (∀ e, Reference.hufBytes s.bufCap.toNat s.tree.init s.input = .error e →
      exec .hufDec s = .next (s.raise e)) ∧
    (1 ≤ s.inLen.toNat → (s.peek .inp 0).getLsbD 3 = false →
      ∃ t, exec .hufDec s = .next t ∧ t.succeeded ∧ t.outLen.toNat = s.inLen.toNat - 1 ∧ t.output = s.input.drop 1)

/-- R193, R201: the frame that HUF_ENC makes decodes back to the input with HUF_DEC, for every input of length at least
1 whose frame fits in IN. -/
def Obligations.HuffmanRoundTrip : Prop :=
  ∀ s t : State, exec .hufEnc s = .next t → t.succeeded →
    t.outLen.toNat + 1 ≤ s.bufCap.toNat →
    ∃ u, exec .hufDec (t.feed (t.resOuter :: t.output)) = .next u ∧ u.succeeded ∧ u.output = s.input

/-- R229: COMPRESS writes the outer byte and then the payload that HUF_ENC makes of the frame that the RLE encoder makes
of the image, differenced if the model flag is set, in horizontal or adaptive scan. It raises `ERR_ALLOC` when a pass of
its RLE stage does not fit (R244), the vertical pass counting in adaptive scan only, and when the outer byte does not fit
in front of the payload. -/
def Obligations.CompressComposesItsStages : Prop :=
  ∀ (s : State) (w h : Nat) (x : List Byte),
    s.inLen.toNat ≤ s.bufCap.toNat → s.argW ≠ 0#64 → s.inLen ≠ 0#64 → s.inLen.toNat % s.argW.toNat = 0 →
    w = s.argW.toNat → h = s.inLen.toNat / w →
    x = (if s.argModel then Reference.diffFrom 0#8 s.input else s.input) →
    (s.bufCap.toNat < (Reference.rleFrame true s.argModel w h x).length ∨
        (s.argAdaptive = true ∧ s.bufCap.toNat < (Reference.rleFrame false s.argModel w h x).length) →
      exec .compress s = .next (s.raise .alloc)) ∧
    ((Reference.rleFrame true s.argModel w h x).length ≤ s.bufCap.toNat →
      (s.argAdaptive = true → (Reference.rleFrame false s.argModel w h x).length ≤ s.bufCap.toNat) →
      ∀ (bits : List Bool) (p : Byte × List Byte),
        Reference.streamBits s.tree.init s.stageFrame.1 = some bits →
        p = Reference.hufFrame s.stageFrame.1 bits →
        (1 + p.2.length ≤ s.bufCap.toNat →
          ∃ t, exec .compress s = .next t ∧ t.succeeded ∧ t.output = p.1 :: p.2 ∧
            t.outLen.toNat = 1 + p.2.length ∧ t.resOuter = p.1 ∧ t.resFlags.getLsbD 1 = s.stageFrame.2) ∧
        (s.bufCap.toNat < 1 + p.2.length → exec .compress s = .next (s.raise .alloc)))

/-- R230: DECOMPRESS decodes the Huffman frame, then the RLE frame in what it holds, and undoes the differential if that
frame says so; the first fault of a stage is the fault of the command. -/
def Obligations.DecompressComposesItsStages : Prop :=
  ∀ s : State, s.inLen.toNat ≤ s.bufCap.toNat →
    (∀ e, Reference.hufBytes s.bufCap.toNat s.tree.init s.input = .error e →
      exec .decompress s = .next (s.raise e)) ∧
    (∀ frame, Reference.hufBytes s.bufCap.toNat s.tree.init s.input = .ok frame →
      (∀ e, Reference.rleImage s.bufCap.toNat frame = .error e → exec .decompress s = .next (s.raise e)) ∧
      (∀ img, Reference.rleImage s.bufCap.toNat frame = .ok img →
        ∃ t, exec .decompress s = .next t ∧ t.succeeded ∧ t.outLen.toNat = img.w * img.h ∧
          t.output = (if img.model then Reference.undiffFrom 0#8 img.pixels else img.pixels) ∧
          t.resW.toNat = img.w ∧ t.resH.toNat = img.h ∧ t.resFlags = resultFlags img.model img.scan))

/-- R231: whenever COMPRESS succeeds, DECOMPRESS of its output succeeds and returns the image, with its W and its height,
for every setting of the flags; and COMPRESS succeeds when the buffers hold twice the image and 64 bytes. -/
def Obligations.PipelineRoundTrip : Prop :=
  (∀ s t : State, exec .compress s = .next t → t.succeeded →
    ∃ u, exec .decompress (t.feed t.output) = .next u ∧ u.succeeded ∧ u.output = s.input ∧ u.resW = s.argW ∧
      u.resH.toNat = s.inLen.toNat / s.argW.toNat) ∧
  (∀ s : State, 1 ≤ s.inLen.toNat → s.argW ≠ 0#64 → s.inLen.toNat % s.argW.toNat = 0 →
    2 * s.inLen.toNat + 64 ≤ s.bufCap.toNat →
    ∃ t, exec .compress s = .next t ∧ t.succeeded)

/-! ### The machine -/

/-- Every step keeps the invariant: memories canonical and within `BUF_CAP` (R43), the reports of R22, R23 and R252
between commands, the header, payload and scan relations (R32, R121, R141, R148) inside a frame. -/
def Obligations.StepKeepsTheInvariant : Prop :=
  ∀ s t : State, s.Inv → step s = .next t → t.Inv

/-- R240, R272 (93_implementation_defined.md: no behaviour is stuck): in a state that meets the invariant, if the host's
next access is within IN, a step neither stops with a fault nor is refused. -/
def Obligations.SoundStatesNeverStop : Prop :=
  ∀ s : State, s.Inv → (∀ a rest, s.pending = a :: rest → a.inRange s.bufCap.toNat = true) → ∃ t, step s = .next t

/-- R272: a step taken between commands ends between commands, with `BUF_CAP` as it was. -/
def Obligations.CommandsAreIndivisible : Prop :=
  ∀ s t : State, s.seq = .host → step s = .next t → t.seq = .host ∧ t.bufCap = s.bufCap
end

