-- ==== Sys2Proof/Laws/Memory.lean ====
section
/-! SUPPORT. The laws of a buffer memory: read after write, and that every memory operation keeps the canonical form and
the bound on the addresses. -/

namespace Sys2Proof.Machine

@[simp] theorem Memory.read_nil (a : Nat) : Memory.read [] a = none := rfl

theorem Memory.read_write_same (m : Memory) (a : Nat) (v : Byte) : Memory.read (Memory.write m a v) a = some v := by
  induction m with
  | nil => simp [Memory.write, Memory.read]
  | cons c m ih =>
    unfold Memory.write
    split
    · simp [Memory.read]
    · split
      · simp [Memory.read]
      · rename_i h1 h2
        have : c.1 ≠ a := fun h => h2 h.symm
        simp [Memory.read, this, ih]

theorem Memory.read_write_other (m : Memory) (a b : Nat) (v : Byte) (h : b ≠ a) :
    Memory.read (Memory.write m a v) b = Memory.read m b := by
  have h' : a ≠ b := fun e => h e.symm
  induction m with
  | nil => simp [Memory.write, Memory.read, h']
  | cons c m ih =>
    unfold Memory.write
    split
    · simp [Memory.read, h']
    · split
      · rename_i h1 h2
        subst h2
        simp [Memory.read, h']
      · simp only [Memory.read, ih]

theorem Memory.mem_write (m : Memory) (a : Nat) (v : Byte) (c : Host.Cell) (h : c ∈ Memory.write m a v) :
    c = (a, v) ∨ c ∈ m := by
  induction m with
  | nil => simpa [Memory.write] using h
  | cons d m ih =>
    unfold Memory.write at h
    split at h
    · simpa using h
    · split at h
      · rcases List.mem_cons.1 h with h | h
        · exact .inl h
        · exact .inr (List.mem_cons_of_mem _ h)
      · rcases List.mem_cons.1 h with h | h
        · exact .inr (h ▸ List.mem_cons_self)
        · exact (ih h).imp id (List.mem_cons_of_mem _)

/-- A write keeps the canonical form. -/
theorem Memory.write_wf (m : Memory) (a : Nat) (v : Byte) (h : m.wf) : (Memory.write m a v).wf := by
  induction m with
  | nil => simp [Memory.write, Memory.wf]
  | cons c m ih =>
    have hc := List.pairwise_cons.1 h
    unfold Memory.write
    split
    · rename_i h1
      refine List.pairwise_cons.2 ⟨fun d hd => ?_, h⟩
      rcases List.mem_cons.1 hd with hd | hd
      · exact hd ▸ h1
      · exact Nat.lt_trans h1 (hc.1 d hd)
    · split
      · rename_i h1 h2
        subst h2
        exact List.pairwise_cons.2 ⟨hc.1, hc.2⟩
      · rename_i h1 h2
        refine List.pairwise_cons.2 ⟨fun d hd => ?_, ih hc.2⟩
        rcases Memory.mem_write m a v d hd with hd | hd
        · subst hd
          exact Nat.lt_of_le_of_ne (Nat.le_of_not_lt h1) (fun e => h2 e.symm)
        · exact hc.1 d hd

theorem Memory.write_within (m : Memory) (a n : Nat) (v : Byte) (h : m.within n) (ha : a < n) :
    (Memory.write m a v).within n := fun c hc => by
  rcases Memory.mem_write m a v c hc with e | hm
  · subst e
    exact ha
  · exact h c hm

/-- Forgetting the addresses from `n` on keeps the canonical form. -/
theorem Memory.below_wf (m : Memory) (n : Nat) (h : m.wf) : (m.below n).wf := List.Pairwise.filter _ h

theorem Memory.below_within (m : Memory) (n : Nat) : (m.below n).within n := fun c hc => by
  simpa [Memory.below] using (List.mem_filter.1 hc).2

theorem Memory.below_within_of (m : Memory) (n k : Nat) (h : m.within k) : (m.below n).within k :=
  fun c hc => h c (List.mem_filter.1 hc).1

theorem Memory.read_below (m : Memory) (n a : Nat) :
    Memory.read (m.below n) a = if a < n then Memory.read m a else none := by
  induction m with
  | nil => simp [Memory.below]
  | cons c m ih =>
    unfold Memory.below at ih ⊢
    rw [List.filter_cons]
    by_cases hn : c.1 < n
    · simp only [hn, decide_true, if_true, Memory.read]
      by_cases hc : c.1 = a
      · subst hc
        simp [hn]
      · simp [hc, ih]
    · simp only [hn, decide_false, Bool.false_eq_true, if_false, ih, Memory.read]
      by_cases hc : c.1 = a
      · subst hc
        simp [hn]
      · simp [hc]

theorem Memory.ofBytes_ge (a : Nat) (bs : List Byte) (c : Host.Cell) (h : c ∈ Memory.ofBytes a bs) :
    a ≤ c.1 ∧ c.1 < a + bs.length := by
  induction bs generalizing a with
  | nil => cases h
  | cons b bs ih =>
    rcases List.mem_cons.1 h with h | h
    · subst h
      simp
    · have := ih (a + 1) h
      simp only [List.length_cons]
      omega

/-- The memory of a byte sequence is in canonical form. -/
theorem Memory.ofBytes_wf (a : Nat) (bs : List Byte) : (Memory.ofBytes a bs).wf := by
  induction bs generalizing a with
  | nil => exact .nil
  | cons b bs ih => exact List.pairwise_cons.2 ⟨fun c hc => (Memory.ofBytes_ge (a + 1) bs c hc).1, ih (a + 1)⟩

theorem Memory.ofBytes_within (bs : List Byte) : (Memory.ofBytes 0 bs).within bs.length := fun c hc => by
  simpa using (Memory.ofBytes_ge 0 bs c hc).2

theorem Memory.read_ofBytes (a : Nat) (bs : List Byte) (i : Nat) :
    Memory.read (Memory.ofBytes a bs) (a + i) = bs[i]? := by
  induction bs generalizing a i with
  | nil => rfl
  | cons b bs ih =>
    cases i with
    | zero => simp [Memory.ofBytes, Memory.read]
    | succ i =>
      have : ¬ a = a + (i + 1) := by omega
      have e : a + (i + 1) = a + 1 + i := by omega
      rw [Memory.ofBytes, Memory.read, if_neg this, e, ih]
      simp

/-- The memories of the reset state are in canonical form. -/
theorem State.reset_memories_wf (sp : Space) : (State.reset.mem sp).wf := by
  cases sp <;> exact .nil

end Sys2Proof.Machine
end

