-- ==== Sys2Proof/Laws/State.lean ====
section
/-! SUPPORT. One lemma per field per update of the state: what each named update leaves in each field. The fields that
an update makes free (`State.forget`) have no lemma. -/

namespace Sys2Proof.Machine

/-! ### `setMem` -/

@[simp] theorem State.setMem_cmd (s : State) (sp : Space) (m : Memory) : (s.setMem sp m).cmd = s.cmd := by
  cases sp <;> rfl

@[simp] theorem State.setMem_status (s : State) (sp : Space) (m : Memory) : (s.setMem sp m).status = s.status := by
  cases sp <;> rfl

@[simp] theorem State.setMem_err (s : State) (sp : Space) (m : Memory) : (s.setMem sp m).err = s.err := by
  cases sp <;> rfl

@[simp] theorem State.setMem_argW (s : State) (sp : Space) (m : Memory) : (s.setMem sp m).argW = s.argW := by
  cases sp <;> rfl

@[simp] theorem State.setMem_argH (s : State) (sp : Space) (m : Memory) : (s.setMem sp m).argH = s.argH := by
  cases sp <;> rfl

@[simp] theorem State.setMem_argFlags (s : State) (sp : Space) (m : Memory) : (s.setMem sp m).argFlags = s.argFlags := by
  cases sp <;> rfl

@[simp] theorem State.setMem_inLen (s : State) (sp : Space) (m : Memory) : (s.setMem sp m).inLen = s.inLen := by
  cases sp <;> rfl

@[simp] theorem State.setMem_outLen (s : State) (sp : Space) (m : Memory) : (s.setMem sp m).outLen = s.outLen := by
  cases sp <;> rfl

@[simp] theorem State.setMem_resOuter (s : State) (sp : Space) (m : Memory) : (s.setMem sp m).resOuter = s.resOuter := by
  cases sp <;> rfl

@[simp] theorem State.setMem_resW (s : State) (sp : Space) (m : Memory) : (s.setMem sp m).resW = s.resW := by
  cases sp <;> rfl

@[simp] theorem State.setMem_resH (s : State) (sp : Space) (m : Memory) : (s.setMem sp m).resH = s.resH := by
  cases sp <;> rfl

@[simp] theorem State.setMem_resFlags (s : State) (sp : Space) (m : Memory) : (s.setMem sp m).resFlags = s.resFlags := by
  cases sp <;> rfl

@[simp] theorem State.setMem_outbLen (s : State) (sp : Space) (m : Memory) : (s.setMem sp m).outbLen = s.outbLen := by
  cases sp <;> rfl

@[simp] theorem State.setMem_midLen (s : State) (sp : Space) (m : Memory) : (s.setMem sp m).midLen = s.midLen := by
  cases sp <;> rfl

@[simp] theorem State.setMem_enc (s : State) (sp : Space) (m : Memory) : (s.setMem sp m).enc = s.enc := by
  cases sp <;> rfl

@[simp] theorem State.setMem_dec (s : State) (sp : Space) (m : Memory) : (s.setMem sp m).dec = s.dec := by
  cases sp <;> rfl

@[simp] theorem State.setMem_tree (s : State) (sp : Space) (m : Memory) : (s.setMem sp m).tree = s.tree := by
  cases sp <;> rfl

@[simp] theorem State.setMem_huf (s : State) (sp : Space) (m : Memory) : (s.setMem sp m).huf = s.huf := by
  cases sp <;> rfl

@[simp] theorem State.setMem_prev (s : State) (sp : Space) (m : Memory) : (s.setMem sp m).prev = s.prev := by
  cases sp <;> rfl

@[simp] theorem State.setMem_bufCap (s : State) (sp : Space) (m : Memory) : (s.setMem sp m).bufCap = s.bufCap := by
  cases sp <;> rfl

@[simp] theorem State.setMem_pending (s : State) (sp : Space) (m : Memory) : (s.setMem sp m).pending = s.pending := by
  cases sp <;> rfl

@[simp] theorem State.setMem_seq (s : State) (sp : Space) (m : Memory) : (s.setMem sp m).seq = s.seq := by
  cases sp <;> rfl

@[simp] theorem State.setMem_src (s : State) (sp : Space) (m : Memory) : (s.setMem sp m).src = s.src := by
  cases sp <;> rfl

@[simp] theorem State.setMem_dest (s : State) (sp : Space) (m : Memory) : (s.setMem sp m).dest = s.dest := by
  cases sp <;> rfl

@[simp] theorem State.setMem_freeCount (s : State) (sp : Space) (m : Memory) : (s.setMem sp m).freeCount = s.freeCount := by
  cases sp <;> rfl

@[simp] theorem State.setMem_mem (s : State) (sp : Space) (m : Memory) : (s.setMem sp m).mem sp = m := by
  cases sp <;> rfl

theorem State.setMem_mem_other (s : State) (sp sq : Space) (m : Memory) (h : sq ≠ sp) :
    (s.setMem sp m).mem sq = s.mem sq := by
  cases sp <;> cases sq <;> first | rfl | exact absurd rfl h

@[simp] theorem State.setMem_len (s : State) (sp sq : Space) (m : Memory) : (s.setMem sp m).len sq = s.len sq := by
  cases sp <;> cases sq <;> rfl

/-! ### `setLen` -/

@[simp] theorem State.setLen_cmd (s : State) (sp : Space) (n : Word) : (s.setLen sp n).cmd = s.cmd := by
  cases sp <;> rfl

@[simp] theorem State.setLen_status (s : State) (sp : Space) (n : Word) : (s.setLen sp n).status = s.status := by
  cases sp <;> rfl

@[simp] theorem State.setLen_err (s : State) (sp : Space) (n : Word) : (s.setLen sp n).err = s.err := by
  cases sp <;> rfl

@[simp] theorem State.setLen_argW (s : State) (sp : Space) (n : Word) : (s.setLen sp n).argW = s.argW := by
  cases sp <;> rfl

@[simp] theorem State.setLen_argH (s : State) (sp : Space) (n : Word) : (s.setLen sp n).argH = s.argH := by
  cases sp <;> rfl

@[simp] theorem State.setLen_argFlags (s : State) (sp : Space) (n : Word) : (s.setLen sp n).argFlags = s.argFlags := by
  cases sp <;> rfl

@[simp] theorem State.setLen_resOuter (s : State) (sp : Space) (n : Word) : (s.setLen sp n).resOuter = s.resOuter := by
  cases sp <;> rfl

@[simp] theorem State.setLen_resW (s : State) (sp : Space) (n : Word) : (s.setLen sp n).resW = s.resW := by
  cases sp <;> rfl

@[simp] theorem State.setLen_resH (s : State) (sp : Space) (n : Word) : (s.setLen sp n).resH = s.resH := by
  cases sp <;> rfl

@[simp] theorem State.setLen_resFlags (s : State) (sp : Space) (n : Word) : (s.setLen sp n).resFlags = s.resFlags := by
  cases sp <;> rfl

@[simp] theorem State.setLen_inMem (s : State) (sp : Space) (n : Word) : (s.setLen sp n).inMem = s.inMem := by
  cases sp <;> rfl

@[simp] theorem State.setLen_outMem (s : State) (sp : Space) (n : Word) : (s.setLen sp n).outMem = s.outMem := by
  cases sp <;> rfl

@[simp] theorem State.setLen_outbMem (s : State) (sp : Space) (n : Word) : (s.setLen sp n).outbMem = s.outbMem := by
  cases sp <;> rfl

@[simp] theorem State.setLen_midMem (s : State) (sp : Space) (n : Word) : (s.setLen sp n).midMem = s.midMem := by
  cases sp <;> rfl

@[simp] theorem State.setLen_enc (s : State) (sp : Space) (n : Word) : (s.setLen sp n).enc = s.enc := by
  cases sp <;> rfl

@[simp] theorem State.setLen_dec (s : State) (sp : Space) (n : Word) : (s.setLen sp n).dec = s.dec := by
  cases sp <;> rfl

@[simp] theorem State.setLen_tree (s : State) (sp : Space) (n : Word) : (s.setLen sp n).tree = s.tree := by
  cases sp <;> rfl

@[simp] theorem State.setLen_huf (s : State) (sp : Space) (n : Word) : (s.setLen sp n).huf = s.huf := by
  cases sp <;> rfl

@[simp] theorem State.setLen_prev (s : State) (sp : Space) (n : Word) : (s.setLen sp n).prev = s.prev := by
  cases sp <;> rfl

@[simp] theorem State.setLen_bufCap (s : State) (sp : Space) (n : Word) : (s.setLen sp n).bufCap = s.bufCap := by
  cases sp <;> rfl

@[simp] theorem State.setLen_pending (s : State) (sp : Space) (n : Word) : (s.setLen sp n).pending = s.pending := by
  cases sp <;> rfl

@[simp] theorem State.setLen_seq (s : State) (sp : Space) (n : Word) : (s.setLen sp n).seq = s.seq := by
  cases sp <;> rfl

@[simp] theorem State.setLen_src (s : State) (sp : Space) (n : Word) : (s.setLen sp n).src = s.src := by
  cases sp <;> rfl

@[simp] theorem State.setLen_dest (s : State) (sp : Space) (n : Word) : (s.setLen sp n).dest = s.dest := by
  cases sp <;> rfl

@[simp] theorem State.setLen_freeCount (s : State) (sp : Space) (n : Word) : (s.setLen sp n).freeCount = s.freeCount := by
  cases sp <;> rfl

@[simp] theorem State.setLen_len (s : State) (sp : Space) (n : Word) : (s.setLen sp n).len sp = n := by
  cases sp <;> rfl

theorem State.setLen_len_other (s : State) (sp sq : Space) (n : Word) (h : sq ≠ sp) :
    (s.setLen sp n).len sq = s.len sq := by
  cases sp <;> cases sq <;> first | rfl | exact absurd rfl h

@[simp] theorem State.setLen_mem (s : State) (sp sq : Space) (n : Word) : (s.setLen sp n).mem sq = s.mem sq := by
  cases sp <;> cases sq <;> rfl

@[simp] theorem State.setLen_peek (s : State) (sp sq : Space) (n : Word) (a : Nat) :
    (s.setLen sp n).peek sq a = s.peek sq a := by
  cases sp <;> cases sq <;> rfl

/-! ### `clear` -/

@[simp] theorem State.clear_cmd (s : State) (sp : Space) : (s.clear sp).cmd = s.cmd := by
  cases sp <;> rfl

@[simp] theorem State.clear_status (s : State) (sp : Space) : (s.clear sp).status = s.status := by
  cases sp <;> rfl

@[simp] theorem State.clear_err (s : State) (sp : Space) : (s.clear sp).err = s.err := by
  cases sp <;> rfl

@[simp] theorem State.clear_argW (s : State) (sp : Space) : (s.clear sp).argW = s.argW := by
  cases sp <;> rfl

@[simp] theorem State.clear_argH (s : State) (sp : Space) : (s.clear sp).argH = s.argH := by
  cases sp <;> rfl

@[simp] theorem State.clear_argFlags (s : State) (sp : Space) : (s.clear sp).argFlags = s.argFlags := by
  cases sp <;> rfl

@[simp] theorem State.clear_resOuter (s : State) (sp : Space) : (s.clear sp).resOuter = s.resOuter := by
  cases sp <;> rfl

@[simp] theorem State.clear_resW (s : State) (sp : Space) : (s.clear sp).resW = s.resW := by
  cases sp <;> rfl

@[simp] theorem State.clear_resH (s : State) (sp : Space) : (s.clear sp).resH = s.resH := by
  cases sp <;> rfl

@[simp] theorem State.clear_resFlags (s : State) (sp : Space) : (s.clear sp).resFlags = s.resFlags := by
  cases sp <;> rfl

@[simp] theorem State.clear_enc (s : State) (sp : Space) : (s.clear sp).enc = s.enc := by
  cases sp <;> rfl

@[simp] theorem State.clear_dec (s : State) (sp : Space) : (s.clear sp).dec = s.dec := by
  cases sp <;> rfl

@[simp] theorem State.clear_tree (s : State) (sp : Space) : (s.clear sp).tree = s.tree := by
  cases sp <;> rfl

@[simp] theorem State.clear_huf (s : State) (sp : Space) : (s.clear sp).huf = s.huf := by
  cases sp <;> rfl

@[simp] theorem State.clear_prev (s : State) (sp : Space) : (s.clear sp).prev = s.prev := by
  cases sp <;> rfl

@[simp] theorem State.clear_bufCap (s : State) (sp : Space) : (s.clear sp).bufCap = s.bufCap := by
  cases sp <;> rfl

@[simp] theorem State.clear_pending (s : State) (sp : Space) : (s.clear sp).pending = s.pending := by
  cases sp <;> rfl

@[simp] theorem State.clear_seq (s : State) (sp : Space) : (s.clear sp).seq = s.seq := by
  cases sp <;> rfl

@[simp] theorem State.clear_src (s : State) (sp : Space) : (s.clear sp).src = s.src := by
  cases sp <;> rfl

@[simp] theorem State.clear_dest (s : State) (sp : Space) : (s.clear sp).dest = s.dest := by
  cases sp <;> rfl

@[simp] theorem State.clear_freeCount (s : State) (sp : Space) : (s.clear sp).freeCount = s.freeCount := by
  cases sp <;> rfl

@[simp] theorem State.clear_mem (s : State) (sp : Space) : (s.clear sp).mem sp = [] := by
  cases sp <;> rfl

@[simp] theorem State.clear_len (s : State) (sp : Space) : (s.clear sp).len sp = 0#64 := by
  cases sp <;> rfl

/-! ### `begin` -/

@[simp] theorem State.begin_cmd (s : State) : (s.begin).cmd = s.cmd := rfl

@[simp] theorem State.begin_status (s : State) : (s.begin).status = s.status := rfl

@[simp] theorem State.begin_err (s : State) : (s.begin).err = s.err := rfl

@[simp] theorem State.begin_argW (s : State) : (s.begin).argW = s.argW := rfl

@[simp] theorem State.begin_argH (s : State) : (s.begin).argH = s.argH := rfl

@[simp] theorem State.begin_argFlags (s : State) : (s.begin).argFlags = s.argFlags := rfl

@[simp] theorem State.begin_inLen (s : State) : (s.begin).inLen = s.inLen := rfl

@[simp] theorem State.begin_outLen (s : State) : (s.begin).outLen = 0#64 := rfl

@[simp] theorem State.begin_resOuter (s : State) : (s.begin).resOuter = s.resOuter := rfl

@[simp] theorem State.begin_resW (s : State) : (s.begin).resW = s.resW := rfl

@[simp] theorem State.begin_resH (s : State) : (s.begin).resH = s.resH := rfl

@[simp] theorem State.begin_resFlags (s : State) : (s.begin).resFlags = s.resFlags := rfl

@[simp] theorem State.begin_inMem (s : State) : (s.begin).inMem = s.inMem := rfl

@[simp] theorem State.begin_outMem (s : State) : (s.begin).outMem = [] := rfl

@[simp] theorem State.begin_outbMem (s : State) : (s.begin).outbMem = s.outbMem := rfl

@[simp] theorem State.begin_midMem (s : State) : (s.begin).midMem = s.midMem := rfl

@[simp] theorem State.begin_outbLen (s : State) : (s.begin).outbLen = s.outbLen := rfl

@[simp] theorem State.begin_midLen (s : State) : (s.begin).midLen = s.midLen := rfl

@[simp] theorem State.begin_enc (s : State) : (s.begin).enc = s.enc := rfl

@[simp] theorem State.begin_dec (s : State) : (s.begin).dec = s.dec := rfl

@[simp] theorem State.begin_tree (s : State) : (s.begin).tree = s.tree := rfl

@[simp] theorem State.begin_huf (s : State) : (s.begin).huf = s.huf := rfl

@[simp] theorem State.begin_prev (s : State) : (s.begin).prev = s.prev := rfl

@[simp] theorem State.begin_bufCap (s : State) : (s.begin).bufCap = s.bufCap := rfl

@[simp] theorem State.begin_pending (s : State) : (s.begin).pending = s.pending := rfl

@[simp] theorem State.begin_seq (s : State) : (s.begin).seq = .host := rfl

@[simp] theorem State.begin_src (s : State) : (s.begin).src = .inp := rfl

@[simp] theorem State.begin_dest (s : State) : (s.begin).dest = .out := rfl

@[simp] theorem State.begin_freeCount (s : State) : (s.begin).freeCount = s.freeCount := rfl

/-! ### `toMid` -/

@[simp] theorem State.toMid_cmd (s : State) : (s.toMid).cmd = s.cmd := rfl

@[simp] theorem State.toMid_status (s : State) : (s.toMid).status = s.status := rfl

@[simp] theorem State.toMid_err (s : State) : (s.toMid).err = s.err := rfl

@[simp] theorem State.toMid_argW (s : State) : (s.toMid).argW = s.argW := rfl

@[simp] theorem State.toMid_argH (s : State) : (s.toMid).argH = s.argH := rfl

@[simp] theorem State.toMid_argFlags (s : State) : (s.toMid).argFlags = s.argFlags := rfl

@[simp] theorem State.toMid_inLen (s : State) : (s.toMid).inLen = s.inLen := rfl

@[simp] theorem State.toMid_outLen (s : State) : (s.toMid).outLen = 0#64 := rfl

@[simp] theorem State.toMid_resOuter (s : State) : (s.toMid).resOuter = s.resOuter := rfl

@[simp] theorem State.toMid_resW (s : State) : (s.toMid).resW = s.resW := rfl

@[simp] theorem State.toMid_resH (s : State) : (s.toMid).resH = s.resH := rfl

@[simp] theorem State.toMid_resFlags (s : State) : (s.toMid).resFlags = s.resFlags := rfl

@[simp] theorem State.toMid_inMem (s : State) : (s.toMid).inMem = s.inMem := rfl

@[simp] theorem State.toMid_outMem (s : State) : (s.toMid).outMem = [] := rfl

@[simp] theorem State.toMid_outbMem (s : State) : (s.toMid).outbMem = s.outbMem := rfl

@[simp] theorem State.toMid_midMem (s : State) : (s.toMid).midMem = s.outMem.below s.outLen.toNat := rfl

@[simp] theorem State.toMid_outbLen (s : State) : (s.toMid).outbLen = s.outbLen := rfl

@[simp] theorem State.toMid_midLen (s : State) : (s.toMid).midLen = s.outLen := rfl

@[simp] theorem State.toMid_enc (s : State) : (s.toMid).enc = s.enc := rfl

@[simp] theorem State.toMid_dec (s : State) : (s.toMid).dec = s.dec := rfl

@[simp] theorem State.toMid_tree (s : State) : (s.toMid).tree = s.tree := rfl

@[simp] theorem State.toMid_huf (s : State) : (s.toMid).huf = s.huf := rfl

@[simp] theorem State.toMid_prev (s : State) : (s.toMid).prev = s.prev := rfl

@[simp] theorem State.toMid_bufCap (s : State) : (s.toMid).bufCap = s.bufCap := rfl

@[simp] theorem State.toMid_pending (s : State) : (s.toMid).pending = s.pending := rfl

@[simp] theorem State.toMid_seq (s : State) : (s.toMid).seq = s.seq := rfl

@[simp] theorem State.toMid_src (s : State) : (s.toMid).src = .mid := rfl

@[simp] theorem State.toMid_dest (s : State) : (s.toMid).dest = s.dest := rfl

@[simp] theorem State.toMid_freeCount (s : State) : (s.toMid).freeCount = s.freeCount := rfl

/-! ### `forget` -/

@[simp] theorem State.forget_cmd (s : State) : (s.forget).cmd = s.cmd := rfl

@[simp] theorem State.forget_status (s : State) : (s.forget).status = s.status := rfl

@[simp] theorem State.forget_err (s : State) : (s.forget).err = s.err := rfl

@[simp] theorem State.forget_argW (s : State) : (s.forget).argW = s.argW := rfl

@[simp] theorem State.forget_argH (s : State) : (s.forget).argH = s.argH := rfl

@[simp] theorem State.forget_argFlags (s : State) : (s.forget).argFlags = s.argFlags := rfl

@[simp] theorem State.forget_inLen (s : State) : (s.forget).inLen = s.inLen := rfl

@[simp] theorem State.forget_outLen (s : State) : (s.forget).outLen = s.outLen := rfl

@[simp] theorem State.forget_inMem (s : State) : (s.forget).inMem = s.inMem := rfl

@[simp] theorem State.forget_outMem (s : State) : (s.forget).outMem = s.outMem.below s.outLen.toNat := rfl

@[simp] theorem State.forget_outbMem (s : State) : (s.forget).outbMem = [] := rfl

@[simp] theorem State.forget_midMem (s : State) : (s.forget).midMem = [] := rfl

@[simp] theorem State.forget_bufCap (s : State) : (s.forget).bufCap = s.bufCap := rfl

@[simp] theorem State.forget_pending (s : State) : (s.forget).pending = s.pending := rfl

@[simp] theorem State.forget_seq (s : State) : (s.forget).seq = .host := rfl

@[simp] theorem State.forget_src (s : State) : (s.forget).src = .inp := rfl

@[simp] theorem State.forget_dest (s : State) : (s.forget).dest = .out := rfl

@[simp] theorem State.forget_freeCount (s : State) : (s.forget).freeCount = s.freeCount + 1 := rfl

/-! ### `raise` -/

@[simp] theorem State.raise_cmd (s : State) (e : Err) : (s.raise e).cmd = s.cmd := rfl

@[simp] theorem State.raise_status (s : State) (e : Err) : (s.raise e).status = statusFailed := rfl

@[simp] theorem State.raise_err (s : State) (e : Err) : (s.raise e).err = e.code := rfl

@[simp] theorem State.raise_argW (s : State) (e : Err) : (s.raise e).argW = s.argW := rfl

@[simp] theorem State.raise_argH (s : State) (e : Err) : (s.raise e).argH = s.argH := rfl

@[simp] theorem State.raise_argFlags (s : State) (e : Err) : (s.raise e).argFlags = s.argFlags := rfl

@[simp] theorem State.raise_inLen (s : State) (e : Err) : (s.raise e).inLen = s.inLen := rfl

@[simp] theorem State.raise_outLen (s : State) (e : Err) : (s.raise e).outLen = 0#64 := rfl

@[simp] theorem State.raise_inMem (s : State) (e : Err) : (s.raise e).inMem = s.inMem := rfl

@[simp] theorem State.raise_outMem (s : State) (e : Err) : (s.raise e).outMem = [] := rfl

@[simp] theorem State.raise_outbMem (s : State) (e : Err) : (s.raise e).outbMem = [] := rfl

@[simp] theorem State.raise_midMem (s : State) (e : Err) : (s.raise e).midMem = [] := rfl

@[simp] theorem State.raise_bufCap (s : State) (e : Err) : (s.raise e).bufCap = s.bufCap := rfl

@[simp] theorem State.raise_pending (s : State) (e : Err) : (s.raise e).pending = s.pending := rfl

@[simp] theorem State.raise_seq (s : State) (e : Err) : (s.raise e).seq = .host := rfl

@[simp] theorem State.raise_src (s : State) (e : Err) : (s.raise e).src = .inp := rfl

@[simp] theorem State.raise_dest (s : State) (e : Err) : (s.raise e).dest = .out := rfl

@[simp] theorem State.raise_freeCount (s : State) (e : Err) : (s.raise e).freeCount = s.freeCount + 1 := rfl

/-! ### `finish` -/

@[simp] theorem State.finish_cmd (s : State) (r : Results) : (s.finish r).cmd = s.cmd := rfl

@[simp] theorem State.finish_status (s : State) (r : Results) : (s.finish r).status = statusOk := rfl

@[simp] theorem State.finish_err (s : State) (r : Results) : (s.finish r).err = 0#8 := rfl

@[simp] theorem State.finish_argW (s : State) (r : Results) : (s.finish r).argW = s.argW := rfl

@[simp] theorem State.finish_argH (s : State) (r : Results) : (s.finish r).argH = s.argH := rfl

@[simp] theorem State.finish_argFlags (s : State) (r : Results) : (s.finish r).argFlags = s.argFlags := rfl

@[simp] theorem State.finish_inLen (s : State) (r : Results) : (s.finish r).inLen = s.inLen := rfl

@[simp] theorem State.finish_outLen (s : State) (r : Results) : (s.finish r).outLen = s.outLen := rfl

@[simp] theorem State.finish_inMem (s : State) (r : Results) : (s.finish r).inMem = s.inMem := rfl

@[simp] theorem State.finish_outMem (s : State) (r : Results) : (s.finish r).outMem = s.outMem.below s.outLen.toNat := rfl

@[simp] theorem State.finish_outbMem (s : State) (r : Results) : (s.finish r).outbMem = [] := rfl

@[simp] theorem State.finish_midMem (s : State) (r : Results) : (s.finish r).midMem = [] := rfl

@[simp] theorem State.finish_bufCap (s : State) (r : Results) : (s.finish r).bufCap = s.bufCap := rfl

@[simp] theorem State.finish_pending (s : State) (r : Results) : (s.finish r).pending = s.pending := rfl

@[simp] theorem State.finish_seq (s : State) (r : Results) : (s.finish r).seq = .host := rfl

@[simp] theorem State.finish_src (s : State) (r : Results) : (s.finish r).src = .inp := rfl

@[simp] theorem State.finish_dest (s : State) (r : Results) : (s.finish r).dest = .out := rfl

@[simp] theorem State.finish_freeCount (s : State) (r : Results) : (s.finish r).freeCount = s.freeCount + 1 := rfl

/-! ### `feed` -/

@[simp] theorem State.feed_cmd (s : State) (bs : List Byte) : (s.feed bs).cmd = s.cmd := rfl

@[simp] theorem State.feed_status (s : State) (bs : List Byte) : (s.feed bs).status = s.status := rfl

@[simp] theorem State.feed_err (s : State) (bs : List Byte) : (s.feed bs).err = s.err := rfl

@[simp] theorem State.feed_argW (s : State) (bs : List Byte) : (s.feed bs).argW = s.argW := rfl

@[simp] theorem State.feed_argH (s : State) (bs : List Byte) : (s.feed bs).argH = s.argH := rfl

@[simp] theorem State.feed_argFlags (s : State) (bs : List Byte) : (s.feed bs).argFlags = s.argFlags := rfl

@[simp] theorem State.feed_inLen (s : State) (bs : List Byte) : (s.feed bs).inLen = BitVec.ofNat 64 bs.length := rfl

@[simp] theorem State.feed_outLen (s : State) (bs : List Byte) : (s.feed bs).outLen = s.outLen := rfl

@[simp] theorem State.feed_resOuter (s : State) (bs : List Byte) : (s.feed bs).resOuter = s.resOuter := rfl

@[simp] theorem State.feed_resW (s : State) (bs : List Byte) : (s.feed bs).resW = s.resW := rfl

@[simp] theorem State.feed_resH (s : State) (bs : List Byte) : (s.feed bs).resH = s.resH := rfl

@[simp] theorem State.feed_resFlags (s : State) (bs : List Byte) : (s.feed bs).resFlags = s.resFlags := rfl

@[simp] theorem State.feed_inMem (s : State) (bs : List Byte) : (s.feed bs).inMem = Memory.ofBytes 0 bs := rfl

@[simp] theorem State.feed_outMem (s : State) (bs : List Byte) : (s.feed bs).outMem = s.outMem := rfl

@[simp] theorem State.feed_outbMem (s : State) (bs : List Byte) : (s.feed bs).outbMem = s.outbMem := rfl

@[simp] theorem State.feed_midMem (s : State) (bs : List Byte) : (s.feed bs).midMem = s.midMem := rfl

@[simp] theorem State.feed_outbLen (s : State) (bs : List Byte) : (s.feed bs).outbLen = s.outbLen := rfl

@[simp] theorem State.feed_midLen (s : State) (bs : List Byte) : (s.feed bs).midLen = s.midLen := rfl

@[simp] theorem State.feed_enc (s : State) (bs : List Byte) : (s.feed bs).enc = s.enc := rfl

@[simp] theorem State.feed_dec (s : State) (bs : List Byte) : (s.feed bs).dec = s.dec := rfl

@[simp] theorem State.feed_tree (s : State) (bs : List Byte) : (s.feed bs).tree = s.tree := rfl

@[simp] theorem State.feed_huf (s : State) (bs : List Byte) : (s.feed bs).huf = s.huf := rfl

@[simp] theorem State.feed_prev (s : State) (bs : List Byte) : (s.feed bs).prev = s.prev := rfl

@[simp] theorem State.feed_bufCap (s : State) (bs : List Byte) : (s.feed bs).bufCap = s.bufCap := rfl

@[simp] theorem State.feed_pending (s : State) (bs : List Byte) : (s.feed bs).pending = s.pending := rfl

@[simp] theorem State.feed_seq (s : State) (bs : List Byte) : (s.feed bs).seq = s.seq := rfl

@[simp] theorem State.feed_src (s : State) (bs : List Byte) : (s.feed bs).src = s.src := rfl

@[simp] theorem State.feed_dest (s : State) (bs : List Byte) : (s.feed bs).dest = s.dest := rfl

@[simp] theorem State.feed_freeCount (s : State) (bs : List Byte) : (s.feed bs).freeCount = s.freeCount := rfl

/-! ### `extendRun` -/

@[simp] theorem State.extendRun_cmd (s : State) : (s.extendRun).cmd = s.cmd := rfl

@[simp] theorem State.extendRun_status (s : State) : (s.extendRun).status = s.status := rfl

@[simp] theorem State.extendRun_err (s : State) : (s.extendRun).err = s.err := rfl

@[simp] theorem State.extendRun_argW (s : State) : (s.extendRun).argW = s.argW := rfl

@[simp] theorem State.extendRun_argH (s : State) : (s.extendRun).argH = s.argH := rfl

@[simp] theorem State.extendRun_argFlags (s : State) : (s.extendRun).argFlags = s.argFlags := rfl

@[simp] theorem State.extendRun_inLen (s : State) : (s.extendRun).inLen = s.inLen := rfl

@[simp] theorem State.extendRun_outLen (s : State) : (s.extendRun).outLen = s.outLen := rfl

@[simp] theorem State.extendRun_resOuter (s : State) : (s.extendRun).resOuter = s.resOuter := rfl

@[simp] theorem State.extendRun_resW (s : State) : (s.extendRun).resW = s.resW := rfl

@[simp] theorem State.extendRun_resH (s : State) : (s.extendRun).resH = s.resH := rfl

@[simp] theorem State.extendRun_resFlags (s : State) : (s.extendRun).resFlags = s.resFlags := rfl

@[simp] theorem State.extendRun_inMem (s : State) : (s.extendRun).inMem = s.inMem := rfl

@[simp] theorem State.extendRun_outMem (s : State) : (s.extendRun).outMem = s.outMem := rfl

@[simp] theorem State.extendRun_outbMem (s : State) : (s.extendRun).outbMem = s.outbMem := rfl

@[simp] theorem State.extendRun_midMem (s : State) : (s.extendRun).midMem = s.midMem := rfl

@[simp] theorem State.extendRun_outbLen (s : State) : (s.extendRun).outbLen = s.outbLen := rfl

@[simp] theorem State.extendRun_midLen (s : State) : (s.extendRun).midLen = s.midLen := rfl

@[simp] theorem State.extendRun_dec (s : State) : (s.extendRun).dec = s.dec := rfl

@[simp] theorem State.extendRun_tree (s : State) : (s.extendRun).tree = s.tree := rfl

@[simp] theorem State.extendRun_huf (s : State) : (s.extendRun).huf = s.huf := rfl

@[simp] theorem State.extendRun_prev (s : State) : (s.extendRun).prev = s.prev := rfl

@[simp] theorem State.extendRun_bufCap (s : State) : (s.extendRun).bufCap = s.bufCap := rfl

@[simp] theorem State.extendRun_pending (s : State) : (s.extendRun).pending = s.pending := rfl

@[simp] theorem State.extendRun_seq (s : State) : (s.extendRun).seq = s.seq := rfl

@[simp] theorem State.extendRun_src (s : State) : (s.extendRun).src = s.src := rfl

@[simp] theorem State.extendRun_dest (s : State) : (s.extendRun).dest = s.dest := rfl

@[simp] theorem State.extendRun_freeCount (s : State) : (s.extendRun).freeCount = s.freeCount := rfl

end Sys2Proof.Machine
end

