-- ==== Sys2Proof/Laws/Ops.lean ====
section
/-! SUPPORT. One lemma per shared operation that says once everything it can do. -/

namespace Sys2Proof.Machine

/-! ### Reading -/

theorem State.memRead_eq (s : State) (sp : Space) (a : Nat) (h : a < s.bufCap.toNat) :
    s.memRead sp a = .ok (s.peek sp a) := if_pos h

theorem State.memRead_ok {s : State} {sp : Space} {a : Nat} {b : Byte} (h : s.memRead sp a = .ok b) :
    a < s.bufCap.toNat ∧ b = s.peek sp a := by
  unfold State.memRead at h
  split at h
  · exact ⟨‹_›, by injection h with h; exact h.symm⟩
  · cases h

theorem State.inputByte_eq (s : State) (a : Nat) (h : a < s.bufCap.toNat) : s.inputByte a = .ok (s.peek s.src a) :=
  s.memRead_eq s.src a h

theorem State.inputBytes_eq (s : State) (a n : Nat) (h : a + n ≤ s.bufCap.toNat) :
    s.inputBytes a n = .ok ((List.range n).map fun i => s.peek s.src (a + i)) := by
  induction n generalizing a with
  | zero => rfl
  | succ n ih =>
    have e := ih (a + 1) (by omega)
    simp only [State.inputBytes, s.inputByte_eq a (by omega), e, List.range_succ_eq_map, List.map_cons, List.map_map]
    simp only [bind, Except.bind, Nat.add_zero]
    congr 2
    refine List.map_congr_left fun i _ => ?_
    simp only [Function.comp, Nat.succ_eq_add_one]
    congr 1
    omega

@[simp] theorem State.bytes_length (s : State) (sp : Space) (n : Nat) : (s.bytes sp n).length = n := by
  simp [State.bytes]

@[simp] theorem State.bytes_zero (s : State) (sp : Space) : s.bytes sp 0 = [] := rfl

theorem State.bytes_getElem? (s : State) (sp : Space) (n i : Nat) :
    (s.bytes sp n)[i]? = if i < n then some (s.peek sp i) else none := by
  by_cases h : i < n <;> simp [State.bytes, h]

theorem State.bytes_succ (s : State) (sp : Space) (n : Nat) : s.bytes sp (n + 1) = s.bytes sp n ++ [s.peek sp n] := by
  simp [State.bytes, List.range_succ]

theorem State.bytes_congr (s t : State) (sp sq : Space) (n : Nat) (h : ∀ a, a < n → s.peek sp a = t.peek sq a) :
    s.bytes sp n = t.bytes sq n :=
  List.map_congr_left fun a ha => h a (List.mem_range.1 ha)

@[simp] theorem State.output_length (s : State) : s.output.length = s.outLen.toNat := s.bytes_length .out _

@[simp] theorem State.input_length (s : State) : s.input.length = s.inLen.toNat := s.bytes_length .inp _

/-! ### Writing -/

theorem State.peek_setMem_write_same (s : State) (sp : Space) (a : Nat) (v : Byte) :
    (s.setMem sp ((s.mem sp).write a v)).peek sp a = v := by
  simp [State.peek, Memory.read_write_same]

theorem State.peek_setMem_write_other (s : State) (sp : Space) (a b : Nat) (v : Byte) (h : b ≠ a) :
    (s.setMem sp ((s.mem sp).write a v)).peek sp b = s.peek sp b := by
  simp [State.peek, Memory.read_write_other _ _ _ _ h]

theorem State.peek_setMem_space (s : State) (sp sq : Space) (m : Memory) (b : Nat) (h : sq ≠ sp) :
    (s.setMem sp m).peek sq b = s.peek sq b := by
  simp [State.peek, s.setMem_mem_other sp sq m h]

theorem State.memWrite_eq (s : State) (sp : Space) (a : Nat) (v : Byte) (h : a < s.bufCap.toNat) :
    s.memWrite sp a v = .ok (s.setMem sp ((s.mem sp).write a v)) := if_pos h

/-- Everything `MemWrite` does when it completes. -/
theorem State.memWrite_ok {s t : State} {sp : Space} {a : Nat} {v : Byte} (h : s.memWrite sp a v = .ok t) :
    a < s.bufCap.toNat ∧ t = s.setMem sp ((s.mem sp).write a v) ∧ t.peek sp a = v ∧
    (∀ b, b ≠ a → t.peek sp b = s.peek sp b) ∧ (∀ sq b, sq ≠ sp → t.peek sq b = s.peek sq b) := by
  unfold State.memWrite at h
  split at h
  · injection h with h
    subst h
    exact ⟨‹_›, rfl, s.peek_setMem_write_same sp a v, fun b hb => s.peek_setMem_write_other sp a b v hb,
      fun sq b hs => s.peek_setMem_space sp sq _ b hs⟩
  · cases h

theorem State.append_full (s : State) (sp : Space) (v : Byte) (h : s.bufCap.toNat ≤ (s.len sp).toNat) :
    s.append sp v = .error (.err .alloc) := if_pos h

theorem State.append_eq (s : State) (sp : Space) (v : Byte) (h : (s.len sp).toNat < s.bufCap.toNat) :
    s.append sp v = .ok ((s.setMem sp ((s.mem sp).write (s.len sp).toNat v)).setLen sp (s.len sp + 1#64)) :=
  if_neg (Nat.not_le.2 h)

/-- Everything `Append` does when it completes. -/
theorem State.append_ok {s t : State} {sp : Space} {v : Byte} (h : s.append sp v = .ok t) :
    (s.len sp).toNat < s.bufCap.toNat ∧
    t = (s.setMem sp ((s.mem sp).write (s.len sp).toNat v)).setLen sp (s.len sp + 1#64) ∧
    (t.len sp).toNat = (s.len sp).toNat + 1 ∧ t.peek sp (s.len sp).toNat = v ∧
    (∀ b, b ≠ (s.len sp).toNat → t.peek sp b = s.peek sp b) ∧
    (∀ sq, sq ≠ sp → t.mem sq = s.mem sq ∧ t.len sq = s.len sq) := by
  by_cases hf : s.bufCap.toNat ≤ (s.len sp).toNat
  · rw [s.append_full sp v hf] at h
    cases h
  · have hl := Nat.not_le.1 hf
    rw [s.append_eq sp v hl] at h
    injection h with h
    subst h
    have hb := s.bufCap.isLt
    refine ⟨hl, rfl, ?_, ?_, fun b hb => ?_, fun sq hs => ⟨?_, ?_⟩⟩
    · rw [State.setLen_len, BitVec.toNat_add]
      simp only [BitVec.toNat_ofNat]
      omega
    · rw [State.setLen_peek, State.peek_setMem_write_same]
    · rw [State.setLen_peek, State.peek_setMem_write_other _ _ _ _ _ hb]
    · rw [State.setLen_mem, State.setMem_mem_other _ _ _ _ hs]
    · rw [State.setLen_len_other _ _ _ _ hs, State.setMem_len]

theorem State.append_bytes {s t : State} {sp : Space} {v : Byte} (h : s.append sp v = .ok t) :
    t.bytes sp (t.len sp).toNat = s.bytes sp (s.len sp).toNat ++ [v] := by
  obtain ⟨-, -, hl, hv, ho, -⟩ := State.append_ok h
  rw [hl, State.bytes_succ, hv, State.bytes_congr t s sp sp _ fun a ha => ho a (Nat.ne_of_lt ha)]

theorem State.append_bufCap {s t : State} {sp : Space} {v : Byte} (h : s.append sp v = .ok t) :
    t.bufCap = s.bufCap := by
  obtain ⟨-, rfl, -⟩ := State.append_ok h
  simp

/-- Everything the append of several bytes does when they fit. -/
theorem State.appendAll_ok {s t : State} {sp : Space} {vs : List Byte} (h : s.appendAll sp vs = .ok t) :
    (t.len sp).toNat = (s.len sp).toNat + vs.length ∧
    t.bytes sp (t.len sp).toNat = s.bytes sp (s.len sp).toNat ++ vs ∧
    (∀ b, (t.len sp).toNat ≤ b → t.peek sp b = s.peek sp b) ∧
    (∀ sq, sq ≠ sp → t.mem sq = s.mem sq ∧ t.len sq = s.len sq) ∧ t.bufCap = s.bufCap := by
  induction vs generalizing s with
  | nil =>
    injection h with h
    subst h
    simp
  | cons v vs ih =>
    simp only [State.appendAll, bind, Except.bind] at h
    split at h
    · cases h
    · rename_i u hu
      obtain ⟨l1, b1, p1, o1, c1⟩ := ih h
      obtain ⟨-, -, hl, -, ho, hs⟩ := State.append_ok hu
      refine ⟨?_, ?_, fun b hb => ?_, fun sq hq => ?_, c1.trans (State.append_bufCap hu)⟩
      · simp only [l1, hl, List.length_cons]
        omega
      · rw [b1, State.append_bytes hu, List.append_assoc, List.singleton_append]
      · rw [p1 b hb]
        exact ho b (by omega)
      · exact ⟨(o1 sq hq).1.trans (hs sq hq).1, (o1 sq hq).2.trans (hs sq hq).2⟩

/-- When several bytes can be appended. -/
theorem State.appendAll_fits (s : State) (sp : Space) (vs : List Byte)
    (h : (s.len sp).toNat + vs.length ≤ s.bufCap.toNat) : ∃ t, s.appendAll sp vs = .ok t := by
  induction vs generalizing s with
  | nil => exact ⟨s, rfl⟩
  | cons v vs ih =>
    simp only [List.length_cons] at h
    have e := s.append_eq sp v (by omega)
    obtain ⟨-, -, hl, -⟩ := State.append_ok e
    obtain ⟨t, ht⟩ := ih _ (by rw [hl, State.append_bufCap e]; omega)
    exact ⟨t, by simp only [State.appendAll, bind, Except.bind, e, ht]⟩

/-- When several bytes cannot be appended, the answer is `ERR_ALLOC`. -/
theorem State.appendAll_full (s : State) (sp : Space) (vs : List Byte) (hs : (s.len sp).toNat ≤ s.bufCap.toNat)
    (h : s.bufCap.toNat < (s.len sp).toNat + vs.length) : s.appendAll sp vs = .error (.err .alloc) := by
  induction vs generalizing s with
  | nil => simp only [List.length_nil] at h; omega
  | cons v vs ih =>
    simp only [List.length_cons] at h
    by_cases hf : s.bufCap.toNat ≤ (s.len sp).toNat
    · simp only [State.appendAll, bind, Except.bind, s.append_full sp v hf]
    · have e := s.append_eq sp v (Nat.not_le.1 hf)
      obtain ⟨-, -, hl, -⟩ := State.append_ok e
      have := ih _ (by rw [hl, State.append_bufCap e]; omega) (by rw [hl, State.append_bufCap e]; omega)
      simp only [State.appendAll, bind, Except.bind, e, this]

/-! ### Outcomes -/

@[simp] theorem State.outcome_ok (s t : State) : s.outcome (.ok t) = .next t := rfl

@[simp] theorem State.outcome_err (s : State) (e : Err) : s.outcome (.error (.err e)) = .next (s.raise e) := rfl

@[simp] theorem State.outcome_fault (s : State) (f : Fault) : s.outcome (.error (.fault f)) = .fault f := rfl

@[simp] theorem State.outcome_refuse (s : State) (r : Refusal) : s.outcome (.error (.refuse r)) = .refused r := rfl

/-- An outcome is a next state only for a result or a raise. -/
theorem State.outcome_next {s t : State} {r : Run State} (h : s.outcome r = .next t) :
    r = .ok t ∨ ∃ e, r = .error (.err e) ∧ t = s.raise e := by
  cases r with
  | ok u => injection h with h; exact .inl (h ▸ rfl)
  | error e =>
    cases e with
    | err e => injection h with h; exact .inr ⟨e, rfl, h.symm⟩
    | fault f => cases h
    | refuse r => cases h

theorem State.command_overlong (s : State) (body : State → Run State) (h : s.bufCap.toNat < s.inLen.toNat) :
    s.command body = .next (s.raise .alloc) := if_pos h

theorem State.command_body (s : State) (body : State → Run State) (h : s.inLen.toNat ≤ s.bufCap.toNat) :
    s.command body = s.outcome (body s.begin) := if_neg (Nat.not_lt.2 h)

/-- Everything a command can answer as a next state. -/
theorem State.command_next {s t : State} {body : State → Run State} (h : s.command body = .next t) :
    (∃ e, t = s.raise e) ∨ (s.inLen.toNat ≤ s.bufCap.toNat ∧ body s.begin = .ok t) := by
  unfold State.command at h
  split at h
  · injection h with h
    exact .inl ⟨_, h.symm⟩
  · rcases State.outcome_next h with h | ⟨e, -, rfl⟩
    · exact .inr ⟨Nat.not_lt.1 ‹_›, h⟩
    · exact .inl ⟨e, rfl⟩

/-- What a raise leaves for the host to see (R252). -/
theorem State.raise_failed (s : State) (e : Err) : (s.raise e).failedWith e := ⟨rfl, rfl, rfl⟩

/-- What the end of a successful command leaves for the host to see. -/
theorem State.finish_succeeded (s : State) (r : Results) : (s.finish r).succeeded := ⟨rfl, rfl⟩

theorem State.finish_output (s : State) (r : Results) : (s.finish r).output = s.output :=
  State.bytes_congr _ _ _ _ _ fun a ha => by
    have h : a < s.outLen.toNat := ha
    simp only [State.peek, State.mem, State.finish_outMem, Memory.read_below, if_pos h]

theorem State.finish_resOuter (s : State) (r : Results) (o : Byte) (h : r.outer = some o) :
    (s.finish r).resOuter = o := by
  simp [State.finish, h]

theorem State.finish_resW (s : State) (r : Results) (w : Word) (h : r.w = some w) : (s.finish r).resW = w := by
  simp [State.finish, h]

theorem State.finish_resH (s : State) (r : Results) (x : Word) (h : r.h = some x) : (s.finish r).resH = x := by
  simp [State.finish, h]

theorem State.finish_resFlags (s : State) (r : Results) (f : Byte) (h : r.flags = some f) :
    (s.finish r).resFlags = f := by
  simp [State.finish, h]

/-- The next stage reads what the stage before has stored in OUT. -/
theorem State.toMid_peek (s : State) (a : Nat) (b : Byte) (h : s.outMem.read a = some b) (ha : a < s.outLen.toNat) :
    s.toMid.peek s.toMid.src a = b := by
  simp only [State.peek, State.toMid_src, State.mem, State.toMid_midMem, Memory.read_below, if_pos ha, h,
    Option.getD_some]

/-! ### Operands -/

/-- Everything `Accumulate` does when it completes (R144). -/
theorem DecRegs.accumulate_ok {d e : DecRegs} {b : Byte} (h : d.accumulate b = .ok e) :
    d.acc.extractLsb' 56 8 = 0#8 ∧ ((d.acc <<< 8) ||| b.setWidth 64).toNat ≤ 2 ^ 64 - 3 ∧
    e = { d with acc := (d.acc <<< 8) ||| b.setWidth 64, nfrag := true } := by
  unfold DecRegs.accumulate at h
  split at h
  · cases h
  · rename_i h0
    dsimp only at h
    split at h
    · cases h
    · injection h with h
      exact ⟨not_not.1 h0, Nat.not_lt.1 ‹_›, h.symm⟩

/-- The position that the reader has reached after one bit, in bits (R196). -/
theorem HufRegs.takeBit_position (h : HufRegs) (hi : h.ri.toNat ≤ 8) (hb : h.rb.toNat + 1 < 2 ^ 64) :
    8 * h.takeBit.rb.toNat + h.takeBit.ri.toNat = 8 * h.rb.toNat + h.ri.toNat + 1 ∧
    1 ≤ h.takeBit.ri.toNat ∧ h.takeBit.ri.toNat ≤ 8 := by
  unfold HufRegs.takeBit
  split
  · rename_i h8
    simp only [h8, BitVec.toNat_add, BitVec.toNat_ofNat]
    omega
  · rename_i h8
    have hne : h.ri.toNat ≠ 8 := fun e => h8 (BitVec.eq_of_toNat_eq e)
    simp only [BitVec.toNat_add, BitVec.toNat_ofNat]
    omega

@[simp] theorem HufRegs.takeBit_dcur (h : HufRegs) : h.takeBit.dcur = h.dcur := by
  unfold HufRegs.takeBit
  split <;> rfl

@[simp] theorem HufRegs.takeBit_pad (h : HufRegs) : h.takeBit.pad = h.pad := by
  unfold HufRegs.takeBit
  split <;> rfl

/-- Reading a bit where the payload has one (R196). -/
theorem State.peekBit_eq (s : State) (rb ri : Nat) (h : (readerAt rb ri).1 < s.payloadLen)
    (hc : 1 + (readerAt rb ri).1 < s.bufCap.toNat) :
    s.peekBit rb ri = .ok (some ((s.peek s.src (1 + (readerAt rb ri).1)).getLsbD (readerAt rb ri).2)) := by
  simp only [State.peekBit, if_neg (Nat.not_le.2 h), s.inputByte_eq _ hc, bind, Except.bind]

/-! ### Bit writer -/

/-- Everything the advance of the writer does: one bit more, until 64 bits can count no more bytes; then it stays (R183,
log entry 13). -/
theorem HufRegs.advance_position (h : HufRegs) :
    (8 * h.wb.toNat + h.wi.toNat + 1 < 8 * 2 ^ 64 ∧
      8 * h.advance.wb.toNat + h.advance.wi.toNat = 8 * h.wb.toNat + h.wi.toNat + 1) ∨
    (8 * h.wb.toNat + h.wi.toNat + 1 = 8 * 2 ^ 64 ∧ h.advance = h ∧ h.encSize = 2 ^ 64) := by
  have hb := h.wb.isLt
  have hi := h.wi.isLt
  unfold HufRegs.advance
  split
  · rename_i h7
    have hne : h.wi.toNat ≠ 7 := fun e => h7 (BitVec.eq_of_toNat_eq e)
    left
    simp only [BitVec.toNat_add, BitVec.toNat_ofNat]
    omega
  · rename_i h7
    have h7 := not_not.1 h7
    split
    · rename_i ha
      right
      simp [HufRegs.encSize, h7, ha]
    · rename_i ha
      have hne : h.wb.toNat ≠ 2 ^ 64 - 1 := fun e => ha (BitVec.eq_of_toNat_eq (by simpa using e))
      left
      simp only [h7, BitVec.toNat_add, BitVec.toNat_ofNat]
      omega

/-- `enc_size` is the number of bytes that hold a written bit (R188). -/
theorem HufRegs.encSize_eq (h : HufRegs) : h.encSize = (8 * h.wb.toNat + h.wi.toNat + 7) / 8 := by
  have hi := h.wi.isLt
  unfold HufRegs.encSize
  split
  · rename_i h0
    simp only [h0, BitVec.toNat_ofNat]
    omega
  · rename_i h0
    have : h.wi.toNat ≠ 0 := fun e => h0 (BitVec.eq_of_toNat_eq e)
    omega

/-- Everything `WriteBit` does where the byte exists (R183). -/
theorem State.writeBit_stored (s : State) (v : Bool) (h : s.huf.wb.toNat < s.bufCap.toNat) :
    s.writeBit v = .ok { s with
      outMem := s.outMem.write s.huf.wb.toNat
        ((if s.huf.wi = 0#3 then 0#8 else s.peek .out s.huf.wb.toNat) |||
          ((BitVec.ofBool v).setWidth 8 <<< s.huf.wi.toNat)),
      huf := s.huf.advance } := by
  by_cases h0 : s.huf.wi = 0#3
  all_goals
    simp only [State.writeBit, if_pos h, h0, bind, Except.bind, if_true, if_false, s.memRead_eq .out _ h,
      s.memWrite_eq .out _ _ h]
    rfl

/-- Everything `WriteBit` does past `BUF_CAP`: it counts (R183). -/
theorem State.writeBit_counted (s : State) (v : Bool) (h : s.bufCap.toNat ≤ s.huf.wb.toNat) :
    s.writeBit v = .ok { s with huf := s.huf.advance } := by
  simp only [State.writeBit, if_neg (Nat.not_lt.2 h), bind, Except.bind]

/-! ### Tree -/

@[simp] theorem Tree.put_root (t : Tree) (l : Link) (n : TreeNode) : (t.put l n).root = t.root := rfl

@[simp] theorem Tree.put_nyt (t : Tree) (l : Link) (n : TreeNode) : (t.put l n).nyt = t.nyt := rfl

@[simp] theorem Tree.put_nnodes (t : Tree) (l : Link) (n : TreeNode) : (t.put l n).nnodes = t.nnodes := rfl

@[simp] theorem Tree.put_sym (t : Tree) (l : Link) (n : TreeNode) : (t.put l n).sym = t.sym := rfl

@[simp] theorem Tree.put_unode (t : Tree) (l : Link) (n : TreeNode) : (t.put l n).unode = t.unode := rfl

@[simp] theorem Tree.put_symOf (t : Tree) (l : Link) (n : TreeNode) (b : Byte) :
    (t.put l n).symOf b = t.symOf b := rfl

theorem Tree.node_put_same (t : Tree) (l : Link) (n : TreeNode) (h : l.toNat < 513) : (t.put l n).node l = n := by
  simp [Tree.node, Tree.put, h]

theorem Tree.node_put_other (t : Tree) (l m : Link) (n : TreeNode) (h : m ≠ l) : (t.put l n).node m = t.node m := by
  have hn : ¬ l.toNat = m.toNat := fun e => h (BitVec.eq_of_toNat_eq e).symm
  simp [Tree.node, Tree.put, hn]

@[simp] theorem Tree.node_setSym (t : Tree) (b : Byte) (l m : Link) : (t.setSym b l).node m = t.node m := rfl

@[simp] theorem Tree.setSym_root (t : Tree) (b : Byte) (l : Link) : (t.setSym b l).root = t.root := rfl

@[simp] theorem Tree.setSym_nyt (t : Tree) (b : Byte) (l : Link) : (t.setSym b l).nyt = t.nyt := rfl

@[simp] theorem Tree.setSym_nnodes (t : Tree) (b : Byte) (l : Link) : (t.setSym b l).nnodes = t.nnodes := rfl

theorem Tree.symOf_setSym_same (t : Tree) (b : Byte) (l : Link) : (t.setSym b l).symOf b = l := by
  simp [Tree.symOf, Tree.setSym]

theorem Tree.symOf_setSym_other (t : Tree) (b c : Byte) (l : Link) (h : c ≠ b) :
    (t.setSym b l).symOf c = t.symOf c := by
  have hn : b.toNat ≠ c.toNat := fun e => h (BitVec.eq_of_toNat_eq e).symm
  simp [Tree.symOf, Tree.setSym, hn]

/-! ### Reconstruction -/

/-- Everything the fill of a horizontal run does (R146). -/
theorem State.fill_ok (a : Nat) (v : Byte) (k : Nat) (s : State) (h : a + k ≤ s.bufCap.toNat) :
    ∃ m, State.fill a v k s = .ok { s with outMem := m } ∧
      ∀ b, Memory.read m b = if a ≤ b ∧ b < a + k then some v else Memory.read s.outMem b := by
  induction k generalizing a s with
  | zero =>
    refine ⟨s.outMem, rfl, fun b => ?_⟩
    rw [if_neg (by omega)]
  | succ k ih =>
    obtain ⟨m, hm, hr⟩ := ih (a + 1) { s with outMem := s.outMem.write a v } (by simp only; omega)
    refine ⟨m, ?_, fun b => ?_⟩
    · have e := s.memWrite_eq .out a v (by omega)
      simp only [State.fill, bind, Except.bind, e]
      exact hm
    · rw [hr]
      by_cases hb : b = a
      · subst hb
        rw [if_neg (by omega), if_pos (by omega)]
        exact Memory.read_write_same _ _ _
      · rw [Memory.read_write_other _ _ _ _ hb]
        by_cases hc : a + 1 ≤ b ∧ b < a + 1 + k
        · rw [if_pos hc, if_pos (by omega)]
        · rw [if_neg hc, if_neg (by omega)]

/-! ### Group packer -/

/-- What an item that does not fill its group changes: the packer only (R127). -/
theorem State.put_stages (s : State) (c : Bool) (b : Byte) (h : s.enc.gcnt.toNat < 7) :
    s.put c b = .ok { s with
      enc := { s.enc with
        g := if c then s.enc.g ||| (1#8 <<< s.enc.gcnt.toNat) else s.enc.g,
        gbuf := s.enc.gbuf.setIfInBounds s.enc.gcnt.toNat b, gcnt := s.enc.gcnt + 1#4 } } := by
  have hn : ¬ (s.enc.gcnt + 1#4).toNat = 8 := by
    rw [BitVec.toNat_add]
    simp only [BitVec.toNat_ofNat]
    omega
  unfold State.put
  exact if_neg hn

/-- What a flush writes (R127). -/
theorem State.flush_ok {s t : State} (h : s.flush = .ok t) :
    ∃ u, s.appendAll s.dest (s.enc.g :: s.enc.gbuf.toList.take s.enc.gcnt.toNat) = .ok u ∧
      t = { u with enc := { u.enc with g := 0#8, gcnt := 0#4 } } := by
  simp only [State.flush, bind, Except.bind] at h
  split at h
  · cases h
  · injection h with h
    exact ⟨_, ‹_›, h.symm⟩

end Sys2Proof.Machine
end

