-- ==== Sys2Proof/Laws/PerInstr.lean ====
section
/-! SUPPORT. A law per instruction: its written form has the length that its format gives it (R85 to R98, R215). -/

namespace Sys2Proof

theorem beBytes_length (k v : Nat) : (beBytes k v).length = k := by
  induction k with
  | zero => rfl
  | succ k ih => simp [beBytes, ih]

theorem byteCountFrom_le (v k fuel : Nat) : byteCountFrom v k fuel ≤ k + fuel := by
  induction fuel generalizing k with
  | zero => exact Nat.le_refl _
  | succ fuel ih =>
    unfold byteCountFrom
    split
    · omega
    · have := ih (k + 1)
      omega

theorem byteCount_le (v : Nat) : byteCount v ≤ 8 := by
  have := byteCountFrom_le v 0 8
  exact this

theorem runDigits_length (n : Nat) : 1 ≤ (runDigits n).length ∧ (runDigits n).length ≤ 8 := by
  have := byteCount_le (n - 2)
  rw [runDigits, beBytes_length]
  omega

/-- Length of a format's written form in bytes, or in bits for the two formats of the Huffman payload (R85). -/
def Format.length : Format → Nat
  | .s => 1
  | .dw k => k.toNat + 1
  | .dh k => k.toNat + 1
  | .g => 1
  | .c => 1
  | .v => 1
  | .o => 1
  | .b => 1
  | .l => 8
  | .x => 1
  | .run digits => digits + 1
  | .cmd => 1

namespace Laws.EncodeFits

/-- The written form of the instruction has its format's length, which is at least 1 and at most 9; it is in bits for
CODE and ESC and in bytes for every other instruction. -/
def Statement (i : Instr) : Prop :=
  1 ≤ i.format.length ∧ i.format.length ≤ 9 ∧
  match encode i with
  | .bytes bs => bs.length = i.format.length ∧ i.format ≠ .b ∧ i.format ≠ .l
  | .bits bs => bs.length = i.format.length ∧ (i.format = .b ∨ i.format = .l)

theorem set (scan model : Bool) (kw kh : BitVec 3) : Statement (.set scan model kw kh) := by
  simp [Statement, encode, Instr.format, Format.length]

theorem dimw (k : BitVec 3) (w : Word) : Statement (.dimw k w) := by
  have := k.isLt
  refine ⟨?_, ?_, ?_⟩
  · simp [Instr.format, Format.length]
  · simp only [Instr.format, Format.length]
    omega
  · simp [encode, Instr.format, Format.length, beBytes_length]

theorem dimh (k : BitVec 3) (h : Word) : Statement (.dimh k h) := by
  have := k.isLt
  refine ⟨?_, ?_, ?_⟩
  · simp [Instr.format, Format.length]
  · simp only [Instr.format, Format.length]
    omega
  · simp [encode, Instr.format, Format.length, beBytes_length]

theorem grp (c : Byte) : Statement (.grp c) := by
  simp [Statement, encode, Instr.format, Format.length]

theorem cnt (f : Byte) : Statement (.cnt f) := by
  simp [Statement, encode, Instr.format, Format.length]

theorem lit (v : Byte) : Statement (.lit v) := by
  simp [Statement, encode, Instr.format, Format.length]

theorem out (reserved : BitVec 4) (huf : Bool) (pad : BitVec 3) : Statement (.out reserved huf pad) := by
  simp [Statement, encode, Instr.format, Format.length]

theorem code (b : Bool) : Statement (.code b) := by
  simp [Statement, encode, Instr.format, Format.length]

theorem esc (v : Byte) : Statement (.esc v) := by
  simp [Statement, encode, Instr.format, Format.length, literalBits]

theorem raw (x : Byte) : Statement (.raw x) := by
  simp [Statement, encode, Instr.format, Format.length]

theorem run1 (v : Byte) : Statement (.run1 v) := by
  simp [Statement, encode, Instr.format, Format.length]

theorem run2 (v : Byte) : Statement (.run2 v) := by
  simp [Statement, encode, Instr.format, Format.length]

theorem runn (n : Word) (v : Byte) : Statement (.runn n v) := by
  have := runDigits_length n.toNat
  refine ⟨?_, ?_, ?_⟩
  · simp [Instr.format, Format.length]
  · simp only [Instr.format, Format.length]
    omega
  · simp [encode, Instr.format, Format.length]

theorem rleEncH : Statement .rleEncH := by
  simp [Statement, encode, Instr.format, Format.length]

theorem rleEncV : Statement .rleEncV := by
  simp [Statement, encode, Instr.format, Format.length]

theorem rleEncA : Statement .rleEncA := by
  simp [Statement, encode, Instr.format, Format.length]

theorem rleDec : Statement .rleDec := by
  simp [Statement, encode, Instr.format, Format.length]

theorem hufEnc : Statement .hufEnc := by
  simp [Statement, encode, Instr.format, Format.length]

theorem hufDec : Statement .hufDec := by
  simp [Statement, encode, Instr.format, Format.length]

theorem diffFwd : Statement .diffFwd := by
  simp [Statement, encode, Instr.format, Format.length]

theorem diffInv : Statement .diffInv := by
  simp [Statement, encode, Instr.format, Format.length]

theorem compress : Statement .compress := by
  simp [Statement, encode, Instr.format, Format.length]

theorem decompress : Statement .decompress := by
  simp [Statement, encode, Instr.format, Format.length]

end Laws.EncodeFits

end Sys2Proof
end

