-- ==== Sys2Proof/Tests/Slice0.lean ====
section
/-! SUPPORT. Tests with results from the spec's own examples and vectors, and a witness for the hypotheses of each
statement. -/

namespace Sys2Proof.Tests

open Sys2Proof.Machine

/-! ### Well-formedness: an ill-formed term for each check -/

theorem test_dimw_too_wide_is_ill_formed : (Instr.dimw 0#3 256#64).wf = false := by decide

theorem test_dimh_too_wide_is_ill_formed : (Instr.dimh 1#3 0x10000#64).wf = false := by decide

theorem test_runn_of_two_is_ill_formed : (Instr.runn 2#64 0x07#8).wf = false := by decide

theorem test_widest_dimension_is_well_formed : (Instr.dimw 7#3 0xFFFFFFFFFFFFFFFF#64).wf = true := by decide

/-! ### Decoding: words written out from the encodings of 30_encoding.md -/

/-- R87: `1 0 011 010` is scan 1, model 0, K_w - 1 = 3, K_h - 1 = 2. -/
theorem test_decode_set : decode .s (.bytes [0b10011010#8]) = .ok (.set true false 3#3 2#3) := by decide

/-- R88: two bytes `01 33`, big-endian, are 307 (R124). -/
theorem test_decode_dimw : decode (.dw 1#3) (.bytes [0x01#8, 0x33#8]) = .ok (.dimw 1#3 307#64) := by decide

/-- R88: a leading zero byte is accepted. -/
theorem test_decode_dimh : decode (.dh 1#3) (.bytes [0x00#8, 0x02#8]) = .ok (.dimh 1#3 2#64) := by decide

theorem test_decode_grp : decode .g (.bytes [0b00000101#8]) = .ok (.grp 0x05#8) := by decide

theorem test_decode_cnt : decode .c (.bytes [0x2A#8]) = .ok (.cnt 0x2A#8) := by decide

theorem test_decode_lit : decode .v (.bytes [0x09#8]) = .ok (.lit 0x09#8) := by decide

/-- R95: `1010 1 011` is reserved 1010, huf 1, pad 3. -/
theorem test_decode_out : decode .o (.bytes [0b10101011#8]) = .ok (.out 0b1010#4 true 3#3) := by decide

theorem test_decode_raw : decode .x (.bytes [0x61#8]) = .ok (.raw 0x61#8) := by decide

theorem test_decode_code : decode .b (.bits [true]) = .ok (.code true) := by decide

/-- R98: the literal `0x61 = 0110 0001` stands most significant bit first. -/
theorem test_decode_esc :
    decode .l (.bits [false, true, true, false, false, false, false, true]) = .ok (.esc 0x61#8) := by decide

theorem test_decode_run1 : decode (.run 0) (.bytes [0x41#8]) = .ok (.run1 0x41#8) := by decide

theorem test_decode_run2 : decode (.run 1) (.bytes [0x00#8, 0x41#8]) = .ok (.run2 0x41#8) := by decide

/-- R144: fragments `01 2A` count 300. -/
theorem test_decode_runn :
    decode (.run 2) (.bytes [0x01#8, 0x2A#8, 0x09#8]) = .ok (.runn 300#64 0x09#8) := by decide

/-- R215: the command codes. -/
theorem test_decode_commands :
    ([1, 2, 3, 4, 5, 6, 7, 8, 9, 10] : List Nat).map (fun c => (decode .cmd (.bytes [BitVec.ofNat 8 c])).toOption) =
      [some .rleEncH, some .rleEncV, some .rleEncA, some .rleDec, some .hufEnc, some .hufDec, some .diffFwd,
        some .diffInv, some .compress, some .decompress] := by decide

theorem test_decode_no_command :
    decode .cmd (.bytes [0#8]) = .error (.unknownCommand 0#8) ∧
      decode .cmd (.bytes [11#8]) = .error (.unknownCommand 11#8) := by decide

theorem test_decode_wrong_length : decode .s (.bytes []) = .error .wrongLength := by decide

/-- R144: a counter of `2^64 - 2` does not fit with its 2. -/
theorem test_decode_counter_range :
    decode (.run 8) (.bytes [0xFF#8, 0xFF#8, 0xFF#8, 0xFF#8, 0xFF#8, 0xFF#8, 0xFF#8, 0xFE#8, 0x01#8]) =
      .error .counterRange := by decide

/-- R106: the row RUN2 is the items `00`, then the value, the first in the most significant byte. -/
theorem test_table_word_run2 : decodeTableWord 16 0x0007 = some (.run2 0x07#8) := by decide

theorem test_table_word_command : decodeTableWord 8 9 = some .compress := by decide

theorem test_table_word_settings : decodeTableWord 8 0x88 = some (.set true false 1#3 0#3) := by decide

/-! ### Helpers -/

/-- The reset machine with buffers of `cap` bytes and input `bs`. -/
def machine (cap : Word) (bs : List Byte) : State := { State.reset.feed bs with bufCap := cap }

/-- The same with a width, a height and flags. -/
def image (cap w h : Word) (flags : Byte) (bs : List Byte) : State :=
  { machine cap bs with argW := w, argH := h, argFlags := flags }

/-- Whether an outcome is a next state with a property. -/
def ends (o : Host.Outcome State Fault Refusal) (p : State → Bool) : Bool :=
  match o with
  | .next t => p t
  | .fault _ => false
  | .refused _ => false

theorem ends_next {o : Host.Outcome State Fault Refusal} {p : State → Bool} (h : ends o p = true) :
    ∃ t, o = .next t ∧ p t = true := by
  cases o with
  | next t => exact ⟨t, rfl, h⟩
  | fault f => cases h
  | refused r => cases h

/-- Success with an output. -/
def answers (o : Host.Outcome State Fault Refusal) (bs : List Byte) : Bool :=
  ends o fun t => t.status == 0x06#8 && t.err == 0#8 && t.output == bs

/-- Failure with a code. -/
def fails (o : Host.Outcome State Fault Refusal) (code : Byte) : Bool :=
  ends o fun t => t.status == 0x02#8 && t.err == code && t.outLen == 0#64

/-! ### Elements, one step each -/

/-- R141: `BF` asks for 8 + 8 dimension bytes. -/
theorem test_set :
    ends (exec (.set true false 7#3 7#3) (machine 64#64 (List.replicate 17 0#8)))
      (fun t => t.dec.dScan && !t.dec.dModel && t.dec.dKw == 8#4 && t.dec.dKh == 8#4 && t.seq == .rleDimW) := by decide

/-- Vector 5a: the same header in 16 bytes is short. -/
theorem test_set_short : fails (exec (.set true false 7#3 7#3) (machine 64#64 (List.replicate 16 0#8))) 5#8 := by
  decide

theorem test_dimw :
    ends (exec (.dimw 1#3 307#64) State.reset) (fun t => t.dec.dW == 307#64 && t.seq == .rleDimH) := by decide

/-- R142: 3 x 2 pixels in buffers of 6 bytes, and of 5. -/
theorem test_dimh :
    ends (exec (.dimh 0#3 2#64) { machine 6#64 [] with dec := { DecRegs.reset with dW := 3#64, dKw := 1#4, dKh := 1#4 } })
      (fun t => t.dec.dN == 6#64 && t.dec.rp == 3#64 && t.dec.gbit == 8#4 && t.seq == .rlePayload) ∧
    fails (exec (.dimh 0#3 2#64) { machine 5#64 [] with dec := { DecRegs.reset with dW := 3#64 } }) 7#8 := by decide

theorem test_grp :
    ends (exec (.grp 0x05#8) State.reset) (fun t => t.dec.dG == 0x05#8 && t.dec.rp == 1#64 && t.dec.gbit == 0#4) := by
  decide

/-- R144: fragments `01`, `2A` give 298. -/
theorem test_cnt :
    ends (exec (.cnt 0x2A#8) { State.reset with dec := { DecRegs.reset with acc := 1#64, nfrag := true } })
      (fun t => t.dec.acc == 298#64 && t.dec.nfrag && t.dec.rp == 1#64 && t.dec.gbit == 1#4) := by decide

/-- A frame of 3 x 1 pixels inside its payload, the pair (10, v) begun (R146). -/
def inPayload (scan : Bool) (acc : Word) : State :=
  { machine 64#64 [] with
    seq := .rlePayload,
    dec := { DecRegs.reset with
      dScan := scan, dW := 3#64, dH := 1#64, dN := 3#64, acc := acc, nfrag := true, gbit := 1#4, rp := 5#64 } }

/-- R146: the pair (10, 41) in a row of 3 is truncated. -/
theorem test_lit_horizontal :
    ends (exec (.lit 0x41#8) (inPayload true 8#64))
      (fun t => t.bytes .out 3 == [0x41#8, 0x41#8, 0x41#8] && t.dec.written == 3#64 && t.dec.acc == 0#64) := by decide

/-- R148, R250: the same pair in a vertical frame is an overrun; the pair (3, 41) is not. -/
theorem test_lit_vertical :
    fails (exec (.lit 0x41#8) (inPayload false 8#64)) 9#8 ∧
    ends (exec (.lit 0x41#8) (inPayload false 1#64))
      (fun t => t.bytes .out 3 == [0x41#8, 0x41#8, 0x41#8] && t.dec.vx == 3#64 && t.dec.vy == 0#64) := by decide

/-- R95: the reserved bits are ignored. -/
theorem test_out :
    ends (exec (.out 0b1111#4 true 3#3) State.reset)
      (fun t => t.huf.pad == 3#3 && t.tree.nnodes == 1#10 && t.seq == .hufBits) ∧
    ends (exec (.out 0b1111#4 false 3#3) State.reset) (fun t => t.seq == .hufRaw) := by decide

/-- The Huffman decoder behind the literal `41`: the three-node tree of R164. -/
def afterLiteral (cap : Word) (payload : List Byte) : State :=
  let t0 := { machine cap (0x08#8 :: payload) with seq := .hufBits, tree := Tree.reset.init, outLen := 1#64 }
  let p := (t0.tree.split 0x41#8).getD (t0.tree, 0#10)
  { t0 with tree := (p.1.update p.2).getD p.1, huf := { HufRegs.reset with rb := 0#64, ri := 8#4 } }

/-- R203: 1 is the right child, slot 2; 0 the left child, slot 1, the NYT leaf; R196: the byte is left late. -/
theorem test_code :
    ends (exec (.code true) (afterLiteral 64#64 [0x82#8, 0#8]))
      (fun t => t.huf.dcur == 2#10 && t.huf.rb == 1#64 && t.huf.ri == 1#4) ∧
    ends (exec (.code false) (afterLiteral 64#64 [0x82#8, 0#8])) (fun t => t.huf.dcur == t.tree.nyt) := by decide +kernel

theorem test_code_at_a_leaf : fails (exec (.code true) { State.reset with tree := Tree.reset.init }) 14#8 := by decide +kernel

/-- R204: the first literal. -/
theorem test_esc :
    ends (exec (.esc 0x41#8) { State.reset with tree := Tree.reset.init, seq := .hufBits })
      (fun t => t.output == [0x41#8] && t.huf.ri == 8#4 && t.tree.symOf 0x41#8 == 2#10) := by decide +kernel

/-- R268: a symbol that has a leaf. -/
theorem test_esc_twice : fails (exec (.esc 0x41#8) (afterLiteral 64#64 [])) 15#8 := by decide +kernel

theorem test_raw :
    ends (exec (.raw 0x61#8) State.reset) (fun t => t.output == [0x61#8] && t.huf.rb == 1#64) ∧
    fails (exec (.raw 0x61#8) (machine 0#64 [])) 4#8 := by decide

/-- R126: the items of runs of 1, 2 and 300, with their classes. -/
theorem test_runs :
    ends (exec (.run1 0x05#8) State.reset) (fun t => t.openItems == [(false, 0x05#8)]) ∧
    ends (exec (.run2 0x05#8) State.reset) (fun t => t.openItems == [(true, 0x00#8), (false, 0x05#8)]) ∧
    ends (exec (.runn 300#64 0x09#8) State.reset)
      (fun t => t.openItems == [(true, 0x01#8), (true, 0x2A#8), (false, 0x09#8)]) := by decide

/-- R127: the eighth item writes the group byte and the items. -/
theorem test_run_fills_group :
    ends (exec (.run2 0x09#8)
        { State.reset with enc := { EncRegs.reset with gcnt := 6#4, gbuf := Vector.replicate 8 0x01#8 } })
      (fun t => t.output == [0x40#8, 1#8, 1#8, 1#8, 1#8, 1#8, 1#8, 0#8, 0x09#8] && t.enc.gcnt == 0#4) := by decide

/-! ### Commands, on the vectors of 95_test_vectors.md and the examples of the rules -/

/-- Scenario 2. -/
theorem test_rle_enc_h :
    answers (exec .rleEncH (image 64#64 2#64 1#64 0#8 [0#8, 1#8]))
      [0x80#8, 2#8, 1#8, 0#8, 0#8, 1#8, 0#8] := by decide

/-- Vector RE51v. -/
theorem test_rle_enc_v :
    answers (exec .rleEncV (image 64#64 2#64 3#64 0#8 [1#8, 2#8, 3#8, 4#8, 5#8, 6#8]))
      [0#8, 2#8, 3#8, 0#8, 1#8, 3#8, 5#8, 2#8, 4#8, 6#8, 0#8] := by decide

/-- Vectors RE50a (a tie goes to vertical) and RE53a (horizontal is shorter). -/
theorem test_rle_enc_a :
    answers (exec .rleEncA (image 64#64 2#64 2#64 0#8 [1#8, 2#8, 3#8, 4#8]))
      [0#8, 2#8, 2#8, 0#8, 1#8, 3#8, 2#8, 4#8, 0#8] ∧
    answers (exec .rleEncA (image 64#64 3#64 2#64 0#8 [7#8, 7#8, 7#8, 8#8, 8#8, 8#8]))
      [0x80#8, 3#8, 2#8, 5#8, 1#8, 7#8, 1#8, 8#8, 0#8] := by decide

/-- Vectors RE60 and RE62. -/
theorem test_rle_enc_faults :
    fails (exec .rleEncH (image 64#64 0#64 1#64 0#8 [])) 2#8 ∧
    fails (exec .rleEncH (image 64#64 3#64 2#64 0#8 [1#8, 1#8, 1#8, 1#8, 1#8])) 3#8 := by decide

/-- R146's example, and the same dimensions with leading zero bytes (vector 5c). -/
theorem test_rle_dec :
    answers (exec .rleDec (machine 64#64 [0x80#8, 3#8, 1#8, 1#8, 8#8, 0x41#8])) [0x41#8, 0x41#8, 0x41#8] ∧
    answers (exec .rleDec (machine 64#64 [0xB8#8, 0#8, 0#8, 0#8, 0#8, 0#8, 0#8, 0#8, 2#8, 1#8, 0#8, 5#8, 6#8]))
      [5#8, 6#8] := by decide

/-- Vectors RD4 (no payload) and RD6 (height 0). -/
theorem test_rle_dec_faults :
    fails (exec .rleDec (machine 64#64 [0x80#8, 2#8, 1#8])) 10#8 ∧
    fails (exec .rleDec (machine 64#64 [0x80#8, 1#8, 0#8, 0#8, 5#8])) 6#8 := by decide

/-- R66: the literal 41 is stored as 82; scenario 4: pass-through is not taken when the coded form is shorter. -/
theorem test_huf_enc :
    answers (exec .hufEnc (machine 64#64 [0x41#8])) [0x82#8] ∧
    answers (exec .hufEnc (machine 64#64 [0#8, 1#8, 0#8, 1#8, 0#8, 1#8, 0#8, 1#8])) [0#8, 0#8, 0xDB#8, 0x02#8] := by
  decide +kernel

/-- R202's example, R204's example, and scenario 4 back. -/
theorem test_huf_dec :
    answers (exec .hufDec (machine 64#64 [0#8, 0x61#8, 0x62#8, 0x63#8])) [0x61#8, 0x62#8, 0x63#8] ∧
    answers (exec .hufDec (machine 64#64 [0x08#8, 0x82#8])) [0x41#8] ∧
    answers (exec .hufDec (machine 64#64 [0x0E#8, 0#8, 0#8, 0xDB#8, 0x02#8]))
      [0#8, 1#8, 0#8, 1#8, 0#8, 1#8, 0#8, 1#8] := by decide +kernel

/-- R223's example. -/
theorem test_diff_fwd :
    answers (exec .diffFwd (machine 64#64 [0#8, 1#8, 2#8, 3#8, 0#8])) [0#8, 1#8, 1#8, 1#8, 0xFD#8] := by decide

/-- R224's examples. -/
theorem test_diff_inv :
    answers (exec .diffInv (machine 64#64 [0#8, 1#8, 1#8, 1#8, 0xFD#8])) [0#8, 1#8, 2#8, 3#8, 0#8] ∧
    answers (exec .diffInv (machine 64#64 [0xFF#8, 2#8])) [0xFF#8, 1#8] := by decide

/-- Scenario 3, model 0 and 1. -/
theorem test_compress :
    answers (exec .compress (image 64#64 10#64 0#64 0#8 (List.replicate 10 0x41#8)))
      [0#8, 0x80#8, 10#8, 1#8, 1#8, 8#8, 0x41#8, 0#8] ∧
    answers (exec .compress (image 64#64 10#64 0#64 1#8 (List.replicate 10 0x41#8)))
      [0#8, 0xC0#8, 10#8, 1#8, 2#8, 0x41#8, 7#8, 0#8, 0#8] := by decide +kernel

/-- Scenario 3 back. -/
theorem test_decompress :
    answers (exec .decompress (machine 64#64 [0#8, 0xC0#8, 10#8, 1#8, 2#8, 0x41#8, 7#8, 0#8, 0#8]))
      (List.replicate 10 0x41#8) ∧
    answers (exec .decompress (machine 64#64 [0x08#8, 0#8, 0xA0#8, 0#8, 0x6C#8, 0x20#8, 0x46#8, 0xF0#8]))
      (List.replicate 10 0x41#8) := by decide +kernel

/-! ### Steps -/

/-- R242: `CMD` 0 is no command. -/
theorem test_step_bad_command : fails (step { State.reset with pending := [.writeCmd 0#8] }) 1#8 := by decide

/-- A table word placed where the step fetches is what it runs: DIFF_FWD, SET `88`, RUN2. -/
theorem test_step_with_fetch_word :
    ends (step (State.reset.withFetchWord 8 7)) (fun t => t.status == 0x06#8 && t.cmd == 7#8) ∧
    ends (step (State.reset.withFetchWord 8 0x88)) (fun t => t.seq == .rleDimW && t.dec.dKw == 2#4 && t.dec.dKh == 1#4) ∧
    ends (step (State.reset.withFetchWord 16 0x0007))
      (fun t => t.seq == .encClose && t.openItems == [(true, 0x00#8), (false, 0x07#8)]) := by decide

/-! ### Witnesses: for each statement with hypotheses, values that meet them together -/

theorem witness_DecodeOfEncode :
    (Instr.dimw 0#3 255#64).wf = true ∧ (Instr.dimh 7#3 0xFFFFFFFFFFFFFFFF#64).wf = true ∧
      (Instr.runn 3#64 0x00#8).wf = true := by decide

theorem witness_EncodeOfDecode :
    ∃ (f : Format) (c : Code) (i : Instr), (∀ k, f ≠ .run k) ∧ decode f c = .ok i :=
  ⟨.s, .bytes [0xBF#8], .set true false 7#3 7#3, fun k => by simp, by decide⟩

theorem witness_LeadingZeroDigitsChangeNothing : ∃ digits : List Byte, digits ≠ [] := ⟨[0x05#8], by decide⟩

theorem witness_CommandCodesAreOneToTen :
    (1 ≤ (1#8).toNat ∧ (1#8).toNat ≤ 10) ∧ (1 ≤ (10#8).toNat ∧ (10#8).toNat ≤ 10) ∧
      ((0#8).toNat = 0 ∨ 10 < (0#8).toNat) ∧ ((11#8).toNat = 0 ∨ 10 < (11#8).toNat) := by decide

theorem witness_RunDigitsSpellTheCounter :
    ∃ n : Nat, 2 ≤ n ∧ n < 2 ^ 64 ∧ 1 < (runDigits n).length := ⟨2 ^ 64 - 1, by decide⟩

theorem witness_StepRunsTheWrittenCommand :
    ∃ (s : State) (c : Byte) (rest : List HostAccess) (i : Instr),
      s.seq = .host ∧ statusBusy s.status = false ∧ s.pending = .writeCmd c :: rest ∧
      decode .cmd (.bytes [c]) = .ok i :=
  ⟨{ State.reset with pending := [.writeCmd 10#8] }, 10#8, [], .decompress, by decide⟩

/-- A machine in stream position `q` over a frame. -/
def inStream (q : Seq) (frame : List Byte) : State := { machine 64#64 frame with seq := q }

theorem witness_StepRunsTheByteAtTheCursor_settings :
    ∃ (s : State) (i : Instr), 0 < s.inputLen ∧ 0 < s.bufCap.toNat ∧ s.seq = .rleSet ∧
      decode .s (.bytes [s.peek s.src 0]) = .ok i :=
  ⟨inStream .rleSet [0x80#8], .set true false 0#3 0#3, by decide⟩

/-- A frame at its payload byte 3 with two pixels to come, `k` items of group byte 1 read. -/
def atItem (k : BitVec 4) : State :=
  { inStream .rlePayload [0x80#8, 2#8, 1#8, 1#8] with
    dec := { DecRegs.reset with rp := 3#64, dN := 2#64, gbit := k, dG := 0x01#8 } }

theorem witness_StepRunsTheByteAtTheCursor_payload :
    (∀ k ∈ [8#4, 0#4, 7#4], 3 < (atItem k).inputLen ∧ 3 < (atItem k).bufCap.toNat ∧ (atItem k).seq = .rlePayload ∧
      3 = (atItem k).dec.rp.toNat ∧ (atItem k).dec.written.toNat < (atItem k).dec.dN.toNat) ∧
    ((atItem 8#4).dec.gbit = 8#4 ∧ (atItem 0#4).dec.dG.getLsbD 0 = true ∧ (atItem 7#4).dec.dG.getLsbD 7 = false) ∧
    decode .g (.bytes [(atItem 8#4).peek (atItem 8#4).src 3]) = .ok (.grp 1#8) ∧
    decode .c (.bytes [(atItem 0#4).peek (atItem 0#4).src 3]) = .ok (.cnt 1#8) ∧
    decode .v (.bytes [(atItem 7#4).peek (atItem 7#4).src 3]) = .ok (.lit 1#8) := by decide

theorem witness_StepRunsTheByteAtTheCursor_outer :
    ∃ (s : State) (i : Instr), 0 < s.inputLen ∧ 0 < s.bufCap.toNat ∧ s.seq = .hufOuter ∧
      decode .o (.bytes [s.peek s.src 0]) = .ok i :=
  ⟨inStream .hufOuter [0x0B#8], .out 0#4 true 3#3, by decide⟩

theorem witness_StepRunsTheByteAtTheCursor_raw :
    ∃ (s : State) (i : Instr), 1 < s.inputLen ∧ 1 < s.bufCap.toNat ∧ s.seq = .hufRaw ∧ 1 = 1 + s.huf.rb.toNat ∧
      decode .x (.bytes [s.peek s.src 1]) = .ok i :=
  ⟨inStream .hufRaw [0x00#8, 0x61#8], .raw 0x61#8, by decide⟩

theorem witness_StepRunsTheDimensionFields_width :
    ∃ (s : State) (k : BitVec 3) (i : Instr), 1 + k.toNat < s.bufCap.toNat ∧ s.seq = .rleDimW ∧
      s.dec.dKw.toNat = k.toNat + 1 ∧
      decode (.dw k) (.bytes ((List.range (k.toNat + 1)).map fun j => s.peek s.src (1 + j))) = .ok i :=
  ⟨{ inStream .rleDimW [0xB8#8, 0#8, 0#8, 0#8, 0#8, 0#8, 0#8, 0#8, 2#8, 1#8] with
      dec := { DecRegs.reset with dKw := 8#4, dKh := 1#4 }, bufCap := 9#64 }, 7#3, .dimw 7#3 2#64, by decide⟩

theorem witness_StepRunsTheDimensionFields_height :
    ∃ (s : State) (k : BitVec 3) (i : Instr), 1 + s.dec.dKw.toNat + k.toNat < s.bufCap.toNat ∧ s.seq = .rleDimH ∧
      s.dec.dKh.toNat = k.toNat + 1 ∧
      decode (.dh k) (.bytes ((List.range (k.toNat + 1)).map
        fun j => s.peek s.src (1 + s.dec.dKw.toNat + j))) = .ok i :=
  ⟨{ inStream .rleDimH [0x80#8, 2#8, 1#8] with
      dec := { DecRegs.reset with dKw := 1#4, dKh := 1#4 }, bufCap := 3#64 }, 0#3, .dimh 0#3 1#64, by decide⟩

theorem witness_StepRunsTheCodeBitAtTheCursor :
    ∃ (s : State) (j k : Nat), s.seq = .hufBits ∧ s.isEnd = false ∧ s.tree.isInternal s.huf.dcur = true ∧
      (j, k) = (if s.huf.ri.toNat = 8 then (s.huf.rb.toNat + 1, 0) else (s.huf.rb.toNat, s.huf.ri.toNat)) ∧
      j + 1 < s.inputLen ∧ j + 1 < s.bufCap.toNat :=
  ⟨afterLiteral 64#64 [0x82#8, 0x01#8], 1, 0, by decide +kernel⟩

/-- The Huffman decoder at the NYT leaf of the three-node tree, one code bit taken. -/
def atNyt (payload : List Byte) : State :=
  { afterLiteral 64#64 payload with huf := { HufRegs.reset with dcur := 1#10, rb := 1#64, ri := 1#4 } }

theorem witness_StepRunsTheLiteralAtTheCursor :
    (let s := atNyt [0x82#8, 0x00#8, 0x01#8]
     s.seq = .hufBits ∧ s.isEnd = false ∧ s.tree.isInternal s.huf.dcur = false ∧ s.huf.dcur = s.tree.nyt ∧
      s.huf.ri.toNat ≤ 8 ∧ s.inputLen ≤ s.bufCap.toNat ∧
      8 * s.huf.rb.toNat + s.huf.ri.toNat + 8 ≤ 8 * (s.inputLen - 1)) ∧
    (let s := atNyt [0x82#8, 0x00#8]
     s.seq = .hufBits ∧ s.isEnd = false ∧ s.tree.isInternal s.huf.dcur = false ∧ s.huf.dcur = s.tree.nyt ∧
      s.huf.ri.toNat ≤ 8 ∧ s.inputLen ≤ s.bufCap.toNat ∧
      8 * (s.inputLen - 1) < 8 * s.huf.rb.toNat + s.huf.ri.toNat + 8) := by decide +kernel

/-- A scan of the row `5 5 7` with `n` pixels visited, over buffers of `cap` bytes with `k` items staged. -/
def inScan (cap n : Word) (k : BitVec 4) : State :=
  { machine cap [5#8, 5#8, 7#8] with
    seq := .encScan,
    enc := { EncRegs.reset with
      eW := 3#64, eH := 1#64, eN := 3#64, eScan := true, eT := n, cur := 5#8, cnt := n, gcnt := k } }

theorem witness_StepRunsTheOpenRun_extend :
    let s := inScan 64#64 1#64 0#4
    s.seq = .encScan ∧ (s.src = .inp ∨ s.src = .mid) ∧ (s.dest = .out ∨ s.dest = .outb) ∧
      1 = scanAddress s.enc.eScan s.enc.eW.toNat s.enc.eH.toNat s.enc.eT.toNat ∧ s.enc.eT.toNat < s.enc.eN.toNat ∧
      1 < s.bufCap.toNat ∧ s.peek s.src 1 = s.enc.cur := by decide

/-- The run is written, in the middle of the scan (`n = 2`) and at its end (`n = 3`). -/
theorem witness_StepRunsTheOpenRun_write :
    (∃ s t : State, s.seq = .encScan ∧ (s.src = .inp ∨ s.src = .mid) ∧ (s.dest = .out ∨ s.dest = .outb) ∧
      2 = scanAddress s.enc.eScan s.enc.eW.toNat s.enc.eH.toNat s.enc.eT.toNat ∧ s.enc.eT.toNat < s.enc.eN.toNat ∧
      2 < s.bufCap.toNat ∧ s.peek s.src 2 ≠ s.enc.cur ∧ exec (runForm s.enc.cnt s.enc.cur) s = .next t ∧
      t.seq = .encScan) ∧
    (∃ s t : State, s.seq = .encScan ∧ s.enc.eN.toNat ≤ s.enc.eT.toNat ∧
      exec (runForm s.enc.cnt s.enc.cur) s = .next t ∧ t.seq = .encScan) := by
  obtain ⟨t, h, p⟩ := ends_next (o := exec (.run2 5#8) (inScan 64#64 2#64 0#4))
    (p := fun t => decide (t.seq = .encScan)) (by decide +kernel)
  obtain ⟨u, k, q⟩ := ends_next (o := exec (.runn 3#64 5#8) (inScan 64#64 3#64 0#4))
    (p := fun t => decide (t.seq = .encScan)) (by decide +kernel)
  exact ⟨⟨inScan 64#64 2#64 0#4, t, by decide, by decide, by decide, by decide, by decide, by decide, by decide, h,
    of_decide_eq_true p⟩, ⟨inScan 64#64 3#64 0#4, u, by decide, by decide, k, of_decide_eq_true q⟩⟩

/-- A group that does not fit in a buffer of 3 bytes. -/
theorem witness_StepRunsTheOpenRun_raise :
    exec (runForm 2#64 5#8) (inScan 3#64 2#64 7#4) = .next ((inScan 3#64 2#64 7#4).raise .alloc) ∧
    exec (runForm 3#64 5#8) (inScan 3#64 3#64 7#4) = .next ((inScan 3#64 3#64 7#4).raise .alloc) ∧
    2 < (inScan 3#64 2#64 7#4).bufCap.toNat ∧ (inScan 3#64 2#64 7#4).peek .inp 2 ≠ 5#8 := ⟨rfl, rfl, by decide, by decide⟩

theorem witness_UnknownCommandIsBadCmd :
    ∀ c ∈ [0#8, 11#8, 255#8], ∃ (s : State) (rest : List HostAccess), s.seq = .host ∧
      statusBusy s.status = false ∧ s.pending = .writeCmd c :: rest ∧ (c.toNat = 0 ∨ 10 < c.toNat) :=
  fun c hc => ⟨{ State.reset with pending := [.writeCmd c] }, [], rfl, rfl, rfl, by revert c; decide⟩

/-- The reset machine with one access to come. -/
def withAccess (a : HostAccess) : State := { State.reset with pending := [a] }

theorem witness_HostWritesChangeOnlyTheirTarget :
    (State.reset.seq = .host ∧ State.reset.pending = []) ∧
    (∀ a ∈ [HostAccess.writeInLen 5#64, .writeArgW 1#64, .writeArgH 2#64, .writeArgFlags 3#8, .writeIn 0xFFFFF#64 7#8,
        .writeIn 0x100000#64 7#8],
      (withAccess a).seq = .host ∧ statusBusy (withAccess a).status = false ∧ (withAccess a).pending = [a]) ∧
    (0xFFFFF#64).toNat < State.reset.bufCap.toNat ∧ State.reset.bufCap.toNat ≤ (0x100000#64).toNat := by decide

theorem witness_OverlongInputIsAllocFault :
    ∃ (i : Instr) (s : State), i.isCommand = true ∧ s.bufCap.toNat < s.inLen.toNat :=
  ⟨.rleDec, machine 1#64 [0#8, 0#8], by decide⟩

theorem witness_ArgumentTestsRaiseTheirFaults :
    (∀ s ∈ [image 4#64 0#64 1#64 0#8 [], image 4#64 1#64 0#64 0#8 [1#8], image 4#64 3#64 1#64 0#8 [1#8, 2#8, 3#8, 4#8]],
      s.inLen.toNat ≤ s.bufCap.toNat) ∧
    (image 4#64 0#64 1#64 0#8 []).argW = 0#64 ∧ (image 4#64 0#64 1#64 0#8 []).inLen = 0#64 ∧
    (image 4#64 1#64 0#64 0#8 [1#8]).argH = 0#64 ∧
    (let s := image 4#64 3#64 1#64 0#8 [1#8, 2#8, 3#8, 4#8]
     s.argW ≠ 0#64 ∧ s.argH ≠ 0#64 ∧ s.argW.toNat * s.argH.toNat ≠ s.inLen.toNat ∧ s.inLen ≠ 0#64 ∧
      s.inLen.toNat % s.argW.toNat ≠ 0) := by decide

theorem witness_SetReadsTheSettings :
    (0#3).toNat + (0#3).toNat + 3 ≤ (machine 64#64 [0#8, 1#8, 1#8]).inputLen ∧
      (machine 64#64 [0#8, 1#8]).inputLen < (0#3).toNat + (0#3).toNat + 3 := by decide

theorem witness_DimensionsBeginThePayload :
    let s : State := { machine 6#64 [] with dec := { DecRegs.reset with dW := 3#64 } }
    State.reset.dec.dW = 0#64 ∧ s.dec.dW ≠ 0#64 ∧ 2#64 ≠ 0#64 ∧ s.dec.dW.toNat * (2#64).toNat ≤ s.bufCap.toNat ∧
      3#64 ≠ 0#64 ∧ s.bufCap.toNat < s.dec.dW.toNat * (3#64).toNat := by decide

/-- A decoder with accumulator `a`. -/
def withAcc (a : Word) : State := { State.reset with dec := { DecRegs.reset with acc := a } }

theorem witness_CntAccumulatesOrOverflows :
    (let s := withAcc 0xFFFFFFFFFFFFFF#64
     s.dec.acc.toNat < 2 ^ 56 ∧ s.dec.acc.toNat * 256 + (0xFD#8).toNat ≤ 2 ^ 64 - 3 ∧
      2 ^ 64 - 3 < s.dec.acc.toNat * 256 + (0xFE#8).toNat) ∧
    2 ^ 56 ≤ (withAcc 0x100000000000000#64).dec.acc.toNat := by decide

theorem witness_LitWritesAHorizontalRun :
    let s := inPayload true 8#64
    s.dec.dScan = true ∧ s.dec.written.toNat ≤ s.dec.dN.toNat ∧ s.dec.dN.toNat ≤ s.bufCap.toNat := by decide

theorem witness_LitWritesAVerticalRun :
    (let s := inPayload false 1#64
     s.dec.dScan = false ∧ s.payloadSound ∧ 3 = (if s.dec.nfrag then s.dec.acc.toNat + 2 else 1) ∧
      3 ≤ s.dec.dN.toNat - s.dec.written.toNat) ∧
    (let s := inPayload false 2#64
     s.dec.dScan = false ∧ s.payloadSound ∧ 4 = (if s.dec.nfrag then s.dec.acc.toNat + 2 else 1) ∧
      s.dec.dN.toNat - s.dec.written.toNat < 4) := by decide

/-- A packer with 7 items staged, over buffers of `cap` bytes. -/
def sevenStaged (cap : Word) : State :=
  { machine cap [] with enc := { EncRegs.reset with gcnt := 7#4, gbuf := Vector.replicate 8 0x01#8 } }

theorem witness_RunFormsPackTheirItems :
    ∃ (s : State) (n : Word) (v : Byte) (items : List (Bool × Byte)) (r : List Byte × List (Bool × Byte)),
      s.packerSound ∧ 1 ≤ n.toNat ∧ items = s.openItems ++ Reference.runItems n.toNat v ∧
      r = Reference.fullGroups items.length items ∧ r.1.length = 9 ∧
      (s.len s.dest).toNat + r.1.length ≤ s.bufCap.toNat :=
  ⟨sevenStaged 9#64, 1#64, 0x01#8, List.replicate 8 (false, 0x01#8), (0x00#8 :: List.replicate 8 0x01#8, []),
    by decide⟩

theorem witness_RunFormsRaiseAllocWhenFull :
    ∃ (s : State) (n : Word) (v : Byte) (items : List (Bool × Byte)),
      s.packerSound ∧ 1 ≤ n.toNat ∧ items = s.openItems ++ Reference.runItems n.toNat v ∧
      (s.len s.dest).toNat ≤ s.bufCap.toNat ∧
      s.bufCap.toNat < (s.len s.dest).toNat + (Reference.fullGroups items.length items).1.length :=
  ⟨sevenStaged 8#64, 1#64, 0x01#8, List.replicate 8 (false, 0x01#8), by decide⟩

theorem witness_RawAppendsItsByte :
    (machine 1#64 []).outLen.toNat < (machine 1#64 []).bufCap.toNat ∧
      (machine 0#64 []).bufCap.toNat ≤ (machine 0#64 []).outLen.toNat := by decide

theorem witness_CodeDescendsOneStep :
    (let s := afterLiteral 64#64 [0x82#8, 0x01#8]
     (s.tree.node s.huf.dcur).right ≠ nilLink ∧ s.huf.ri.toNat ≤ 8 ∧ s.huf.rb.toNat + 1 < 2 ^ 64) ∧
    (let s := { State.reset with tree := Tree.reset.init }
     (s.tree.node s.huf.dcur).left = nilLink) := by decide +kernel

theorem witness_FirstLiteralMakesTheFirstSplit : 1 ≤ (machine 1#64 []).bufCap.toNat := by decide

/-- The tree of R164's example. -/
def threeNodes : Tree := (afterLiteral 64#64 []).tree

theorem threeNodes_live (l : Link) (h : threeNodes.live l) : l = 0#10 ∨ l = 1#10 ∨ l = 2#10 := by
  have h3 : threeNodes.nnodes.toNat = 3 := by decide +kernel
  have h : l.toNat < 3 := h3 ▸ h
  have : l.toNat = 0 ∨ l.toNat = 1 ∨ l.toNat = 2 := by omega
  exact this.imp (fun e => BitVec.eq_of_toNat_eq e)
    (Or.imp (fun e => BitVec.eq_of_toNat_eq e) (fun e => BitVec.eq_of_toNat_eq e))

theorem threeNodes_forall (p : Link → Prop) (h : p 0#10 ∧ p 1#10 ∧ p 2#10) (l : Link) (hl : threeNodes.live l) :
    p l := by
  rcases threeNodes_live l hl with rfl | rfl | rfl
  · exact h.1
  · exact h.2.1
  · exact h.2.2

theorem threeNodes_valid : threeNodes.Valid 1 where
  size := by decide +kernel
  root_slot := by decide +kernel
  root_parent := by decide +kernel
  nyt_live := by decide +kernel
  nyt_leaf := by decide +kernel
  children := threeNodes_forall _ (by decide +kernel)
  parents := threeNodes_forall _ (by decide +kernel)
  rooted := ⟨fun l => if l = 0#10 then 0 else 1, by decide +kernel, threeNodes_forall _ (by decide +kernel)⟩
  index_range := threeNodes_forall _ (by decide +kernel)
  index_unique := fun l m hl hm => by
    rcases threeNodes_live l hl with rfl | rfl | rfl <;> rcases threeNodes_live m hm with rfl | rfl | rfl <;>
      decide +kernel
  nyt_index := by decide +kernel
  siblings := threeNodes_forall _ (by decide +kernel)
  weight_sum := threeNodes_forall _ (by decide +kernel)
  root_weight := by decide +kernel
  zero_weight := threeNodes_forall _ (by decide +kernel)
  sym_leaf := by decide +kernel
  leaf_sym := threeNodes_forall _ (by decide +kernel)

theorem witness_EscIntroducesItsSymbol :
    let s := afterLiteral 64#64 []
    s.tree.Valid 1 ∧ 1 + 1 < 2 ^ 64 ∧ s.huf.ri.toNat ≤ 8 ∧ s.huf.rb.toNat + 1 < 2 ^ 64 ∧
      s.tree.symOf 0x41#8 ≠ nilLink ∧ s.tree.symOf 0x42#8 = nilLink ∧ s.outLen.toNat < s.bufCap.toNat ∧
      (afterLiteral 1#64 []).tree.Valid 1 ∧ (afterLiteral 1#64 []).tree.symOf 0x42#8 = nilLink ∧
      (afterLiteral 1#64 []).bufCap.toNat ≤ (afterLiteral 1#64 []).outLen.toNat := by
  refine ⟨threeNodes_valid, ?_, ?_, ?_, ?_, ?_, ?_, threeNodes_valid, ?_, ?_⟩ <;> decide +kernel

theorem witness_TreeOperationsKeepTheTreeValid :
    threeNodes.Valid 1 ∧ 1 + 1 < 2 ^ 64 ∧ threeNodes.symOf 0x42#8 = nilLink ∧ threeNodes.symOf 0x41#8 ≠ nilLink :=
  ⟨threeNodes_valid, by decide, by decide +kernel, by decide +kernel⟩

theorem witness_CodesAreAPrefixCode :
    threeNodes.Valid 1 ∧ threeNodes.live 1#10 ∧ threeNodes.isInternal 1#10 = false ∧
      threeNodes.path 1#10 = some [false] ∧ [false] <+: [false] :=
  ⟨threeNodes_valid, by decide +kernel, by decide +kernel, by decide +kernel, List.prefix_refl _⟩

/-- Scenario 2's image. -/
def scenario2 : State := image 64#64 2#64 1#64 0#8 [0#8, 1#8]

theorem scenario2_next (i : Instr) (h : i = .rleEncH ∨ i = .rleEncV ∨ i = .rleEncA) :
    ∃ t, exec i scenario2 = .next t ∧ t.succeeded := by
  have : ends (exec i scenario2) (fun t => decide t.succeeded) = true := by
    rcases h with rfl | rfl | rfl <;> decide +kernel
  obtain ⟨t, ht, hp⟩ := ends_next this
  exact ⟨t, ht, of_decide_eq_true hp⟩

theorem witness_CommandsKeepTheHostsRegisters :
    ∃ (i : Instr) (s t : State), i.isCommand = true ∧ exec i s = .next t := by
  obtain ⟨t, ht, -⟩ := scenario2_next .rleEncH (.inl rfl)
  exact ⟨.rleEncH, scenario2, t, rfl, ht⟩

theorem witness_EveryCommandEnds :
    ∀ i ∈ [Instr.rleEncH, .rleEncV, .rleEncA, .rleDec, .hufEnc, .hufDec, .diffFwd, .diffInv, .compress, .decompress],
      i.isCommand = true := by decide

/-- Two states with the same inputs of HUF_ENC that differ in an argument it does not read and a working register. -/
theorem witness_ReportDependsOnInputsOnly :
    ∃ (i : Instr) (s t : State), i.isCommand = true ∧ s ≠ t ∧ sameInputs i s t :=
  ⟨.hufEnc, scenario2, { scenario2 with argW := 9#64, prev := 7#8 }, rfl, by decide +kernel, rfl, rfl, by
    decide +kernel, by decide, by decide⟩

theorem witness_DiffStatements : (machine 4#64 [1#8, 2#8, 3#8, 4#8]).inLen.toNat ≤
    (machine 4#64 [1#8, 2#8, 3#8, 4#8]).bufCap.toNat := by decide

theorem witness_RleEncodersWriteTheFrame :
    (scenario2.inLen.toNat ≤ scenario2.bufCap.toNat ∧ scenario2.argW ≠ 0#64 ∧ scenario2.argH ≠ 0#64 ∧
      scenario2.argW.toNat * scenario2.argH.toNat = scenario2.inLen.toNat ∧
      (Reference.rleFrame true scenario2.argModel 2 1 scenario2.input).length ≤ scenario2.bufCap.toNat) ∧
    (let s := { scenario2 with bufCap := 6#64 }
     s.inLen.toNat ≤ s.bufCap.toNat ∧ s.argW ≠ 0#64 ∧ s.argH ≠ 0#64 ∧
      s.argW.toNat * s.argH.toNat = s.inLen.toNat ∧
      s.bufCap.toNat < (Reference.rleFrame false s.argModel 2 1 s.input).length) := by decide +kernel

theorem witness_AdaptiveEncoderKeepsTheShorter :
    (let s := { scenario2 with bufCap := 7#64 }
     s.inLen.toNat ≤ s.bufCap.toNat ∧ s.argW ≠ 0#64 ∧ s.argH ≠ 0#64 ∧
      s.argW.toNat * s.argH.toNat = s.inLen.toNat ∧
      (Reference.rleFrame true s.argModel 2 1 s.input).length ≤ s.bufCap.toNat ∧
      (Reference.rleFrame false s.argModel 2 1 s.input).length ≤ s.bufCap.toNat) ∧
    (let s := { scenario2 with bufCap := 6#64 }
     s.inLen.toNat ≤ s.bufCap.toNat ∧ s.argW ≠ 0#64 ∧ s.argH ≠ 0#64 ∧
      s.argW.toNat * s.argH.toNat = s.inLen.toNat ∧
      s.bufCap.toNat < (Reference.rleFrame true s.argModel 2 1 s.input).length) := by decide +kernel

theorem witness_FrameLength :
    ∃ (w h p : Nat) (pixels : List Byte), 1 ≤ w ∧ w < 2 ^ 64 ∧ 1 ≤ h ∧ h < 2 ^ 64 ∧
      p = ((Reference.runs (Reference.scanOrder true w h pixels)).flatMap
        fun r => Reference.runItems r.1 r.2).length ∧ w * h < 2 ^ 64 :=
  ⟨2, 1, 2, [0#8, 1#8], by decide⟩

theorem witness_RleDecoderReadsTheFrame :
    (let s := machine 64#64 [0x80#8, 3#8, 1#8, 1#8, 8#8, 0x41#8]
     s.inLen.toNat ≤ s.bufCap.toNat ∧
      Reference.rleImage s.bufCap.toNat s.input =
        .ok { w := 3, h := 1, model := false, scan := true, pixels := [0x41#8, 0x41#8, 0x41#8] }) ∧
    (let s := machine 64#64 [0x80#8, 2#8, 1#8]
     s.inLen.toNat ≤ s.bufCap.toNat ∧
      Reference.rleImage s.bufCap.toNat s.input = .error .rleDecShortData) := by decide +kernel

theorem witness_RleRoundTrip :
    ∃ (s t : State) (i : Instr), (i = .rleEncH ∨ i = .rleEncV ∨ i = .rleEncA) ∧ exec i s = .next t ∧ t.succeeded := by
  obtain ⟨t, ht, hs⟩ := scenario2_next .rleEncA (.inr (.inr rfl))
  exact ⟨scenario2, t, .rleEncA, .inr (.inr rfl), ht, hs⟩

theorem witness_HufEncoderWritesTheStream :
    ∃ (s : State) (bits : List Bool), 1 ≤ s.inLen.toNat ∧ s.inLen.toNat ≤ s.bufCap.toNat ∧
      Reference.streamBits s.tree.init s.input = some bits :=
  ⟨machine 2#64 [0x41#8, 0x41#8], literalBits 0x41#8 ++ [true], by decide +kernel⟩

theorem witness_HufEncoderNeverFaultsOnInput :
    1 ≤ (machine 1#64 [0x41#8]).inLen.toNat ∧
      (machine 1#64 [0x41#8]).inLen.toNat ≤ (machine 1#64 [0x41#8]).bufCap.toNat := by decide

theorem hufEnc_next : ∃ t, exec .hufEnc (machine 2#64 [0x41#8]) = .next t ∧ t.succeeded ∧ t.outLen = 1#64 := by
  obtain ⟨t, ht, hp⟩ := ends_next
    (o := exec .hufEnc (machine 2#64 [0x41#8])) (p := fun t => decide (t.succeeded ∧ t.outLen = 1#64))
    (by decide +kernel)
  exact ⟨t, ht, of_decide_eq_true hp⟩

theorem witness_HufEncoderSizeAndOuterByte :
    (∃ s t : State, exec .hufEnc s = .next t ∧ t.succeeded) ∧
      ∀ o ∈ [0x00#8, 0x08#8, 0x0F#8], o = 0x00#8 ∨ (8 ≤ o.toNat ∧ o.toNat ≤ 15) := by
  obtain ⟨t, ht, hs, -⟩ := hufEnc_next
  exact ⟨⟨_, t, ht, hs⟩, by decide⟩

theorem witness_OneByteIsStoredBitReversed :
    ∃ (s : State) (b : Byte), s.inLen = 1#64 ∧ 1 ≤ s.bufCap.toNat ∧ s.peek .inp 0 = b :=
  ⟨machine 1#64 [0x41#8], 0x41#8, by decide⟩

theorem witness_HufDecoderReadsTheFrame :
    (∀ f ∈ [[0x0F#8, 0x82#8, 0x01#8], [0x08#8], [0xF7#8]],
      (machine 4#64 f).inLen.toNat ≤ (machine 4#64 f).bufCap.toNat) ∧
    Reference.hufBytes 4 (machine 4#64 []).tree.init (machine 4#64 [0x0F#8, 0x82#8, 0x01#8]).input =
      .ok [0x41#8, 0x41#8] ∧
    Reference.hufBytes 4 (machine 4#64 []).tree.init (machine 4#64 [0x08#8]).input = .error .hufDecTruncLiteral ∧
    1 ≤ (machine 1#64 [0xF7#8]).inLen.toNat ∧ ((machine 1#64 [0xF7#8]).peek .inp 0).getLsbD 3 = false := by
  decide +kernel

/-- R207's rows and R201's frame, read by the machine and by the reference: padding that lies, a symbol step, a repeated
literal, a cut literal, reserved bits. The last frame fills a buffer of 4 bytes (R206). -/
theorem test_huf_dec_foreign_frames :
    (∀ f ∈ [([0x09#8, 0x82#8], [0x41#8]), ([0x0F#8, 0x82#8], [0x41#8]), ([0xF8#8, 0x82#8], [0x41#8]),
        ([0x07#8, 0x61#8, 0x62#8], [0x61#8, 0x62#8]), ([0x0F#8, 0x82#8, 0xFF#8], [0x41#8, 0x41#8]),
        ([0x09#8, 0x86#8, 0x19#8, 0x61#8, 0x4C#8], [0x61#8, 0x61#8, 0x62#8, 0x63#8, 0x63#8])],
      answers (exec .hufDec (machine 64#64 f.1)) f.2 = true ∧
        Reference.hufBytes 64 Tree.reset.init f.1 = .ok f.2) ∧
    (∀ f ∈ [(([] : List Byte), Err.hufDecEmpty), ([0x08#8], .hufDecTruncLiteral),
        ([0x08#8, 0x82#8, 0x01#8], .hufDecTruncLiteral), ([0x0F#8, 0x82#8, 0x04#8, 0x01#8], .hufDecDupLiteral),
        ([0x08#8, 0x82#8, 0xFF#8], .alloc)],
      fails (exec .hufDec (machine 4#64 f.1)) f.2.code = true ∧
        Reference.hufBytes 4 Tree.reset.init f.1 = .error f.2) := by decide +kernel

theorem witness_HuffmanRoundTrip :
    ∃ s t : State, exec .hufEnc s = .next t ∧ t.succeeded ∧
      t.outLen.toNat + 1 ≤ s.bufCap.toNat := by
  obtain ⟨t, ht, hs, hl⟩ := hufEnc_next
  exact ⟨machine 2#64 [0x41#8], t, ht, hs, by rw [hl]; decide⟩

/-- One pixel's RLE frame. -/
def pixelFrame : List Byte := [0x80#8, 1#8, 1#8, 0#8, 5#8, 0#8]

/-- One pixel to compress. -/
def pixel (cap : Word) : State := image cap 1#64 0#64 0#8 [5#8]

theorem pixel_input (cap : Word) : (pixel cap).input = [5#8] := rfl

theorem pixel_model (cap : Word) : (pixel cap).argModel = false := show (0#8).getLsbD 0 = false by decide

theorem pixel_adaptive (cap : Word) : (pixel cap).argAdaptive = false := show (0#8).getLsbD 1 = false by decide

theorem pixel_stage (cap : Word) : (pixel cap).stageFrame = (pixelFrame, true) := by
  have hw : (pixel cap).argW.toNat = 1 := rfl
  have hl : (pixel cap).inLen.toNat = 1 := rfl
  simp only [State.stageFrame, pixel_input, pixel_model, pixel_adaptive, hw, hl, Bool.false_eq_true, if_false,
    false_and]
  decide +kernel

/-- Its 43 stream bits. -/
def pixelBits : List Bool :=
  (([0x01#8, 0x00#8, 0x05#8, 0x00#8, 0xA0#8, 0x07#8] : List Byte).flatMap Reference.classifiers).take 43

theorem pixel_bits : Reference.streamBits Tree.reset.init pixelFrame = some pixelBits := by decide +kernel

theorem pixel_payload : (Reference.hufFrame pixelFrame pixelBits).2.length = 6 := by decide +kernel

theorem witness_CompressComposesItsStages :
    ∀ cap ∈ [6#64, 64#64], ∃ (s : State) (bits : List Bool) (p : Byte × List Byte),
      s.bufCap = cap ∧ s.inLen.toNat ≤ s.bufCap.toNat ∧ s.argW ≠ 0#64 ∧ s.inLen ≠ 0#64 ∧
      s.inLen.toNat % s.argW.toNat = 0 ∧
      (Reference.rleFrame true s.argModel 1 1 s.input).length ≤ s.bufCap.toNat ∧
      (s.argAdaptive = true → (Reference.rleFrame false s.argModel 1 1 s.input).length ≤ s.bufCap.toNat) ∧
      Reference.streamBits s.tree.init s.stageFrame.1 = some bits ∧
      p = Reference.hufFrame s.stageFrame.1 bits ∧ p.2.length = 6 := by
  intro cap hc
  have h6 : 6 ≤ cap.toNat := by
    rcases List.mem_pair.1 hc with rfl | rfl <;> decide
  have hs := pixel_stage cap
  have hf : (Reference.rleFrame true false 1 1 [5#8]).length = 6 := by decide +kernel
  have hl : (pixel cap).inLen = 1#64 := rfl
  have hw : (pixel cap).argW = 1#64 := rfl
  have hb : (pixel cap).bufCap = cap := rfl
  refine ⟨pixel cap, pixelBits, Reference.hufFrame (pixel cap).stageFrame.1 pixelBits, hb, ?_⟩
  rw [hl, hw, hb, hs, pixel_input, pixel_model, pixel_adaptive, hf]
  exact ⟨Nat.le_trans (by decide) h6, by decide, by decide, by decide, h6, fun h => absurd h (by decide),
    pixel_bits, rfl, pixel_payload⟩

theorem witness_CompressComposesItsStages_full :
    (let s := pixel 5#64
     s.inLen.toNat ≤ s.bufCap.toNat ∧ s.argW ≠ 0#64 ∧ s.inLen ≠ 0#64 ∧ s.inLen.toNat % s.argW.toNat = 0) ∧
    (pixel 5#64).bufCap.toNat < (Reference.rleFrame true false 1 1 [5#8]).length ∧
    (let s := image 7#64 2#64 0#64 2#8 [1#8, 1#8, 2#8, 2#8]
     s.inLen.toNat ≤ s.bufCap.toNat ∧ s.argAdaptive = true ∧
      s.bufCap.toNat < (Reference.rleFrame false false 2 2 [1#8, 1#8, 2#8, 2#8]).length) := by decide +kernel

/-- A pass-through file with an image, one without, a coded file with an image (scenario 3), and a coded one cut short. -/
theorem witness_DecompressComposesItsStages :
    (∀ f ∈ [[0x00#8, 0x80#8, 3#8, 1#8, 1#8, 8#8, 0x41#8], [0x00#8, 0x80#8, 2#8, 1#8],
        [0x08#8, 0#8, 0xA0#8, 0#8, 0x6C#8, 0x20#8, 0x46#8, 0xF0#8], [0x08#8]],
      (machine 64#64 f).inLen.toNat ≤ (machine 64#64 f).bufCap.toNat) ∧
    (Reference.rleImage 64 [0x80#8, 3#8, 1#8, 1#8, 8#8, 0x41#8]).isOk = true ∧
    Reference.rleImage 64 [0x80#8, 2#8, 1#8] = .error .rleDecShortData ∧
    Reference.hufBytes 64 (machine 64#64 []).tree.init
        (machine 64#64 [0x08#8, 0#8, 0xA0#8, 0#8, 0x6C#8, 0x20#8, 0x46#8, 0xF0#8]).input =
      .ok [0x00#8, 0x0A#8, 0x01#8, 0x01#8, 0x08#8, 0x41#8, 0x00#8] ∧
    Reference.hufBytes 64 (machine 64#64 []).tree.init (machine 64#64 [0x08#8]).input =
      .error .hufDecTruncLiteral := by decide +kernel

theorem witness_PipelineRoundTrip :
    (∃ s t : State, exec .compress s = .next t ∧ t.succeeded) ∧
    (let s := image 68#64 2#64 0#64 3#8 [0#8, 1#8]
     1 ≤ s.inLen.toNat ∧ s.argW ≠ 0#64 ∧ s.inLen.toNat % s.argW.toNat = 0 ∧
      2 * s.inLen.toNat + 64 ≤ s.bufCap.toNat) := by
  obtain ⟨t, ht, hp⟩ := ends_next (o := exec .compress (image 68#64 2#64 0#64 3#8 [0#8, 1#8]))
    (p := fun t => decide t.succeeded) (by decide +kernel)
  exact ⟨⟨_, t, ht, of_decide_eq_true hp⟩, by decide⟩

theorem witness_StepKeepsTheInvariant :
    ∃ s t : State, s.Inv ∧ s.seq = .rlePayload ∧ step s = .next t := by
  obtain ⟨t, ht, -⟩ := ends_next
    (o := step { inPayload false 1#64 with inLen := 8#64 }) (p := fun _ => true) (by decide +kernel)
  refine ⟨{ inPayload false 1#64 with inLen := 8#64 }, t, ⟨?_, ?_, ?_, ?_, ?_, ?_, ?_, ?_, ?_, ?_, ?_⟩, rfl, ht⟩
  case refine_7 => exact fun h => absurd h (by decide)
  case refine_9 => exact fun h => absurd h (by decide)
  case refine_11 => exact fun h => absurd h (by decide)
  all_goals decide +kernel

theorem witness_SoundStatesNeverStop :
    ∃ (s : State) (a : HostAccess), s.Inv ∧ s.pending = [a] ∧ a.inRange s.bufCap.toNat = true := by
  refine ⟨withAccess (.writeIn 0xFFFFF#64 7#8), .writeIn 0xFFFFF#64 7#8,
    ⟨?_, ?_, ?_, ?_, ?_, ?_, ?_, ?_, ?_, ?_, ?_⟩, rfl, ?_⟩
  case refine_9 => exact fun h => absurd h (by decide)
  case refine_10 => exact fun h => absurd h (by decide)
  case refine_11 => exact fun h => absurd h (by decide)
  all_goals decide +kernel

theorem witness_CommandsAreIndivisible : ∃ s t : State, s.seq = .host ∧ step s = .next t := by
  obtain ⟨t, ht, -⟩ := ends_next
    (o := step (State.reset.withFetchWord 8 7)) (p := fun _ => true) (by decide +kernel)
  exact ⟨State.reset.withFetchWord 8 7, t, rfl, ht⟩

end Sys2Proof.Tests
end

section
/-! PROOFS for O6, O27 and O29: the counter digits of a run, the pass-through byte, and a run form whose full groups
do not fit in the destination. -/

namespace Sys2Proof

/-! ### Counter digits (R16, R126) -/

theorem foldl_beBytes (a k v : Nat) :
    (beBytes k v).foldl (fun n b => n * 256 + b.toNat) a = a * 256 ^ k + v % 256 ^ k := by
  induction k generalizing a with
  | zero => simp [beBytes, Nat.mod_one]
  | succ k ih =>
    simp only [beBytes, List.foldl_cons, ih, BitVec.toNat_ofNat, Nat.reducePow, Nat.mod_pow_succ]
    ring

theorem unBE_beBytes (k v : Nat) : unBE (beBytes k v) = v % 256 ^ k := by
  rw [unBE, foldl_beBytes, Nat.zero_mul, Nat.zero_add]

/-- With enough places to look in, the search ends at a byte count that the number fits. -/
theorem lt_pow_byteCountFrom (v k fuel : Nat) (h : v < 256 ^ (k + fuel)) : v < 256 ^ byteCountFrom v k fuel := by
  induction fuel generalizing k with
  | zero => exact h
  | succ fuel ih =>
    unfold byteCountFrom
    split
    · assumption
    · exact ih (k + 1) (by rwa [Nat.add_assoc, Nat.add_comm 1])

/-- The search passes over a byte count only if the number does not fit it. -/
theorem pow_le_of_lt_byteCountFrom (v k fuel j : Nat) (hk : k ≤ j) (h : j < byteCountFrom v k fuel) :
    256 ^ j ≤ v := by
  induction fuel generalizing k with
  | zero => exact absurd hk (Nat.not_le.2 h)
  | succ fuel ih =>
    unfold byteCountFrom at h
    split at h
    · exact absurd hk (Nat.not_le.2 h)
    · rcases Nat.eq_or_lt_of_le hk with rfl | hlt
      · exact Nat.not_lt.1 ‹_›
      · exact ih (k + 1) hlt h

theorem lt_pow_byteCount {v : Nat} (h : v < 2 ^ 64) : v < 256 ^ byteCount v :=
  lt_pow_byteCountFrom v 0 8 (by simpa using h)

theorem pow_le_of_lt_byteCount {v j : Nat} (h : j < byteCount v) : 256 ^ j ≤ v :=
  pow_le_of_lt_byteCountFrom v 0 8 j (Nat.zero_le j) h

theorem unBE_runDigits {n : Nat} (h : n < 2 ^ 64) : unBE (runDigits n) = n - 2 := by
  rw [runDigits, unBE_beBytes, Nat.mod_eq_of_lt]
  calc n - 2 < 256 ^ byteCount (n - 2) := lt_pow_byteCount (by omega)
    _ ≤ 256 ^ max 1 (byteCount (n - 2)) := Nat.pow_le_pow_right (by decide) (Nat.le_max_right ..)

theorem byteCount_of_runDigits_length {n k : Nat} (h : (runDigits n).length = k + 2) :
    byteCount (n - 2) = k + 2 := by
  rw [runDigits, beBytes_length] at h
  omega

theorem runDigits_length_lt {n : Nat} (h : 2 ≤ n) : (runDigits n).length + 1 ≤ n := by
  match hk : (runDigits n).length with
  | 0 | 1 => omega
  | k + 2 =>
    have hc := byteCount_of_runDigits_length hk
    have hpow : 256 ^ (k + 1) ≤ n - 2 := pow_le_of_lt_byteCount (by omega)
    have hlt : k + 1 < 256 ^ (k + 1) := Nat.lt_pow_self (by decide)
    omega

/-- The first digit of several is `(n - 2) / 256 ^ (k - 1)`, which lies between 1 and 255. -/
theorem runDigits_headD_ne_zero {n : Nat} (h : n < 2 ^ 64) (hl : 1 < (runDigits n).length) :
    (runDigits n).headD 0#8 ≠ 0x00#8 := by
  obtain ⟨k, hk⟩ := Nat.exists_eq_add_of_le' hl
  have hc := byteCount_of_runDigits_length hk
  have hpow : 256 ^ (k + 1) ≤ n - 2 := pow_le_of_lt_byteCount (by omega)
  have hhead : (runDigits n).headD 0#8 = BitVec.ofNat 8 ((n - 2) / 256 ^ (k + 1)) := by
    rw [runDigits, hc, Nat.max_eq_right (by omega)]
    rfl
  have hlow : 0 < (n - 2) / 256 ^ (k + 1) := Nat.div_pos hpow (by positivity)
  have hhigh : (n - 2) / 256 ^ (k + 1) < 256 := by
    have hfit : n - 2 < 256 ^ byteCount (n - 2) := lt_pow_byteCount (by omega)
    rw [hc] at hfit
    exact Nat.div_lt_of_lt_mul (by rwa [← Nat.pow_succ])
  have hvalue : ((runDigits n).headD 0#8).toNat = (n - 2) / 256 ^ (k + 1) := by
    rw [hhead, BitVec.toNat_ofNat, Nat.mod_eq_of_lt hhigh]
  intro hzero
  rw [hzero] at hvalue
  exact hlow.ne hvalue

/-- Settles O6: the digits are a big-endian form in the smallest byte count that `n - 2` fits. -/
theorem runDigitsSpellTheCounter : Obligations.RunDigitsSpellTheCounter := by
  intro n h2 hn
  exact ⟨unBE_runDigits hn, (runDigits_length n).1, (runDigits_length n).2, runDigits_length_lt h2,
    runDigits_headD_ne_zero hn⟩

/-! ### Lengths of groups (R89) -/

theorem Reference.fullGroups_length (fuel : Nat) (items : List (Bool × Byte)) (h : items.length ≤ fuel) :
    (Reference.fullGroups fuel items).1.length = 9 * (items.length / 8) := by
  induction fuel generalizing items with
  | zero => simp [Reference.fullGroups, Nat.le_zero.1 h]
  | succ fuel ih =>
    unfold Reference.fullGroups
    split
    · simp only [List.length_nil]
      omega
    · have := ih (items.drop 8) (by rw [List.length_drop]; omega)
      simp only [List.length_append, this, Reference.groupBytes, List.length_cons, List.length_map, List.length_take,
        List.length_drop]
      omega

namespace Machine

/-! ### What an append leaves unchanged (R17) -/

/-- Appending touches the memory and the length of its space only. -/
theorem State.appendAll_frame {s t : State} {sp : Space} {vs : List Byte} (h : s.appendAll sp vs = .ok t) :
    ∃ m n, t = (s.setMem sp m).setLen sp n := by
  induction vs generalizing s with
  | nil =>
    injection h with h
    exact ⟨s.mem sp, s.len sp, by subst h; cases sp <;> rfl⟩
  | cons v vs ih =>
    simp only [State.appendAll, bind, Except.bind] at h
    split at h
    · cases h
    · rename_i u hu
      obtain ⟨-, rfl, -⟩ := State.append_ok hu
      obtain ⟨m, n, rfl⟩ := ih h
      exact ⟨m, n, by cases sp <;> rfl⟩

/-! ### RAW (R96, R202) -/

/-- The machine's answer to RAW when OUT has room. -/
theorem exec_raw_of_append {s t : State} {x : Byte} (h : s.append .out x = .ok t) :
    exec (.raw x) s = .next { t with huf := { t.huf with rb := t.huf.rb + 1#64 } } := by
  change s.outcome (runRaw x s) = _
  simp only [runRaw, bind, Except.bind, h, State.outcome_ok]

theorem exec_raw_full {s : State} {x : Byte} (h : s.bufCap.toNat ≤ s.outLen.toNat) :
    exec (.raw x) s = .next (s.raise .alloc) := by
  change s.outcome (runRaw x s) = _
  simp only [runRaw, bind, Except.bind, s.append_full .out x h, State.outcome_err]

/-- Settles O29, from the rules of `Append`. -/
theorem rawAppendsItsByte : Obligations.RawAppendsItsByte := by
  refine fun s x => ⟨fun hroom => ?_, exec_raw_full⟩
  have happ := s.append_eq .out x hroom
  obtain ⟨-, -, hlen, hat, helse, -⟩ := State.append_ok happ
  exact ⟨_, exec_raw_of_append happ, hlen, hat, helse, rfl, rfl⟩

/-! ### Group packer (R127) -/

@[simp] theorem State.openItems_length (s : State) : s.openItems.length = s.enc.gcnt.toNat := by
  simp [State.openItems]

/-- `Put` of each item in order: a run form as a sequence of items (R91, R126). -/
def State.putItems (s : State) : List (Bool × Byte) → Run State
  | [] => .ok s
  | i :: is => do
    let t ← s.put i.1 i.2
    State.putItems t is

theorem State.putDigits_put (s : State) (ds : List Byte) (v : Byte) :
    (s.putDigits ds >>= fun t => t.put false v) = s.putItems (ds.map (fun d => (true, d)) ++ [(false, v)]) := by
  induction ds generalizing s with
  | nil => exact (bind_pure (s.put false v)).symm
  | cons d ds ih => simp [State.putDigits, State.putItems, ih]

theorem State.emitRun_eq_putItems (s : State) (n : Nat) (v : Byte) :
    s.emitRun n v = s.putItems (Reference.runItems n v) := by
  unfold State.emitRun Reference.runItems
  split
  · exact s.putDigits_put _ v
  · exact s.putDigits_put [] v

/-- RUN1, RUN2 and RUNN are one operation on the packer (R91). -/
theorem exec_runForm {s : State} {n : Word} {v : Byte} (h : 1 ≤ n.toNat) :
    exec (runForm n v) s = s.outcome (s.putItems (Reference.runItems n.toNat v)) := by
  rw [← State.emitRun_eq_putItems]
  unfold runForm
  split
  · rw [show n.toNat = 1 by omega]
    rfl
  · split
    · rw [‹n.toNat = 2›]
      rfl
    · rfl

/-- The bytes that a flush appends. -/
abbrev State.staged (s : State) : List Byte := s.enc.g :: s.enc.gbuf.toList.take s.enc.gcnt.toNat

theorem State.staged_length {s : State} (h : s.enc.gcnt.toNat ≤ 8) : s.staged.length = s.enc.gcnt.toNat + 1 := by
  simpa using h

theorem State.flush_full {s : State} (h8 : s.enc.gcnt.toNat ≤ 8) (hs : (s.len s.dest).toNat ≤ s.bufCap.toNat)
    (h : s.bufCap.toNat < (s.len s.dest).toNat + (s.enc.gcnt.toNat + 1)) : s.flush = .error (.err .alloc) := by
  rw [← State.staged_length h8] at h
  simp only [State.flush, bind, Except.bind, s.appendAll_full s.dest s.staged hs h]

/-- A flush that fits lengthens the destination by the group and leaves the packer empty. -/
theorem State.flush_fits {s : State} (h8 : s.enc.gcnt.toNat ≤ 8)
    (h : (s.len s.dest).toNat + (s.enc.gcnt.toNat + 1) ≤ s.bufCap.toNat) :
    ∃ t, s.flush = .ok t ∧ t.enc.gcnt = 0#4 ∧ t.bufCap = s.bufCap ∧
      t.dest = s.dest ∧ (t.len s.dest).toNat = (s.len s.dest).toNat + (s.enc.gcnt.toNat + 1) := by
  rw [← State.staged_length h8] at h ⊢
  obtain ⟨u, hu⟩ := s.appendAll_fits s.dest s.staged h
  obtain ⟨hlen, -, -, -, hcap⟩ := State.appendAll_ok hu
  obtain ⟨m, n, hframe⟩ := State.appendAll_frame hu
  refine ⟨{ u with enc := { u.enc with g := 0#8, gcnt := 0#4 } }, ?_, rfl, hcap, by simp [hframe], ?_⟩
  · simp only [State.flush, bind, Except.bind, hu]
  · rw [← hlen]
    cases s.dest <;> rfl

/-- The state of the packer with item `(c, b)` staged. -/
def State.stage (s : State) (c : Bool) (b : Byte) : State :=
  { s with
    enc := { s.enc with
      g := if c then s.enc.g ||| (1#8 <<< s.enc.gcnt.toNat) else s.enc.g,
      gbuf := s.enc.gbuf.setIfInBounds s.enc.gcnt.toNat b, gcnt := s.enc.gcnt + 1#4 } }

theorem State.stage_gcnt {s : State} (c : Bool) (b : Byte) (h : s.enc.gcnt.toNat ≤ 7) :
    (s.stage c b).enc.gcnt.toNat = s.enc.gcnt.toNat + 1 := by
  simp only [State.stage, BitVec.toNat_add, BitVec.toNat_ofNat]
  omega

@[simp] theorem State.stage_bufCap (s : State) (c : Bool) (b : Byte) : (s.stage c b).bufCap = s.bufCap := rfl

@[simp] theorem State.stage_dest (s : State) (c : Bool) (b : Byte) : (s.stage c b).dest = s.dest := rfl

@[simp] theorem State.stage_len (s : State) (c : Bool) (b : Byte) (sp : Space) : (s.stage c b).len sp = s.len sp := by
  cases sp <;> rfl

theorem State.put_eq (s : State) (c : Bool) (b : Byte) :
    s.put c b =
      if (s.stage c b).enc.gcnt.toNat = Config.groupSize then (s.stage c b).flush else .ok (s.stage c b) := rfl

/-- The eighth item of a group writes the group out. -/
theorem State.put_flushes {s : State} (c : Bool) (b : Byte) (h : s.enc.gcnt.toNat = 7) :
    s.put c b = (s.stage c b).flush := by
  rw [State.put_eq, if_pos (by rw [State.stage_gcnt c b h.le, h])]

theorem State.put_last_full {s : State} (c : Bool) (b : Byte) (h7 : s.enc.gcnt.toNat = 7)
    (hs : (s.len s.dest).toNat ≤ s.bufCap.toNat) (h : s.bufCap.toNat < (s.len s.dest).toNat + 9) :
    s.put c b = .error (.err .alloc) := by
  have hg := s.stage_gcnt c b h7.le
  rw [State.put_flushes c b h7, State.flush_full (by omega) (by simpa using hs) (by simpa [hg, h7] using h)]

/-- The eighth item of a group that fits takes 9 bytes and leaves the packer empty. -/
theorem State.put_last_fits {s : State} (c : Bool) (b : Byte) (h7 : s.enc.gcnt.toNat = 7)
    (h : (s.len s.dest).toNat + 9 ≤ s.bufCap.toNat) :
    ∃ t, s.put c b = .ok t ∧ t.enc.gcnt = 0#4 ∧ t.bufCap = s.bufCap ∧ t.dest = s.dest ∧
      (t.len s.dest).toNat = (s.len s.dest).toNat + 9 := by
  have hg := s.stage_gcnt c b h7.le
  rw [State.put_flushes c b h7]
  simpa [hg, h7] using State.flush_fits (s := s.stage c b) (by omega) (by simpa [hg, h7] using h)

theorem State.putItems_cons_ok {s t : State} {i : Bool × Byte} (is : List (Bool × Byte))
    (h : s.put i.1 i.2 = .ok t) : s.putItems (i :: is) = t.putItems is := by
  simp only [State.putItems, bind, Except.bind, h]

theorem State.putItems_cons_error {s : State} {i : Bool × Byte} {e : Stop} (is : List (Bool × Byte))
    (h : s.put i.1 i.2 = .error e) : s.putItems (i :: is) = .error e := by
  simp only [State.putItems, bind, Except.bind, h]

/-- Staged and new items make a full group of 9 bytes for every 8 of them; if these do not fit, the first group
without room raises. -/
theorem State.putItems_full (s : State) (items : List (Bool × Byte)) (h7 : s.enc.gcnt.toNat ≤ 7)
    (hs : (s.len s.dest).toNat ≤ s.bufCap.toNat)
    (h : s.bufCap.toNat < (s.len s.dest).toNat + 9 * ((s.enc.gcnt.toNat + items.length) / 8)) :
    s.putItems items = .error (.err .alloc) := by
  induction items generalizing s with
  | nil => simp only [List.length_nil] at h; omega
  | cons i is ih =>
    rw [List.length_cons] at h
    rcases Nat.lt_or_eq_of_le h7 with hstages | hlast
    · have hg := s.stage_gcnt i.1 i.2 h7
      rw [State.putItems_cons_ok is (s.put_stages i.1 i.2 hstages)]
      refine ih (s.stage i.1 i.2) (by omega) (by simpa using hs) ?_
      rw [hg, State.stage_dest, State.stage_len, State.stage_bufCap]
      omega
    · by_cases hroom : (s.len s.dest).toNat + 9 ≤ s.bufCap.toNat
      · obtain ⟨t, ht, hempty, hcap, hdest, hlen⟩ := State.put_last_fits i.1 i.2 hlast hroom
        rw [State.putItems_cons_ok is ht]
        refine ih t (by simp [hempty]) (by rwa [hdest, hlen, hcap]) ?_
        rw [hdest, hlen, hcap, hempty, BitVec.toNat_zero]
        omega
      · exact State.putItems_cons_error is (State.put_last_full i.1 i.2 hlast hs (Nat.not_le.1 hroom))

/-- Settles O27: a run form puts its items one by one, and the first group without room raises. -/
theorem runFormsRaiseAllocWhenFull : Obligations.RunFormsRaiseAllocWhenFull := by
  rintro s n v _ ⟨h7, -, -⟩ hn rfl hs hfull
  rw [Reference.fullGroups_length _ _ le_rfl, List.length_append, State.openItems_length] at hfull
  rw [exec_runForm hn, s.putItems_full _ h7 hs hfull, State.outcome_err]

end Machine

end Sys2Proof
end

section
/-! PROOFS for O7, O14 to O16, O20, O21 and O28: the host's accesses, the reset state, and the elements that open a
frame. -/

namespace Sys2Proof.Machine

theorem State.memWrite_absent (s : State) (sp : Space) (a : Nat) (v : Byte) (h : s.bufCap.toNat ≤ a) :
    s.memWrite sp a v = .error (.fault .noSuchAddress) := if_neg (Nat.not_lt.2 h)

/-! ### Steps between commands (R21 to R26, R43, R271) -/

theorem step_idle {s : State} (hseq : s.seq = .host) (hpending : s.pending = []) : step s = .next s := by
  simp only [step, if_pos hseq, State.hostStep, hpending]

/-- Between commands a step is the host's next access. -/
theorem step_access {s : State} {a : HostAccess} {rest : List HostAccess} (hseq : s.seq = .host)
    (hbusy : statusBusy s.status = false) (hpending : s.pending = a :: rest) :
    step s = State.access { s with pending := rest } a := by
  simp only [step, if_pos hseq, State.hostStep, hpending, hbusy, Bool.false_eq_true, if_false]

theorem State.writeCmd_eq {s : State} {c : Byte} {i : Instr} (h : decode .cmd (.bytes [c]) = .ok i) :
    s.writeCmd c = exec i { s with cmd := c } := by
  simp only [State.writeCmd, h]

/-- Settles O7: the next access is the write to `CMD`, which runs what the value decodes to. -/
theorem stepRunsTheWrittenCommand : Obligations.StepRunsTheWrittenCommand := by
  intro s c rest i hseq hbusy hpending hdecode
  rw [step_access hseq hbusy hpending]
  exact State.writeCmd_eq hdecode

/-- Settles O14: one clause per access; a write to IN follows the rule of `MemWrite`. -/
theorem hostWritesChangeOnlyTheirTarget : Obligations.HostWritesChangeOnlyTheirTarget := by
  refine ⟨fun s => step_idle, fun s a rest hseq hbusy hpending => ?_⟩
  rw [step_access hseq hbusy hpending]
  refine ⟨?_, ?_, ?_, ?_, ?_⟩
  case refine_5 =>
    rintro x b rfl
    refine ⟨fun hx => ?_, fun hx => ?_⟩
    · have hw := State.memWrite_eq { s with pending := rest } .inp x.toNat b hx
      obtain ⟨-, -, hat, helse, -⟩ := State.memWrite_ok hw
      exact ⟨_, by rw [State.access, hw, State.outcome_ok], rfl, hat, helse⟩
    · rw [State.access, State.memWrite_absent { s with pending := rest } .inp x.toNat b hx, State.outcome_fault]
  all_goals
    rintro x rfl
    rfl

/-! ### Reset (R271) -/

/-- Settles O15. -/
theorem resetRegisters : Obligations.ResetRegisters := ⟨rfl, rfl, rfl, rfl⟩

/-- Settles O16: the memories are empty, and the block is between commands, with no report. -/
theorem resetHasTheInvariant : Obligations.ResetHasTheInvariant := by
  have hempty : ∀ n, Memory.within [] n := fun n c hc => nomatch hc
  have hsound : State.reset.memoriesSound :=
    ⟨⟨.nil, .nil, .nil, .nil⟩, hempty _, hempty _, hempty _, hempty _⟩
  have hreport : State.reset.reportSound := ⟨.inl ⟨rfl, rfl, rfl⟩, hempty _⟩
  exact ⟨hsound, by decide, by decide, .inl rfl, .inl rfl, .inl rfl, fun _ => hreport, fun h => absurd rfl h,
    fun h => h.elim nofun nofun, nofun, nofun⟩

/-! ### SET, DIMW and DIMH (R141 to R143) -/

/-- A 3-bit size field holds the number of bytes less 1 (R87). -/
theorem sizeField_toNat (k : BitVec 3) : (k.setWidth 4 + 1#4).toNat = k.toNat + 1 := by
  bv_omega

theorem runSet_whole {s : State} (scan model : Bool) {kw kh : BitVec 3}
    (h : kw.toNat + kh.toNat + 3 ≤ s.inputLen) :
    runSet scan model kw kh s = .ok { s with
      seq := .rleDimW,
      dec := { s.dec with
        dScan := scan, dModel := model, dKw := kw.setWidth 4 + 1#4, dKh := kh.setWidth 4 + 1#4 } } :=
  if_neg (by omega)

theorem runSet_short {s : State} (scan model : Bool) {kw kh : BitVec 3}
    (h : s.inputLen < kw.toNat + kh.toNat + 3) :
    runSet scan model kw kh s = .error (.err .rleDecShortHeader) :=
  if_pos (by omega)

/-- Settles O20: the header is whole or short. -/
theorem setReadsTheSettings : Obligations.SetReadsTheSettings := by
  refine fun s scan model kw kh => ⟨fun h => ?_, fun h => ?_⟩
  · exact ⟨_, congrArg s.outcome (runSet_whole scan model h), rfl, rfl, rfl, rfl, rfl, sizeField_toNat kw,
      sizeField_toNat kh⟩
  · exact congrArg s.outcome (runSet_short scan model h)

theorem runDimh_zero {s : State} (k : BitVec 3) {x : Word} (h : s.dec.dW = 0#64 ∨ x = 0#64) :
    runDimh k x s = .error (.err .rleDecDimZero) := if_pos h

theorem runDimh_range {s : State} (k : BitVec 3) {x : Word} (hw : s.dec.dW ≠ 0#64) (hx : x ≠ 0#64)
    (h : s.bufCap.toNat < s.dec.dW.toNat * x.toNat) : runDimh k x s = .error (.err .rleDecDimRange) :=
  (if_neg (not_or.2 ⟨hw, hx⟩)).trans (if_pos h)

/-- The decoder's registers when DIMH has begun the payload of an image of height `x` (R143). -/
def DecRegs.opened (d : DecRegs) (x : Word) : DecRegs :=
  { d with
    dH := x, rp := BitVec.ofNat 64 (1 + d.dKw.toNat + d.dKh.toNat), gbit := 8#4, written := 0#64, vx := 0#64,
    vy := 0#64, dN := BitVec.ofNat 64 (d.dW.toNat * x.toNat), acc := 0#64, nfrag := false }

theorem runDimh_fits {s : State} (k : BitVec 3) {x : Word} (hw : s.dec.dW ≠ 0#64) (hx : x ≠ 0#64)
    (h : s.dec.dW.toNat * x.toNat ≤ s.bufCap.toNat) :
    runDimh k x s = .ok { s with seq := .rlePayload, dec := s.dec.opened x } :=
  (if_neg (not_or.2 ⟨hw, hx⟩)).trans (if_neg (Nat.not_lt.2 h))

theorem DecRegs.opened_dN {d : DecRegs} {x cap : Word} (h : d.dW.toNat * x.toNat ≤ cap.toNat) :
    (d.opened x).dN.toNat = d.dW.toNat * x.toNat :=
  (BitVec.toNat_ofNat ..).trans (Nat.mod_eq_of_lt (h.trans_lt cap.isLt))

theorem DecRegs.opened_rp (d : DecRegs) (x : Word) :
    (d.opened x).rp.toNat = 1 + d.dKw.toNat + d.dKh.toNat := by
  have hw := d.dKw.isLt
  have hh := d.dKh.isLt
  exact (BitVec.toNat_ofNat ..).trans (Nat.mod_eq_of_lt (by omega))

/-- Settles O21: DIMH tests for a zero dimension, then for the capacity, else it opens the payload. -/
theorem dimensionsBeginThePayload : Obligations.DimensionsBeginThePayload := by
  refine fun s k x => ⟨rfl, fun h => ?_, fun hw hx h => ?_, fun hw hx h => ?_⟩
  · exact congrArg s.outcome (runDimh_zero k h)
  · exact congrArg s.outcome (runDimh_range k hw hx h)
  · exact ⟨_, congrArg s.outcome (runDimh_fits k hw hx h), rfl, rfl, rfl, DecRegs.opened_dN h,
      DecRegs.opened_rp .., rfl, rfl, rfl, rfl, rfl, rfl, rfl, rfl, rfl, rfl, rfl, rfl⟩

/-! ### OUT (R95, R161, R200, R202) -/

theorem Tree.init_symOf (t : Tree) (b : Byte) : t.init.symOf b = nilLink := by
  simp [Tree.init, Tree.symOf]

theorem Tree.init_node_root (t : Tree) :
    t.init.node 0#10 =
      { parent := nilLink, left := nilLink, right := nilLink, index := Config.rootIndex, weight := 0, value := 0 } :=
  Tree.node_put_same t 0#10 _ (by decide)

/-- Settles O28: the two values of bit 3. -/
theorem outBeginsThePayload : Obligations.OutBeginsThePayload := by
  refine fun s reserved pad =>
    ⟨⟨_, rfl, rfl, rfl, rfl, rfl, rfl⟩, _, rfl, rfl, rfl, rfl, rfl, rfl, rfl, rfl, ?_, ?_, rfl⟩
  · exact s.tree.init_symOf
  · exact s.tree.init_node_root

end Sys2Proof.Machine
end

section
/-! PROOF for O26: RUN1, RUN2 and RUNN put their items one by one; each group of 8 goes to the destination and the rest
stays in the packer. -/

namespace Sys2Proof

/-! ### Groups of an item sequence (R89) -/

theorem Reference.fullGroups_short (fuel : Nat) {items : List (Bool × Byte)} (h : items.length < 8) :
    Reference.fullGroups fuel items = ([], items) := by
  cases fuel with
  | zero => rfl
  | succ fuel => exact if_pos h

/-- Once there is fuel for every item, more of it changes nothing. -/
theorem Reference.fullGroups_fuel (fuel fuel' : Nat) (items : List (Bool × Byte)) (h : items.length ≤ fuel)
    (h' : items.length ≤ fuel') : Reference.fullGroups fuel items = Reference.fullGroups fuel' items := by
  induction fuel generalizing fuel' items with
  | zero => rw [Reference.fullGroups_short 0 (by omega), Reference.fullGroups_short fuel' (by omega)]
  | succ fuel ih =>
    by_cases hshort : items.length < 8
    · rw [Reference.fullGroups_short _ hshort, Reference.fullGroups_short _ hshort]
    · cases fuel' with
      | zero => omega
      | succ fuel' =>
        rw [Reference.fullGroups, Reference.fullGroups, if_neg hshort, if_neg hshort]
        simp only [ih fuel' (items.drop 8) (by rw [List.length_drop]; omega) (by rw [List.length_drop]; omega)]

/-- The groups and the rest of an item sequence. -/
abbrev Reference.groups (items : List (Bool × Byte)) : List Byte × List (Bool × Byte) :=
  Reference.fullGroups items.length items

theorem Reference.groups_append {group : List (Bool × Byte)} (items : List (Bool × Byte)) (h : group.length = 8) :
    Reference.groups (group ++ items) =
      (Reference.groupBytes group ++ (Reference.groups items).1, (Reference.groups items).2) := by
  have hfuel : (group ++ items).length = items.length + 7 + 1 := by
    rw [List.length_append]
    omega
  rw [Reference.groups, hfuel, Reference.fullGroups, if_neg (by omega), List.take_left' h, List.drop_left' h,
    Reference.fullGroups_fuel (items.length + 7) items.length items (by omega) le_rfl]

theorem Reference.testBit_classBits (items : List (Bool × Byte)) (i : Nat) :
    (Reference.classBits items).testBit i = ((items[i]?).map (·.1)).getD false := by
  induction items generalizing i with
  | nil => simp [Reference.classBits]
  | cons x xs ih =>
    have hx : x.1.toNat < 2 := x.1.toNat_lt
    rw [Reference.classBits]
    cases i with
    | zero =>
      rw [Nat.testBit_zero, Nat.add_mul_mod_self_left, List.getElem?_cons_zero]
      cases hc : x.1 <;> simp [hc]
    | succ i =>
      rw [Nat.testBit_add_one, Nat.add_mul_div_left _ _ (by decide), Nat.div_eq_of_lt hx, Nat.zero_add, ih]
      rfl

namespace Machine

/-! ### The packer's items (R29, R127) -/

theorem State.openItems_getElem? (s : State) (i : Nat) :
    s.openItems[i]? =
      if i < s.enc.gcnt.toNat then some (s.enc.g.getLsbD i, (s.enc.gbuf[i]?).getD 0#8) else none := by
  by_cases h : i < s.enc.gcnt.toNat <;> simp [State.openItems, h]

/-- The group byte with item `n` classified: the bits below it stay, and none is set above it. -/
theorem groupByte_stage {g : Byte} {n : Nat} (c : Bool) (hn : n ≤ 7) (hg : g.toNat < 2 ^ n) :
    (if c then g ||| (1#8 <<< n) else g).toNat < 2 ^ (n + 1) ∧
    (∀ i, i < n → (if c then g ||| (1#8 <<< n) else g).getLsbD i = g.getLsbD i) ∧
    (if c then g ||| (1#8 <<< n) else g).getLsbD n = c := by
  have hclear : g.getLsbD n = false := Nat.testBit_lt_two_pow hg
  have hwider : g.toNat < 2 ^ (n + 1) := hg.trans (Nat.pow_lt_pow_right (by decide) n.lt_succ_self)
  cases c with
  | false => exact ⟨hwider, fun i _ => rfl, hclear⟩
  | true =>
    refine ⟨?_, fun i hi => ?_, ?_⟩
    · have hone : (1#8 <<< n).toNat < 2 ^ (n + 1) := by
        rw [BitVec.toNat_shiftLeft, BitVec.toNat_ofNat, Nat.one_mod_eq_one.2 (by decide), Nat.one_shiftLeft]
        exact (Nat.mod_le ..).trans_lt (Nat.pow_lt_pow_right (by decide) n.lt_succ_self)
      rw [if_pos rfl, BitVec.toNat_or]
      exact Nat.or_lt_two_pow hwider hone
    · simp [hi]
    · simp
      omega

theorem State.stage_packerSound {s : State} (c : Bool) (b : Byte) (h7 : s.enc.gcnt.toNat ≤ 7)
    (hg : s.enc.g.toNat < 2 ^ s.enc.gcnt.toNat) :
    (s.stage c b).enc.g.toNat < 2 ^ (s.stage c b).enc.gcnt.toNat := by
  rw [State.stage_gcnt c b h7]
  exact (groupByte_stage c h7 hg).1

theorem State.openItems_stage {s : State} (c : Bool) (b : Byte) (h7 : s.enc.gcnt.toNat ≤ 7)
    (hg : s.enc.g.toNat < 2 ^ s.enc.gcnt.toNat) : (s.stage c b).openItems = s.openItems ++ [(c, b)] := by
  obtain ⟨-, hbelow, hat⟩ := groupByte_stage c h7 hg
  rw [State.openItems, State.stage_gcnt c b h7, List.range_succ, List.map_append, List.map_singleton]
  congr 1
  · refine List.map_congr_left fun i hi => ?_
    have hi := List.mem_range.1 hi
    refine Prod.ext (hbelow i hi) ?_
    simp [State.stage, Nat.ne_of_gt hi]
  · have hfit : s.enc.gcnt.toNat < 8 := by omega
    refine congrArg (fun p => [p]) (Prod.ext hat ?_)
    simp [State.stage, hfit]

/-- What a flush of a full group appends is that group's bytes. -/
theorem State.staged_eq_groupBytes {s : State} (h8 : s.enc.gcnt.toNat = 8) :
    s.staged = Reference.groupBytes s.openItems := by
  refine congrArg₂ List.cons (BitVec.eq_of_getLsbD_eq fun i hi => ?_) (List.ext_getElem? fun i => ?_)
  · rw [BitVec.getLsbD_ofNat, Reference.testBit_classBits, State.openItems_getElem?]
    simp [h8, hi]
  · rw [List.getElem?_map, State.openItems_getElem?]
    by_cases hi : i < 8 <;> simp [h8, hi]

/-! ### What the run forms do to the state -/

/-- The state `t` is `s` with the bytes `bytes` appended to the destination and `rest` staged in the packer. -/
structure State.Packed (s t : State) (bytes : List Byte) (rest : List (Bool × Byte)) : Prop where
  sound : t.packerSound
  staged : t.openItems = rest
  length : (t.len s.dest).toNat = (s.len s.dest).toNat + bytes.length
  stored : t.bytes s.dest (t.len s.dest).toNat = s.bytes s.dest (s.len s.dest).toNat ++ bytes
  beyond : ∀ a, (t.len s.dest).toNat ≤ a → t.peek s.dest a = s.peek s.dest a
  elsewhere : ∀ sp, sp ≠ s.dest → t.mem sp = s.mem sp ∧ t.len sp = s.len sp
  frame : { t with
    enc := s.enc, outMem := s.outMem, outbMem := s.outbMem, outLen := s.outLen, outbLen := s.outbLen } = s
  scan : { t.enc with g := s.enc.g, gcnt := s.enc.gcnt, gbuf := s.enc.gbuf } = s.enc

theorem State.Packed.dest {s t : State} {bytes : List Byte} {rest : List (Bool × Byte)} (h : s.Packed t bytes rest) :
    t.dest = s.dest := (congrArg State.dest h.frame :)

theorem State.Packed.bufCap {s t : State} {bytes : List Byte} {rest : List (Bool × Byte)}
    (h : s.Packed t bytes rest) : t.bufCap = s.bufCap :=
  (congrArg State.bufCap h.frame :)

theorem State.Packed.refl {s : State} (h : s.packerSound) : s.Packed s [] s.openItems :=
  ⟨h, rfl, rfl, (List.append_nil _).symm, fun _ _ => rfl, fun _ _ => ⟨rfl, rfl⟩, rfl, rfl⟩

theorem State.Packed.trans {s t u : State} {b c : List Byte} {p q : List (Bool × Byte)} (h : s.Packed t b p)
    (h' : t.Packed u c q) : s.Packed u (b ++ c) q := by
  obtain ⟨hsound, hstaged, hlength, hstored, hbeyond, helsewhere, hframe, hscan⟩ := h'
  rw [h.dest] at hlength hstored hbeyond helsewhere
  refine ⟨hsound, hstaged, ?_, ?_, fun a ha => ?_, fun sp hsp => ?_, ?_, ?_⟩
  · rw [hlength, h.length, List.length_append, Nat.add_assoc]
  · rw [hstored, h.stored, List.append_assoc]
  · exact (hbeyond a ha).trans (h.beyond a (by omega))
  · exact ⟨(helsewhere sp hsp).1.trans (h.elsewhere sp hsp).1, (helsewhere sp hsp).2.trans (h.elsewhere sp hsp).2⟩
  · rw [← h.frame, ← hframe]
  · rw [← h.scan, ← hscan]

/-- An item that does not fill its group is staged. -/
theorem State.put_packs_short {s : State} (i : Bool × Byte) (hs : s.packerSound) (h : s.enc.gcnt.toNat < 7) :
    ∃ t, s.put i.1 i.2 = .ok t ∧ s.Packed t [] (s.openItems ++ [i]) := by
  obtain ⟨h7, hg, hdest⟩ := hs
  have hcount := s.stage_gcnt i.1 i.2 h7
  refine ⟨s.stage i.1 i.2, s.put_stages i.1 i.2 h, ⟨by omega, s.stage_packerSound i.1 i.2 h7 hg, hdest⟩,
    s.openItems_stage i.1 i.2 h7 hg, ?_, ?_, fun a _ => ?_, fun sp _ => ?_, rfl, rfl⟩
  · rw [State.stage_len, List.length_nil, Nat.add_zero]
  · rw [State.stage_len, List.append_nil]
    rfl
  · rfl
  · exact ⟨by cases sp <;> rfl, s.stage_len ..⟩

/-- The eighth item writes the group and leaves the packer empty. -/
theorem State.put_packs_group {s : State} (i : Bool × Byte) (hs : s.packerSound) (h : s.enc.gcnt.toNat = 7)
    (hroom : (s.len s.dest).toNat + 9 ≤ s.bufCap.toNat) :
    ∃ t, s.put i.1 i.2 = .ok t ∧ s.Packed t (Reference.groupBytes (s.openItems ++ [i])) [] := by
  obtain ⟨h7, hg, hdest⟩ := hs
  have hcount : (s.stage i.1 i.2).enc.gcnt.toNat = 8 := by rw [s.stage_gcnt i.1 i.2 h7, h]
  have hbytes := State.staged_eq_groupBytes hcount
  rw [s.openItems_stage i.1 i.2 h7 hg] at hbytes
  have hlen : (s.stage i.1 i.2).staged.length = 9 := by rw [State.staged_length hcount.le, hcount]
  obtain ⟨u, hu⟩ := (s.stage i.1 i.2).appendAll_fits s.dest (s.stage i.1 i.2).staged
    (by rw [State.stage_len, hlen]; exact hroom)
  obtain ⟨hlength, hstored, hbeyond, helsewhere, -⟩ := State.appendAll_ok hu
  obtain ⟨m, n, hframe⟩ := State.appendAll_frame hu
  rw [State.stage_len, hlen] at hlength
  rw [hbytes] at hstored
  refine ⟨{ u with enc := { u.enc with g := 0#8, gcnt := 0#4 } }, ?_, ?_⟩
  · simp only [State.put_flushes i.1 i.2 h, State.flush, bind, Except.bind, State.stage_dest, hu]
  · refine ⟨⟨Nat.zero_le 7, Nat.one_pos, by simpa [hframe] using hdest⟩, rfl, ?_, ?_, ?_, ?_, ?_, ?_⟩
    · rw [← hbytes, hlen]
      exact hlength
    · refine hstored.trans ?_
      rw [State.stage_len]
      rfl
    · exact hbeyond
    · intro sp hsp
      obtain ⟨hmem, hlen⟩ := helsewhere sp hsp
      exact ⟨hmem.trans (by cases sp <;> rfl), hlen.trans (s.stage_len ..)⟩
    · rw [hframe]
      rcases hdest with hd | hd <;> rw [hd] <;> rfl
    · simp only [hframe, State.setLen_enc, State.setMem_enc]
      rfl

/-- An item in either case, with room for the groups of the staged items, the item and those after it. -/
theorem State.put_packs {s : State} (i : Bool × Byte) (is : List (Bool × Byte)) (hs : s.packerSound)
    (hroom : (s.len s.dest).toNat + (Reference.groups (s.openItems ++ i :: is)).1.length ≤ s.bufCap.toNat) :
    ∃ t bytes rest, s.put i.1 i.2 = .ok t ∧ s.Packed t bytes rest ∧
      Reference.groups (s.openItems ++ i :: is) =
        (bytes ++ (Reference.groups (rest ++ is)).1, (Reference.groups (rest ++ is)).2) := by
  rw [List.append_cons] at hroom ⊢
  rcases Nat.lt_or_eq_of_le hs.1 with hshort | hlast
  · obtain ⟨t, ht, hp⟩ := State.put_packs_short i hs hshort
    exact ⟨t, _, _, ht, hp, rfl⟩
  · have hsplit := Reference.groups_append is (group := s.openItems ++ [i]) (by simp [hlast])
    rw [hsplit] at hroom
    obtain ⟨t, ht, hp⟩ := State.put_packs_group i hs hlast (by
      simp [Reference.groupBytes, hlast] at hroom
      omega)
    exact ⟨t, _, _, ht, hp, hsplit⟩

theorem State.putItems_packs {s : State} (items : List (Bool × Byte)) (hs : s.packerSound)
    (hroom : (s.len s.dest).toNat + (Reference.groups (s.openItems ++ items)).1.length ≤ s.bufCap.toNat) :
    ∃ t, s.putItems items = .ok t ∧
      s.Packed t (Reference.groups (s.openItems ++ items)).1 (Reference.groups (s.openItems ++ items)).2 := by
  induction items generalizing s with
  | nil =>
    have hshort : s.openItems.length < 8 := by
      rw [State.openItems_length]
      exact Nat.lt_succ_of_le hs.1
    rw [List.append_nil, Reference.groups, Reference.fullGroups_short _ hshort]
    exact ⟨s, rfl, .refl hs⟩
  | cons i is ih =>
    obtain ⟨t, bytes, rest, ht, hp, hsplit⟩ := State.put_packs i is hs hroom
    rw [hsplit, List.length_append] at hroom
    obtain ⟨u, hu, hq⟩ := ih hp.sound (by rw [hp.staged, hp.dest, hp.length, hp.bufCap, Nat.add_assoc]; exact hroom)
    rw [hp.staged] at hq
    rw [hsplit]
    exact ⟨u, (State.putItems_cons_ok is ht).trans hu, hp.trans hq⟩

/-- Settles O26, by induction on the items of the run. -/
theorem runFormsPackTheirItems : Obligations.RunFormsPackTheirItems := by
  rintro s n v _ _ hs hn rfl rfl hroom
  obtain ⟨t, ht, hsound, hstaged, hlength, hstored, hbeyond, helsewhere, hframe, hscan⟩ :=
    State.putItems_packs (Reference.runItems n.toNat v) hs hroom
  refine ⟨t, ?_, hsound, hstaged, hlength, hstored, hbeyond, helsewhere, hframe, hscan⟩
  rw [exec_runForm hn, ht, State.outcome_ok]

end Machine

end Sys2Proof
end

section
/-! SUPPORT for O38, O58 and O59: operations that end with a result or a fault of R241, and what they keep. -/

namespace Sys2Proof.Machine

/-! ### Operations that end -/

/-- The operation ends as a command may end: with a result that has `P`, or with a fault of R241. It neither stops the
machine nor is refused. -/
def Ends {α : Type} (r : Run α) (P : α → Prop) : Prop :=
  match r with
  | .ok a => P a
  | .error (.err _) => True
  | .error (.fault _) => False
  | .error (.refuse _) => False

theorem Ends.bind {α β : Type} {r : Run α} {f : α → Run β} {P : α → Prop} {Q : β → Prop} (h : Ends r P)
    (hf : ∀ a, P a → Ends (f a) Q) : Ends (r >>= f) Q := by
  match r, h with
  | .ok a, h => exact hf a h
  | .error (.err _), _ => trivial

theorem Ends.mono {α : Type} {r : Run α} {P Q : α → Prop} (h : Ends r P) (hpq : ∀ a, P a → Q a) : Ends r Q := by
  match r, h with
  | .ok a, h => exact hpq a h
  | .error (.err _), _ => trivial

/-- The result of an operation that ends is known to be its result. -/
theorem Ends.result {α : Type} {r : Run α} {P : α → Prop} (h : Ends r P) : Ends r fun a => r = .ok a ∧ P a := by
  match r, h with
  | .ok a, h => exact ⟨rfl, h⟩
  | .error (.err _), _ => trivial

theorem ends_ok {α : Type} {r : Run α} {a : α} {P : α → Prop} (h : r = .ok a) (ha : P a) : Ends r P := by
  subst h
  exact ha

theorem ends_err {α : Type} {r : Run α} {e : Err} {P : α → Prop} (h : r = .error (.err e)) : Ends r P := by
  subst h
  trivial

/-- A tree operation that cannot complete raises `ERR_HUF_TREE_CORRUPT` (R269). -/
theorem orCorrupt_ends {α : Type} (o : Option α) : Ends (orCorrupt o) fun _ => True := by
  cases o <;> trivial

theorem State.inputByte_ends {s : State} {a : Nat} (h : a < s.bufCap.toNat) :
    Ends (s.inputByte a) fun _ => True := ends_ok (s.inputByte_eq a h) trivial

/-! ### What an engine keeps -/

theorem State.memoriesSound_iff (s : State) :
    s.memoriesSound ↔ ∀ sp, (s.mem sp).wf ∧ (s.mem sp).within s.bufCap.toNat := by
  refine ⟨fun ⟨⟨hi, ho, hb, hm⟩, hi', ho', hb', hm'⟩ sp => ?_, fun h => ?_⟩
  · cases sp
    exacts [⟨hi, hi'⟩, ⟨ho, ho'⟩, ⟨hb, hb'⟩, ⟨hm, hm'⟩]
  · exact ⟨⟨(h .inp).1, (h .out).1, (h .outb).1, (h .mid).1⟩, (h .inp).2, (h .out).2, (h .outb).2, (h .mid).2⟩

theorem State.setMem_memoriesSound {s : State} {sp : Space} {m : Memory} (h : s.memoriesSound) (hwf : m.wf)
    (hin : m.within s.bufCap.toNat) : (s.setMem sp m).memoriesSound := by
  rw [State.memoriesSound_iff] at h ⊢
  intro sq
  rw [State.setMem_bufCap]
  by_cases hsq : sq = sp
  · subst hsq
    rw [State.setMem_mem]
    exact ⟨hwf, hin⟩
  · rw [State.setMem_mem_other _ _ _ _ hsq]
    exact h sq

/-- A space that an engine writes (R122). -/
abbrev Space.written (sp : Space) : Prop := sp = .out ∨ sp = .outb

/-- A space that an engine reads as its input (R229, R230). -/
abbrev Space.readable (sp : Space) : Prop := sp = .inp ∨ sp = .mid

/-- What every engine keeps, from the state `s` to the state `t`: the input's place and lengths, and the bounds of
R43. -/
structure State.Keeps (s t : State) : Prop where
  bufCap : t.bufCap = s.bufCap
  status : t.status = s.status
  src : t.src = s.src
  inLen : t.inLen = s.inLen
  midLen : t.midLen = s.midLen
  dest : s.dest.written → t.dest.written
  sound : s.memoriesSound → t.memoriesSound
  room : s.outLen.toNat ≤ s.bufCap.toNat → t.outLen.toNat ≤ t.bufCap.toNat

theorem State.Keeps.refl (s : State) : s.Keeps s := ⟨rfl, rfl, rfl, rfl, rfl, id, id, id⟩

theorem State.Keeps.trans {s t u : State} (h : s.Keeps t) (h' : t.Keeps u) : s.Keeps u where
  bufCap := h'.bufCap.trans h.bufCap
  status := h'.status.trans h.status
  src := h'.src.trans h.src
  inLen := h'.inLen.trans h.inLen
  midLen := h'.midLen.trans h.midLen
  dest hd := h'.dest (h.dest hd)
  sound hm := h'.sound (h.sound hm)
  room hr := h'.room (h.room hr)

/-- Registers that no memory bound and no report is about may change freely. -/
theorem State.Keeps.registers {s t : State} {seq : Seq} {enc : EncRegs} {dec : DecRegs} {tree : Tree} {huf : HufRegs}
    {prev outer : Byte} (h : s.Keeps t) :
    s.Keeps { t with
      seq := seq, enc := enc, dec := dec, tree := tree, huf := huf, prev := prev, resOuter := outer } :=
  h.trans ⟨rfl, rfl, rfl, rfl, rfl, id, id, id⟩

theorem State.Keeps.inputLen {s t : State} (h : s.Keeps t) (hsrc : s.src.readable) : t.inputLen = s.inputLen := by
  unfold State.inputLen
  rw [h.src]
  rcases hsrc with hsrc | hsrc <;> rw [hsrc]
  · exact congrArg _ h.inLen
  · exact congrArg _ h.midLen

theorem State.memWrite_keeps {s t : State} {sp : Space} {a : Nat} {v : Byte} (h : s.memWrite sp a v = .ok t) :
    s.Keeps t := by
  obtain ⟨ha, rfl, -⟩ := State.memWrite_ok h
  have hsound (hm : s.memoriesSound) := State.setMem_memoriesSound (sp := sp) hm
    (Memory.write_wf _ a v (s.memoriesSound_iff.1 hm sp).1)
    (Memory.write_within _ a _ v (s.memoriesSound_iff.1 hm sp).2 ha)
  exact ⟨s.setMem_bufCap .., s.setMem_status .., s.setMem_src .., s.setMem_inLen .., s.setMem_midLen ..,
    fun hd => by rwa [s.setMem_dest], hsound, fun hr => by rwa [s.setMem_bufCap, s.setMem_outLen]⟩

theorem State.memWrite_ends {s : State} (sp : Space) {a : Nat} (v : Byte) (h : a < s.bufCap.toNat) :
    Ends (s.memWrite sp a v) fun t => t = s.setMem sp ((s.mem sp).write a v) ∧ s.Keeps t :=
  have hw := s.memWrite_eq sp a v h
  ends_ok hw ⟨rfl, State.memWrite_keeps hw⟩

/-- Setting the length of a written space, OUT's within `BUF_CAP`. -/
theorem State.setLen_keeps {s : State} {sp : Space} {n : Word} (hsp : sp.written) (hn : n.toNat ≤ s.bufCap.toNat) :
    s.Keeps (s.setLen sp n) := by
  rcases hsp with rfl | rfl
  · exact ⟨rfl, rfl, rfl, rfl, rfl, id, id, fun _ => hn⟩
  · exact ⟨rfl, rfl, rfl, rfl, rfl, id, id, id⟩

theorem State.append_keeps {s t : State} {sp : Space} {v : Byte} (hsp : sp.written) (h : s.append sp v = .ok t) :
    s.Keeps t := by
  obtain ⟨hfit, rfl, hlen, -⟩ := State.append_ok h
  rw [State.setLen_len] at hlen
  exact (State.memWrite_keeps (s.memWrite_eq sp _ v hfit)).trans
    (State.setLen_keeps hsp (by rw [State.setMem_bufCap]; omega))

theorem State.append_ends {s : State} {sp : Space} (v : Byte) (hsp : sp.written) :
    Ends (s.append sp v) fun t => s.append sp v = .ok t ∧ s.Keeps t := by
  by_cases hfull : s.bufCap.toNat ≤ (s.len sp).toNat
  · exact ends_err (s.append_full sp v hfull)
  · have h := s.append_eq sp v (Nat.not_le.1 hfull)
    exact ends_ok h ⟨h, State.append_keeps hsp h⟩

theorem State.appendAll_ends {s : State} {sp : Space} (vs : List Byte) (hsp : sp.written) :
    Ends (s.appendAll sp vs) fun t => s.appendAll sp vs = .ok t ∧ s.Keeps t := by
  refine Ends.result ?_
  induction vs generalizing s with
  | nil => exact .refl s
  | cons v vs ih => exact (State.append_ends v hsp).bind fun t ⟨_, ht⟩ => ih.mono fun u hu => ht.trans hu

theorem State.clear_keeps {s : State} {sp : Space} (hsp : sp.written) : s.Keeps (s.clear sp) := by
  have hsetMem : s.Keeps (s.setMem sp []) :=
    ⟨s.setMem_bufCap .., s.setMem_status .., s.setMem_src .., s.setMem_inLen .., s.setMem_midLen ..,
      fun hd => by rwa [s.setMem_dest], fun hm => State.setMem_memoriesSound hm .nil nofun,
      fun hr => by rwa [s.setMem_bufCap, s.setMem_outLen]⟩
  exact hsetMem.trans (State.setLen_keeps hsp (Nat.zero_le _))

/-! ### Group packer (R126 to R128) -/

/-- The state `t` is `s` with items put into the packer and groups written: the scan goes on where it was. -/
structure State.Puts (s t : State) : Prop where
  keeps : s.Keeps t
  seq : t.seq = s.seq
  scan : { t.enc with g := s.enc.g, gcnt := s.enc.gcnt, gbuf := s.enc.gbuf } = s.enc

theorem State.Puts.refl (s : State) : s.Puts s := ⟨.refl s, rfl, rfl⟩

theorem State.Puts.trans {s t u : State} (h : s.Puts t) (h' : t.Puts u) : s.Puts u :=
  ⟨h.keeps.trans h'.keeps, h'.seq.trans h.seq, by rw [← h.scan, ← h'.scan]⟩

theorem State.flush_ends {s : State} (hd : s.dest.written) : Ends s.flush s.Puts := by
  refine (State.appendAll_ends s.staged hd).bind fun t ⟨ht, hk⟩ => ?_
  obtain ⟨m, n, rfl⟩ := State.appendAll_frame ht
  exact ⟨hk.registers, by simp, by simp⟩

theorem State.put_ends {s : State} (c : Bool) (b : Byte) (hd : s.dest.written) : Ends (s.put c b) s.Puts := by
  have hstage : s.Puts (s.stage c b) := ⟨(State.Keeps.refl s).registers, rfl, rfl⟩
  rw [State.put_eq]
  split
  · exact (State.flush_ends (s := s.stage c b) hd).mono fun t => hstage.trans
  · exact hstage

theorem State.putItems_ends {s : State} (items : List (Bool × Byte)) (hd : s.dest.written) :
    Ends (s.putItems items) s.Puts := by
  induction items generalizing s with
  | nil => exact .refl s
  | cons i is ih =>
    exact (State.put_ends i.1 i.2 hd).bind fun t ht => (ih (ht.keeps.dest hd)).mono fun u => ht.trans

theorem State.finalise_ends {s : State} (hd : s.dest.written) : Ends s.finalise s.Puts := by
  unfold State.finalise
  split
  · exact .refl s
  · refine (State.put_ends false Config.padLiteral hd).bind fun t ht => ?_
    split
    · exact ht
    · exact (State.flush_ends (ht.keeps.dest hd)).mono fun u => ht.trans

/-- A run form is `EmitRun` of its length, a run of no pixels counting as one of length 1 (R91). -/
theorem runElement_runForm (s : State) (n : Word) (v : Byte) :
    runElement (runForm n v) s = s.putItems (Reference.runItems (max 1 n.toNat) v) := by
  rw [← State.emitRun_eq_putItems]
  unfold runForm
  split
  · rw [Nat.max_eq_left ‹_›]
    rfl
  · split
    · rw [‹n.toNat = 2›]
      rfl
    · rw [Nat.max_eq_right (by omega)]
      rfl

/-! ### Reconstruction (R146, R148) -/

/-- The state `t` is `s` with pixels of the image written: the payload goes on where it was. -/
structure State.Fills (s t : State) : Prop where
  keeps : s.Keeps t
  seq : t.seq = s.seq
  enc : t.enc = s.enc
  payload : t.payloadSound
  cursor : t.dec.rp = s.dec.rp
  pixels : t.dec.dN = s.dec.dN

theorem State.Fills.trans {s t u : State} (h : s.Fills t) (h' : t.Fills u) : s.Fills u :=
  ⟨h.keeps.trans h'.keeps, h'.seq.trans h.seq, h'.enc.trans h.enc, h'.payload, h'.cursor.trans h.cursor,
    h'.pixels.trans h.pixels⟩

theorem State.fill_ends (a : Nat) (v : Byte) (k : Nat) {s : State} (h : a + k ≤ s.bufCap.toNat) :
    Ends (State.fill a v k s) fun t => s.Keeps t ∧ ∃ m, t = { s with outMem := m } := by
  induction k generalizing a s with
  | zero => exact ⟨.refl s, _, rfl⟩
  | succ k ih =>
    refine (State.memWrite_ends .out v (by omega)).bind ?_
    rintro _ ⟨rfl, hw⟩
    exact (ih (a + 1) (by simp only [State.setMem_bufCap]; omega)).mono fun u ⟨hk, m, hm⟩ => ⟨hw.trans hk, m, hm⟩

theorem State.writeH_ends {s : State} (count : Nat) (v : Byte) (hs : s.payloadSound) (hscan : s.dec.dScan = true) :
    Ends (s.writeH count v) s.Fills := by
  obtain ⟨hpos, harea, hfit, hwritten, -⟩ := hs
  refine (State.fill_ends s.dec.written.toNat v _ (by omega)).bind ?_
  rintro _ ⟨hk, m, rfl⟩
  refine ⟨hk.registers, rfl, rfl, ⟨hpos, harea, hfit, ?_, ?_⟩, rfl, rfl⟩
  · have hcap := s.bufCap.isLt
    simp only [BitVec.toNat_add, BitVec.toNat_ofNat, Nat.add_mod_mod]
    rw [Nat.mod_eq_of_lt (by omega)]
    omega
  · exact fun hvertical => absurd (hscan.symm.trans hvertical) (by decide)

/-- The pixel at column `x`, row `y` of an image of `n = w * h` pixels lies in it. -/
theorem pixel_lt {w h x y n written : Nat} (harea : n = w * h) (hat : written = x * h + y) (hy : y < h)
    (hleft : written < n) : x < w ∧ y * w + x < n := by
  subst harea hat
  have hx : x < w := by
    by_contra hge
    have := Nat.mul_le_mul_right h (Nat.not_lt.1 hge)
    omega
  refine ⟨hx, ?_⟩
  calc y * w + x < y * w + w := by omega
    _ = (y + 1) * w := by ring
    _ ≤ w * h := by rw [Nat.mul_comm w h]; exact Nat.mul_le_mul_right w hy

/-- The decoder's registers after one pixel of a vertical frame (R148). -/
def DecRegs.nextV (d : DecRegs) : DecRegs :=
  if d.vy + 1#64 = d.dH then { d with vy := 0#64, vx := d.vx + 1#64, written := d.written + 1#64 }
  else { d with vy := d.vy + 1#64, written := d.written + 1#64 }

@[simp] theorem DecRegs.nextV_rp (d : DecRegs) : d.nextV.rp = d.rp := by
  unfold DecRegs.nextV
  split <;> rfl

@[simp] theorem DecRegs.nextV_dN (d : DecRegs) : d.nextV.dN = d.dN := by
  unfold DecRegs.nextV
  split <;> rfl

@[simp] theorem DecRegs.nextV_dScan (d : DecRegs) : d.nextV.dScan = d.dScan := by
  unfold DecRegs.nextV
  split <;> rfl

theorem State.writePixelV_eq (s : State) (v : Byte) :
    s.writePixelV v = (s.memWrite .out (s.dec.vy.toNat * s.dec.dW.toNat + s.dec.vx.toNat) v).map
      fun t => { t with dec := t.dec.nextV } := by
  unfold State.writePixelV
  cases s.memWrite .out (s.dec.vy.toNat * s.dec.dW.toNat + s.dec.vx.toNat) v with
  | error e => rfl
  | ok t =>
    simp only [bind, Except.bind, Except.map, DecRegs.nextV]
    split <;> rfl

/-- The column and row registers move on to the next pixel of the image. -/
theorem State.nextV_payloadSound {s : State} (hs : s.payloadSound) (hscan : s.dec.dScan = false)
    (hleft : s.dec.written.toNat < s.dec.dN.toNat) :
    State.payloadSound { s with dec := s.dec.nextV } ∧ s.dec.nextV.written.toNat = s.dec.written.toNat + 1 := by
  obtain ⟨hpos, harea, hfit, -, hcursor⟩ := hs
  obtain ⟨hat, hy⟩ := hcursor hscan
  obtain ⟨hx, -⟩ := pixel_lt harea hat hy hleft
  have hcount : (s.dec.written + 1#64).toNat = s.dec.written.toNat + 1 := by bv_omega
  have hrow : (s.dec.vy + 1#64).toNat = s.dec.vy.toNat + 1 := by bv_omega
  have hcolumn : (s.dec.vx + 1#64).toNat = s.dec.vx.toNat + 1 := by bv_omega
  unfold DecRegs.nextV
  split
  · rename_i hlast
    have hheight : s.dec.dH.toNat = s.dec.vy.toNat + 1 := (congrArg BitVec.toNat hlast).symm.trans hrow
    refine ⟨⟨hpos, harea, hfit, hcount.trans_le hleft, fun _ => ⟨?_, (Nat.zero_le _).trans_lt hy⟩⟩, hcount⟩
    dsimp only
    rw [hcount, hcolumn, hat, hheight]
    simp only [BitVec.toNat_ofNat, Nat.zero_mod]
    ring
  · rename_i hlast
    have hne : s.dec.vy.toNat + 1 ≠ s.dec.dH.toNat := fun e => hlast (BitVec.eq_of_toNat_eq (hrow.trans e))
    refine ⟨⟨hpos, harea, hfit, hcount.trans_le hleft, fun _ => ⟨?_, ?_⟩⟩, hcount⟩
    · dsimp only
      rw [hcount, hrow, hat, Nat.add_assoc]
    · exact hrow.trans_lt (Nat.lt_of_le_of_ne hy hne)

theorem State.writePixelV_ends {s : State} (v : Byte) (hs : s.payloadSound) (hscan : s.dec.dScan = false)
    (hleft : s.dec.written.toNat < s.dec.dN.toNat) :
    Ends (s.writePixelV v) fun t =>
      s.Fills t ∧ t.dec.dScan = false ∧ t.dec.written.toNat = s.dec.written.toNat + 1 := by
  obtain ⟨hnext, hcount⟩ := State.nextV_payloadSound hs hscan hleft
  obtain ⟨-, harea, hfit, -, hcursor⟩ := hs
  obtain ⟨hat, hy⟩ := hcursor hscan
  obtain ⟨-, hpixel⟩ := pixel_lt harea hat hy hleft
  have hw := s.memWrite_eq .out _ v (hpixel.trans_le hfit)
  rw [State.writePixelV_eq, hw]
  exact ⟨⟨(State.memWrite_keeps hw).registers, rfl, rfl, hnext, s.dec.nextV_rp, s.dec.nextV_dN⟩,
    s.dec.nextV_dScan.trans hscan, hcount⟩

theorem State.writePixelsV_ends (v : Byte) (k : Nat) {s : State} (hs : s.payloadSound) (hscan : s.dec.dScan = false)
    (hleft : s.dec.written.toNat + k ≤ s.dec.dN.toNat) : Ends (State.writePixelsV v k s) s.Fills := by
  induction k generalizing s with
  | zero => exact ⟨.refl s, rfl, rfl, hs, rfl, rfl⟩
  | succ k ih =>
    refine (State.writePixelV_ends v hs hscan (by omega)).bind fun t ⟨hfills, hdir, hcount⟩ => ?_
    exact (ih hfills.payload hdir (by rw [hfills.pixels]; omega)).mono fun u => hfills.trans

theorem State.writePair_ends {s : State} (count : Nat) (v : Byte) (hs : s.payloadSound) :
    Ends (s.writePair count v) s.Fills := by
  unfold State.writePair State.writeV
  split
  · exact State.writeH_ends count v hs ‹_›
  · split
    · trivial
    · obtain ⟨-, -, -, hwritten, -⟩ := id hs
      exact State.writePixelsV_ends v count hs (by simpa using ‹¬ s.dec.dScan = true›) (by omega)

end Sys2Proof.Machine
end

section
/-! SUPPORT for O38, O58 and O59: one turn of a stream ends, keeps what its position relies on, and brings the loop
nearer to its end. -/

namespace Sys2Proof.Machine

/-! ### What a position relies on, and what it selects (R85) -/

/-- The relations between registers that the next turn relies on, by position (R121, R141, R148). -/
def State.positionSound (s : State) : Prop :=
  match s.seq with
  | .rleDimW => s.headerSound
  | .rleDimH => s.headerSound
  | .rlePayload => s.payloadSound
  | .encScan => s.scanSound
  | _ => True

/-- A state in which a stream can go on: the input is one that can be read, the output one that can be written. -/
structure State.StreamSound (s : State) : Prop where
  src : s.src.readable
  dest : s.dest.written
  input : s.inputLen ≤ s.bufCap.toNat
  position : s.positionSound

/-- What the next turn can be, by position (R85, R125, R143, R200). -/
def State.Selects (s : State) (n : Turn) : Prop :=
  match s.seq with
  | .host => n = .stop
  | .rleSet => ∃ scan model kw kh, n = .element (.set scan model kw kh)
  | .rleDimW => ∃ k w, n = .element (.dimw k w)
  | .rleDimH => ∃ k h, n = .element (.dimh k h)
  | .rlePayload => n = .stop ∨ s.dec.rp.toNat < s.inputLen ∧
      ∃ b, n = .element (.grp b) ∨ s.dec.gbit ≠ 8#4 ∧ (n = .element (.cnt b) ∨ n = .element (.lit b))
  | .hufOuter => ∃ reserved huf pad, n = .element (.out reserved huf pad)
  | .hufRaw => n = .stop ∨ s.huf.rb.toNat < s.payloadLen ∧ ∃ x, n = .element (.raw x)
  | .hufBits => n = .stop ∨ n = .emit ∨
      (readerAt s.huf.rb.toNat s.huf.ri.toNat).1 < s.payloadLen ∧
        ((∃ b, n = .element (.code b)) ∨ ∃ v, n = .element (.esc v))
  | .encScan => s.enc.eT.toNat < s.enc.eN.toNat ∧ n = .extend ∨ n = .element (runForm s.enc.cnt s.enc.cur)
  | .encClose => n = .stop

theorem elementOf_ok {f : Format} {c : Code} {i : Instr} (h : decode f c = .ok i) :
    elementOf f c = .ok (.element i) := by
  simp only [elementOf, h]

/-- The size of a dimension field, read back from its register (R87, R141). -/
theorem sizeField_read {k : BitVec 4} (h : 1 ≤ k.toNat ∧ k.toNat ≤ 8) :
    ((k - 1#4).setWidth 3).toNat + 1 = k.toNat := by
  bv_omega

theorem decode_dw {k : BitVec 3} {bs : List Byte} (h : bs.length = k.toNat + 1) :
    decode (.dw k) (.bytes bs) = .ok (.dimw k (BitVec.ofNat 64 (unBE bs))) := by
  rw [decode, if_pos h]

theorem decode_dh {k : BitVec 3} {bs : List Byte} (h : bs.length = k.toNat + 1) :
    decode (.dh k) (.bytes bs) = .ok (.dimh k (BitVec.ofNat 64 (unBE bs))) := by
  rw [decode, if_pos h]

theorem decode_l {bs : List Bool} (h : bs.length = 8) : decode .l (.bits bs) = .ok (.esc (literalValue bs)) := by
  rw [decode, if_pos h]

theorem State.inputBytes_ends {s : State} {a n : Nat} (h : a + n ≤ s.bufCap.toNat) :
    Ends (s.inputBytes a n) fun bs => bs.length = n :=
  ends_ok (s.inputBytes_eq a n h) (by simp)

theorem scanAddress_lt (horizontal : Bool) {w h t : Nat} (ht : t < w * h) : scanAddress horizontal w h t < w * h := by
  unfold scanAddress
  split
  · exact ht
  · have hh : 0 < h := Nat.pos_of_ne_zero fun e => by subst e; exact absurd ht (Nat.not_lt_zero _)
    exact (pixel_lt rfl (Nat.div_add_mod' t h).symm (Nat.mod_lt t hh) ht).2

theorem State.pix_ends {s : State} {t : Nat} (hs : s.scanSound) (ht : t < s.enc.eN.toNat) :
    Ends (s.pix t) fun _ => True := by
  obtain ⟨harea, hfit⟩ := hs
  rw [harea] at ht hfit
  exact State.inputByte_ends ((scanAddress_lt s.enc.eScan ht).trans_le hfit)

theorem State.peekBit_ends {s : State} (rb ri : Nat) (hin : s.inputLen ≤ s.bufCap.toNat) :
    Ends (s.peekBit rb ri) fun v => v ≠ none → (readerAt rb ri).1 < s.payloadLen := by
  unfold State.peekBit
  dsimp only
  split
  · exact fun h => absurd rfl h
  · have hlt := Nat.not_le.1 ‹_›
    refine (State.inputByte_ends ?_).bind fun b _ => fun _ => hlt
    unfold State.payloadLen at hlt
    omega

theorem State.peekBits_ends {s : State} (rb ri n : Nat) (hin : s.inputLen ≤ s.bufCap.toNat) :
    Ends (s.peekBits rb ri n) fun v =>
      ∀ bs, v = some bs → bs.length = n ∧ (0 < n → (readerAt rb ri).1 < s.payloadLen) := by
  induction n generalizing rb ri with
  | zero =>
    rintro _ ⟨⟩
    exact ⟨rfl, fun h => absurd h (Nat.lt_irrefl 0)⟩
  | succ n ih =>
    refine (State.peekBit_ends rb ri hin).bind fun v hv => ?_
    cases v with
    | none => exact nofun
    | some b =>
      refine (ih _ _).bind fun rest hrest bs hbs => ?_
      obtain ⟨bs', rfl, rfl⟩ := Option.map_eq_some_iff.1 hbs
      exact ⟨congrArg (· + 1) (hrest bs' rfl).1, fun _ => hv nofun⟩

/-! ### Choosing a turn -/

theorem State.nextRle_ends {s : State} (hin : s.inputLen ≤ s.bufCap.toNat) :
    Ends s.nextRle fun n => n = .stop ∨ s.dec.rp.toNat < s.inputLen ∧
      ∃ b, n = .element (.grp b) ∨ s.dec.gbit ≠ 8#4 ∧ (n = .element (.cnt b) ∨ n = .element (.lit b)) := by
  unfold State.nextRle
  split
  · exact .inl rfl
  · rename_i hmore
    have hrp : s.dec.rp.toNat < s.inputLen := by omega
    refine (State.inputByte_ends (hrp.trans_le hin)).bind fun b _ => ?_
    unfold DecRegs.format
    split
    · exact .inr ⟨hrp, b, .inl rfl⟩
    · split
      · exact .inr ⟨hrp, b, .inr ⟨‹_›, .inl rfl⟩⟩
      · exact .inr ⟨hrp, b, .inr ⟨‹_›, .inr rfl⟩⟩

theorem State.nextHuf_ends {s : State} (hin : s.inputLen ≤ s.bufCap.toNat) :
    Ends s.nextHuf fun n => n = .stop ∨ n = .emit ∨
      (readerAt s.huf.rb.toNat s.huf.ri.toNat).1 < s.payloadLen ∧
        ((∃ b, n = .element (.code b)) ∨ ∃ v, n = .element (.esc v)) := by
  unfold State.nextHuf
  split
  · exact .inl rfl
  · split
    · refine (State.peekBit_ends _ _ hin).bind fun v hv => ?_
      cases v with
      | none => exact .inl rfl
      | some b => exact .inr (.inr ⟨hv nofun, .inl ⟨b, rfl⟩⟩)
    · split
      · refine (State.peekBits_ends _ _ 8 hin).bind fun v hv => ?_
        cases v with
        | none => trivial
        | some bs =>
          obtain ⟨hlen, hmore⟩ := hv bs rfl
          exact ends_ok (elementOf_ok (decode_l hlen)) (.inr (.inr ⟨hmore (by decide), .inr ⟨_, rfl⟩⟩))
      · exact .inr (.inl rfl)

theorem State.nextScan_ends {s : State} (hs : s.scanSound) :
    Ends s.nextScan fun n =>
      s.enc.eT.toNat < s.enc.eN.toNat ∧ n = .extend ∨ n = .element (runForm s.enc.cnt s.enc.cur) := by
  unfold State.nextScan
  split
  · refine (State.pix_ends hs ‹_›).bind fun v _ => ?_
    split
    · exact .inl ⟨‹_›, rfl⟩
    · exact .inr rfl
  · exact .inr rfl

/-- Everything that the choice of a turn can answer: every position finds its bytes in the input, and every format
decodes them. -/
theorem State.nextTurn_ends {s : State} (hs : s.StreamSound) : Ends s.nextTurn s.Selects := by
  obtain ⟨-, -, hin, hpos⟩ := hs
  unfold State.nextTurn State.Selects
  unfold State.positionSound at hpos
  cases hseq : s.seq with
  | host => exact rfl
  | rleSet =>
    dsimp only
    split
    · trivial
    · exact (State.inputByte_ends (by omega)).bind fun b _ => ⟨_, _, _, _, rfl⟩
  | rleDimW =>
    rw [hseq] at hpos
    obtain ⟨hkw, hkh, hwhole⟩ := hpos
    have hk := sizeField_read hkw
    exact (State.inputBytes_ends (by omega)).bind fun bs hbs => ends_ok (elementOf_ok (decode_dw hbs)) ⟨_, _, rfl⟩
  | rleDimH =>
    rw [hseq] at hpos
    obtain ⟨hkw, hkh, hwhole⟩ := hpos
    have hk := sizeField_read hkh
    exact (State.inputBytes_ends (by omega)).bind fun bs hbs => ends_ok (elementOf_ok (decode_dh hbs)) ⟨_, _, rfl⟩
  | rlePayload => exact State.nextRle_ends hin
  | hufOuter =>
    dsimp only
    split
    · trivial
    · exact (State.inputByte_ends (by omega)).bind fun b _ => ⟨_, _, _, rfl⟩
  | hufRaw =>
    dsimp only
    split
    · exact .inl rfl
    · have hmore := Nat.not_le.1 ‹_›
      refine (State.inputByte_ends ?_).bind fun b _ => .inr ⟨hmore, b, rfl⟩
      unfold State.payloadLen at hmore
      omega
  | hufBits => exact State.nextHuf_ends hin
  | encScan =>
    rw [hseq] at hpos
    exact State.nextScan_ends hpos
  | encClose => exact rfl

/-! ### What a turn does -/

/-- The bit reader counts at most 8 bits of the current byte (R40). -/
abbrev State.readerSound (s : State) : Prop := s.seq = .hufBits → s.huf.ri.toNat ≤ 8

/-- A bound on the turns until the loop has ended, by position (R272). -/
def State.turnsLeft (s : State) : Nat :=
  match s.seq with
  | .host => 0
  | .rleSet => s.inputLen + 4
  | .rleDimW => s.inputLen + 3
  | .rleDimH => s.inputLen + 2
  | .rlePayload => 1 + (s.inputLen - s.dec.rp.toNat)
  | .hufOuter => 8 * s.inputLen + s.bufCap.toNat + 4
  | .hufRaw => 1 + (s.payloadLen - s.huf.rb.toNat)
  | .hufBits =>
    1 + (8 * s.payloadLen - (8 * s.huf.rb.toNat + s.huf.ri.toNat)) + (s.bufCap.toNat - s.outLen.toNat)
  | .encScan => 2 + (s.enc.eN.toNat - s.enc.eT.toNat)
  | .encClose => 1

/-- The dimensions of the image that the RLE encoder codes (R28). -/
abbrev State.sameDims (s t : State) : Prop :=
  t.enc.eW = s.enc.eW ∧ t.enc.eH = s.enc.eH ∧ t.enc.eN = s.enc.eN

/-- Everything that a turn from `s` to `t` keeps, and that it brings the loop nearer to its end. -/
structure State.Turned (s t : State) : Prop where
  keeps : s.Keeps t
  dims : s.sameDims t
  position : t.positionSound
  progress : s.readerSound → t.readerSound ∧ t.turnsLeft < s.turnsLeft

/-- A turn after which the stream goes on. -/
abbrev State.Advanced (s t : State) : Prop := s.Turned t ∧ t.seq ≠ .host

theorem State.StreamSound.turned {s t : State} (hs : s.StreamSound) (h : s.Turned t) : t.StreamSound where
  src := h.keeps.src.symm ▸ hs.src
  dest := h.keeps.dest hs.dest
  input := by
    rw [h.keeps.inputLen hs.src, h.keeps.bufCap]
    exact hs.input
  position := h.position

/-- Outside the encoder's scan nothing follows an element. -/
theorem element_ends {s : State} {i : Instr}
    (h : Ends (runElement i s) fun t => s.Advanced t ∧ t.seq ≠ .encScan) :
    Ends (runElement i s >>= State.afterElement) s.Advanced :=
  h.bind fun t ⟨ht, hseq⟩ => by
    rw [State.afterElement, if_neg hseq]
    exact ht

/-! ### The elements of the RLE frame -/

theorem runSet_ends {s : State} (scan model : Bool) (kw kh : BitVec 3) (hseq : s.seq = .rleSet) :
    Ends (runSet scan model kw kh s) fun t => s.Advanced t ∧ t.seq ≠ .encScan := by
  rcases Nat.lt_or_ge s.inputLen (kw.toNat + kh.toNat + 3) with hshort | hwhole
  · exact ends_err (runSet_short scan model hshort)
  · refine ends_ok (runSet_whole scan model hwhole)
      ⟨⟨⟨(State.Keeps.refl s).registers, ⟨rfl, rfl, rfl⟩, ?_, fun _ => ⟨nofun, ?_⟩⟩, nofun⟩, nofun⟩
    · have hw := sizeField_toNat kw
      have hh := sizeField_toNat kh
      have hheader : (1 ≤ (kw.setWidth 4 + 1#4).toNat ∧ (kw.setWidth 4 + 1#4).toNat ≤ 8) ∧
          (1 ≤ (kh.setWidth 4 + 1#4).toNat ∧ (kh.setWidth 4 + 1#4).toNat ≤ 8) ∧
          1 + (kw.setWidth 4 + 1#4).toNat + (kh.setWidth 4 + 1#4).toNat ≤ s.inputLen := by omega
      exact hheader
    · simp only [State.turnsLeft, hseq]
      exact Nat.lt_succ_self _

theorem runDimw_ends {s : State} (k : BitVec 3) (w : Word) (hseq : s.seq = .rleDimW) (hpos : s.headerSound) :
    Ends (runDimw k w s) fun t => s.Advanced t ∧ t.seq ≠ .encScan := by
  refine ⟨⟨⟨(State.Keeps.refl s).registers, ⟨rfl, rfl, rfl⟩, hpos, fun _ => ⟨nofun, ?_⟩⟩, nofun⟩, nofun⟩
  simp only [State.turnsLeft, hseq]
  exact Nat.lt_succ_self _

/-- The pixel count of an image with two dimensions, opened at its first pixel. -/
theorem DecRegs.opened_payloadSound {s : State} {x : Word} (hw : s.dec.dW ≠ 0#64) (hx : x ≠ 0#64)
    (hfit : s.dec.dW.toNat * x.toNat ≤ s.bufCap.toNat) :
    State.payloadSound { s with dec := s.dec.opened x } := by
  have hcount := DecRegs.opened_dN hfit
  have hw : 0 < s.dec.dW.toNat := Nat.pos_of_ne_zero fun e => hw (BitVec.eq_of_toNat_eq e)
  have hx : 0 < x.toNat := Nat.pos_of_ne_zero fun e => hx (BitVec.eq_of_toNat_eq e)
  refine ⟨?_, hcount, ?_, Nat.zero_le _, fun _ => ⟨by simp [DecRegs.opened], hx⟩⟩
  · dsimp only
    rw [hcount]
    exact Nat.mul_pos hw hx
  · dsimp only
    rwa [hcount]

theorem runDimh_ends {s : State} (k : BitVec 3) (x : Word) (hseq : s.seq = .rleDimH) :
    Ends (runDimh k x s) fun t => s.Advanced t ∧ t.seq ≠ .encScan := by
  by_cases hzero : s.dec.dW = 0#64 ∨ x = 0#64
  · exact ends_err (runDimh_zero k hzero)
  · obtain ⟨hw, hx⟩ := not_or.1 hzero
    rcases Nat.lt_or_ge s.bufCap.toNat (s.dec.dW.toNat * x.toNat) with hbig | hfit
    · exact ends_err (runDimh_range k hw hx hbig)
    · refine ends_ok (runDimh_fits k hw hx hfit)
        ⟨⟨⟨(State.Keeps.refl s).registers, ⟨rfl, rfl, rfl⟩, ?_, fun _ => ⟨nofun, ?_⟩⟩, nofun⟩, nofun⟩
      · exact DecRegs.opened_payloadSound hw hx hfit
      · simp only [State.turnsLeft, hseq]
        change 1 + (s.inputLen - _) < s.inputLen + 2
        omega

/-- A payload element that keeps the counts of the image and takes one byte of the frame. -/
theorem payload_turned {s t : State} (hseq : s.seq = .rlePayload) (hmore : s.dec.rp.toNat < s.inputLen)
    (hsrc : s.src.readable) (hkeeps : s.Keeps t) (henc : t.enc = s.enc) (hstay : t.seq = s.seq)
    (hpos : t.payloadSound) (hrp : t.dec.rp = s.dec.rp + 1#64) : s.Advanced t ∧ t.seq ≠ .encScan := by
  rw [hseq] at hstay
  have hopen : t.seq ≠ .host ∧ t.seq ≠ .encScan := by rw [hstay]; exact ⟨nofun, nofun⟩
  refine ⟨⟨⟨hkeeps, ⟨by rw [henc], by rw [henc], by rw [henc]⟩, ?_, fun _ => ⟨fun h => ?_, ?_⟩⟩, hopen.1⟩, hopen.2⟩
  · unfold State.positionSound
    rw [hstay]
    exact hpos
  · exact absurd (hstay.symm.trans h) nofun
  · have hnext : (s.dec.rp + 1#64).toNat = s.dec.rp.toNat + 1 := by
      have hlen : s.inputLen < 2 ^ 64 := (s.len s.src).isLt
      bv_omega
    simp only [State.turnsLeft, hseq, hstay, hkeeps.inputLen hsrc, hrp, hnext]
    omega

theorem runGrp_ends {s : State} (c : Byte) (hs : s.StreamSound) (hseq : s.seq = .rlePayload)
    (hmore : s.dec.rp.toNat < s.inputLen) (hpos : s.payloadSound) :
    Ends (runGrp c s) fun t => s.Advanced t ∧ t.seq ≠ .encScan :=
  payload_turned hseq hmore hs.src (State.Keeps.refl s).registers rfl rfl hpos rfl

theorem accumulate_ends (d : DecRegs) (b : Byte) :
    Ends (d.accumulate b) fun e => ∃ acc, e = { d with acc := acc, nfrag := true } := by
  unfold DecRegs.accumulate
  split
  · trivial
  · dsimp only
    split
    · trivial
    · exact ⟨_, rfl⟩

theorem runCnt_ends {s : State} (f : Byte) (hs : s.StreamSound) (hseq : s.seq = .rlePayload)
    (hmore : s.dec.rp.toNat < s.inputLen) (hpos : s.payloadSound) :
    Ends (runCnt f s) fun t => s.Advanced t ∧ t.seq ≠ .encScan := by
  refine (accumulate_ends _ f).bind ?_
  rintro _ ⟨acc, rfl⟩
  exact payload_turned hseq hmore hs.src (State.Keeps.refl s).registers rfl rfl hpos rfl

theorem runLit_ends {s : State} (v : Byte) (hs : s.StreamSound) (hseq : s.seq = .rlePayload)
    (hmore : s.dec.rp.toNat < s.inputLen) (hpos : s.payloadSound) :
    Ends (runLit v s) fun t => s.Advanced t ∧ t.seq ≠ .encScan := by
  refine (State.writePair_ends s.dec.count v
    (s := { s with dec := { s.dec with rp := s.dec.rp + 1#64, gbit := s.dec.gbit + 1#4 } }) hpos).bind fun t ht => ?_
  exact payload_turned hseq hmore hs.src ((State.Keeps.refl s).registers.trans ht.keeps).registers ht.enc ht.seq
    ht.payload ht.cursor

/-! ### The elements of the Huffman frame -/

theorem runOut_ends {s : State} (reserved : BitVec 4) (huf : Bool) (pad : BitVec 3) (hs : s.StreamSound)
    (hseq : s.seq = .hufOuter) : Ends (runOut reserved huf pad s) fun t => s.Advanced t ∧ t.seq ≠ .encScan := by
  have hclear : s.Keeps (s.clear .out) := State.clear_keeps (.inl rfl)
  have hlen := hclear.inputLen hs.src
  unfold runOut
  cases huf with
  | false =>
    refine ⟨⟨⟨hclear.registers, ⟨rfl, rfl, rfl⟩, trivial, fun _ => ⟨nofun, ?_⟩⟩, nofun⟩, nofun⟩
    simp only [State.turnsLeft, hseq]
    change 1 + ((s.clear .out).inputLen - 1 - 0) < _
    omega
  | true =>
    refine ⟨⟨⟨hclear.registers, ⟨rfl, rfl, rfl⟩, trivial, fun _ => ⟨fun _ => Nat.zero_le 8, ?_⟩⟩, nofun⟩, nofun⟩
    simp only [State.turnsLeft, hseq]
    change 1 + (8 * ((s.clear .out).inputLen - 1) - 0) + (s.bufCap.toNat - 0) < _
    omega

/-- A turn that takes one byte of the pass-through. -/
theorem raw_turned {s t : State} (hs : s.StreamSound) (hseq : s.seq = .hufRaw)
    (hmore : s.huf.rb.toNat < s.payloadLen) (hkeeps : s.Keeps t) (henc : t.enc = s.enc) (hstay : t.seq = s.seq)
    (hrb : t.huf.rb = s.huf.rb + 1#64) : s.Advanced t ∧ t.seq ≠ .encScan := by
  rw [hseq] at hstay
  have hopen : t.seq ≠ .host ∧ t.seq ≠ .encScan := by rw [hstay]; exact ⟨nofun, nofun⟩
  refine ⟨⟨⟨hkeeps, ⟨by rw [henc], by rw [henc], by rw [henc]⟩, ?_, fun _ => ⟨fun h => ?_, ?_⟩⟩, hopen.1⟩, hopen.2⟩
  · simp only [State.positionSound, hstay]
  · exact absurd (hstay.symm.trans h) nofun
  · have hlen : s.inputLen < 2 ^ 64 := (s.len s.src).isLt
    unfold State.payloadLen at hmore
    have hnext : (s.huf.rb + 1#64).toNat = s.huf.rb.toNat + 1 := by bv_omega
    simp only [State.turnsLeft, hstay, hseq, State.payloadLen, hkeeps.inputLen hs.src, hrb, hnext]
    omega

theorem runRaw_ends {s : State} (x : Byte) (hs : s.StreamSound) (hseq : s.seq = .hufRaw)
    (hmore : s.huf.rb.toNat < s.payloadLen) : Ends (runRaw x s) fun t => s.Advanced t ∧ t.seq ≠ .encScan := by
  refine (State.append_ends x (.inl rfl)).bind fun t ⟨ht, hkeeps⟩ => ?_
  obtain ⟨-, rfl, -⟩ := State.append_ok ht
  exact raw_turned hs hseq hmore hkeeps.registers rfl rfl rfl

/-- A position of the bit reader before the end of the payload, in bits (R196). -/
theorem readerAt_lt {rb ri len : Nat} (hri : ri ≤ 8) (h : (readerAt rb ri).1 < len) : 8 * rb + ri < 8 * len := by
  unfold readerAt at h
  split at h
  · dsimp only at h
    omega
  · dsimp only at h
    omega

theorem HufRegs.takeBits_position (h : HufRegs) (n : Nat) (hri : h.ri.toNat ≤ 8)
    (hroom : 8 * h.rb.toNat + h.ri.toNat + n ≤ 8 * (2 ^ 64 - 1)) :
    8 * (h.takeBits n).rb.toNat + (h.takeBits n).ri.toNat = 8 * h.rb.toNat + h.ri.toNat + n ∧
    (h.takeBits n).ri.toNat ≤ 8 := by
  induction n generalizing h with
  | zero => exact ⟨rfl, hri⟩
  | succ n ih =>
    obtain ⟨hnext, -, hri'⟩ := h.takeBit_position hri (by omega)
    obtain ⟨hall, hlast⟩ := ih h.takeBit hri' (by omega)
    exact ⟨by rw [HufRegs.takeBits, hall, hnext]; omega, hlast⟩

/-- The bits left of the payload and the room left in OUT, from which each turn of a coded payload takes. -/
abbrev State.bitsLeft (s : State) : Nat :=
  8 * s.payloadLen - (8 * s.huf.rb.toNat + s.huf.ri.toNat) + (s.bufCap.toNat - s.outLen.toNat)

/-- A turn of a coded payload. -/
theorem coded_turned {s t : State} (hseq : s.seq = .hufBits) (hkeeps : s.Keeps t) (henc : t.enc = s.enc)
    (hstay : t.seq = s.seq)
    (hprogress : s.huf.ri.toNat ≤ 8 → t.huf.ri.toNat ≤ 8 ∧ t.bitsLeft < s.bitsLeft) :
    s.Advanced t ∧ t.seq ≠ .encScan := by
  rw [hseq] at hstay
  have hopen : t.seq ≠ .host ∧ t.seq ≠ .encScan := by rw [hstay]; exact ⟨nofun, nofun⟩
  refine ⟨⟨⟨hkeeps, ⟨by rw [henc], by rw [henc], by rw [henc]⟩, ?_, fun hri => ?_⟩, hopen.1⟩, hopen.2⟩
  · simp only [State.positionSound, hstay]
  · obtain ⟨hri', hless⟩ := hprogress (hri hseq)
    refine ⟨fun _ => hri', ?_⟩
    simp only [State.turnsLeft, hstay, hseq]
    unfold State.bitsLeft at hless
    omega

theorem runCode_ends {s : State} (b : Bool) (hseq : s.seq = .hufBits)
    (hmore : (readerAt s.huf.rb.toNat s.huf.ri.toNat).1 < s.payloadLen) :
    Ends (runCode b s) fun t => s.Advanced t ∧ t.seq ≠ .encScan := by
  have hlen : s.inputLen < 2 ^ 64 := (s.len s.src).isLt
  unfold runCode
  dsimp only
  generalize (if b then (s.tree.node s.huf.dcur).right else (s.tree.node s.huf.dcur).left) = child
  split
  · trivial
  · refine coded_turned hseq (State.Keeps.refl s).registers rfl rfl fun hri => ?_
    have hlt := readerAt_lt hri hmore
    obtain ⟨hnext, -, hri'⟩ := s.huf.takeBit_position hri (by unfold State.payloadLen at hlt; omega)
    refine ⟨hri', ?_⟩
    change 8 * s.payloadLen - (8 * s.huf.takeBit.rb.toNat + s.huf.takeBit.ri.toNat) + (s.bufCap.toNat - s.outLen.toNat)
      < s.bitsLeft
    rw [hnext]
    unfold State.bitsLeft
    omega

/-- A symbol appended to OUT by a turn that does not go back in the payload. -/
theorem appended_turned {s t : State} {v : Byte} {tree : Tree} {huf : HufRegs} (hs : s.StreamSound)
    (hseq : s.seq = .hufBits) (h : s.append .out v = .ok t)
    (hreader : s.huf.ri.toNat ≤ 8 → huf.ri.toNat ≤ 8 ∧
      8 * s.huf.rb.toNat + s.huf.ri.toNat ≤ 8 * huf.rb.toNat + huf.ri.toNat) :
    s.Advanced { t with tree := tree, huf := huf } ∧ State.seq { t with tree := tree, huf := huf } ≠ .encScan := by
  have hkeeps := State.append_keeps (.inl rfl) h
  have hlen := hkeeps.inputLen hs.src
  obtain ⟨hfit, ht, hmore, -⟩ := State.append_ok h
  have henc : t.enc = s.enc := by rw [ht]; rfl
  have hstay : t.seq = s.seq := by rw [ht]; rfl
  have hcount : t.outLen.toNat = s.outLen.toNat + 1 := hmore
  have hroom : s.outLen.toNat < s.bufCap.toNat := hfit
  refine coded_turned hseq hkeeps.registers henc hstay fun hri => ?_
  obtain ⟨hri', hon⟩ := hreader hri
  refine ⟨hri', ?_⟩
  change 8 * (t.inputLen - 1) - (8 * huf.rb.toNat + huf.ri.toNat) + (t.bufCap.toNat - t.outLen.toNat) < s.bitsLeft
  unfold State.bitsLeft State.payloadLen
  rw [hlen, hcount, hkeeps.bufCap]
  omega

theorem runEsc_ends {s : State} (v : Byte) (hs : s.StreamSound) (hseq : s.seq = .hufBits)
    (hmore : (readerAt s.huf.rb.toNat s.huf.ri.toNat).1 < s.payloadLen) :
    Ends (runEsc v s) fun t => s.Advanced t ∧ t.seq ≠ .encScan := by
  have hlen : s.inputLen < 2 ^ 64 := (s.len s.src).isLt
  unfold runEsc
  split
  · trivial
  · refine (State.append_ends v (.inl rfl)).bind fun t ⟨ht, _⟩ => ?_
    refine (orCorrupt_ends _).bind fun p _ => (orCorrupt_ends _).bind fun u _ => ?_
    refine appended_turned hs hseq ht fun hri => ?_
    have hlt := readerAt_lt hri hmore
    have hhuf : t.huf = s.huf := by rw [(State.append_ok ht).2.1]; rfl
    rw [hhuf]
    obtain ⟨hon, hri'⟩ := s.huf.takeBits_position 8 hri (by unfold State.payloadLen at hlt; omega)
    dsimp only
    omega

theorem State.emitSymbol_ends {s : State} (hs : s.StreamSound) (hseq : s.seq = .hufBits) :
    Ends s.emitSymbol s.Advanced := by
  refine (State.append_ends _ (.inl rfl)).bind fun t ⟨ht, _⟩ => (orCorrupt_ends _).bind fun u _ => ?_
  refine (appended_turned hs hseq ht fun hri => ?_).1
  obtain ⟨-, rfl, -⟩ := State.append_ok ht
  exact ⟨hri, le_rfl⟩

/-! ### The encoder's scan -/

theorem State.extendRun_turned {s : State} (hseq : s.seq = .encScan) (hpos : s.scanSound)
    (hmore : s.enc.eT.toNat < s.enc.eN.toNat) : s.Advanced s.extendRun := by
  have hnext : (s.enc.eT + 1#64).toNat = s.enc.eT.toNat + 1 := by bv_omega
  refine ⟨⟨(State.Keeps.refl s).registers, ⟨rfl, rfl, rfl⟩, ?_, fun _ => ⟨fun h => ?_, ?_⟩⟩, ?_⟩
  · simp only [State.positionSound, State.extendRun_seq, hseq]
    exact hpos
  · exact absurd (hseq.symm.trans h) nofun
  · simp only [State.turnsLeft, State.extendRun_seq, hseq]
    change 2 + (s.enc.eN.toNat - (s.enc.eT + 1#64).toNat) < _
    omega
  · exact fun h => absurd (hseq.symm.trans h) nofun

/-- After the open run is written, the next pixel opens a run, or the payload is to be closed (R125). -/
theorem State.afterRun_ends {s t : State} (hseq : s.seq = .encScan) (hpos : s.scanSound) (h : s.Puts t) :
    Ends t.afterElement s.Advanced := by
  have hstay : t.seq = .encScan := h.seq.trans hseq
  have hW : t.enc.eW = s.enc.eW := (congrArg EncRegs.eW h.scan :)
  have hH : t.enc.eH = s.enc.eH := (congrArg EncRegs.eH h.scan :)
  have hN : t.enc.eN = s.enc.eN := (congrArg EncRegs.eN h.scan :)
  have hT : t.enc.eT = s.enc.eT := (congrArg EncRegs.eT h.scan :)
  have hpos' : t.scanSound := by
    unfold State.scanSound
    rwa [hW, hH, hN, h.keeps.bufCap]
  rw [State.afterElement, if_pos hstay]
  split
  · have hmore : t.enc.eT.toNat < t.enc.eN.toNat := ‹_›
    have hnext : (t.enc.eT + 1#64).toNat = t.enc.eT.toNat + 1 := by bv_omega
    refine (State.pix_ends hpos' hmore).bind fun v _ => ?_
    refine ⟨⟨h.keeps.registers, ⟨hW, hH, hN⟩, ?_, fun _ => ⟨fun h => ?_, ?_⟩⟩, ?_⟩
    · simp only [State.positionSound, hstay]
      exact hpos'
    · exact absurd (hstay.symm.trans h) nofun
    · simp only [State.turnsLeft, hstay, hseq, hnext]
      rw [hN, hT] at hmore ⊢
      omega
    · exact fun h => absurd (hstay.symm.trans h) nofun
  · refine ⟨⟨h.keeps.registers, ⟨hW, hH, hN⟩, trivial, fun _ => ⟨nofun, ?_⟩⟩, nofun⟩
    simp only [State.turnsLeft, hseq]
    omega

/-! ### The end of a loop, and a turn in every position -/

theorem State.turnsLeft_pos {s : State} (hseq : s.seq ≠ .host) : 0 < s.turnsLeft := by
  unfold State.turnsLeft
  cases h : s.seq
  case host => exact absurd h hseq
  all_goals
    dsimp only
    omega

/-- A loop that has ended stands between commands. -/
theorem ended_turned {s t : State} (hseq : s.seq ≠ .host) (hkeeps : s.Keeps t) (hdims : s.sameDims t)
    (hend : t.seq = .host) : s.Turned t := by
  refine ⟨hkeeps, hdims, ?_, fun _ => ⟨fun h => absurd (hend.symm.trans h) nofun, ?_⟩⟩
  · simp only [State.positionSound, hend]
  · simpa only [State.turnsLeft, hend] using State.turnsLeft_pos hseq

theorem State.endLoop_ends {s : State} (hs : s.StreamSound) (hseq : s.seq ≠ .host) : Ends s.endLoop s.Turned := by
  have hpos := hs.position
  unfold State.endLoop
  unfold State.positionSound at hpos
  cases h : s.seq
  case host => exact absurd h hseq
  case rlePayload =>
    rw [h] at hpos
    obtain ⟨-, -, hfit, -⟩ := hpos
    dsimp only
    unfold State.endRle
    split
    · trivial
    · exact ended_turned hseq ⟨rfl, rfl, rfl, rfl, rfl, id, id, fun _ => hfit⟩ ⟨rfl, rfl, rfl⟩ rfl
  case encClose =>
    refine (State.finalise_ends hs.dest).bind fun t ht => ?_
    exact ended_turned hseq ht.keeps.registers
      ⟨(congrArg EncRegs.eW ht.scan :), (congrArg EncRegs.eH ht.scan :), (congrArg EncRegs.eN ht.scan :)⟩ rfl
  all_goals exact ended_turned hseq (State.Keeps.refl s).registers ⟨rfl, rfl, rfl⟩ rfl

/-- What a selected turn does. -/
def State.take (s : State) : Turn → Run State
  | .element i => runElement i s >>= State.afterElement
  | .extend => .ok s.extendRun
  | .emit => s.emitSymbol
  | .stop => s.endLoop

theorem State.turn_eq (s : State) : s.turn = s.nextTurn >>= s.take := by
  unfold State.turn
  refine congrArg (s.nextTurn >>= ·) (funext fun n => ?_)
  cases n <;> rfl

/-- A selected turn that is not the end of the loop runs, and the stream goes on. -/
theorem State.take_ends {s : State} {n : Turn} (hs : s.StreamSound) (hn : s.Selects n) (hgo : n ≠ .stop) :
    Ends (s.take n) s.Advanced := by
  have hpos := hs.position
  unfold State.positionSound at hpos
  unfold State.Selects at hn
  cases h : s.seq
  all_goals
    rw [h] at hn hpos
    dsimp only at hn hpos
  case host | encClose => exact absurd hn hgo
  case rleSet =>
    obtain ⟨scan, model, kw, kh, rfl⟩ := hn
    exact element_ends (runSet_ends scan model kw kh h)
  case rleDimW =>
    obtain ⟨k, w, rfl⟩ := hn
    exact element_ends (runDimw_ends k w h hpos)
  case rleDimH =>
    obtain ⟨k, x, rfl⟩ := hn
    exact element_ends (runDimh_ends k x h)
  case rlePayload =>
    obtain ⟨hmore, b, rfl | ⟨-, rfl | rfl⟩⟩ := hn.resolve_left hgo
    · exact element_ends (runGrp_ends b hs h hmore hpos)
    · exact element_ends (runCnt_ends b hs h hmore hpos)
    · exact element_ends (runLit_ends b hs h hmore hpos)
  case hufOuter =>
    obtain ⟨reserved, huf, pad, rfl⟩ := hn
    exact element_ends (runOut_ends reserved huf pad hs h)
  case hufRaw =>
    obtain ⟨hmore, x, rfl⟩ := hn.resolve_left hgo
    exact element_ends (runRaw_ends x hs h hmore)
  case hufBits =>
    obtain rfl | ⟨hmore, ⟨b, rfl⟩ | ⟨v, rfl⟩⟩ := hn.resolve_left hgo
    · exact State.emitSymbol_ends hs h
    · exact element_ends (runCode_ends b h hmore)
    · exact element_ends (runEsc_ends v hs h hmore)
  case encScan =>
    obtain ⟨hmore, rfl⟩ | rfl := hn
    · exact State.extendRun_turned h hpos hmore
    · rw [State.take, runElement_runForm]
      exact (State.putItems_ends _ hs.dest).bind fun t ht => State.afterRun_ends h hpos ht

/-- One turn in every position: what it selects runs, keeps what an engine keeps, and is one turn less to do. -/
theorem State.turn_ends {s : State} (hs : s.StreamSound) (hseq : s.seq ≠ .host) : Ends s.turn s.Turned := by
  rw [State.turn_eq]
  refine (State.nextTurn_ends hs).bind fun n hn => ?_
  by_cases hstop : n = .stop
  · subst hstop
    exact State.endLoop_ends hs hseq
  · exact (State.take_ends hs hn hstop).mono fun t => And.left

/-- What a whole loop keeps. -/
structure State.LoopEnded (s t : State) : Prop where
  keeps : s.Keeps t
  dims : s.sameDims t
  seq : t.seq = .host

/-- A loop with fuel for its turns ends. -/
theorem runTurns_ends (fuel : Nat) {s : State} (hs : s.StreamSound) (hreader : s.readerSound)
    (hfuel : s.turnsLeft ≤ fuel) : Ends (runTurns fuel s) s.LoopEnded := by
  induction fuel generalizing s with
  | zero =>
    have hseq : s.seq = .host := by
      by_contra h
      exact absurd hfuel (Nat.not_le.2 (State.turnsLeft_pos h))
    rw [runTurns, if_pos hseq]
    exact ⟨.refl s, ⟨rfl, rfl, rfl⟩, hseq⟩
  | succ fuel ih =>
    unfold runTurns
    split
    · exact ⟨.refl s, ⟨rfl, rfl, rfl⟩, ‹_›⟩
    · refine (State.turn_ends hs ‹_›).bind fun t ht => ?_
      obtain ⟨hreader', hless⟩ := ht.progress hreader
      refine (ih (hs.turned ht) hreader' (by omega)).mono fun u hu => ?_
      obtain ⟨hkeeps, ⟨hW, hH, hN⟩, hend⟩ := hu
      exact ⟨ht.keeps.trans hkeeps, ⟨hW.trans ht.dims.1, hH.trans ht.dims.2.1, hN.trans ht.dims.2.2⟩, hend⟩

end Sys2Proof.Machine
end

section
/-! PROOF for O38: every stage of a command ends, and so does every command. -/

namespace Sys2Proof.Machine

/-! ### Stages of a command (R122, R145, R187, R200, R223, R224) -/

/-- A stage of a command can start: its input can be read, and its output written. -/
structure State.Ready (s : State) : Prop where
  src : s.src.readable
  dest : s.dest.written
  input : s.inputLen ≤ s.bufCap.toNat

theorem State.Ready.keeps {s t : State} (hs : s.Ready) (h : s.Keeps t) : t.Ready where
  src := h.src.symm ▸ hs.src
  dest := h.dest hs.dest
  input := by
    rw [h.inputLen hs.src, h.bufCap]
    exact hs.input

/-- The RLE encoder knows the dimensions of its input, an image of at least one pixel (R121). -/
structure State.Measured (s : State) : Prop where
  area : s.enc.eN.toNat = s.enc.eW.toNat * s.enc.eH.toNat
  input : s.enc.eN.toNat = s.inputLen
  pixels : 0 < s.enc.eN.toNat

theorem State.Measured.keeps {s t : State} (h : s.Measured) (hsrc : s.src.readable) (hk : s.Keeps t)
    (hdims : s.sameDims t) : t.Measured := by
  obtain ⟨hW, hH, hN⟩ := hdims
  exact ⟨by rw [hW, hH, hN, h.area], by rw [hN, h.input, hk.inputLen hsrc], by rw [hN]; exact h.pixels⟩

theorem State.checkDims_ends {s : State} (w h : Word) :
    Ends (s.checkDims w h) fun t => s.Keeps t ∧ t.Measured := by
  unfold State.checkDims
  split
  · trivial
  · obtain ⟨hw, hh⟩ := not_or.1 ‹_›
    split
    · trivial
    · have harea : w.toNat * h.toNat = s.inputLen := not_not.1 ‹_›
      have hfit : s.inputLen < 2 ^ 64 := (s.len s.src).isLt
      have hcount : (BitVec.ofNat 64 (w.toNat * h.toNat)).toNat = w.toNat * h.toNat := by
        rw [BitVec.toNat_ofNat, harea, Nat.mod_eq_of_lt hfit]
      have hw : 0 < w.toNat := Nat.pos_of_ne_zero fun e => hw (BitVec.eq_of_toNat_eq e)
      have hh : 0 < h.toNat := Nat.pos_of_ne_zero fun e => hh (BitVec.eq_of_toNat_eq e)
      exact ⟨(State.Keeps.refl s).registers, hcount, hcount.trans harea, (Nat.mul_pos hw hh).trans_eq hcount.symm⟩

theorem State.emitHeader_ends {s : State} (hd : s.dest.written) :
    Ends s.emitHeader fun t => s.Keeps t ∧ t.enc = s.enc := by
  refine (State.appendAll_ends _ hd).mono fun t ⟨ht, hkeeps⟩ => ⟨hkeeps, ?_⟩
  obtain ⟨m, n, rfl⟩ := State.appendAll_frame ht
  simp

/-- The scan of a measured image ends with the whole payload written. -/
theorem State.scan_ends {s : State} (hs : s.Ready) (hm : s.Measured) :
    Ends (s.openScan >>= fun u => runTurns (u.enc.eN.toNat + 2) u) fun t => s.Keeps t ∧ s.sameDims t := by
  have hscan : s.scanSound := ⟨hm.area, hm.input.trans_le hs.input⟩
  have hopen : Ends s.openScan fun u => ∃ v, u = { s with
      seq := .encScan, enc := { s.enc with cur := v, cnt := 1#64, eT := 1#64 } } :=
    (State.pix_ends hscan hm.pixels).bind fun v _ => ⟨v, rfl⟩
  refine hopen.bind ?_
  rintro _ ⟨v, rfl⟩
  refine (runTurns_ends _ (s := { s with
      seq := .encScan, enc := { s.enc with cur := v, cnt := 1#64, eT := 1#64 } })
    ⟨hs.src, hs.dest, hs.input, hscan⟩ nofun ?_).mono fun t ht => ?_
  · change 2 + (s.enc.eN.toNat - 1) ≤ s.enc.eN.toNat + 2
    omega
  · exact ⟨(State.Keeps.refl s).registers.trans ht.keeps, ht.dims⟩

theorem State.encodePass_ends {s : State} (scan : Bool) {dest : Space} (hs : s.Ready) (hm : s.Measured)
    (hdest : dest.written) : Ends (s.encodePass scan dest) fun t => s.Keeps t ∧ s.sameDims t := by
  have hclear : s.Keeps (s.clear dest) := State.clear_keeps hdest
  have hstart (e : EncRegs) : s.Keeps { s.clear dest with dest := dest, enc := e } :=
    hclear.trans ⟨rfl, rfl, rfl, rfl, rfl, fun _ => hdest, id, id⟩
  refine (State.emitHeader_ends hdest).bind fun t ⟨ht, henc⟩ => ?_
  have hkeeps : s.Keeps t := (hstart _).trans ht
  have hdims : s.sameDims t := by
    rw [State.sameDims, henc]
    dsimp only
    rw [State.clear_enc]
    exact ⟨rfl, rfl, rfl⟩
  refine (State.scan_ends (hs.keeps hkeeps) (hm.keeps hs.src hkeeps hdims)).mono fun u ⟨hu, hW, hH, hN⟩ => ?_
  exact ⟨hkeeps.trans hu, hW.trans hdims.1, hH.trans hdims.2.1, hN.trans hdims.2.2⟩

theorem State.rleEncBody_ends {s : State} (scan : Bool) (w h : Word) (hs : s.Ready) :
    Ends (State.rleEncBody scan w h s) s.Keeps :=
  (State.checkDims_ends w h).bind fun _ ⟨ht, hm⟩ =>
    (State.encodePass_ends scan (hs.keeps ht) hm (.inl rfl)).mono fun _ hu => ht.trans hu.1

theorem State.rleEncABody_ends {s : State} (w h : Word) (hs : s.Ready) :
    Ends (State.rleEncABody w h s) fun p => s.Keeps p.1 := by
  refine (State.checkDims_ends w h).bind fun t ⟨ht, hm⟩ => ?_
  have hst := hs.keeps ht
  refine (State.encodePass_ends true hst hm (.inl rfl)).bind fun a ⟨ha, hdims⟩ => ?_
  refine (State.encodePass_ends false (hst.keeps ha) (hm.keeps hst.src ha hdims) (.inr rfl)).bind fun b ⟨hb, _⟩ => ?_
  have hkeeps := (ht.trans ha).trans hb
  split
  · rename_i hshorter
    refine hkeeps.trans ⟨rfl, rfl, rfl, rfl, rfl, id, fun ⟨⟨hi, _, hb, hm⟩, hi', _, hb', hm'⟩ => ?_, hshorter.trans⟩
    exact ⟨⟨hi, hb, hb, hm⟩, hi', hb', hb', hm'⟩
  · exact hkeeps

theorem State.rleDecBody_ends {s : State} (hs : s.Ready) : Ends s.rleDecBody s.Keeps := by
  have hclear : s.Keeps (s.clear .out) := State.clear_keeps (.inl rfl)
  have hr := hs.keeps hclear
  have hlen := hclear.inputLen hs.src
  refine (runTurns_ends _ (s := { s.clear .out with seq := .rleSet }) ⟨hr.src, hr.dest, hr.input, trivial⟩ nofun
    ?_).mono fun t ht => ?_
  · change (s.clear .out).inputLen + 4 ≤ s.inputLen + 4
    rw [hlen]
  · exact hclear.registers.trans ht.keeps

theorem State.hufDecBody_ends {s : State} (hs : s.Ready) : Ends s.hufDecBody s.Keeps :=
  (runTurns_ends _ (s := { s with seq := .hufOuter }) ⟨hs.src, hs.dest, hs.input, trivial⟩ nofun le_rfl).mono
    fun _ ht => (State.Keeps.refl s).registers.trans ht.keeps

theorem State.diffFwdFrom_ends (k i : Nat) {s : State} (hs : s.Ready) (hik : i + k ≤ s.inputLen) :
    Ends (State.diffFwdFrom k i s) s.Keeps := by
  induction k generalizing i s with
  | zero => exact .refl s
  | succ k ih =>
    have hin := hs.input
    refine (State.inputByte_ends (by omega)).bind fun x _ => ?_
    refine (State.append_ends _ (.inl rfl)).bind fun t ⟨_, ht⟩ => ?_
    have hkeeps : s.Keeps { t with prev := x } := ht.registers
    exact (ih (i + 1) (hs.keeps hkeeps) (by rw [hkeeps.inputLen hs.src]; omega)).mono fun u => hkeeps.trans

theorem State.diffFwdBody_ends {s : State} (hs : s.Ready) : Ends s.diffFwdBody s.Keeps := by
  have hclear : s.Keeps (s.clear .out) := State.clear_keeps (.inl rfl)
  have hlen := hclear.inputLen hs.src
  exact (State.diffFwdFrom_ends _ 0 (hs.keeps hclear) (by omega)).mono fun t => hclear.trans

theorem State.diffInvFrom_ends (k i : Nat) {s : State} (hs : s.Ready) (hik : i + k ≤ s.inputLen) :
    Ends (State.diffInvFrom k i s) s.Keeps := by
  induction k generalizing i s with
  | zero => exact .refl s
  | succ k ih =>
    have hin := hs.input
    refine (State.inputByte_ends (by omega)).bind fun y _ => ?_
    refine (State.append_ends _ (.inl rfl)).bind fun t ⟨_, ht⟩ => ?_
    have hkeeps : s.Keeps t := (State.Keeps.refl s).registers.trans ht
    exact (ih (i + 1) (hs.keeps hkeeps) (by rw [hkeeps.inputLen hs.src]; omega)).mono fun u => hkeeps.trans

theorem State.diffInvBody_ends {s : State} (hs : s.Ready) : Ends s.diffInvBody s.Keeps := by
  have hclear : s.Keeps (s.clear .out) := State.clear_keeps (.inl rfl)
  have hlen := hclear.inputLen hs.src
  exact (State.diffInvFrom_ends _ 0 (hs.keeps hclear) (by omega)).mono fun t => hclear.trans

/-! ### The Huffman encoder (R181 to R190) -/

@[simp] theorem HufRegs.advance_ip (h : HufRegs) : h.advance.ip = h.ip := by
  unfold HufRegs.advance
  split
  · rfl
  · split <;> rfl

/-- The state `t` is `s` with bits written: the input goes on where it was. -/
structure State.Writes (s t : State) : Prop where
  keeps : s.Keeps t
  cursor : t.huf.ip = s.huf.ip

theorem State.Writes.trans {s t u : State} (h : s.Writes t) (h' : t.Writes u) : s.Writes u :=
  ⟨h.keeps.trans h'.keeps, h'.cursor.trans h.cursor⟩

theorem State.writeBit_ends (s : State) (v : Bool) : Ends (s.writeBit v) s.Writes := by
  rcases Nat.lt_or_ge s.huf.wb.toNat s.bufCap.toNat with hroom | hfull
  · exact ends_ok (s.writeBit_stored v hroom)
      ⟨(State.memWrite_keeps (s.memWrite_eq .out _ _ hroom)).registers, s.huf.advance_ip⟩
  · exact ends_ok (s.writeBit_counted v hfull) ⟨(State.Keeps.refl s).registers, s.huf.advance_ip⟩

theorem State.writeBits_ends (s : State) (vs : List Bool) : Ends (s.writeBits vs) s.Writes := by
  induction vs generalizing s with
  | nil => exact ⟨.refl s, rfl⟩
  | cons v vs ih => exact (s.writeBit_ends v).bind fun t ht => (ih t).mono fun u => ht.trans

theorem State.emitPath_ends (s : State) (l : Link) : Ends (s.emitPath l) s.Writes :=
  (orCorrupt_ends _).bind fun bits _ => s.writeBits_ends bits

theorem State.encodeSymbol_ends (s : State) (b : Byte) : Ends (s.encodeSymbol b) s.Writes := by
  unfold State.encodeSymbol
  split
  · refine (s.emitPath_ends _).bind fun t ht => (orCorrupt_ends _).bind fun p _ => ?_
    refine (State.writeBits_ends _ _).bind fun u hu => (orCorrupt_ends _).bind fun tree _ => ?_
    exact ⟨(ht.keeps.registers.trans hu.keeps).registers, hu.cursor.trans ht.cursor⟩
  · refine (s.emitPath_ends _).bind fun t ht => (orCorrupt_ends _).bind fun tree _ => ?_
    exact ⟨ht.keeps.registers, ht.cursor⟩

theorem State.encodeSymbols_ends (k : Nat) {s : State} (hs : s.Ready) (hik : s.huf.ip.toNat + k ≤ s.inputLen) :
    Ends (State.encodeSymbols k s) s.Keeps := by
  induction k generalizing s with
  | zero => exact .refl s
  | succ k ih =>
    have hin := hs.input
    refine (State.inputByte_ends (by omega)).bind fun b _ => (s.encodeSymbol_ends b).bind fun t ht => ?_
    have hkeeps : s.Keeps { t with huf := { t.huf with ip := t.huf.ip + 1#64 } } := ht.keeps.registers
    refine (ih (hs.keeps hkeeps) ?_).mono fun u => hkeeps.trans
    have hlen : s.inputLen < 2 ^ 64 := (s.len s.src).isLt
    have hnext : (s.huf.ip + 1#64).toNat = s.huf.ip.toNat + 1 := by bv_omega
    rw [hkeeps.inputLen hs.src, ht.cursor, hnext]
    omega

theorem State.copyInput_ends (k i : Nat) {s : State} (hs : s.Ready) (hik : i + k ≤ s.inputLen) :
    Ends (State.copyInput k i s) s.Keeps := by
  induction k generalizing i s with
  | zero => exact .refl s
  | succ k ih =>
    have hin := hs.input
    refine (State.inputByte_ends (by omega)).bind fun b _ => ?_
    refine (State.memWrite_ends .out b (by omega)).bind fun t ⟨_, ht⟩ => ?_
    exact (ih (i + 1) (hs.keeps ht) (by rw [ht.inputLen hs.src]; omega)).mono fun u => ht.trans

/-- OUT holds the whole of a form that is no longer than the input. -/
theorem State.Keeps.setOutLen {s t : State} {n : Nat} {huf : HufRegs} {outer : Byte} (h : s.Keeps t)
    (hn : n ≤ t.bufCap.toNat) :
    s.Keeps { t with huf := huf, outLen := BitVec.ofNat 64 n, resOuter := outer } := by
  refine h.trans ⟨rfl, rfl, rfl, rfl, rfl, id, id, fun _ => ?_⟩
  rw [BitVec.toNat_ofNat]
  exact (Nat.mod_le ..).trans hn

theorem State.arbitrate_ends {s : State} (hs : s.Ready) : Ends s.arbitrate s.Keeps := by
  unfold State.arbitrate
  split
  · exact (State.copyInput_ends _ 0 hs (by omega)).bind fun t ht => ht.setOutLen (ht.bufCap ▸ hs.input)
  · exact (State.Keeps.refl s).setOutLen ((Nat.not_lt.1 ‹_›).trans hs.input)

theorem State.hufEncBody_ends {s : State} (hs : s.Ready) : Ends s.hufEncBody s.Keeps := by
  have hclear : s.Keeps (s.clear .out) := State.clear_keeps (.inl rfl)
  have hlen := hclear.inputLen hs.src
  unfold State.hufEncBody
  split
  · trivial
  · have hstart (tree : Tree) (huf : HufRegs) : s.Keeps { s.clear .out with tree := tree, huf := huf } :=
      hclear.registers
    refine (State.encodeSymbols_ends _ (hs.keeps (hstart _ _)) ?_).bind fun t ht => ?_
    · change 0 + (s.clear .out).inputLen ≤ (s.clear .out).inputLen
      omega
    · have hkeeps := (hstart _ _).trans ht
      exact (State.arbitrate_ends (hs.keeps hkeeps)).mono fun u => hkeeps.trans

/-! ### Whole commands (R229, R230, R272) -/

/-- The state `t` stands between two stages of a command that has begun in `s`. -/
structure State.Stage (s t : State) : Prop where
  bufCap : t.bufCap = s.bufCap
  sound : s.memoriesSound → t.memoriesSound
  room : t.outLen.toNat ≤ t.bufCap.toNat
  ready : t.Ready

theorem State.Stage.keeps {s t u : State} (h : s.Stage t) (hk : t.Keeps u) : s.Stage u :=
  ⟨hk.bufCap.trans h.bufCap, fun hm => hk.sound (h.sound hm), hk.room h.room, h.ready.keeps hk⟩

theorem State.Stage.toMid {s t : State} (h : s.Stage t) : s.Stage t.toMid := by
  refine ⟨h.bufCap, fun hm => ?_, Nat.zero_le _, ⟨.inr rfl, h.ready.dest, h.room⟩⟩
  obtain ⟨⟨hi, ho, hb, -⟩, hi', ho', hb', -⟩ := h.sound hm
  exact ⟨⟨hi, .nil, hb, Memory.below_wf _ _ ho⟩, hi', nofun, hb', Memory.below_within_of _ _ _ ho'⟩

theorem State.begin_stage {s : State} (h : s.inLen.toNat ≤ s.bufCap.toNat) : s.Stage s.begin :=
  ⟨rfl, fun ⟨⟨hi, _, hb, hm⟩, hi', _, hb', hm'⟩ => ⟨⟨hi, .nil, hb, hm⟩, hi', nofun, hb', hm'⟩, Nat.zero_le _,
    ⟨.inl rfl, .inl rfl, h⟩⟩

/-- The state `t` is what a successful command that has begun in `s` leaves. -/
def State.Finished (s t : State) : Prop :=
  ∃ (u : State) (r : Results), t = u.finish r ∧ u.bufCap = s.bufCap ∧ (s.memoriesSound → u.memoriesSound) ∧
    u.outLen.toNat ≤ u.bufCap.toNat

theorem State.Stage.finish {s t : State} (h : s.Stage t) (r : Results) : s.Finished (t.finish r) :=
  ⟨t, r, rfl, h.bufCap, h.sound, h.room⟩

theorem State.compressRle_ends {s : State} (h : Word) (hs : s.Ready) :
    Ends (s.compressRle h) fun p => s.Keeps p.1 := by
  unfold State.compressRle
  split
  · exact State.rleEncABody_ends _ h hs
  · exact (State.rleEncBody_ends true _ h hs).bind fun t ht => ht

/-- The differential stage of COMPRESS (R229). -/
def State.compressDiff (s : State) : Run State :=
  if s.argModel then s.diffFwdBody >>= fun d => .ok d.toMid else .ok s

/-- The coding stages of COMPRESS, and the outer byte in front of the payload (R229). -/
def State.compressCode (h : Word) (x : State) : Run State := do
  let f ← x.compressRle h
  let p ← f.1.toMid.hufEncBody
  if p.bufCap.toNat < 1 + p.outLen.toNat then .error (.err .alloc)
  else
    .ok (State.finish
      { p with
        outMem := Memory.ofBytes 0 (p.resOuter :: p.output), outLen := p.outLen + 1#64 }
      { outer := some p.resOuter, flags := some (resultFlags false f.2) })

theorem compressBody_eq (s : State) :
    compressBody s =
      if s.argW = 0#64 ∨ s.inLen = 0#64 then .error (.err .rleEncDimZero)
      else if s.inLen.toNat % s.argW.toNat ≠ 0 then .error (.err .pipeDim)
      else s.compressDiff >>= State.compressCode (BitVec.ofNat 64 (s.inLen.toNat / s.argW.toNat)) := by
  unfold compressBody State.compressDiff
  split
  · rfl
  · split
    · rfl
    · split
      · exact (bind_assoc s.diffFwdBody _ _).symm
      · rfl

theorem State.compressDiff_ends {s b : State} (hb : s.Stage b) : Ends b.compressDiff s.Stage := by
  unfold State.compressDiff
  split
  · exact (State.diffFwdBody_ends hb.ready).bind fun d hd => (hb.keeps hd).toMid
  · exact hb

theorem State.compressCode_ends {s x : State} (h : Word) (hx : s.Stage x) : Ends (x.compressCode h) s.Finished := by
  refine (State.compressRle_ends h hx.ready).bind fun f hf => ?_
  have hmid := (hx.keeps hf).toMid
  refine (State.hufEncBody_ends hmid.ready).bind fun p hp => ?_
  have hstage := hmid.keeps hp
  split
  · trivial
  · have hfit : p.outLen.toNat + 1 ≤ p.bufCap.toNat := by omega
    have hcap := p.bufCap.isLt
    have hcount : (p.outLen + 1#64).toNat = p.outLen.toNat + 1 := by bv_omega
    refine ⟨_, _, rfl, hstage.bufCap, fun hm => ?_, hcount.trans_le hfit⟩
    obtain ⟨⟨hi, -, hb, hm⟩, hi', -, hb', hm'⟩ := hstage.sound hm
    refine ⟨⟨hi, Memory.ofBytes_wf _ _, hb, hm⟩, hi', fun c hc => ?_, hb', hm'⟩
    have hlt := Memory.ofBytes_within _ c hc
    rw [List.length_cons, State.output_length] at hlt
    exact hlt.trans_le hfit

theorem compressBody_ends {s b : State} (hb : s.Stage b) : Ends (compressBody b) s.Finished := by
  rw [compressBody_eq]
  split
  · trivial
  · split
    · trivial
    · exact (State.compressDiff_ends hb).bind fun x hx => State.compressCode_ends _ hx

/-- The inverse differential stage of DECOMPRESS (R230). -/
def State.decompressDiff (img : State) : Run State := if img.dec.dModel then img.toMid.diffInvBody else .ok img

theorem decompressBody_eq (s : State) :
    decompressBody s = s.hufDecBody >>= fun f => f.toMid.rleDecBody >>= fun img =>
      img.decompressDiff >>= fun x => .ok (x.finish img.rleResults) := by
  unfold decompressBody State.decompressDiff
  refine congrArg _ (funext fun f => congrArg _ (funext fun img => ?_))
  split <;> rfl

theorem State.decompressDiff_ends {s img : State} (h : s.Stage img) : Ends img.decompressDiff s.Stage := by
  unfold State.decompressDiff
  split
  · exact (State.diffInvBody_ends h.toMid.ready).mono fun x => h.toMid.keeps
  · exact h

theorem decompressBody_ends {s b : State} (hb : s.Stage b) : Ends (decompressBody b) s.Finished := by
  rw [decompressBody_eq]
  refine (State.hufDecBody_ends hb.ready).bind fun f hf => ?_
  have hmid := (hb.keeps hf).toMid
  refine (State.rleDecBody_ends hmid.ready).bind fun img himg => ?_
  exact (State.decompressDiff_ends (hmid.keeps himg)).bind fun x hx => hx.finish _

/-- What every command answers: a raise, or the end of its last stage. -/
theorem command_ends {s : State} {body : State → Run State} (h : ∀ b, s.Stage b → Ends (body b) s.Finished) :
    ∃ t, s.command body = .next t ∧ ((∃ e, t = s.raise e) ∨ s.Finished t) := by
  rcases Nat.lt_or_ge s.bufCap.toNat s.inLen.toNat with hlong | hfit
  · exact ⟨_, s.command_overlong body hlong, .inl ⟨_, rfl⟩⟩
  · rw [s.command_body body hfit]
    have hbody := h _ (State.begin_stage hfit)
    match body s.begin, hbody with
    | .ok t, ht => exact ⟨t, rfl, .inr ht⟩
    | .error (.err e), _ => exact ⟨_, rfl, .inl ⟨e, rfl⟩⟩

/-- A command of one stage. -/
theorem stage_command_ends {s : State} {stage : State → Run State} {results : State → Results}
    (h : ∀ b, s.Stage b → Ends (stage b) b.Keeps) :
    ∃ t, s.command (fun b => stage b >>= fun t => .ok (t.finish (results t))) = .next t ∧
      ((∃ e, t = s.raise e) ∨ s.Finished t) :=
  command_ends fun b hb => (h b hb).bind fun _ ht => (hb.keeps ht).finish _

theorem exec_command_ends {i : Instr} (s : State) (hi : i.isCommand = true) :
    ∃ t, exec i s = .next t ∧ ((∃ e, t = s.raise e) ∨ s.Finished t) := by
  cases i
  case compress => exact command_ends fun b hb => compressBody_ends hb
  case decompress => exact command_ends fun b hb => decompressBody_ends hb
  case rleEncA =>
    refine command_ends fun b hb => (State.rleEncABody_ends _ _ hb.ready).bind fun p hp => ?_
    exact (hb.keeps hp).finish _
  case rleEncH => exact stage_command_ends fun b hb => State.rleEncBody_ends true _ _ hb.ready
  case rleEncV => exact stage_command_ends fun b hb => State.rleEncBody_ends false _ _ hb.ready
  case rleDec => exact stage_command_ends fun b hb => State.rleDecBody_ends hb.ready
  case hufEnc => exact stage_command_ends fun b hb => State.hufEncBody_ends hb.ready
  case hufDec => exact stage_command_ends fun b hb => State.hufDecBody_ends hb.ready
  case diffFwd => exact stage_command_ends fun b hb => State.diffFwdBody_ends hb.ready
  case diffInv => exact stage_command_ends fun b hb => State.diffInvBody_ends hb.ready
  all_goals exact absurd hi Bool.false_ne_true

/-- Settles O38: every stage of the command ends with a state or with a fault code of R241. -/
theorem everyCommandEnds : Obligations.EveryCommandEnds := by
  intro i s hi
  obtain ⟨t, ht, ⟨e, rfl⟩ | ⟨u, r, rfl, -⟩⟩ := exec_command_ends s hi
  · exact ⟨_, ht, .inr ⟨e, s.raise_failed e⟩⟩
  · exact ⟨_, ht, .inl (u.finish_succeeded r)⟩

end Sys2Proof.Machine
end

section
/-! PROOFS for O58 and O59: every step of a sound state goes on to a sound state. -/

namespace Sys2Proof.Machine

/-! ### The invariant between commands and inside a stream -/

theorem State.inv_host_iff {s : State} (hseq : s.seq = .host) :
    s.Inv ↔ s.memoriesSound ∧ s.bufCap ≠ 0#64 ∧ s.outLen.toNat ≤ s.bufCap.toNat ∧ s.src.readable ∧ s.dest.written ∧
      s.reportSound := by
  refine ⟨fun ⟨hmem, hcap, hroom, _, hsrc, hdest, hreport, _⟩ => ⟨hmem, hcap, hroom, hsrc, hdest, hreport hseq⟩, ?_⟩
  rintro ⟨hmem, hcap, hroom, hsrc, hdest, hreport⟩
  have hstatus := hreport.1.imp And.left (Or.imp And.left And.left)
  refine ⟨hmem, hcap, hroom, hstatus, hsrc, hdest, fun _ => hreport, fun h => absurd hseq h, ?_⟩
  simp [hseq]

theorem State.inv_host {s : State} (hmem : s.memoriesSound) (hcap : s.bufCap ≠ 0#64)
    (hroom : s.outLen.toNat ≤ s.bufCap.toNat) (hsrc : s.src.readable) (hdest : s.dest.written)
    (hreport : s.reportSound) (hseq : s.seq = .host) : s.Inv :=
  (State.inv_host_iff hseq).2 ⟨hmem, hcap, hroom, hsrc, hdest, hreport⟩

theorem State.inv_stream_iff {s : State} (hseq : s.seq ≠ .host) :
    s.Inv ↔ s.memoriesSound ∧ s.bufCap ≠ 0#64 ∧ s.outLen.toNat ≤ s.bufCap.toNat ∧
      (s.status = 0x00#8 ∨ s.status = statusOk ∨ s.status = statusFailed) ∧ s.StreamSound := by
  constructor
  · rintro ⟨hmem, hcap, hroom, hstatus, hsrc, hdest, -, hin, hheader, hpayload, hscan⟩
    refine ⟨hmem, hcap, hroom, hstatus, hsrc, hdest, hin hseq, ?_⟩
    unfold State.positionSound
    split
    · exact hheader (.inl ‹_›)
    · exact hheader (.inr ‹_›)
    · exact hpayload ‹_›
    · exact hscan ‹_›
    · trivial
  · rintro ⟨hmem, hcap, hroom, hstatus, hsrc, hdest, hin, hpos⟩
    unfold State.positionSound at hpos
    refine ⟨hmem, hcap, hroom, hstatus, hsrc, hdest, fun h => absurd h hseq, fun _ => hin, ?_, ?_, ?_⟩
    · rintro (h | h)
      · rwa [h] at hpos
      · rwa [h] at hpos
    · intro h
      rwa [h] at hpos
    · intro h
      rwa [h] at hpos

theorem Err.code_bounds (e : Err) : e.code ≠ 0#8 ∧ e.code.toNat ≤ 17 := by
  cases e <;> decide

theorem State.raise_inv {s : State} (e : Err) (hmem : s.memoriesSound) (hcap : s.bufCap ≠ 0#64) : (s.raise e).Inv := by
  obtain ⟨⟨hi, -⟩, hi', -⟩ := hmem
  obtain ⟨hne, hle⟩ := e.code_bounds
  exact (State.inv_host_iff rfl).2 ⟨⟨⟨hi, .nil, .nil, .nil⟩, hi', nofun, nofun, nofun⟩, hcap, Nat.zero_le _, .inl rfl,
    .inl rfl, .inr (.inr ⟨rfl, hne, hle, rfl⟩), nofun⟩

theorem State.finish_inv {s : State} (r : Results) (hmem : s.memoriesSound) (hcap : s.bufCap ≠ 0#64)
    (hroom : s.outLen.toNat ≤ s.bufCap.toNat) : (s.finish r).Inv := by
  obtain ⟨⟨hi, ho, -⟩, hi', ho', -⟩ := hmem
  exact (State.inv_host_iff rfl).2 ⟨⟨⟨hi, Memory.below_wf _ _ ho, .nil, .nil⟩, hi', Memory.below_within_of _ _ _ ho',
    nofun, nofun⟩, hcap, hroom, .inl rfl, .inl rfl, .inr (.inl ⟨rfl, rfl⟩), Memory.below_within _ _⟩

/-! ### Steps between commands -/

theorem exec_command_inv {i : Instr} {s : State} (hi : i.isCommand = true) (hmem : s.memoriesSound)
    (hcap : s.bufCap ≠ 0#64) : ∃ t, exec i s = .next t ∧ t.Inv := by
  obtain ⟨t, ht, ⟨e, rfl⟩ | ⟨u, r, rfl, hsame, hsound, hroom⟩⟩ := exec_command_ends s hi
  · exact ⟨_, ht, s.raise_inv e hmem hcap⟩
  · exact ⟨_, ht, u.finish_inv r (hsound hmem) (hsame ▸ hcap) hroom⟩

theorem decode_cmd_isCommand {c : Byte} {i : Instr} (h : decode .cmd (.bytes [c]) = .ok i) : i.isCommand = true := by
  change decodeCommand c = .ok i at h
  unfold decodeCommand at h
  split at h
  case h_11 => cases h
  all_goals
    injection h with h
    subst h
    rfl

theorem State.writeCmd_inv {s : State} (c : Byte) (hmem : s.memoriesSound) (hcap : s.bufCap ≠ 0#64) :
    ∃ t, s.writeCmd c = .next t ∧ t.Inv := by
  unfold State.writeCmd
  split
  · exact exec_command_inv (decode_cmd_isCommand ‹_›) hmem hcap
  · exact ⟨_, rfl, State.raise_inv .badCmd hmem hcap⟩

theorem State.access_inv {s : State} (a : HostAccess) (hs : s.Inv) (hseq : s.seq = .host)
    (hrange : a.inRange s.bufCap.toNat = true) : ∃ t, s.access a = .next t ∧ t.Inv := by
  obtain ⟨hmem, hcap, hroom, hsrc, hdest, hreport⟩ := (State.inv_host_iff hseq).1 hs
  cases a with
  | writeIn x b =>
    have hw := s.memWrite_eq .inp x.toNat b (by simpa [HostAccess.inRange] using hrange)
    refine ⟨_, by rw [State.access, hw, State.outcome_ok], ?_⟩
    exact State.inv_host ((State.memWrite_keeps hw).sound hmem) hcap hroom hsrc hdest hreport hseq
  | writeInLen n => exact ⟨_, rfl, State.inv_host hmem hcap hroom hsrc hdest hreport hseq⟩
  | writeArgW w => exact ⟨_, rfl, State.inv_host hmem hcap hroom hsrc hdest hreport hseq⟩
  | writeArgH h => exact ⟨_, rfl, State.inv_host hmem hcap hroom hsrc hdest hreport hseq⟩
  | writeArgFlags f => exact ⟨_, rfl, State.inv_host hmem hcap hroom hsrc hdest hreport hseq⟩
  | writeCmd c => exact State.writeCmd_inv c hmem hcap

theorem State.access_outOfRange {s : State} {a : HostAccess} (h : a.inRange s.bufCap.toNat = false) :
    s.access a = .fault .noSuchAddress := by
  cases a with
  | writeIn x b =>
    rw [State.access, s.memWrite_absent .inp x.toNat b (by simpa [HostAccess.inRange] using h), State.outcome_fault]
  | _ => exact nomatch h

theorem status_not_busy {s : State} (hs : s.Inv) : statusBusy s.status = false := by
  obtain ⟨-, -, -, h | h | h, -⟩ := hs
  all_goals
    rw [h]
    decide

/-! ### Steps inside a stream -/

/-- An element outside the commands runs as a step as it runs inside a command. -/
theorem exec_element {i : Instr} (s : State) (hi : i.isCommand = false) : exec i s = s.outcome (runElement i s) := by
  cases i
  case rleEncH | rleEncV | rleEncA | rleDec | hufEnc | hufDec | diffFwd | diffInv | compress | decompress =>
    exact nomatch hi
  all_goals rfl

theorem runForm_isCommand (n : Word) (v : Byte) : (runForm n v).isCommand = false := by
  unfold runForm
  split
  · rfl
  · split <;> rfl

/-- No stream selects a host command (R85, R215). -/
theorem State.Selects.isCommand {s : State} {i : Instr} (h : s.Selects (.element i)) : i.isCommand = false := by
  unfold State.Selects at h
  cases hseq : s.seq
  all_goals rw [hseq] at h
  case host | encClose => cases h
  case rleSet =>
    obtain ⟨_, _, _, _, h⟩ := h
    cases h
    rfl
  case hufOuter =>
    obtain ⟨_, _, _, h⟩ := h
    cases h
    rfl
  case rleDimW | rleDimH =>
    obtain ⟨_, _, h⟩ := h
    cases h
    rfl
  case rlePayload => rcases h with h | ⟨-, _, h | ⟨-, h | h⟩⟩ <;> cases h <;> rfl
  case hufRaw =>
    rcases h with h | ⟨-, _, h⟩
    all_goals cases h
    rfl
  case hufBits =>
    rcases h with h | h | ⟨-, ⟨_, h⟩ | ⟨_, h⟩⟩
    all_goals cases h
    all_goals rfl
  case encScan =>
    rcases h with ⟨-, h⟩ | h
    · cases h
    · cases h
      exact runForm_isCommand _ _

/-- What comes after an element raises no fault of its own. -/
theorem State.afterElement_ne_err (s : State) (e : Err) : s.afterElement ≠ .error (.err e) := by
  unfold State.afterElement State.pix State.inputByte State.memRead
  split
  · split
    · split <;> exact nofun
    · exact nofun
  · exact nofun

/-- A step inside a stream is its turn; the end of the loop is the end of a command (log entry 3). -/
theorem State.streamStep_of_turn {s : State} {n : Turn} (hn : s.nextTurn = .ok n) (hsel : s.Selects n)
    (hgo : n ≠ .stop) : s.streamStep = s.outcome (s.take n) := by
  unfold State.streamStep
  rw [hn]
  cases n with
  | stop => exact absurd rfl hgo
  | extend => rfl
  | emit => rfl
  | element i =>
    dsimp only
    rw [exec_element s (State.Selects.isCommand hsel), State.take]
    match runElement i s with
    | .error (.fault f) | .error (.refuse r) => rfl
    | .error (.err e) =>
      dsimp only [State.outcome_err]
      rw [State.afterElement, if_neg nofun]
      rfl
    | .ok t =>
      change t.outcome t.afterElement = s.outcome t.afterElement
      match ha : t.afterElement with
      | .ok u => rfl
      | .error (.fault f) | .error (.refuse r) => rfl
      | .error (.err e) => exact absurd ha (t.afterElement_ne_err e)

/-- What a step inside a stream answers: a raise, one turn, or the end of the loop as the end of a command. -/
theorem State.streamStep_ends {s : State} (hs : s.StreamSound) (hseq : s.seq ≠ .host) :
    ∃ t, s.streamStep = .next t ∧
      ((∃ e, t = s.raise e) ∨ s.Advanced t ∨ ∃ (u : State) (r : Results), s.Turned u ∧ t = u.finish r) := by
  have hnext := State.nextTurn_ends hs
  match hn : s.nextTurn with
  | .error (.err e) => exact ⟨_, by rw [State.streamStep, hn]; rfl, .inl ⟨e, rfl⟩⟩
  | .error (.fault f) | .error (.refuse r) => rw [hn] at hnext; exact hnext.elim
  | .ok n =>
    rw [hn] at hnext
    by_cases hstop : n = .stop
    · subst hstop
      have hend := State.endLoop_ends hs hseq
      rw [State.streamStep, hn]
      match s.endLoop, hend with
      | .ok t, ht => exact ⟨_, rfl, .inr (.inr ⟨t, _, ht, rfl⟩)⟩
      | .error (.err e), _ => exact ⟨_, rfl, .inl ⟨e, rfl⟩⟩
    · have htake := State.take_ends hs hnext hstop
      rw [State.streamStep_of_turn hn hnext hstop]
      match s.take n, htake with
      | .ok t, ht => exact ⟨t, rfl, .inr (.inl ht)⟩
      | .error (.err e), _ => exact ⟨_, rfl, .inl ⟨e, rfl⟩⟩

theorem State.streamStep_inv {s : State} (hs : s.Inv) (hseq : s.seq ≠ .host) :
    ∃ t, s.streamStep = .next t ∧ t.Inv := by
  obtain ⟨hmem, hcap, hroom, hstatus, hstream⟩ := (State.inv_stream_iff hseq).1 hs
  obtain ⟨t, ht, ⟨e, rfl⟩ | ⟨hturned, hopen⟩ | ⟨u, r, hturned, rfl⟩⟩ := State.streamStep_ends hstream hseq
  · exact ⟨_, ht, s.raise_inv e hmem hcap⟩
  · have hk := hturned.keeps
    refine ⟨t, ht, (State.inv_stream_iff hopen).2 ?_⟩
    exact ⟨hk.sound hmem, hk.bufCap ▸ hcap, hk.room hroom, hk.status ▸ hstatus, hstream.turned hturned⟩
  · have hk := hturned.keeps
    exact ⟨_, ht, u.finish_inv r (hk.sound hmem) (hk.bufCap ▸ hcap) (hk.room hroom)⟩

/-! ### Every step -/

/-- A step of a sound state goes on to a sound state, if the host's next access is within IN. -/
theorem step_inv {s : State} (hs : s.Inv)
    (hrange : s.seq = .host → ∀ a rest, s.pending = a :: rest → a.inRange s.bufCap.toNat = true) :
    ∃ t, step s = .next t ∧ t.Inv := by
  by_cases hseq : s.seq = .host
  · match hpending : s.pending with
    | [] => exact ⟨s, step_idle hseq hpending, hs⟩
    | a :: rest =>
      rw [step_access hseq (status_not_busy hs) hpending]
      exact State.access_inv (s := { s with pending := rest }) a hs hseq (hrange hseq a rest hpending)
  · rw [step, if_neg hseq]
    exact State.streamStep_inv hs hseq

/-- Settles O58: a step that answers a next state has an access within IN, or is inside a stream. -/
theorem stepKeepsTheInvariant : Obligations.StepKeepsTheInvariant := by
  intro s t hs hstep
  have hrange : s.seq = .host → ∀ a rest, s.pending = a :: rest → a.inRange s.bufCap.toNat = true := by
    intro hseq a rest hpending
    by_contra hout
    rw [step_access hseq (status_not_busy hs) hpending,
      State.access_outOfRange (s := { s with pending := rest }) (Bool.eq_false_iff.2 hout)] at hstep
    exact nomatch hstep
  obtain ⟨u, hu, hinv⟩ := step_inv hs hrange
  have htu : t = u := by
    rw [hstep] at hu
    injection hu
  exact htu ▸ hinv

/-- Settles O59: an access within IN exists, and every turn of a sound stream ends. -/
theorem soundStatesNeverStop : Obligations.SoundStatesNeverStop := by
  intro s hs hrange
  obtain ⟨t, ht, -⟩ := step_inv hs fun _ => hrange
  exact ⟨t, ht⟩

end Sys2Proof.Machine
end

section
/-! SUPPORT for O39: what the tree operations do is decided by the slots in use. -/

namespace Sys2Proof.Machine

/-! ### Links to slots in use (R33, R163) -/

/-- A link that an operation can follow: to a slot in use, or to none. -/
def Tree.link (t : Tree) (l : Link) : Prop := t.live l ∨ l = nilLink

/-- The three links of a node have a property. -/
structure TreeNode.Links (n : TreeNode) (p : Link → Prop) : Prop where
  parent : p n.parent
  left : p n.left
  right : p n.right

/-- The links of a node can be followed in the tree. -/
abbrev Tree.linked (t : Tree) (n : TreeNode) : Prop := n.Links t.link

/-- Two trees that differ at most in the slots that are not in use and in the register of the update walk, and whose
links never lead to a slot that is not in use. -/
structure Tree.Similar (t u : Tree) : Prop where
  root : u.root = t.root
  nyt : u.nyt = t.nyt
  nnodes : u.nnodes = t.nnodes
  sym : u.sym = t.sym
  node : ∀ l, t.link l → u.node l = t.node l
  size : t.nnodes.toNat ≤ Config.nodeFileSize
  linked : ∀ l, t.link l → t.linked (t.node l)
  root_link : t.link t.root
  nyt_live : t.live t.nyt
  sym_link : ∀ b, t.link (t.symOf b)

theorem Tree.Similar.symOf {t u : Tree} (h : t.Similar u) (b : Byte) : u.symOf b = t.symOf b := by
  unfold Tree.symOf
  rw [h.sym]

theorem Tree.Similar.isInternal {t u : Tree} (h : t.Similar u) {l : Link} (hl : t.link l) :
    u.isInternal l = t.isInternal l := by
  unfold Tree.isInternal
  rw [h.node l hl]

theorem Tree.Similar.isRight {t u : Tree} (h : t.Similar u) {l : Link} (hl : t.link l) :
    u.isRight l = t.isRight l := by
  unfold Tree.isRight
  rw [h.node l hl, h.node _ (h.linked l hl).parent]

/-- A slot in use is a slot of the node file, and no link is none of them. -/
theorem Tree.node_put {t : Tree} (hsize : t.nnodes.toNat ≤ Config.nodeFileSize) {l : Link} (hl : t.link l)
    (n : TreeNode) (m : Link) : (t.put l n).node m = if m = l ∧ l ≠ nilLink then n else t.node m := by
  by_cases hm : m = l
  · subst hm
    by_cases hnil : m = nilLink
    · subst hnil
      rw [if_neg (fun h => h.2 rfl)]
      simp [Tree.node, Tree.put]
    · rw [if_pos ⟨rfl, hnil⟩]
      exact t.node_put_same m n ((hl.resolve_right hnil).trans_le hsize)
  · rw [if_neg (fun h => hm h.1)]
    exact t.node_put_other l m n hm

/-- The same change of one node in two similar trees. -/
theorem Tree.Similar.put {t u : Tree} (h : t.Similar u) {l : Link} (hl : t.link l) {f : TreeNode → TreeNode}
    (hf : ∀ n, t.linked n → t.linked (f n)) :
    (t.put l (f (t.node l))).Similar (u.put l (f (u.node l))) where
  root := h.root
  nyt := h.nyt
  nnodes := h.nnodes
  sym := h.sym
  node m hm := by
    have hl' : u.link l := by rwa [Tree.link, Tree.live, h.nnodes]
    rw [Tree.node_put h.size hl, Tree.node_put (h.nnodes ▸ h.size) hl', h.node l hl, h.node m hm]
  size := h.size
  linked m hm := by
    rw [Tree.node_put h.size hl]
    split
    · exact hf _ (h.linked l hl)
    · exact h.linked m hm
  root_link := h.root_link
  nyt_live := h.nyt_live
  sym_link := h.sym_link

/-! ### Operations that may find no answer -/

theorem optionRel_bind {α β : Type} {R : α → α → Prop} {Q : β → β → Prop} {x y : Option α} {f g : α → Option β}
    (h : Option.Rel R x y) (hf : ∀ a b, R a b → Option.Rel Q (f a) (g b)) : Option.Rel Q (x.bind f) (y.bind g) := by
  cases h with
  | some h => exact hf _ _ h
  | none => exact .none

/-! ### Update (R165 to R167) -/

/-- Similar trees in the same place of the walk of `Update`. -/
structure Tree.Walking (t u : Tree) : Prop where
  similar : t.Similar u
  unode : u.unode = t.unode
  unode_link : t.link t.unode

theorem Tree.Similar.walk {t u : Tree} (h : t.Similar u) {l : Link} (hl : t.link l) :
    Tree.Walking { t with unode := l } { u with unode := l } :=
  ⟨⟨h.root, h.nyt, h.nnodes, h.sym, h.node, h.size, h.linked, h.root_link, h.nyt_live, h.sym_link⟩, rfl, hl⟩

/-- The breadth-first search meets only nodes that links lead to. -/
theorem Tree.Similar.search {t u : Tree} (h : t.Similar u) {n : Link} (hn : t.link n) (fuel : Nat) (q : List Link)
    (hq : ∀ c ∈ q, t.link c) :
    u.search n fuel q = t.search n fuel q ∧ ∀ c, t.search n fuel q = some c → t.link c := by
  induction fuel generalizing q with
  | zero => exact ⟨rfl, nofun⟩
  | succ fuel ih =>
    cases q with
    | nil => exact ⟨rfl, nofun⟩
    | cons c q =>
      obtain ⟨hc, hq⟩ := List.forall_mem_cons.1 hq
      unfold Tree.search
      rw [h.node c hc, h.node n hn, h.isInternal hc]
      split
      · refine ⟨rfl, ?_⟩
        rintro _ ⟨⟩
        exact hc
      · split
        · refine ih _ fun d hd => ?_
          rcases List.mem_append.1 hd with hd | hd
          · exact hq d hd
          · rcases List.mem_pair.1 hd with rfl | rfl
            · exact (h.linked c hc).right
            · exact (h.linked c hc).left
        · exact ih q hq

theorem Tree.Similar.findCandidate {t u : Tree} (h : t.Similar u) {n : Link} (hn : t.link n) :
    u.findCandidate n = t.findCandidate n ∧ ∀ c, t.findCandidate n = some c → t.link c := by
  unfold Tree.findCandidate
  rw [h.root]
  exact h.search hn _ [t.root] (by simpa using h.root_link)

theorem Tree.Similar.isAncestor {t u : Tree} (h : t.Similar u) (a : Link) (fuel : Nat) {n : Link} (hn : t.link n) :
    u.isAncestor a fuel n = t.isAncestor a fuel n := by
  induction fuel generalizing n with
  | zero => rfl
  | succ fuel ih =>
    unfold Tree.isAncestor
    dsimp only
    rw [h.node n hn, ih (h.linked n hn).parent]

/-- Node `p` gets `c` as its child on a side. -/
def Tree.adopt (t : Tree) (p : Link) (right : Bool) (c : Link) : Tree :=
  t.put p (if right then { t.node p with right := c } else { t.node p with left := c })

/-- Nodes `a` and `b` get the parents `pb` and `pa` and each other's index. -/
def Tree.crossUp (t : Tree) (a b pa pb : Link) : Tree :=
  let t1 := t.put a { t.node a with parent := pb, index := (t.node b).index }
  t1.put b { t1.node b with parent := pa, index := (t.node a).index }

theorem Tree.exchange_eq (t : Tree) (a b : Link) :
    t.exchange a b =
      ((t.adopt (t.node a).parent (t.isRight a) b).adopt (t.node b).parent (t.isRight b) a).crossUp a b
        (t.node a).parent (t.node b).parent := rfl

theorem Tree.Walking.adopt {t u : Tree} (h : t.Walking u) {p c : Link} (right : Bool) (hp : t.link p) (hc : t.link c) :
    (t.adopt p right c).Walking (u.adopt p right c) := by
  refine ⟨h.similar.put hp (f := fun n => if right then { n with right := c } else { n with left := c }) fun n hn => ?_,
    h.unode, h.unode_link⟩
  cases right with
  | false => exact ⟨hn.parent, hc, hn.right⟩
  | true => exact ⟨hn.parent, hn.left, hc⟩

theorem Tree.Walking.crossUp {t u : Tree} (h : t.Walking u) {a b pa pb : Link} (ha : t.link a) (hb : t.link b)
    (hpa : t.link pa) (hpb : t.link pb) : (t.crossUp a b pa pb).Walking (u.crossUp a b pa pb) := by
  have h1 := h.similar.put ha (f := fun n => { n with parent := pb, index := (t.node b).index })
    fun n hn => ⟨hpb, hn.left, hn.right⟩
  have h2 := h1.put (l := b) hb (f := fun n => { n with parent := pa, index := (t.node a).index })
    fun n hn => ⟨hpa, hn.left, hn.right⟩
  unfold Tree.crossUp
  rw [h.similar.node b hb, h.similar.node a ha] at *
  exact ⟨h2, h.unode, h.unode_link⟩

theorem Tree.Walking.swap {t u : Tree} (h : t.Walking u) {a b : Link} (ha : t.link a) (hb : t.link b) :
    Option.Rel Tree.Walking (t.swap a b) (u.swap a b) := by
  have hs := h.similar
  have hpa := (hs.linked a ha).parent
  have hpb := (hs.linked b hb).parent
  unfold Tree.swap
  rw [hs.isAncestor a _ hb, hs.isAncestor b _ ha]
  split
  · exact .none
  · refine .some ?_
    rw [Tree.exchange_eq, Tree.exchange_eq, hs.node a ha, hs.node b hb, hs.isRight ha, hs.isRight hb]
    exact ((h.adopt _ hpa hb).adopt _ hpb ha).crossUp ha hb hpa hpb

/-- The weight of the walk's node rises by 1. -/
def Tree.increment (t : Tree) : Tree :=
  t.put t.unode { t.node t.unode with weight := (t.node t.unode).weight + 1#64 }

theorem Tree.updateAt_eq (t : Tree) :
    t.updateAt = (t.findCandidate t.unode).bind fun c =>
      (if c ≠ t.unode ∧ c ≠ (t.node t.unode).parent then t.swap t.unode c else some t).bind fun t1 =>
        some t1.increment := by
  unfold Tree.updateAt
  cases t.findCandidate t.unode with
  | none => rfl
  | some c =>
    dsimp only [bind, Option.bind]
    split <;> rfl

theorem Tree.Walking.increment {t u : Tree} (h : t.Walking u) : t.increment.Walking u.increment := by
  unfold Tree.increment
  rw [h.unode]
  exact ⟨h.similar.put h.unode_link (f := fun n => { n with weight := n.weight + 1#64 })
    fun n hn => ⟨hn.parent, hn.left, hn.right⟩, h.unode, h.unode_link⟩

theorem Tree.Walking.updateAt {t u : Tree} (h : t.Walking u) : Option.Rel Tree.Walking t.updateAt u.updateAt := by
  obtain ⟨hfind, hlink⟩ := h.similar.findCandidate h.unode_link
  rw [Tree.updateAt_eq, Tree.updateAt_eq, h.unode, hfind, h.similar.node _ h.unode_link]
  match hc : t.findCandidate t.unode with
  | none => exact .none
  | some c =>
    refine optionRel_bind (R := Tree.Walking) ?_ fun a b hab => .some hab.increment
    split
    · exact h.swap h.unode_link (hlink c hc)
    · exact .some h

theorem Tree.Walking.climb {t u : Tree} (fuel : Nat) (h : t.Walking u) :
    Option.Rel Tree.Similar (Tree.climb fuel t) (Tree.climb fuel u) := by
  induction fuel generalizing t u with
  | zero => exact .none
  | succ fuel ih =>
    refine optionRel_bind h.updateAt fun a b hab => ?_
    have hup : (b.node b.unode).parent = (a.node a.unode).parent := by
      rw [hab.unode, hab.similar.node _ hab.unode_link]
    have htop : b.unode = b.root ↔ a.unode = a.root := by rw [hab.unode, hab.similar.root]
    simp only [hup, htop]
    split
    · exact .some hab.similar
    · exact ih (hab.similar.walk (hab.similar.linked _ hab.unode_link).parent)

theorem Tree.Similar.update {t u : Tree} (h : t.Similar u) {n : Link} (hn : t.link n) :
    Option.Rel Tree.Similar (t.update n) (u.update n) := (h.walk hn).climb _

/-! ### Path (R168) -/

theorem Tree.Similar.pathFrom {t u : Tree} (h : t.Similar u) (fuel : Nat) {n : Link} (hn : t.link n)
    (bits : List Bool) :
    u.pathFrom fuel n bits = t.pathFrom fuel n bits := by
  induction fuel generalizing n bits with
  | zero => rfl
  | succ fuel ih =>
    unfold Tree.pathFrom
    rw [h.root, h.node n hn, h.isRight hn, ih (h.linked n hn).parent]

theorem Tree.Similar.path {t u : Tree} (h : t.Similar u) {n : Link} (hn : t.link n) : u.path n = t.path n :=
  h.pathFrom _ hn []

/-! ### TreeInit and Split (R161, R164) -/

theorem Tree.node_nil (t : Tree) : t.node nilLink = TreeNode.absent := by
  simp [Tree.node]

/-- A fresh tree has one slot in use, whose links lead nowhere. -/
theorem Tree.init_similar (t u : Tree) : t.init.Similar u.init := by
  have hlink : ∀ l, t.init.link l → l = 0#10 ∨ l = nilLink := by
    refine fun l hl => hl.imp_left fun h => BitVec.eq_of_toNat_eq ?_
    have : l.toNat < 1 := h
    simpa using this
  have hnil : t.init.link nilLink := .inr rfl
  refine ⟨rfl, rfl, rfl, rfl, fun l hl => ?_, ?_, fun l hl => ?_, .inl Nat.one_pos, Nat.one_pos, fun b => ?_⟩
  · rcases hlink l hl with rfl | rfl
    · rw [Tree.init_node_root, Tree.init_node_root]
    · rw [Tree.node_nil, Tree.node_nil]
  · exact Nat.le_add_left 1 512
  · rcases hlink l hl with rfl | rfl
    · rw [Tree.init_node_root]
      exact ⟨hnil, hnil, hnil⟩
    · rw [Tree.node_nil]
      exact ⟨hnil, hnil, hnil⟩
  · rw [Tree.init_symOf]
    exact hnil

/-- The tree after `Split(b)`, when the node file has room. -/
def Tree.grown (t : Tree) (b : Byte) : Tree :=
  let o := t.nyt
  let l := t.nnodes
  let r := t.nnodes + 1#10
  let index := (t.node o).index
  let t1 := t.put l { parent := o, left := nilLink, right := nilLink, index := index - 2#32, weight := 0, value := 0 }
  let t2 := t1.put r { parent := o, left := nilLink, right := nilLink, index := index - 1#32, weight := 1, value := b }
  let t3 := t2.put o { t2.node o with left := l, right := r }
  Tree.setSym { t3 with nnodes := t.nnodes + 2#10, nyt := l } b r

theorem Tree.split_eq (t : Tree) (b : Byte) :
    t.split b = if Config.nodeFileSize < t.nnodes.toNat + 2 then none else some (t.grown b, t.nyt) := rfl

/-- Every slot that is in use after a split. -/
theorem Tree.node_grown {t : Tree} (b : Byte) (hfit : t.nnodes.toNat + 2 ≤ Config.nodeFileSize) (hnyt : t.live t.nyt)
    (m : Link) :
    (t.grown b).node m =
      if m = t.nyt then { t.node t.nyt with left := t.nnodes, right := t.nnodes + 1#10 }
      else if m = t.nnodes + 1#10 then
        { parent := t.nyt, left := nilLink, right := nilLink, index := (t.node t.nyt).index - 1#32, weight := 1,
          value := b }
      else if m = t.nnodes then
        { parent := t.nyt, left := nilLink, right := nilLink, index := (t.node t.nyt).index - 2#32, weight := 0,
          value := 0 }
      else t.node m := by
  have hfit : t.nnodes.toNat + 2 ≤ 513 := hfit
  have hr : (t.nnodes + 1#10).toNat = t.nnodes.toNat + 1 := by bv_omega
  have ho : t.nyt.toNat < t.nnodes.toNat := hnyt
  have hol : t.nyt ≠ t.nnodes := fun e => absurd (congrArg BitVec.toNat e) (by omega)
  have hor : t.nyt ≠ t.nnodes + 1#10 := fun e => absurd (congrArg BitVec.toNat e) (by omega)
  unfold Tree.grown
  dsimp only
  rw [Tree.node_setSym]
  split
  · subst m
    refine (Tree.node_put_same _ _ _ (by omega)).trans ?_
    rw [Tree.node_put_other _ _ _ _ hor, Tree.node_put_other _ _ _ _ hol]
  · refine (Tree.node_put_other _ _ _ _ ‹_›).trans ?_
    split
    · subst m
      exact Tree.node_put_same _ _ _ (by omega)
    · rw [Tree.node_put_other _ _ _ _ ‹_›]
      split
      · subst m
        exact Tree.node_put_same _ _ _ (by omega)
      · exact Tree.node_put_other _ _ _ _ ‹_›

theorem Tree.Similar.grown {t u : Tree} (h : t.Similar u) (b : Byte)
    (hfit : t.nnodes.toNat + 2 ≤ Config.nodeFileSize) : (t.grown b).Similar (u.grown b) := by
  have hfit' : t.nnodes.toNat + 2 ≤ 513 := hfit
  have hcount : (t.grown b).nnodes.toNat = t.nnodes.toNat + 2 := by
    change (t.nnodes + 2#10).toNat = _
    bv_omega
  have hr : (t.nnodes + 1#10).toNat = t.nnodes.toNat + 1 := by bv_omega
  have hgrow : ∀ l, t.link l → (t.grown b).link l := fun l hl => hl.imp_left fun h => by
    have h : l.toNat < t.nnodes.toNat := h
    rw [Tree.live, hcount]
    omega
  have hleft : (t.grown b).link t.nnodes := .inl (by rw [Tree.live, hcount]; omega)
  have hright : (t.grown b).link (t.nnodes + 1#10) := .inl (by rw [Tree.live, hcount]; omega)
  have hnil : (t.grown b).link nilLink := .inr rfl
  have hnyt : (t.grown b).link t.nyt := hgrow _ (.inl h.nyt_live)
  have hold : ∀ m, (t.grown b).link m → m ≠ t.nnodes + 1#10 → m ≠ t.nnodes → t.link m := by
    refine fun m hm hmr hml => hm.imp_left fun h => ?_
    rw [Tree.live, hcount] at h
    have hmr : m.toNat ≠ t.nnodes.toNat + 1 := fun e => hmr (BitVec.eq_of_toNat_eq (e.trans hr.symm))
    have hml : m.toNat ≠ t.nnodes.toNat := fun e => hml (BitVec.eq_of_toNat_eq e)
    rw [Tree.live]
    omega
  refine ⟨h.root, ?_, ?_, ?_, fun m hm => ?_, hcount.trans_le hfit, fun m hm => ?_, hgrow _ h.root_link, ?_,
    fun c => ?_⟩
  · exact h.nnodes
  · exact congrArg (· + 2#10) h.nnodes
  · change u.sym.set b.toNat (u.nnodes + 1#10) b.isLt = _
    rw [h.sym, h.nnodes]
    rfl
  · rw [Tree.node_grown b hfit h.nyt_live, Tree.node_grown b (h.nnodes ▸ hfit) (by
      rw [Tree.live, h.nyt, h.nnodes]
      exact h.nyt_live), h.nyt, h.nnodes, h.node _ (.inl h.nyt_live)]
    split
    · rfl
    · split
      · rfl
      · split
        · rfl
        · exact h.node m (hold m hm ‹_› ‹_›)
  · rw [Tree.node_grown b hfit h.nyt_live]
    split
    · exact ⟨hgrow _ (h.linked _ (.inl h.nyt_live)).parent, hleft, hright⟩
    · split
      · exact ⟨hnyt, hnil, hnil⟩
      · split
        · exact ⟨hnyt, hnil, hnil⟩
        · have hm := h.linked m (hold m hm ‹_› ‹_›)
          exact ⟨hgrow _ hm.parent, hgrow _ hm.left, hgrow _ hm.right⟩
  · change t.nnodes.toNat < _
    rw [hcount]
    omega
  · by_cases hc : c = b
    · subst hc
      exact (Tree.symOf_setSym_same _ c _).symm ▸ hright
    · exact (Tree.symOf_setSym_other _ b c _ hc).symm ▸ hgrow _ (h.sym_link c)

theorem Tree.Similar.split {t u : Tree} (h : t.Similar u) (b : Byte) :
    Option.Rel (fun p q => p.1.Similar q.1 ∧ q.2 = p.2 ∧ p.1.link p.2) (t.split b) (u.split b) := by
  rw [Tree.split_eq, Tree.split_eq, h.nnodes, h.nyt]
  split
  · exact .none
  · have hfit := Nat.not_lt.1 ‹_›
    refine .some ⟨h.grown b hfit, rfl, .inl ?_⟩
    have hlive : t.nyt.toNat < t.nnodes.toNat := h.nyt_live
    have hfit : t.nnodes.toNat + 2 ≤ 513 := hfit
    change t.nyt.toNat < (t.nnodes + 2#10).toNat
    bv_omega

end Sys2Proof.Machine
end

section
/-! SUPPORT for O39: two states that agree on the input, the output and `BUF_CAP` stay so while an engine runs that the
same registers drive. -/

namespace Sys2Proof.Machine

/-! ### Two runs of an operation -/

/-- Two runs end alike: with related results, or with the same stop. -/
def Agree {α : Type} (R : α → α → Prop) (x y : Run α) : Prop :=
  match x, y with
  | .ok a, .ok b => R a b
  | .error e, .error f => e = f
  | .ok _, .error _ => False
  | .error _, .ok _ => False

theorem Agree.bind {α β : Type} {R : α → α → Prop} {Q : β → β → Prop} {x y : Run α} {f g : α → Run β}
    (h : Agree R x y) (hf : ∀ a b, R a b → Agree Q (f a) (g b)) : Agree Q (x >>= f) (y >>= g) := by
  match x, y, h with
  | .ok a, .ok b, h => exact hf a b h
  | .error _, .error _, h => exact h

theorem Agree.mono {α : Type} {R Q : α → α → Prop} {x y : Run α} (h : Agree R x y) (hq : ∀ a b, R a b → Q a b) :
    Agree Q x y := by
  match x, y, h with
  | .ok a, .ok b, h => exact hq a b h
  | .error _, .error _, h => exact h

theorem Agree.map {α β : Type} {R : α → α → Prop} {Q : β → β → Prop} {x y : Run α} {f g : α → β}
    (h : Agree R x y) (hf : ∀ a b, R a b → Q (f a) (g b)) : Agree Q (x.map f) (y.map g) := by
  match x, y, h with
  | .ok a, .ok b, h => exact hf a b h
  | .error _, .error _, h => exact h

/-- What is known of the first run's result. -/
theorem Agree.ends {α : Type} {R : α → α → Prop} {P : α → Prop} {x y : Run α} (h : Agree R x y) (hx : Ends x P) :
    Agree (fun a b => R a b ∧ P a) x y := by
  match x, y, h, hx with
  | .ok a, .ok b, h, hx => exact ⟨h, hx⟩
  | .error _, .error _, h, _ => exact h

theorem agree_eq {α : Type} {x y : Run α} (h : y = x) : Agree (fun a b => b = a) x y := by
  subst h
  cases y <;> rfl

theorem orCorrupt_agree {α : Type} {R : α → α → Prop} {x y : Option α} (h : Option.Rel R x y) :
    Agree R (orCorrupt x) (orCorrupt y) := by
  cases h with
  | some h => exact h
  | none => rfl

/-! ### Two states -/

/-- The states agree on the position, on the bytes of the running stage's input, on the output so far and on
`BUF_CAP`. -/
structure State.Alike (s t : State) : Prop where
  bufCap : t.bufCap = s.bufCap
  seq : t.seq = s.seq
  src : t.src = s.src
  dest : t.dest = s.dest
  reads : s.src.readable
  writes : s.dest.written
  inputLen : t.inputLen = s.inputLen
  input : ∀ a, a < s.inputLen → t.peek t.src a = s.peek s.src a
  outMem : t.outMem = s.outMem
  outLen : t.outLen = s.outLen
  target : t.mem s.dest = s.mem s.dest
  targetLen : t.len s.dest = s.len s.dest

theorem State.Alike.registers {s t : State} {enc enc' : EncRegs} {dec dec' : DecRegs} {tree tree' : Tree}
    {huf huf' : HufRegs} {prev prev' outer outer' : Byte} (h : s.Alike t) :
    State.Alike
      { s with enc := enc, dec := dec, tree := tree, huf := huf, prev := prev, resOuter := outer }
      { t with enc := enc', dec := dec', tree := tree', huf := huf', prev := prev', resOuter := outer' } :=
  ⟨h.bufCap, h.seq, h.src, h.dest, h.reads, h.writes, h.inputLen, h.input, h.outMem, h.outLen, h.target, h.targetLen⟩

theorem State.Alike.move {s t : State} (h : s.Alike t) (seq : Seq) :
    State.Alike { s with seq := seq } { t with seq := seq } :=
  ⟨h.bufCap, rfl, h.src, h.dest, h.reads, h.writes, h.inputLen, h.input, h.outMem, h.outLen, h.target, h.targetLen⟩

theorem Space.readable.ne_written {sp sq : Space} (h : sp.readable) (h' : sq.written) : sp ≠ sq := by
  rcases h with rfl | rfl <;> rcases h' with rfl | rfl <;> exact nofun

/-- The spaces that the running stage writes. -/
abbrev State.outputs (s : State) (sp : Space) : Prop := sp = .out ∨ sp = s.dest

theorem State.Alike.outputs_written {s t : State} (h : s.Alike t) {sp : Space} (hsp : s.outputs sp) : sp.written := by
  rcases hsp with rfl | rfl
  · exact .inl rfl
  · exact h.writes

theorem State.Alike.space {s t : State} (h : s.Alike t) {sp : Space} (hsp : s.outputs sp) :
    t.mem sp = s.mem sp ∧ t.len sp = s.len sp := by
  rcases hsp with rfl | rfl
  · exact ⟨h.outMem, h.outLen⟩
  · exact ⟨h.target, h.targetLen⟩

/-- The same contents and length for one of the outputs. -/
theorem State.Alike.write {s t : State} (h : s.Alike t) {sp : Space} (hsp : s.outputs sp) (m : Memory) (n : Word) :
    ((s.setMem sp m).setLen sp n).Alike ((t.setMem sp m).setLen sp n) := by
  have hne : s.src ≠ sp := h.reads.ne_written (h.outputs_written hsp)
  have hne' : t.src ≠ sp := h.src ▸ hne
  have hread (u : State) (hu : u.src ≠ sp) :
      ((u.setMem sp m).setLen sp n).inputLen = u.inputLen ∧
      ∀ a, ((u.setMem sp m).setLen sp n).peek ((u.setMem sp m).setLen sp n).src a = u.peek u.src a := by
    refine ⟨?_, fun a => ?_⟩
    · unfold State.inputLen
      rw [State.setLen_src, State.setMem_src, State.setLen_len_other _ _ _ _ hu, State.setMem_len]
    · rw [State.setLen_src, State.setMem_src, State.setLen_peek, State.peek_setMem_space _ _ _ _ _ hu]
  have hmem (sq : Space) (hsq : s.outputs sq) :
      ((t.setMem sp m).setLen sp n).mem sq = ((s.setMem sp m).setLen sp n).mem sq ∧
      ((t.setMem sp m).setLen sp n).len sq = ((s.setMem sp m).setLen sp n).len sq := by
    by_cases hq : sq = sp
    · subst hq
      simp only [State.setLen_mem, State.setMem_mem, State.setLen_len, and_self]
    · simp only [State.setLen_mem, State.setMem_mem_other _ _ _ _ hq, State.setLen_len_other _ _ _ _ hq,
        State.setMem_len]
      exact h.space hsq
  refine ⟨?_, ?_, ?_, ?_, ?_, ?_, ?_, fun a ha => ?_, (hmem .out (.inl rfl)).1, (hmem .out (.inl rfl)).2, ?_, ?_⟩
  · simpa using h.bufCap
  · simpa using h.seq
  · simpa using h.src
  · simpa using h.dest
  · simpa using h.reads
  · simpa using h.writes
  · rw [(hread s hne).1, (hread t hne').1, h.inputLen]
  · rw [(hread s hne).2, (hread t hne').2]
    exact h.input a ((hread s hne).1 ▸ ha)
  · simpa using (hmem s.dest (.inr rfl)).1
  · simpa using (hmem s.dest (.inr rfl)).2

theorem State.Alike.setOutLen {s t : State} (h : s.Alike t) (n : Word) :
    State.Alike { s with outLen := n } { t with outLen := n } := by
  have hw := h.write (.inl rfl) s.outMem n
  rwa [show (t.setMem .out s.outMem).setLen .out n = { t with outLen := n } by rw [← h.outMem]; rfl] at hw

/-! ### Reading -/

theorem State.Alike.inputByte {s t : State} (h : s.Alike t) {a : Nat} (ha : a < s.inputLen) :
    t.inputByte a = s.inputByte a := by
  unfold State.inputByte State.memRead
  rw [h.bufCap, h.input a ha]

theorem State.Alike.inputBytes {s t : State} (h : s.Alike t) {a n : Nat} (ha : a + n ≤ s.inputLen) :
    t.inputBytes a n = s.inputBytes a n := by
  induction n generalizing a with
  | zero => rfl
  | succ n ih =>
    unfold State.inputBytes
    rw [h.inputByte (by omega), ih (by omega)]

theorem State.Alike.payloadLen {s t : State} (h : s.Alike t) : t.payloadLen = s.payloadLen :=
  congrArg (· - 1) h.inputLen

theorem State.Alike.peekBit {s t : State} (h : s.Alike t) (rb ri : Nat) : t.peekBit rb ri = s.peekBit rb ri := by
  unfold State.peekBit
  rw [h.payloadLen]
  dsimp only
  split
  · rfl
  · have hlt := Nat.not_le.1 ‹_›
    unfold State.payloadLen at hlt
    rw [h.inputByte (by omega)]

theorem State.Alike.peekBits {s t : State} (h : s.Alike t) (rb ri n : Nat) :
    t.peekBits rb ri n = s.peekBits rb ri n := by
  induction n generalizing rb ri with
  | zero => rfl
  | succ n ih =>
    unfold State.peekBits
    rw [h.peekBit]
    simp only [ih]

theorem State.Alike.peek_out {s t : State} (h : s.Alike t) (a : Nat) : t.peek .out a = s.peek .out a := by
  unfold State.peek State.mem
  rw [h.outMem]

theorem State.Alike.output {s t : State} (h : s.Alike t) : t.output = s.output := by
  unfold State.output
  rw [h.outLen]
  exact State.bytes_congr _ _ _ _ _ fun a _ => h.peek_out a

/-! ### Writing -/

/-- The two results of writing the same to a space. -/
def State.wrote (sp : Space) (s t a b : State) : Prop :=
  ∃ m n, a = (s.setMem sp m).setLen sp n ∧ b = (t.setMem sp m).setLen sp n

theorem State.Alike.append {s t : State} (h : s.Alike t) {sp : Space} (hsp : s.outputs sp) (v : Byte) :
    Agree (State.wrote sp s t) (s.append sp v) (t.append sp v) := by
  obtain ⟨hmem, hlen⟩ := h.space hsp
  unfold State.append
  rw [h.bufCap, hlen, hmem]
  split
  · rfl
  · exact ⟨_, _, rfl, rfl⟩

theorem State.wrote.alike {s t a b : State} {sp : Space} (hw : State.wrote sp s t a b) (h : s.Alike t)
    (hsp : s.outputs sp) : a.Alike b := by
  obtain ⟨m, n, rfl, rfl⟩ := hw
  exact h.write hsp m n

theorem State.wrote.trans {s t a b c d : State} {sp : Space} (h : State.wrote sp s t a b)
    (h' : State.wrote sp a b c d) : State.wrote sp s t c d := by
  obtain ⟨m, n, rfl, rfl⟩ := h
  obtain ⟨m', n', rfl, rfl⟩ := h'
  exact ⟨m', n', by cases sp <;> rfl, by cases sp <;> rfl⟩

theorem State.Alike.appendAll {s t : State} (h : s.Alike t) {sp : Space} (hsp : s.outputs sp) (vs : List Byte) :
    Agree (State.wrote sp s t) (s.appendAll sp vs) (t.appendAll sp vs) := by
  induction vs generalizing s t with
  | nil =>
    obtain ⟨hmem, hlen⟩ := h.space hsp
    refine ⟨s.mem sp, s.len sp, by cases sp <;> rfl, ?_⟩
    rw [← hmem, ← hlen]
    cases sp <;> rfl
  | cons v vs ih =>
    refine (h.append hsp v).bind fun a b hab => ?_
    have hdest : a.outputs sp := by
      obtain ⟨m, n, rfl, -⟩ := id hab
      rwa [State.outputs, State.setLen_dest, State.setMem_dest]
    exact (ih (hab.alike h hsp) hdest).mono fun c d => hab.trans

theorem State.Alike.memWrite {s t : State} (h : s.Alike t) (a : Nat) (v : Byte) :
    Agree (State.wrote .out s t) (s.memWrite .out a v) (t.memWrite .out a v) := by
  unfold State.memWrite
  rw [h.bufCap]
  split
  · refine ⟨s.outMem.write a v, s.outLen, rfl, ?_⟩
    rw [← h.outMem, ← h.outLen]
    rfl
  · rfl

/-- OUT emptied, or another space for the pass that begins. -/
theorem State.Alike.clear {s t : State} (h : s.Alike t) {dest : Space} (hdest : dest.written) :
    State.Alike { s.clear dest with dest := dest } { t.clear dest with dest := dest } := by
  rcases hdest with rfl | rfl
  · have hw := h.write (.inl rfl) [] 0#64
    exact ⟨hw.bufCap, hw.seq, hw.src, rfl, hw.reads, .inl rfl, hw.inputLen, hw.input, rfl, rfl, rfl, rfl⟩
  · have hread (u : State) (hu : u.src.readable) :
        (u.clear .outb).inputLen = u.inputLen ∧ ∀ a, (u.clear .outb).peek u.src a = u.peek u.src a := by
      unfold State.inputLen
      rcases hu with hu | hu <;> rw [State.clear_src, hu] <;> exact ⟨rfl, fun _ => rfl⟩
    have hs := hread s h.reads
    have ht := hread t (h.src ▸ h.reads)
    refine ⟨h.bufCap, h.seq, h.src, rfl, h.reads, .inr rfl, ?_, fun a ha => ?_, h.outMem, h.outLen, rfl, rfl⟩
    · exact ht.1.trans (h.inputLen.trans hs.1.symm)
    · exact (ht.2 a).trans ((h.input a (hs.1 ▸ ha)).trans (hs.2 a).symm)

/-- The next stage reads the same bytes (R229, R230). -/
theorem State.Alike.toMid {s t : State} (h : s.Alike t) : s.toMid.Alike t.toMid := by
  have hmid : t.toMid.midMem = s.toMid.midMem := by
    rw [State.toMid_midMem, State.toMid_midMem, h.outMem, h.outLen]
  have htarget : t.toMid.mem s.dest = s.toMid.mem s.dest ∧ t.toMid.len s.dest = s.toMid.len s.dest := by
    have hmem := h.target
    have hlen := h.targetLen
    rcases h.writes with hd | hd <;> rw [hd] at hmem hlen ⊢
    · exact ⟨rfl, rfl⟩
    · exact ⟨hmem, hlen⟩
  refine ⟨h.bufCap, h.seq, rfl, h.dest, .inr rfl, h.writes, congrArg BitVec.toNat h.outLen, fun a _ => ?_, rfl, rfl,
    htarget.1, htarget.2⟩
  change ((t.toMid.midMem).read a).getD _ = ((s.toMid.midMem).read a).getD _
  rw [hmid]
  rfl

/-! ### Loops -/

theorem runTurns_agree {R : State → State → Prop} (hR : ∀ s t, R s t → t.seq = s.seq)
    (hturn : ∀ s t, s.StreamSound → s.seq ≠ .host → R s t → Agree R s.turn t.turn) (fuel : Nat) {s t : State}
    (hs : s.StreamSound) (h : R s t) :
    Agree (fun a b => R a b ∧ a.seq = .host) (runTurns fuel s) (runTurns fuel t) := by
  induction fuel generalizing s t with
  | zero =>
    unfold runTurns
    rw [hR s t h]
    split
    · exact ⟨h, ‹_›⟩
    · rfl
  | succ fuel ih =>
    unfold runTurns
    rw [hR s t h]
    split
    · exact ⟨h, ‹_›⟩
    · rename_i hseq
      exact ((hturn s t hs hseq h).ends (State.turn_ends hs hseq)).bind fun a b ⟨hab, ha⟩ => ih (hs.turned ha) hab

/-- Both states select the same turn, and it does the same in both. -/
theorem turn_agree {R : State → State → Prop} {s t : State} (hs : s.StreamSound) (hnext : t.nextTurn = s.nextTurn)
    (htake : ∀ n, s.Selects n → Agree R (s.take n) (t.take n)) : Agree R s.turn t.turn := by
  rw [State.turn_eq, State.turn_eq, hnext]
  have hsel := (agree_eq (x := s.nextTurn) rfl).ends (State.nextTurn_ends hs)
  refine hsel.bind ?_
  rintro n m ⟨hm, hn⟩
  rw [hm]
  exact htake n hn

/-- Outside the encoder's scan nothing follows an element. -/
theorem element_agree {R : State → State → Prop} (hR : ∀ s t, R s t → t.seq = s.seq ∧ s.seq ≠ .encScan) {i : Instr}
    {s t : State} (h : Agree R (runElement i s) (runElement i t)) :
    Agree R (runElement i s >>= State.afterElement) (runElement i t >>= State.afterElement) := by
  refine h.bind fun a b hab => ?_
  obtain ⟨hseq, hscan⟩ := hR a b hab
  rw [State.afterElement, State.afterElement, if_neg hscan, if_neg (hseq ▸ hscan)]
  exact hab

end Sys2Proof.Machine
end

section
/-! SUPPORT for O39: the decoders' registers are decided by the frame and `BUF_CAP`. -/

namespace Sys2Proof.Machine

/-! ### The RLE decoder -/

/-- The fields of the settings byte (R31, R141). -/
structure DecRegs.sameSettings (d e : DecRegs) : Prop where
  dScan : e.dScan = d.dScan
  dModel : e.dModel = d.dModel
  dKw : e.dKw = d.dKw
  dKh : e.dKh = d.dKh

/-- The registers agree as far as the frame has been read: the settings after SET, the width after DIMW, everything but
an inactive group byte in the payload, and what RLE_DEC reports at the end. -/
def State.sameDec (s t : State) : Prop :=
  match s.seq with
  | .rleSet => True
  | .rleDimW => s.dec.sameSettings t.dec
  | .rleDimH => s.dec.sameSettings t.dec ∧ t.dec.dW = s.dec.dW
  | .rlePayload => t.dec = { s.dec with dG := t.dec.dG } ∧ (s.dec.gbit ≠ 8#4 → t.dec = s.dec)
  | .host => t.rleResults = s.rleResults ∧ t.dec.dModel = s.dec.dModel
  | _ => False

/-- Two states of the RLE decoder that differ in nothing that the frame decides. -/
def State.RleAlike (s t : State) : Prop := s.Alike t ∧ s.sameDec t

theorem DecRegs.sameSettings.opened {d e : DecRegs} (h : d.sameSettings e) (hw : e.dW = d.dW) (x : Word) :
    e.opened x = { d.opened x with dG := (e.opened x).dG } := by
  simp only [DecRegs.opened, h.dScan, h.dModel, h.dKw, h.dKh, hw]

/-! #### Reconstruction -/

/-- Two states in a payload that agree in all the decoder's registers. -/
structure State.PixelsAlike (s t : State) : Prop where
  alike : s.Alike t
  dec : t.dec = s.dec
  payload : s.seq = .rlePayload

theorem State.wrote.pixels {s t a b : State} (hw : State.wrote .out s t a b) (h : s.PixelsAlike t) :
    a.PixelsAlike b := by
  have halike := hw.alike h.alike (.inl rfl)
  obtain ⟨m, n, rfl, rfl⟩ := hw
  exact ⟨halike, h.dec, h.payload⟩

theorem State.PixelsAlike.fill {s t : State} (h : s.PixelsAlike t) (a : Nat) (v : Byte) (k : Nat) :
    Agree State.PixelsAlike (State.fill a v k s) (State.fill a v k t) := by
  induction k generalizing a s t with
  | zero => exact h
  | succ k ih => exact (h.alike.memWrite a v).bind fun b c hbc => ih (hbc.pixels h) (a + 1)

theorem State.PixelsAlike.writeH {s t : State} (h : s.PixelsAlike t) (count : Nat) (v : Byte) :
    Agree State.PixelsAlike (s.writeH count v) (t.writeH count v) := by
  unfold State.writeH
  rw [h.dec]
  exact (h.fill _ v _).bind fun a b hab => ⟨hab.alike.registers, by rw [hab.dec], hab.payload⟩

theorem State.PixelsAlike.writePixelsV {s t : State} (h : s.PixelsAlike t) (v : Byte) (k : Nat) :
    Agree State.PixelsAlike (State.writePixelsV v k s) (State.writePixelsV v k t) := by
  induction k generalizing s t with
  | zero => exact h
  | succ k ih =>
    have hpixel : Agree State.PixelsAlike (s.writePixelV v) (t.writePixelV v) := by
      rw [State.writePixelV_eq, State.writePixelV_eq, h.dec]
      refine (h.alike.memWrite _ v).map fun a b hab => ?_
      exact ⟨(hab.pixels h).alike.registers, congrArg DecRegs.nextV (hab.pixels h).dec, (hab.pixels h).payload⟩
    exact hpixel.bind fun a b hab => ih hab

theorem State.PixelsAlike.writePair {s t : State} (h : s.PixelsAlike t) (count : Nat) (v : Byte) :
    Agree State.PixelsAlike (s.writePair count v) (t.writePair count v) := by
  unfold State.writePair State.writeV
  rw [h.dec]
  split
  · exact h.writeH count v
  · split
    · rfl
    · exact h.writePixelsV v count

/-! #### Turns -/

theorem State.RleAlike.seq {s t : State} (h : s.RleAlike t) : t.seq = s.seq ∧ s.seq ≠ .encScan := by
  refine ⟨h.1.seq, fun hscan => ?_⟩
  have hd := h.2
  unfold State.sameDec at hd
  rwa [hscan] at hd

theorem State.RleAlike.nextRle {s t : State} (h : s.Alike t) (hd : t.dec = { s.dec with dG := t.dec.dG })
    (hactive : s.dec.gbit ≠ 8#4 → t.dec = s.dec) : t.nextRle = s.nextRle := by
  have hN : t.dec.dN = s.dec.dN := (congrArg DecRegs.dN hd :)
  have hwritten : t.dec.written = s.dec.written := (congrArg DecRegs.written hd :)
  have hrp : t.dec.rp = s.dec.rp := (congrArg DecRegs.rp hd :)
  have hgbit : t.dec.gbit = s.dec.gbit := (congrArg DecRegs.gbit hd :)
  have hformat : t.dec.format = s.dec.format := by
    by_cases h8 : s.dec.gbit = 8#4
    · unfold DecRegs.format
      rw [hgbit, if_pos h8, if_pos h8]
    · rw [hactive h8]
  unfold State.nextRle
  rw [hN, hwritten, hrp, hformat, h.inputLen]
  split
  · rfl
  · rw [h.inputByte (by omega)]

theorem State.RleAlike.nextTurn {s t : State} (h : s.RleAlike t) (hs : s.StreamSound) :
    t.nextTurn = s.nextTurn := by
  obtain ⟨h, hd⟩ := h
  have hpos := hs.position
  unfold State.positionSound at hpos
  unfold State.sameDec at hd
  unfold State.nextTurn
  rw [h.seq]
  cases hseq : s.seq
  all_goals rw [hseq] at hd hpos
  case rleSet =>
    dsimp only
    rw [h.inputLen]
    split
    · rfl
    · rw [h.inputByte (by omega)]
  case rleDimW =>
    obtain ⟨hkw, hkh, hwhole⟩ := hpos
    have hk := sizeField_read hkw
    dsimp only
    rw [hd.dKw, h.inputBytes (by omega)]
  case rleDimH =>
    obtain ⟨hkw, hkh, hwhole⟩ := hpos
    have hk := sizeField_read hkh
    dsimp only
    rw [hd.1.dKw, hd.1.dKh, h.inputBytes (by omega)]
  case rlePayload => exact State.RleAlike.nextRle h hd.1 hd.2
  all_goals exact False.elim hd

theorem State.RleAlike.of_dec {s t : State} (h : s.Alike t) (hseq : s.seq = .rlePayload) (hdec : t.dec = s.dec) :
    s.RleAlike t := by
  refine ⟨h, ?_⟩
  unfold State.sameDec
  rw [hseq]
  exact ⟨by rw [hdec], fun _ => hdec⟩

theorem State.RleAlike.take {s t : State} (h : s.RleAlike t) (hseq : s.seq ≠ .host) (n : Turn) (hn : s.Selects n) :
    Agree State.RleAlike (s.take n) (t.take n) := by
  have helement {i : Instr} := element_agree (R := State.RleAlike) (fun _ _ => State.RleAlike.seq) (i := i) (s := s)
    (t := t)
  obtain ⟨h, hd⟩ := h
  unfold State.sameDec at hd
  unfold State.Selects at hn
  cases hq : s.seq
  all_goals
    rw [hq] at hn hd
    dsimp only at hn hd
  case host => exact absurd hq hseq
  case rleSet =>
    obtain ⟨scan, model, kw, kh, rfl⟩ := hn
    refine helement ?_
    change Agree _ (runSet scan model kw kh s) (runSet scan model kw kh t)
    unfold runSet
    rw [h.inputLen]
    split
    · rfl
    · exact ⟨(h.move .rleDimW).registers, ⟨rfl, rfl, rfl, rfl⟩⟩
  case rleDimW =>
    obtain ⟨k, w, rfl⟩ := hn
    exact helement ⟨(h.move .rleDimH).registers, ⟨hd.dScan, hd.dModel, hd.dKw, hd.dKh⟩, rfl⟩
  case rleDimH =>
    obtain ⟨k, x, rfl⟩ := hn
    obtain ⟨hset, hw⟩ := hd
    refine helement ?_
    change Agree _ (runDimh k x s) (runDimh k x t)
    by_cases hzero : s.dec.dW = 0#64 ∨ x = 0#64
    · rw [runDimh_zero k hzero, runDimh_zero k (hw ▸ hzero)]
      rfl
    · obtain ⟨hsw, hsx⟩ := not_or.1 hzero
      rcases Nat.lt_or_ge s.bufCap.toNat (s.dec.dW.toNat * x.toNat) with hbig | hfit
      · rw [runDimh_range k hsw hsx hbig, runDimh_range k (hw ▸ hsw) hsx (by rw [hw, h.bufCap]; exact hbig)]
        rfl
      · rw [runDimh_fits k hsw hsx hfit, runDimh_fits k (hw ▸ hsw) hsx (by rw [hw, h.bufCap]; exact hfit)]
        exact ⟨(h.move .rlePayload).registers, hset.opened hw x, fun h8 => absurd rfl h8⟩
  case rlePayload =>
    obtain ⟨hall, hactive⟩ := hd
    obtain rfl | ⟨-, b, rfl | ⟨h8, rfl | rfl⟩⟩ := hn
    · have hwritten : t.dec.written = s.dec.written := (congrArg DecRegs.written hall :)
      have hN : t.dec.dN = s.dec.dN := (congrArg DecRegs.dN hall :)
      unfold State.take State.endLoop State.endRle
      rw [h.seq, hq, hwritten, hN]
      dsimp only
      split
      · rfl
      · refine ⟨(h.setOutLen s.dec.dN).move .host, ?_⟩
        change State.rleResults t = State.rleResults s ∧ t.dec.dModel = s.dec.dModel
        unfold State.rleResults
        rw [hall]
        exact ⟨rfl, rfl⟩
    · refine helement ?_
      refine State.RleAlike.of_dec h.registers hq ?_
      change { t.dec with dG := b, rp := t.dec.rp + 1#64, gbit := 0#4 } = _
      rw [hall]
    · refine helement ?_
      have hdec := hactive h8
      change Agree _ (runCnt b s) (runCnt b t)
      unfold runCnt
      rw [hdec]
      refine (agree_eq rfl).bind ?_
      exact fun d e hde => State.RleAlike.of_dec h.registers hq hde
    · refine helement ?_
      have hdec := hactive h8
      change Agree _ (runLit b s) (runLit b t)
      unfold runLit
      rw [hdec]
      have hpair : State.PixelsAlike
          { s with dec := { s.dec with rp := s.dec.rp + 1#64, gbit := s.dec.gbit + 1#4 } }
          { t with dec := { s.dec with rp := s.dec.rp + 1#64, gbit := s.dec.gbit + 1#4 } } := ⟨h.registers, rfl, hq⟩
      refine (hpair.writePair s.dec.count b).bind fun u w huw => ?_
      exact State.RleAlike.of_dec huw.alike.registers huw.payload (by rw [huw.dec])

theorem State.rleDecBody_agree {s t : State} (hs : s.Ready) (h : s.Alike t) :
    Agree (fun a b => a.Alike b ∧ b.rleResults = a.rleResults ∧ b.dec.dModel = a.dec.dModel)
      s.rleDecBody t.rleDecBody := by
  have hr := hs.keeps (State.clear_keeps (sp := .out) (.inl rfl))
  have hclear : (s.clear .out).Alike (t.clear .out) := h.write (.inl rfl) [] 0#64
  unfold State.rleDecBody
  rw [h.inputLen]
  refine (runTurns_agree (R := State.RleAlike) (fun _ _ h => h.1.seq) (fun u v hu hseq huv => ?_) _
    (s := { s.clear .out with seq := .rleSet }) ⟨hr.src, hr.dest, hr.input, trivial⟩
    ⟨hclear.move .rleSet, trivial⟩).mono fun a b ⟨⟨hab, hd⟩, hend⟩ => ?_
  · exact turn_agree hu (huv.nextTurn hu) (huv.take hseq)
  · unfold State.sameDec at hd
    rw [hend] at hd
    exact ⟨hab, hd⟩

/-! ### The Huffman decoder -/

/-- The registers of the bit reader and of the descent agree (R39, R40). -/
structure HufRegs.sameReader (h k : HufRegs) : Prop where
  pad : k.pad = h.pad
  rb : k.rb = h.rb
  ri : k.ri = h.ri
  dcur : k.dcur = h.dcur

theorem HufRegs.sameReader.takeBit {h k : HufRegs} (hk : h.sameReader k) : h.takeBit.sameReader k.takeBit := by
  obtain ⟨hpad, hrb, hri, hdcur⟩ := hk
  unfold HufRegs.takeBit
  rw [hri, hrb]
  split
  · exact ⟨hpad, rfl, rfl, hdcur⟩
  · exact ⟨hpad, rfl, rfl, hdcur⟩

theorem HufRegs.sameReader.takeBits {h k : HufRegs} (hk : h.sameReader k) (n : Nat) :
    (h.takeBits n).sameReader (k.takeBits n) := by
  induction n generalizing h k with
  | zero => exact hk
  | succ n ih => exact ih hk.takeBit

/-- The descent stands at a node that links lead to, of trees that agree in the slots in use. -/
structure State.Descends (s t : State) : Prop where
  reader : s.huf.sameReader t.huf
  tree : s.tree.Similar t.tree
  node : s.tree.link s.huf.dcur

/-- The registers agree as far as the frame has been read: the cursor of a pass-through, or the reader and the tree. -/
def State.sameHuf (s t : State) : Prop :=
  match s.seq with
  | .hufOuter => True
  | .hufRaw => t.huf.rb = s.huf.rb
  | .hufBits => s.Descends t
  | .host => True
  | _ => False

/-- Two states of the Huffman decoder that differ in nothing that the frame decides. -/
def State.HufAlike (s t : State) : Prop := s.Alike t ∧ s.sameHuf t

theorem State.HufAlike.seq {s t : State} (h : s.HufAlike t) : t.seq = s.seq ∧ s.seq ≠ .encScan := by
  refine ⟨h.1.seq, fun hscan => ?_⟩
  have hd := h.2
  unfold State.sameHuf at hd
  rwa [hscan] at hd

theorem State.HufAlike.of_descends {s t : State} (h : s.Alike t) (hseq : s.seq = .hufBits) (hd : s.Descends t) :
    s.HufAlike t := by
  refine ⟨h, ?_⟩
  unfold State.sameHuf
  rw [hseq]
  exact hd

theorem State.Descends.nextHuf {s t : State} (hd : s.Descends t) (h : s.Alike t) : t.nextHuf = s.nextHuf := by
  obtain ⟨⟨hpad, hrb, hri, hdcur⟩, htree, hnode⟩ := hd
  have hend : t.isEnd = s.isEnd := by
    unfold State.isEnd
    rw [hpad, hrb, hri, h.payloadLen]
  unfold State.nextHuf
  rw [hend, hdcur, hrb, hri, htree.isInternal hnode, htree.nyt, h.peekBit, h.peekBits]

theorem State.HufAlike.nextTurn {s t : State} (h : s.HufAlike t) : t.nextTurn = s.nextTurn := by
  obtain ⟨h, hd⟩ := h
  unfold State.sameHuf at hd
  unfold State.nextTurn
  rw [h.seq]
  cases hseq : s.seq
  all_goals rw [hseq] at hd
  case hufOuter =>
    dsimp only
    rw [h.inputLen]
    split
    · rfl
    · rw [h.inputByte (by omega)]
  case hufRaw =>
    have hd : t.huf.rb = s.huf.rb := hd
    dsimp only
    rw [h.payloadLen, hd]
    split
    · rfl
    · have hmore := Nat.not_le.1 ‹_›
      unfold State.payloadLen at hmore
      rw [h.inputByte (by omega)]
  case hufBits => exact State.Descends.nextHuf hd h
  all_goals exact False.elim hd

/-- A symbol appended, and the tree updated from the node that stands for it. -/
theorem State.Descends.appended {s t a b : State} {u v : Tree} {g k : HufRegs} (h : s.Alike t)
    (hseq : s.seq = .hufBits) (hw : State.wrote .out s t a b) (htree : u.Similar v) (hgk : g.sameReader k) :
    State.HufAlike { a with tree := u, huf := { g with dcur := u.root } }
      { b with tree := v, huf := { k with dcur := v.root } } := by
  have halike := hw.alike h (.inl rfl)
  obtain ⟨m, n, rfl, rfl⟩ := hw
  exact .of_descends halike.registers hseq
    ⟨⟨hgk.pad, hgk.rb, hgk.ri, htree.root⟩, htree, htree.root_link⟩

theorem State.Descends.runEsc {s t : State} (hd : s.Descends t) (h : s.Alike t) (hseq : s.seq = .hufBits) (v : Byte) :
    Agree State.HufAlike (runEsc v s) (runEsc v t) := by
  unfold Machine.runEsc
  rw [hd.tree.symOf]
  split
  · rfl
  · refine (h.append (.inl rfl) v).bind fun a b hab => ?_
    obtain ⟨m, n, ha, hb⟩ := id hab
    have htree : a.tree = s.tree ∧ b.tree = t.tree := by rw [ha, hb]; exact ⟨rfl, rfl⟩
    have hhuf : a.huf = s.huf ∧ b.huf = t.huf := by rw [ha, hb]; exact ⟨rfl, rfl⟩
    rw [htree.1, htree.2, hhuf.1, hhuf.2]
    refine (orCorrupt_agree (hd.tree.split v)).bind fun p q ⟨hpq, hnyt, hlink⟩ => ?_
    rw [hnyt]
    refine (orCorrupt_agree (hpq.update hlink)).bind fun u w huw => ?_
    exact State.Descends.appended h hseq hab huw (hd.reader.takeBits 8)

theorem State.Descends.emitSymbol {s t : State} (hd : s.Descends t) (h : s.Alike t) (hseq : s.seq = .hufBits) :
    Agree State.HufAlike s.emitSymbol t.emitSymbol := by
  unfold State.emitSymbol
  rw [hd.reader.dcur, hd.tree.node _ hd.node]
  refine (h.append (.inl rfl) _).bind fun a b hab => ?_
  obtain ⟨m, n, ha, hb⟩ := id hab
  have htree : a.tree = s.tree ∧ b.tree = t.tree := by rw [ha, hb]; exact ⟨rfl, rfl⟩
  have hhuf : a.huf = s.huf ∧ b.huf = t.huf := by rw [ha, hb]; exact ⟨rfl, rfl⟩
  rw [htree.1, htree.2, hhuf.1, hhuf.2]
  refine (orCorrupt_agree (hd.tree.update hd.node)).bind fun u w huw => ?_
  exact State.Descends.appended h hseq hab huw hd.reader

theorem State.Descends.runCode {s t : State} (hd : s.Descends t) (h : s.Alike t) (hseq : s.seq = .hufBits) (b : Bool) :
    Agree State.HufAlike (runCode b s) (runCode b t) := by
  have hchild : s.tree.link (if b then (s.tree.node s.huf.dcur).right else (s.tree.node s.huf.dcur).left) := by
    cases b with
    | false => exact (hd.tree.linked _ hd.node).left
    | true => exact (hd.tree.linked _ hd.node).right
  have htaken := hd.reader.takeBit
  unfold Machine.runCode
  rw [hd.reader.dcur, hd.tree.node _ hd.node]
  generalize (if b then (s.tree.node s.huf.dcur).right else (s.tree.node s.huf.dcur).left) = child at *
  dsimp only
  split
  · rfl
  · exact .of_descends h.registers hseq ⟨⟨htaken.pad, htaken.rb, htaken.ri, rfl⟩, hd.tree, hchild⟩

theorem runOut_agree {s t : State} (h : s.Alike t) (reserved : BitVec 4) (huf : Bool) (pad : BitVec 3) :
    Agree State.HufAlike (runOut reserved huf pad s) (runOut reserved huf pad t) := by
  have hclear : (s.clear .out).Alike (t.clear .out) := h.write (.inl rfl) [] 0#64
  have htree := Tree.init_similar s.tree t.tree
  unfold runOut
  cases huf with
  | false => exact ⟨(hclear.move .hufRaw).registers, rfl⟩
  | true => exact .of_descends (hclear.move .hufBits).registers rfl ⟨⟨rfl, rfl, rfl, rfl⟩, htree, htree.root_link⟩

theorem State.HufAlike.take {s t : State} (h : s.HufAlike t) (hseq : s.seq ≠ .host) (n : Turn) (hn : s.Selects n) :
    Agree State.HufAlike (s.take n) (t.take n) := by
  have helement {i : Instr} := element_agree (R := State.HufAlike) (fun _ _ => State.HufAlike.seq) (i := i) (s := s)
    (t := t)
  have hstop (hend : s.endLoop = .ok { s with seq := .host }) (hend' : t.endLoop = .ok { t with seq := .host }) :
      Agree State.HufAlike (s.take .stop) (t.take .stop) := by
    rw [State.take, State.take, hend, hend']
    exact ⟨h.1.move .host, trivial⟩
  obtain ⟨h, hd⟩ := h
  unfold State.sameHuf at hd
  unfold State.Selects at hn
  cases hq : s.seq
  all_goals
    rw [hq] at hn hd
    dsimp only at hn hd
  case host => exact absurd hq hseq
  case hufOuter =>
    obtain ⟨reserved, huf, pad, rfl⟩ := hn
    exact helement (runOut_agree h reserved huf pad)
  case hufRaw =>
    obtain rfl | ⟨-, x, rfl⟩ := hn
    · exact hstop (by simp only [State.endLoop, hq]) (by simp only [State.endLoop, h.seq, hq])
    · refine helement ((h.append (.inl rfl) x).bind fun a b hab => ?_)
      have halike := hab.alike h (.inl rfl)
      obtain ⟨m, n, rfl, rfl⟩ := hab
      refine ⟨halike.registers, ?_⟩
      unfold State.sameHuf
      simp only [State.setLen_seq, State.setMem_seq, hq]
      exact congrArg (· + 1#64) hd
  case hufBits =>
    obtain rfl | rfl | ⟨-, ⟨b, rfl⟩ | ⟨v, rfl⟩⟩ := hn
    · exact hstop (by simp only [State.endLoop, hq]) (by simp only [State.endLoop, h.seq, hq])
    · exact State.Descends.emitSymbol hd h hq
    · exact helement (State.Descends.runCode hd h hq b)
    · exact helement (State.Descends.runEsc hd h hq v)

theorem State.hufDecBody_agree {s t : State} (hs : s.Ready) (h : s.Alike t) :
    Agree State.Alike s.hufDecBody t.hufDecBody := by
  have hfuel : 8 * t.inputLen + t.bufCap.toNat + 4 = 8 * s.inputLen + s.bufCap.toNat + 4 := by
    rw [h.inputLen, h.bufCap]
  unfold State.hufDecBody
  rw [hfuel]
  refine (runTurns_agree (R := State.HufAlike) (fun _ _ h => h.1.seq) (fun u v hu hseq huv => ?_) _
    (s := { s with seq := .hufOuter }) ⟨hs.src, hs.dest, hs.input, trivial⟩
    ⟨h.move .hufOuter, trivial⟩).mono fun a b hab => hab.1.1
  exact turn_agree hu huv.nextTurn (huv.take hseq)

end Sys2Proof.Machine
end

section
/-! SUPPORT for O39: the RLE encoder's output is decided by the image, the arguments and `BUF_CAP`. -/

namespace Sys2Proof.Machine

/-! ### The scan (R125, R127) -/

/-- The scan registers agree, and so do the items staged in the packer; what the group buffer holds behind them is
free. -/
def EncRegs.sameScan (d e : EncRegs) : Prop :=
  ∃ buf, e = { d with gbuf := buf } ∧ ∀ i, i < d.gcnt.toNat → buf[i]? = d.gbuf[i]?

/-- Two states that hold the same image of the same dimensions. -/
structure State.ImageAlike (s t : State) : Prop where
  alike : s.Alike t
  dims : s.sameDims t
  model : t.argModel = s.argModel
  measured : s.Measured

theorem State.Measured.copy {s t : State} (h : s.Measured) (hdims : s.sameDims t) (hlen : t.inputLen = s.inputLen) :
    t.Measured := by
  obtain ⟨hW, hH, hN⟩ := hdims
  exact ⟨by rw [hW, hH, hN, h.area], by rw [hN, h.input, hlen], by rw [hN]; exact h.pixels⟩

/-- Other encoder registers with the same dimensions. -/
theorem State.ImageAlike.registers {s t : State} (h : s.ImageAlike t) {d e : EncRegs}
    (hd : s.sameDims { s with enc := d }) (he : t.sameDims { t with enc := e }) :
    State.ImageAlike { s with enc := d } { t with enc := e } := by
  obtain ⟨hW, hH, hN⟩ := id hd
  obtain ⟨hW', hH', hN'⟩ := he
  exact ⟨h.alike.registers, ⟨hW'.trans (h.dims.1.trans hW.symm), hH'.trans (h.dims.2.1.trans hH.symm),
    hN'.trans (h.dims.2.2.trans hN.symm)⟩, h.model, h.measured.copy hd rfl⟩

theorem State.ImageAlike.move {s t : State} (h : s.ImageAlike t) (seq : Seq) :
    State.ImageAlike { s with seq := seq } { t with seq := seq } :=
  ⟨h.alike.move seq, h.dims, h.model, h.measured.copy ⟨rfl, rfl, rfl⟩ rfl⟩

theorem State.wrote.inputLen {s t a b : State} {sp : Space} (hw : State.wrote sp s t a b) (hne : s.src ≠ sp) :
    a.inputLen = s.inputLen := by
  obtain ⟨m, n, rfl, -⟩ := hw
  unfold State.inputLen
  rw [State.setLen_src, State.setMem_src, State.setLen_len_other _ _ _ _ hne, State.setMem_len]

theorem State.wrote.registers {s t a b : State} {sp : Space} (hw : State.wrote sp s t a b) :
    a.enc = s.enc ∧ b.enc = t.enc ∧ a.dest = s.dest ∧ a.seq = s.seq := by
  obtain ⟨m, n, rfl, rfl⟩ := hw
  cases sp <;> exact ⟨rfl, rfl, rfl, rfl⟩

theorem State.ImageAlike.wrote {s t a b : State} (h : s.ImageAlike t) (hw : State.wrote s.dest s t a b) :
    a.ImageAlike b := by
  have halike := hw.alike h.alike (.inr rfl)
  have hlen := hw.inputLen (h.alike.reads.ne_written h.alike.writes)
  obtain ⟨ha, hb, -, -⟩ := hw.registers
  refine ⟨halike, ?_, ?_, h.measured.copy ?_ hlen⟩
  · rw [State.sameDims, ha, hb]
    exact h.dims
  · obtain ⟨m, n, rfl, rfl⟩ := hw
    simpa [State.argModel] using h.model
  · rw [State.sameDims, ha]
    exact ⟨rfl, rfl, rfl⟩

/-- Two states of an encoding pass into `dest` that differ in nothing that the image and the arguments decide. -/
structure State.ScanAlike (dest : Space) (s t : State) : Prop where
  image : s.ImageAlike t
  enc : s.enc.sameScan t.enc
  dest : s.dest = dest
  seq : s.seq = .encScan ∨ s.seq = .encClose ∨ s.seq = .host

theorem State.ScanAlike.staged {dest : Space} {s t : State} (h : s.ScanAlike dest t) : t.staged = s.staged := by
  obtain ⟨buf, henc, hbuf⟩ := h.enc
  unfold State.staged
  rw [henc]
  refine congrArg (List.cons _) (List.ext_getElem? fun i => ?_)
  simp only [List.getElem?_take, Vector.getElem?_toList]
  split
  · exact hbuf i ‹_›
  · rfl

theorem EncRegs.sameScan.stage {s t : State} (h : s.enc.sameScan t.enc) (c : Bool) (b : Byte) :
    (s.stage c b).enc.sameScan (t.stage c b).enc := by
  obtain ⟨buf, henc, hbuf⟩ := h
  refine ⟨buf.setIfInBounds s.enc.gcnt.toNat b, by simp only [State.stage, henc], fun i hi => ?_⟩
  have hle : (s.enc.gcnt + 1#4).toNat ≤ s.enc.gcnt.toNat + 1 := by
    rw [BitVec.toNat_add]
    exact Nat.mod_le ..
  have hi : i < (s.enc.gcnt + 1#4).toNat := hi
  simp only [State.stage, Vector.getElem?_setIfInBounds]
  split
  · rfl
  · exact hbuf i (by omega)

theorem State.ScanAlike.stage {dest : Space} {s t : State} (h : s.ScanAlike dest t) (c : Bool) (b : Byte) :
    (s.stage c b).ScanAlike dest (t.stage c b) :=
  ⟨h.image.registers ⟨rfl, rfl, rfl⟩ ⟨rfl, rfl, rfl⟩, h.enc.stage c b, h.dest, h.seq⟩

theorem State.ScanAlike.wrote {dest : Space} {s t a b : State} (h : s.ScanAlike dest t)
    (hw : State.wrote s.dest s t a b) : a.ScanAlike dest b := by
  obtain ⟨ha, hb, hdest, hseq⟩ := hw.registers
  refine ⟨h.image.wrote hw, ?_, hdest.trans h.dest, ?_⟩
  · rw [ha, hb]
    exact h.enc
  · rw [hseq]
    exact h.seq

theorem State.ScanAlike.flush {dest : Space} {s t : State} (h : s.ScanAlike dest t) :
    Agree (State.ScanAlike dest) s.flush t.flush := by
  have hwrite := h.image.alike.appendAll (.inr rfl) s.staged
  unfold State.flush
  change Agree _ (s.appendAll s.dest s.staged >>= _) (t.appendAll t.dest t.staged >>= _)
  rw [h.image.alike.dest, h.staged]
  refine hwrite.bind fun a b hab => ?_
  have hnext := h.wrote hab
  obtain ⟨buf, henc, -⟩ := hnext.enc
  exact ⟨hnext.image.registers ⟨rfl, rfl, rfl⟩ ⟨rfl, rfl, rfl⟩, ⟨buf, by rw [henc], nofun⟩, hnext.dest, hnext.seq⟩

theorem State.ScanAlike.put {dest : Space} {s t : State} (h : s.ScanAlike dest t) (c : Bool) (b : Byte) :
    Agree (State.ScanAlike dest) (s.put c b) (t.put c b) := by
  have hstage := h.stage c b
  have hcount : (t.stage c b).enc.gcnt = (s.stage c b).enc.gcnt := by
    obtain ⟨buf, henc, -⟩ := hstage.enc
    rw [henc]
  rw [State.put_eq, State.put_eq, hcount]
  split
  · exact hstage.flush
  · exact hstage

theorem State.ScanAlike.putItems {dest : Space} {s t : State} (h : s.ScanAlike dest t) (items : List (Bool × Byte)) :
    Agree (State.ScanAlike dest) (s.putItems items) (t.putItems items) := by
  induction items generalizing s t with
  | nil => exact h
  | cons i is ih => exact (h.put i.1 i.2).bind fun a b hab => ih hab

theorem State.ScanAlike.finalise {dest : Space} {s t : State} (h : s.ScanAlike dest t) :
    Agree (State.ScanAlike dest) s.finalise t.finalise := by
  have hcount {a b : State} (hab : a.ScanAlike dest b) : b.enc.gcnt = a.enc.gcnt := by
    obtain ⟨buf, henc, -⟩ := hab.enc
    rw [henc]
  unfold State.finalise
  rw [hcount h]
  split
  · exact h
  · refine (h.put false Config.padLiteral).bind fun a b hab => ?_
    rw [hcount hab]
    split
    · exact hab
    · exact hab.flush

/-- The pixels of a measured image are bytes of the input. -/
theorem State.ImageAlike.pix {s t : State} (h : s.ImageAlike t) (hscan : t.enc.eScan = s.enc.eScan) {k : Nat}
    (hk : k < s.enc.eN.toNat) : t.pix k = s.pix k := by
  obtain ⟨hW, hH, -⟩ := h.dims
  unfold State.pix
  rw [hscan, hW, hH]
  refine h.alike.inputByte ?_
  rw [← h.measured.input, h.measured.area]
  exact scanAddress_lt _ (h.measured.area ▸ hk)

theorem State.ScanAlike.pix {dest : Space} {s t : State} (h : s.ScanAlike dest t) {k : Nat}
    (hk : k < s.enc.eN.toNat) : t.pix k = s.pix k := by
  obtain ⟨buf, henc, -⟩ := h.enc
  exact h.image.pix (by rw [henc]) hk

theorem State.ScanAlike.nextScan {dest : Space} {s t : State} (h : s.ScanAlike dest t) : t.nextScan = s.nextScan := by
  have hpix {k : Nat} := h.pix (k := k)
  obtain ⟨buf, henc, -⟩ := h.enc
  unfold State.nextScan
  rw [henc]
  dsimp only
  split
  · rw [hpix ‹_›]
  · rfl

theorem State.ScanAlike.move {dest : Space} {s t : State} (h : s.ScanAlike dest t) {seq : Seq}
    (hseq : seq = .encScan ∨ seq = .encClose ∨ seq = .host) :
    State.ScanAlike dest { s with seq := seq } { t with seq := seq } :=
  ⟨h.image.move seq, h.enc, h.dest, hseq⟩

/-- New scan registers, the same in both states. -/
theorem State.ScanAlike.rescan {dest : Space} {s t : State} (h : s.ScanAlike dest t) {cur cur' : Byte}
    (hcur : cur' = cur) (cnt eT : Word) :
    State.ScanAlike dest { s with enc := { s.enc with cur := cur, cnt := cnt, eT := eT } }
      { t with enc := { t.enc with cur := cur', cnt := cnt, eT := eT } } := by
  subst hcur
  obtain ⟨buf, henc, hbuf⟩ := h.enc
  exact ⟨h.image.registers ⟨rfl, rfl, rfl⟩ ⟨rfl, rfl, rfl⟩, ⟨buf, by rw [henc], hbuf⟩, h.dest, h.seq⟩

/-- The registers that the scan reads. -/
theorem EncRegs.sameScan.counters {d e : EncRegs} (h : d.sameScan e) :
    e.eT = d.eT ∧ e.eN = d.eN ∧ e.cur = d.cur ∧ e.cnt = d.cnt := by
  obtain ⟨buf, rfl, -⟩ := h
  exact ⟨rfl, rfl, rfl, rfl⟩

theorem State.ScanAlike.afterElement {dest : Space} {s t : State} (h : s.ScanAlike dest t) :
    Agree (State.ScanAlike dest) s.afterElement t.afterElement := by
  obtain ⟨hT, hN, -, -⟩ := h.enc.counters
  unfold State.afterElement
  by_cases hseq : s.seq = .encScan
  · rw [if_pos hseq, if_pos (h.image.alike.seq.trans hseq)]
    by_cases hmore : s.enc.eT.toNat < s.enc.eN.toNat
    · rw [if_pos hmore, if_pos (show t.enc.eT.toNat < t.enc.eN.toNat by rw [hT, hN]; exact hmore)]
      refine (agree_eq (show t.pix t.enc.eT.toNat = s.pix s.enc.eT.toNat by rw [hT, h.pix hmore])).bind ?_
      rintro v w rfl
      rw [hT]
      exact h.rescan rfl 1#64 (s.enc.eT + 1#64)
    · rw [if_neg hmore, if_neg (show ¬t.enc.eT.toNat < t.enc.eN.toNat by rw [hT, hN]; exact hmore)]
      exact h.move (.inr (.inl rfl))
  · rw [if_neg hseq, if_neg (h.image.alike.seq ▸ hseq)]
    exact h

theorem State.ScanAlike.turn {dest : Space} {s t : State} (h : s.ScanAlike dest t) (hs : s.StreamSound)
    (hseq : s.seq ≠ .host) : Agree (State.ScanAlike dest) s.turn t.turn := by
  obtain ⟨hT, -, hcur, hcnt⟩ := h.enc.counters
  have hsame := h.image.alike.seq
  rcases h.seq with hq | hq | hq
  · refine turn_agree hs (by simp only [State.nextTurn, hsame, hq, h.nextScan]) fun n hn => ?_
    simp only [State.Selects, hq] at hn
    obtain ⟨-, rfl⟩ | rfl := hn
    · rw [State.take, State.take, State.extendRun, State.extendRun, hcnt, hT]
      exact h.rescan hcur (s.enc.cnt + 1#64) (s.enc.eT + 1#64)
    · rw [State.take, State.take, runElement_runForm, runElement_runForm]
      exact (h.putItems _).bind fun a b hab => hab.afterElement
  · refine turn_agree hs (by simp only [State.nextTurn, hsame, hq]) fun n hn => ?_
    simp only [State.Selects, hq] at hn
    subst hn
    simp only [State.take, State.endLoop, hsame, hq]
    exact h.finalise.bind fun a b hab => hab.move (.inr (.inr rfl))
  · exact absurd hq hseq

/-! ### Passes (R122, R135) -/

theorem State.checkDims_agree {s t : State} (h : s.Alike t) (hmodel : t.argModel = s.argModel) (x y : Word) :
    Agree State.ImageAlike (s.checkDims x y) (t.checkDims x y) := by
  refine Agree.mono (Q := State.ImageAlike) (Agree.ends ?_ (State.checkDims_ends x y))
    (R := fun a b => (a.Alike b ∧ a.sameDims b ∧ b.argModel = a.argModel) ∧ s.Keeps a ∧ a.Measured)
    fun a b ⟨⟨hab, hdims, hm⟩, _, ha⟩ => ⟨hab, hdims, hm, ha⟩
  unfold State.checkDims
  rw [h.inputLen]
  split
  · rfl
  · split
    · rfl
    · exact ⟨h.registers, ⟨rfl, rfl, rfl⟩, hmodel⟩

/-- The registers agree before the first pixel of a scan. -/
def EncRegs.sameStart (d e : EncRegs) : Prop :=
  ∃ buf cur cnt, e = { d with gbuf := buf, cur := cur, cnt := cnt } ∧ d.gcnt = 0#4

theorem State.scan_agree {dest : Space} {s t : State} (hs : s.Ready) (h : s.ImageAlike t) (hdest : s.dest = dest)
    (henc : s.enc.sameStart t.enc) :
    Agree (fun a b => a.ScanAlike dest b ∧ a.seq = .host)
      (s.openScan >>= fun u => runTurns (u.enc.eN.toNat + 2) u)
      (t.openScan >>= fun u => runTurns (u.enc.eN.toNat + 2) u) := by
  obtain ⟨buf, cur, cnt, henc, hcnt⟩ := henc
  have hscan : s.scanSound := ⟨h.measured.area, h.measured.input.trans_le hs.input⟩
  have hpix : t.pix 0 = s.pix 0 := h.pix (by rw [henc]) h.measured.pixels
  have hopen : Agree (fun a b => a.ScanAlike dest b ∧ a.StreamSound) s.openScan t.openScan := by
    refine (agree_eq hpix).bind ?_
    rintro v w rfl
    have himage := (h.move .encScan).registers
      (d := { s.enc with cur := w, cnt := 1#64, eT := 1#64 }) (e := { t.enc with cur := w, cnt := 1#64, eT := 1#64 })
      ⟨rfl, rfl, rfl⟩ ⟨rfl, rfl, rfl⟩
    refine ⟨⟨himage, ⟨buf, by rw [henc], fun i hi => ?_⟩, hdest, .inl rfl⟩, hs.src, hs.dest, hs.input, hscan⟩
    have hi : i < s.enc.gcnt.toNat := hi
    rw [hcnt] at hi
    exact absurd hi (Nat.not_lt_zero i)
  refine hopen.bind fun a b ⟨hab, ha⟩ => ?_
  rw [hab.image.dims.2.2]
  exact runTurns_agree (fun _ _ h => h.image.alike.seq) (fun u v hu hseq huv => huv.turn hu hseq) _ ha hab

theorem State.emitHeader_agree {s t : State} (h : s.ImageAlike t) (henc : s.enc.sameStart t.enc) :
    Agree (State.wrote s.dest s t) s.emitHeader t.emitHeader := by
  obtain ⟨buf, cur, cnt, henc, -⟩ := henc
  unfold State.emitHeader
  rw [henc, h.alike.dest]
  exact h.alike.appendAll (.inr rfl) _

/-- The start of a pass: its space is empty, its settings are the arguments'. -/
def State.startPass (s : State) (scan : Bool) (dest : Space) : State :=
  { s.clear dest with
    dest := dest, enc := { s.enc with eScan := scan, eModel := s.argModel, g := 0#8, gcnt := 0#4, eT := 0#64 } }

theorem State.encodePass_eq (s : State) (scan : Bool) (dest : Space) :
    s.encodePass scan dest = (s.startPass scan dest).emitHeader >>= fun t =>
      t.openScan >>= fun u => runTurns (u.enc.eN.toNat + 2) u := by
  cases dest <;> rfl

theorem State.startPass_keeps (s : State) (scan : Bool) {dest : Space} (hdest : dest.written) :
    s.Keeps (s.startPass scan dest) :=
  (State.clear_keeps hdest).trans ⟨rfl, rfl, rfl, rfl, rfl, fun _ => hdest, id, id⟩

theorem State.ImageAlike.startPass {s t : State} (h : s.ImageAlike t) (scan : Bool) {dest : Space}
    (hdest : dest.written) :
    (s.startPass scan dest).ImageAlike (t.startPass scan dest) ∧
      (s.startPass scan dest).enc.sameStart (t.startPass scan dest).enc := by
  obtain ⟨hW, hH, hN⟩ := id h.dims
  refine ⟨⟨(h.alike.clear hdest).registers, h.dims, ?_, ?_⟩, t.enc.gbuf, t.enc.cur, t.enc.cnt, ?_, rfl⟩
  · rcases hdest with rfl | rfl <;> exact h.model
  · exact h.measured.keeps h.alike.reads (s.startPass_keeps scan hdest) ⟨rfl, rfl, rfl⟩
  · simp only [State.startPass, hW, hH, hN, h.model]

theorem State.encodePass_agree {s t : State} (scan : Bool) {dest : Space} (hs : s.Ready) (h : s.ImageAlike t)
    (hdest : dest.written) :
    Agree (fun a b => a.ScanAlike dest b ∧ a.seq = .host) (s.encodePass scan dest) (t.encodePass scan dest) := by
  obtain ⟨hstart, henc⟩ := h.startPass scan hdest
  have hready := hs.keeps (s.startPass_keeps scan hdest)
  rw [State.encodePass_eq, State.encodePass_eq]
  refine ((State.emitHeader_agree hstart henc).ends (State.emitHeader_ends hready.dest)).bind fun a b ⟨hw, ha, _⟩ => ?_
  obtain ⟨hea, heb, hd, -⟩ := hw.registers
  exact State.scan_agree (hready.keeps ha) (hstart.wrote hw) hd (by rw [hea, heb]; exact henc)

theorem State.rleEncBody_agree {s t : State} (scan : Bool) (x y : Word) (hs : s.Ready) (h : s.Alike t)
    (hmodel : t.argModel = s.argModel) :
    Agree State.Alike (State.rleEncBody scan x y s) (State.rleEncBody scan x y t) := by
  refine ((State.checkDims_agree h hmodel x y).ends (State.checkDims_ends x y)).bind fun a b ⟨hab, ha, _⟩ => ?_
  exact (State.encodePass_agree scan (hs.keeps ha) hab (.inl rfl)).mono fun c d hcd => hcd.1.image.alike

/-- The second pass of RLE_ENC_A gives the output (R135). -/
theorem State.Alike.fromOutb {s t : State} (h : s.Alike t) (hdest : s.dest = .outb) :
    State.Alike { s with outMem := s.outbMem, outLen := s.outbLen }
      { t with outMem := t.outbMem, outLen := t.outbLen } := by
  have hmem : t.mem .outb = s.mem .outb := hdest ▸ h.target
  have hlen : t.len .outb = s.len .outb := hdest ▸ h.targetLen
  have hw := h.write (.inl rfl) s.outbMem s.outbLen
  rwa [show (t.setMem .out s.outbMem).setLen .out s.outbLen = { t with outMem := t.outbMem, outLen := t.outbLen } by
    rw [← show t.outbMem = s.outbMem from hmem, ← show t.outbLen = s.outbLen from hlen]; rfl] at hw

theorem State.rleEncABody_agree {s t : State} (x y : Word) (hs : s.Ready) (h : s.Alike t)
    (hmodel : t.argModel = s.argModel) :
    Agree (fun p q => p.1.Alike q.1 ∧ q.2 = p.2) (State.rleEncABody x y s) (State.rleEncABody x y t) := by
  refine ((State.checkDims_agree h hmodel x y).ends (State.checkDims_ends x y)).bind fun a b ⟨hab, ha, hm⟩ => ?_
  have hready := hs.keeps ha
  refine ((State.encodePass_agree true hready hab (.inl rfl)).ends
    (State.encodePass_ends true hready hm (.inl rfl))).bind fun c d ⟨⟨hcd, _⟩, hc, _⟩ => ?_
  refine (State.encodePass_agree false (hready.keeps hc) hcd.image (.inr rfl)).bind fun u v ⟨huv, _⟩ => ?_
  have halike := huv.image.alike
  have hlen := halike.targetLen
  rw [huv.dest] at hlen
  have hshorter : v.outbLen.toNat ≤ v.outLen.toNat ↔ u.outbLen.toNat ≤ u.outLen.toNat := by
    rw [halike.outLen, ← show v.outbLen = u.outbLen from hlen]
  by_cases hle : u.outbLen.toNat ≤ u.outLen.toNat
  · rw [if_pos hle, if_pos (hshorter.2 hle)]
    exact ⟨halike.fromOutb huv.dest, rfl⟩
  · rw [if_neg hle, if_neg (mt hshorter.1 hle)]
    exact ⟨halike, rfl⟩

end Sys2Proof.Machine
end

section
/-! SUPPORT for O39: the Huffman encoder's output and the differential unit's are decided by the input and `BUF_CAP`. -/

namespace Sys2Proof.Machine

/-! ### The Huffman encoder -/

/-- The registers of the bit writer and of the input cursor agree (R36, R38). -/
structure HufRegs.sameWriter (h k : HufRegs) : Prop where
  wb : k.wb = h.wb
  wi : k.wi = h.wi
  ip : k.ip = h.ip

theorem HufRegs.sameWriter.advance {h k : HufRegs} (hk : h.sameWriter k) : h.advance.sameWriter k.advance := by
  obtain ⟨hwb, hwi, hip⟩ := hk
  unfold HufRegs.advance
  rw [hwi, hwb]
  split
  · exact ⟨rfl, rfl, hip⟩
  · split
    · exact ⟨hwb, hwi, hip⟩
    · exact ⟨rfl, rfl, hip⟩

/-- Two states of the Huffman encoder that differ in nothing that the input decides. -/
structure State.CodeAlike (s t : State) : Prop where
  alike : s.Alike t
  writer : s.huf.sameWriter t.huf
  tree : s.tree.Similar t.tree

theorem State.Alike.setOutMem {s t : State} (h : s.Alike t) (m : Memory) :
    State.Alike { s with outMem := m } { t with outMem := m } := by
  have hw := h.write (.inl rfl) m s.outLen
  rwa [show (t.setMem .out m).setLen .out s.outLen = { t with outMem := m } by rw [← h.outLen]; rfl] at hw

/-- Bits are written the same way in both states, and no tree changes. -/
theorem State.CodeAlike.writeBit {s t : State} (h : s.CodeAlike t) (v : Bool) :
    Agree (fun a b => a.CodeAlike b ∧ a.tree = s.tree) (s.writeBit v) (t.writeBit v) := by
  have hnext := h.writer.advance
  obtain ⟨hwb, hwi, -⟩ := h.writer
  rcases Nat.lt_or_ge s.huf.wb.toNat s.bufCap.toNat with hroom | hfull
  · rw [s.writeBit_stored v hroom, t.writeBit_stored v (by rwa [hwb, h.alike.bufCap]), hwb, hwi, h.alike.outMem,
      h.alike.peek_out]
    have hmem := h.alike.setOutMem (s.outMem.write s.huf.wb.toNat
      ((if s.huf.wi = 0#3 then 0#8 else s.peek .out s.huf.wb.toNat) |||
        ((BitVec.ofBool v).setWidth 8 <<< s.huf.wi.toNat)))
    exact ⟨⟨hmem.registers, hnext, h.tree⟩, rfl⟩
  · rw [s.writeBit_counted v hfull, t.writeBit_counted v (by rwa [hwb, h.alike.bufCap])]
    exact ⟨⟨h.alike.registers, hnext, h.tree⟩, rfl⟩

theorem State.CodeAlike.writeBits {s t : State} (h : s.CodeAlike t) (vs : List Bool) :
    Agree (fun a b => a.CodeAlike b ∧ a.tree = s.tree) (s.writeBits vs) (t.writeBits vs) := by
  induction vs generalizing s t with
  | nil => exact ⟨h, rfl⟩
  | cons v vs ih =>
    exact (h.writeBit v).bind fun a b ⟨hab, ha⟩ => (ih hab).mono fun c d ⟨hcd, hc⟩ => ⟨hcd, hc.trans ha⟩

theorem State.CodeAlike.emitPath {s t : State} (h : s.CodeAlike t) {l : Link} (hl : s.tree.link l) :
    Agree (fun a b => a.CodeAlike b ∧ a.tree = s.tree) (s.emitPath l) (t.emitPath l) := by
  unfold State.emitPath
  rw [h.tree.path hl]
  refine (agree_eq rfl).bind ?_
  rintro bits _ rfl
  exact h.writeBits _

/-- The tree updated from one node in both states. -/
theorem State.CodeAlike.update {s t : State} (h : s.CodeAlike t) {l : Link} (hl : s.tree.link l) :
    Agree State.CodeAlike (orCorrupt (s.tree.update l) >>= fun u => .ok { s with tree := u })
      (orCorrupt (t.tree.update l) >>= fun u => .ok { t with tree := u }) :=
  (orCorrupt_agree (h.tree.update hl)).bind fun _ _ huv => ⟨h.alike.registers, h.writer, huv⟩

theorem State.CodeAlike.encodeSymbol {s t : State} (h : s.CodeAlike t) (b : Byte) :
    Agree State.CodeAlike (s.encodeSymbol b) (t.encodeSymbol b) := by
  unfold State.encodeSymbol
  rw [h.tree.symOf, h.tree.nyt]
  split
  · refine (h.emitPath (.inl h.tree.nyt_live)).bind fun u v ⟨huv, _⟩ => ?_
    refine (orCorrupt_agree (huv.tree.split b)).bind fun p q ⟨hpq, hnyt, hlink⟩ => ?_
    have hsplit : State.CodeAlike { u with tree := p.1 } { v with tree := q.1 } :=
      ⟨huv.alike.registers, huv.writer, hpq⟩
    refine (hsplit.writeBits (literalBits b)).bind fun x y ⟨hxy, hx⟩ => ?_
    rw [hnyt]
    exact hxy.update (hx ▸ hlink)
  · refine (h.emitPath (h.tree.sym_link b)).bind fun u v ⟨huv, hu⟩ => ?_
    exact huv.update (hu ▸ h.tree.sym_link b)

theorem State.CodeAlike.encodeSymbols (k : Nat) {s t : State} (hs : s.Ready) (h : s.CodeAlike t)
    (hik : s.huf.ip.toNat + k ≤ s.inputLen) :
    Agree State.CodeAlike (State.encodeSymbols k s) (State.encodeSymbols k t) := by
  induction k generalizing s t with
  | zero => exact h
  | succ k ih =>
    unfold State.encodeSymbols
    rw [h.writer.ip]
    refine (agree_eq (h.alike.inputByte (by omega))).bind ?_
    rintro x b rfl
    refine ((h.encodeSymbol b).ends (s.encodeSymbol_ends b)).bind fun u v ⟨huv, hu⟩ => ?_
    obtain ⟨hwb, hwi, hip⟩ := huv.writer
    have hkeeps : s.Keeps { u with huf := { u.huf with ip := u.huf.ip + 1#64 } } := hu.keeps.registers
    refine ih (hs.keeps hkeeps) ⟨huv.alike.registers, ⟨hwb, hwi, congrArg (· + 1#64) hip⟩, huv.tree⟩ ?_
    have hlen : s.inputLen < 2 ^ 64 := (s.len s.src).isLt
    have hnext : (s.huf.ip + 1#64).toNat = s.huf.ip.toNat + 1 := by bv_omega
    rw [hkeeps.inputLen hs.src, hu.cursor, hnext]
    omega

theorem State.Alike.copyInput (k i : Nat) {s t : State} (h : s.Alike t) (hik : i + k ≤ s.inputLen) :
    Agree State.Alike (State.copyInput k i s) (State.copyInput k i t) := by
  induction k generalizing i s t with
  | zero => exact h
  | succ k ih =>
    unfold State.copyInput
    refine (agree_eq (h.inputByte (by omega))).bind ?_
    rintro x b rfl
    refine (h.memWrite i b).bind fun u v huv => ?_
    refine ih (i + 1) (huv.alike h (.inl rfl)) ?_
    rw [huv.inputLen (h.reads.ne_written (.inl rfl))]
    omega

theorem State.CodeAlike.arbitrate {s t : State} (h : s.CodeAlike t) :
    Agree (fun a b => a.Alike b ∧ b.resOuter = a.resOuter) s.arbitrate t.arbitrate := by
  obtain ⟨hwb, hwi, -⟩ := h.writer
  have hsize : t.huf.encSize = s.huf.encSize := by
    unfold HufRegs.encSize
    rw [hwb, hwi]
  unfold State.arbitrate
  rw [hsize, h.alike.inputLen, hwi]
  split
  · refine (h.alike.copyInput _ 0 (by omega)).bind fun u v huv => ?_
    have hlen := huv.setOutLen (BitVec.ofNat 64 s.inputLen)
    exact ⟨hlen.registers, rfl⟩
  · have hlen := h.alike.setOutLen (BitVec.ofNat 64 s.huf.encSize)
    exact ⟨hlen.registers, rfl⟩

theorem State.hufEncBody_agree {s t : State} (hs : s.Ready) (h : s.Alike t) :
    Agree (fun a b => a.Alike b ∧ b.resOuter = a.resOuter) s.hufEncBody t.hufEncBody := by
  have hclear : (s.clear .out).Alike (t.clear .out) := h.write (.inl rfl) [] 0#64
  have hkeeps : s.Keeps (s.clear .out) := State.clear_keeps (.inl rfl)
  unfold State.hufEncBody
  rw [h.inputLen]
  split
  · rfl
  · dsimp only
    rw [hclear.inputLen]
    refine Agree.bind (State.CodeAlike.encodeSymbols _ (hs.keeps hkeeps.registers)
      ⟨hclear.registers, ⟨rfl, rfl, rfl⟩, Tree.init_similar _ _⟩ ?_) fun u v huv => huv.arbitrate
    change 0 + (s.clear .out).inputLen ≤ (s.clear .out).inputLen
    omega

/-! ### The differential unit -/

/-- The arguments that a command of several stages reads again are those of before. -/
structure State.SameArgs (s t : State) : Prop where
  argW : t.argW = s.argW
  argFlags : t.argFlags = s.argFlags

theorem State.SameArgs.trans {s t u : State} (h : s.SameArgs t) (h' : t.SameArgs u) : s.SameArgs u :=
  ⟨h'.argW.trans h.argW, h'.argFlags.trans h.argFlags⟩

theorem State.wrote.sameArgs {s t a b : State} {sp : Space} (hw : State.wrote sp s t a b) :
    s.SameArgs a ∧ t.SameArgs b := by
  obtain ⟨m, n, rfl, rfl⟩ := hw
  cases sp <;> exact ⟨⟨rfl, rfl⟩, rfl, rfl⟩

theorem State.Alike.diffFwdFrom (k i : Nat) {s t : State} (h : s.Alike t) (hprev : i = 0 ∨ t.prev = s.prev)
    (hik : i + k ≤ s.inputLen) :
    Agree (fun a b => a.Alike b ∧ s.SameArgs a ∧ t.SameArgs b) (State.diffFwdFrom k i s) (State.diffFwdFrom k i t) := by
  induction k generalizing i s t with
  | zero => exact ⟨h, ⟨rfl, rfl⟩, rfl, rfl⟩
  | succ k ih =>
    unfold State.diffFwdFrom
    refine (agree_eq (h.inputByte (by omega))).bind ?_
    rintro x y rfl
    have hdiff : (if i = 0 then y else y - t.prev) = if i = 0 then y else y - s.prev := by
      rcases hprev with rfl | hprev
      · rfl
      · rw [hprev]
    rw [hdiff]
    refine (h.append (.inl rfl) _).bind fun u v huv => ?_
    have hargs := huv.sameArgs
    refine (ih (i + 1) (huv.alike h (.inl rfl)).registers (.inr rfl) ?_).mono fun a b ⟨hab, ha, hb⟩ =>
      ⟨hab, hargs.1.trans ⟨ha.argW, ha.argFlags⟩, hargs.2.trans ⟨hb.argW, hb.argFlags⟩⟩
    change i + 1 + k ≤ u.inputLen
    rw [huv.inputLen (h.reads.ne_written (.inl rfl))]
    omega

theorem State.diffFwdBody_agree {s t : State} (h : s.Alike t) :
    Agree (fun a b => a.Alike b ∧ s.SameArgs a ∧ t.SameArgs b) s.diffFwdBody t.diffFwdBody := by
  have hclear : (s.clear .out).Alike (t.clear .out) := h.write (.inl rfl) [] 0#64
  have hlen : (s.clear .out).inputLen = s.inputLen := (State.clear_keeps (.inl rfl)).inputLen h.reads
  unfold State.diffFwdBody
  rw [h.inputLen]
  refine (hclear.diffFwdFrom s.inputLen 0 (.inl rfl) (by omega)).mono fun a b ⟨hab, ha, hb⟩ => ?_
  exact ⟨hab, ⟨ha.argW, ha.argFlags⟩, hb.argW, hb.argFlags⟩

theorem State.Alike.diffInvFrom (k i : Nat) {s t : State} (h : s.Alike t) (hprev : i = 0 ∨ t.prev = s.prev)
    (hik : i + k ≤ s.inputLen) : Agree State.Alike (State.diffInvFrom k i s) (State.diffInvFrom k i t) := by
  induction k generalizing i s t with
  | zero => exact h
  | succ k ih =>
    unfold State.diffInvFrom
    refine (agree_eq (h.inputByte (by omega))).bind ?_
    rintro x y rfl
    have hsum : (if i = 0 then y else t.prev + y) = if i = 0 then y else s.prev + y := by
      rcases hprev with rfl | hprev
      · rfl
      · rw [hprev]
    dsimp only
    rw [hsum]
    generalize (if i = 0 then y else s.prev + y) = p
    have hnext : State.Alike { s with prev := p } { t with prev := p } := h.registers
    refine (hnext.append (.inl rfl) p).bind fun u v huv => ?_
    have hlen : u.inputLen = s.inputLen := huv.inputLen (h.reads.ne_written (.inl rfl))
    refine ih (i + 1) (huv.alike hnext (.inl rfl)) (.inr ?_) (by omega)
    obtain ⟨m, n, rfl, rfl⟩ := huv
    rfl

theorem State.diffInvBody_agree {s t : State} (h : s.Alike t) : Agree State.Alike s.diffInvBody t.diffInvBody := by
  have hclear : (s.clear .out).Alike (t.clear .out) := h.write (.inl rfl) [] 0#64
  have hlen : (s.clear .out).inputLen = s.inputLen := (State.clear_keeps (.inl rfl)).inputLen h.reads
  unfold State.diffInvBody
  rw [h.inputLen]
  exact hclear.diffInvFrom s.inputLen 0 (.inl rfl) (by omega)

end Sys2Proof.Machine
end

section
/-! PROOF for O39: a command's report is a function of its listed inputs and of `BUF_CAP`. -/

namespace Sys2Proof.Machine

/-! ### Reports (R217) -/

/-- The results that R217 lists for a command are written. -/
structure Results.complete (i : Instr) (r : Results) : Prop where
  outer : i = .hufEnc ∨ i = .compress → r.outer.isSome
  image : i = .rleDec ∨ i = .decompress → r.w.isSome ∧ r.h.isSome ∧ r.flags.isSome
  scan : i = .rleEncH ∨ i = .rleEncV ∨ i = .rleEncA ∨ i = .compress → r.flags.isSome

theorem State.raise_sameReport (i : Instr) (s t : State) (e : Err) : sameReport i (s.raise e) (t.raise e) :=
  ⟨rfl, rfl, rfl, rfl, nofun⟩

theorem State.Alike.finish {s t : State} (h : s.Alike t) {i : Instr} {q r : Results} (hr : r.complete i) (hq : q = r) :
    sameReport i (s.finish r) (t.finish q) := by
  subst hq
  have hflags (hsome : q.flags.isSome) : (s.finish q).resFlags = (t.finish q).resFlags := by
    obtain ⟨f, hf⟩ := Option.isSome_iff_exists.1 hsome
    rw [s.finish_resFlags q f hf, t.finish_resFlags q f hf]
  refine ⟨rfl, rfl, h.outLen.symm, ?_, fun _ => ⟨fun hi => ?_, fun hi => ?_, fun hi => ?_⟩⟩
  · rw [State.finish_output, State.finish_output, h.output]
  · obtain ⟨o, ho⟩ := Option.isSome_iff_exists.1 (hr.outer hi)
    rw [s.finish_resOuter q o ho, t.finish_resOuter q o ho]
  · obtain ⟨hw, hh, hf⟩ := hr.image hi
    obtain ⟨w, hw⟩ := Option.isSome_iff_exists.1 hw
    obtain ⟨x, hx⟩ := Option.isSome_iff_exists.1 hh
    exact ⟨by rw [s.finish_resW q w hw, t.finish_resW q w hw], by rw [s.finish_resH q x hx, t.finish_resH q x hx],
      hflags hf⟩
  · rw [hflags (hr.scan hi)]

/-! ### Commands -/

theorem sameInputs.begin_alike {i : Instr} {s t : State} (h : sameInputs i s t) : s.begin.Alike t.begin := by
  obtain ⟨hcap, hlen, hinput, -, -⟩ := h
  refine ⟨hcap.symm, rfl, rfl, rfl, .inl rfl, .inl rfl, congrArg BitVec.toNat hlen.symm, fun a ha => ?_, rfl, rfl, rfl,
    rfl⟩
  have ha : a < s.inLen.toNat := ha
  have hbyte := congrArg (·[a]?) hinput
  simp only [State.input, State.bytes_getElem?, ← hlen, if_pos ha, Option.some.injEq] at hbyte
  exact hbyte.symm

/-- What the step answers for two runs that end alike. -/
theorem Agree.outcome {i : Instr} {s t s' t' : State} {x y : Run State} (h : Agree (sameReport i) x y)
    (hs : s.outcome x = .next s') (ht : t.outcome y = .next t') : sameReport i s' t' := by
  cases x with
  | ok a =>
    cases y with
    | ok b =>
      cases hs
      cases ht
      exact h
    | error => exact h.elim
  | error e =>
    cases y with
    | ok => exact h.elim
    | error f =>
      obtain rfl : e = f := h
      cases e with
      | err e =>
        cases hs
        cases ht
        exact State.raise_sameReport i s t e
      | fault => cases hs
      | refuse => cases hs

/-- Two runs of a command whose bodies report the same. -/
theorem State.command_agree {i : Instr} {s t s' t' : State} {body : State → Run State} (h : sameInputs i s t)
    (hbody : s.Stage s.begin → s.begin.Alike t.begin → Agree (sameReport i) (body s.begin) (body t.begin))
    (hs : s.command body = .next s') (ht : t.command body = .next t') : sameReport i s' t' := by
  obtain ⟨hcap, hlen, -⟩ := id h
  rcases Nat.lt_or_ge s.bufCap.toNat s.inLen.toNat with hlong | hfit
  · rw [State.command_overlong _ _ hlong] at hs
    rw [State.command_overlong _ _ (by rwa [← hcap, ← hlen])] at ht
    cases hs
    cases ht
    exact State.raise_sameReport i s t _
  · rw [State.command_body _ _ hfit] at hs
    rw [State.command_body _ _ (by rwa [← hcap, ← hlen])] at ht
    exact (hbody (State.begin_stage hfit) h.begin_alike).outcome hs ht

/-- The coded output with its outer byte in front (R229). -/
theorem State.Alike.withOuter {s t : State} (h : s.Alike t) (ho : t.resOuter = s.resOuter) :
    State.Alike { s with outMem := Memory.ofBytes 0 (s.resOuter :: s.output), outLen := s.outLen + 1#64 }
      { t with outMem := Memory.ofBytes 0 (t.resOuter :: t.output), outLen := t.outLen + 1#64 } := by
  have hw := h.write (.inl rfl) (Memory.ofBytes 0 (s.resOuter :: s.output)) (s.outLen + 1#64)
  rwa [show (t.setMem .out (Memory.ofBytes 0 (s.resOuter :: s.output))).setLen .out (s.outLen + 1#64) =
      { t with outMem := Memory.ofBytes 0 (t.resOuter :: t.output), outLen := t.outLen + 1#64 } by
    rw [← ho, ← h.output, ← h.outLen]; rfl] at hw

/-- Two states between the stages of COMPRESS. -/
structure State.ImageReady (s t : State) : Prop where
  alike : s.Alike t
  argW : t.argW = s.argW
  argModel : t.argModel = s.argModel
  argAdaptive : t.argAdaptive = s.argAdaptive

theorem State.ImageReady.compressDiff {s t : State} (h : s.ImageReady t) :
    Agree State.ImageReady s.compressDiff t.compressDiff := by
  obtain ⟨halike, hW, hmodel, hadaptive⟩ := id h
  unfold State.compressDiff
  rw [hmodel]
  split
  · refine (State.diffFwdBody_agree halike).bind fun a b ⟨hab, ha, hb⟩ => ⟨hab.toMid, ?_, ?_, ?_⟩
    · exact hb.argW.trans (hW.trans ha.argW.symm)
    · simpa only [State.argModel, State.toMid_argFlags, ha.argFlags, hb.argFlags] using hmodel
    · simpa only [State.argAdaptive, State.toMid_argFlags, ha.argFlags, hb.argFlags] using hadaptive
  · exact h

theorem State.ImageReady.compressRle {s t : State} (h : s.ImageReady t) (hs : s.Ready) (x : Word) :
    Agree (fun p q => p.1.Alike q.1 ∧ q.2 = p.2) (s.compressRle x) (t.compressRle x) := by
  unfold State.compressRle
  rw [h.argAdaptive, h.argW]
  split
  · exact State.rleEncABody_agree _ x hs h.alike h.argModel
  · exact (State.rleEncBody_agree true _ x hs h.alike h.argModel).bind fun a b hab => ⟨hab, rfl⟩

theorem State.ImageReady.compressCode {r s t : State} (h : s.ImageReady t) (hs : r.Stage s) (x : Word) :
    Agree (sameReport .compress) (s.compressCode x) (t.compressCode x) := by
  refine ((h.compressRle hs.ready x).ends (State.compressRle_ends x hs.ready)).bind fun f g ⟨⟨hfg, hscan⟩, hf⟩ => ?_
  refine (State.hufEncBody_agree (hs.keeps hf).toMid.ready hfg.toMid).bind fun p q ⟨hpq, houter⟩ => ?_
  have hfull : q.bufCap.toNat < 1 + q.outLen.toNat ↔ p.bufCap.toNat < 1 + p.outLen.toNat := by
    rw [hpq.bufCap, hpq.outLen]
  by_cases hcap : p.bufCap.toNat < 1 + p.outLen.toNat
  · rw [if_pos hcap, if_pos (hfull.2 hcap)]
    rfl
  · rw [if_neg hcap, if_neg (mt hfull.1 hcap)]
    exact (hpq.withOuter houter).finish ⟨fun _ => rfl, nofun, fun _ => rfl⟩ (by rw [houter, hscan])

theorem compressBody_agree {r s t : State} (h : s.ImageReady t) (hs : r.Stage s) (hlen : t.inLen = s.inLen) :
    Agree (sameReport .compress) (compressBody s) (compressBody t) := by
  rw [compressBody_eq, compressBody_eq, hlen, h.argW]
  split
  · rfl
  · split
    · rfl
    · exact (h.compressDiff.ends (State.compressDiff_ends hs)).bind fun a b ⟨hab, ha⟩ => hab.compressCode ha _

theorem decompressBody_agree {r s t : State} (h : s.Alike t) (hs : r.Stage s) :
    Agree (sameReport .decompress) (decompressBody s) (decompressBody t) := by
  rw [decompressBody_eq, decompressBody_eq]
  refine ((State.hufDecBody_agree hs.ready h).ends (State.hufDecBody_ends hs.ready)).bind fun f g ⟨hfg, hf⟩ => ?_
  refine (State.rleDecBody_agree (hs.keeps hf).toMid.ready hfg.toMid).bind fun a b ⟨hab, hresults, hmodel⟩ => ?_
  have hdiff : Agree State.Alike a.decompressDiff b.decompressDiff := by
    unfold State.decompressDiff
    rw [hmodel]
    split
    · exact State.diffInvBody_agree hab.toMid
    · exact hab
  exact hdiff.bind fun x y hxy => hxy.finish ⟨nofun, fun _ => ⟨rfl, rfl, rfl⟩, nofun⟩ hresults

/-- A command of one stage, with the results of that stage. -/
theorem stage_command_agree {i : Instr} {s t s' t' : State} (stage : State → Run State) (results : State → Results)
    (hr : ∀ a, (results a).complete i) (h : sameInputs i s t)
    (hstage : s.begin.Ready → s.begin.Alike t.begin →
      Agree (fun a b => a.Alike b ∧ results b = results a) (stage s.begin) (stage t.begin))
    (hs : s.command (fun b => stage b >>= fun a => .ok (a.finish (results a))) = .next s')
    (ht : t.command (fun b => stage b >>= fun a => .ok (a.finish (results a))) = .next t') : sameReport i s' t' :=
  State.command_agree (body := fun b => stage b >>= fun a => .ok (a.finish (results a))) h
    (fun hb hab => (hstage hb.ready hab).bind fun a _ ⟨hab, hsame⟩ => hab.finish (hr a) hsame) hs ht

/-- The encoder commands of one pass (R129, R134). -/
theorem rleEnc_command_agree {i : Instr} {s t s' t' : State} (scan : Bool)
    (hi : i = .rleEncH ∧ scan = true ∨ i = .rleEncV ∧ scan = false) (h : sameInputs i s t)
    (hs : exec i s = .next s') (ht : exec i t = .next t') : sameReport i s' t' := by
  obtain ⟨-, -, -, hrle, -⟩ := id h
  obtain ⟨hW, hH, hmodel⟩ := hrle (hi.imp And.left fun hv => .inl hv.1)
  have hagree := stage_command_agree (i := i) (fun b => State.rleEncBody scan b.argW b.argH b)
    (fun _ => { flags := some (resultFlags false scan) }) (s' := s') (t' := t')
    (fun _ => by rcases hi with ⟨rfl, -⟩ | ⟨rfl, -⟩ <;> exact ⟨nofun, nofun, fun _ => rfl⟩) h fun hb hab => by
      rw [State.begin_argW, State.begin_argH, State.begin_argW, State.begin_argH, ← hW, ← hH]
      exact (State.rleEncBody_agree scan _ _ hb hab hmodel.symm).mono fun _ _ hab => ⟨hab, rfl⟩
  rcases hi with ⟨rfl, rfl⟩ | ⟨rfl, rfl⟩ <;> exact hagree hs ht

theorem rleEncA_agree {s t s' t' : State} (h : sameInputs .rleEncA s t) (hs : exec .rleEncA s = .next s')
    (ht : exec .rleEncA t = .next t') : sameReport .rleEncA s' t' := by
  obtain ⟨-, -, -, hrle, -⟩ := id h
  obtain ⟨hW, hH, hmodel⟩ := hrle (.inr (.inr rfl))
  refine State.command_agree (body := fun b => State.rleEncABody b.argW b.argH b >>= fun p =>
    .ok (p.1.finish { flags := some (resultFlags false p.2) })) h (fun hb hab => ?_) hs ht
  rw [State.begin_argW, State.begin_argH, State.begin_argW, State.begin_argH, ← hW, ← hH]
  refine (State.rleEncABody_agree _ _ hb.ready hab hmodel.symm).bind fun p q ⟨hpq, hscan⟩ => ?_
  exact hpq.finish ⟨nofun, nofun, fun _ => rfl⟩ (by rw [hscan])

theorem exec_agree {i : Instr} {s t s' t' : State} (hi : i.isCommand = true) (h : sameInputs i s t)
    (hs : exec i s = .next s') (ht : exec i t = .next t') : sameReport i s' t' := by
  have hnone {i : Instr} (hi : i = .hufDec ∨ i = .diffFwd ∨ i = .diffInv) (_ : State) : Results.complete i {} := by
    rcases hi with rfl | rfl | rfl <;> exact ⟨nofun, nofun, nofun⟩
  cases i
  case compress =>
    obtain ⟨-, hlen, -, -, hcompress⟩ := id h
    obtain ⟨hW, hmodel, hadaptive⟩ := hcompress rfl
    exact State.command_agree (body := compressBody) h (fun hb hab =>
      compressBody_agree ⟨hab, hW.symm, hmodel.symm, hadaptive.symm⟩ hb hlen.symm) hs ht
  case decompress =>
    exact State.command_agree (body := decompressBody) h (fun hb hab => decompressBody_agree hab hb) hs ht
  case rleEncA => exact rleEncA_agree h hs ht
  case rleEncH => exact rleEnc_command_agree true (.inl ⟨rfl, rfl⟩) h hs ht
  case rleEncV => exact rleEnc_command_agree false (.inr ⟨rfl, rfl⟩) h hs ht
  case rleDec =>
    exact stage_command_agree State.rleDecBody State.rleResults (fun _ => ⟨nofun, fun _ => ⟨rfl, rfl, rfl⟩, nofun⟩) h
      (fun hb hab => (State.rleDecBody_agree hb hab).mono fun _ _ ⟨hab, hsame, _⟩ => ⟨hab, hsame⟩) hs ht
  case hufEnc =>
    exact stage_command_agree State.hufEncBody (fun a => { outer := some a.resOuter })
      (fun _ => ⟨fun _ => rfl, nofun, nofun⟩) h
      (fun hb hab => (State.hufEncBody_agree hb hab).mono fun _ _ ⟨hab, hsame⟩ => ⟨hab, by rw [hsame]⟩) hs ht
  case hufDec =>
    exact stage_command_agree State.hufDecBody (fun _ => {}) (hnone (.inl rfl)) h
      (fun hb hab => (State.hufDecBody_agree hb hab).mono fun _ _ hab => ⟨hab, rfl⟩) hs ht
  case diffFwd =>
    exact stage_command_agree State.diffFwdBody (fun _ => {}) (hnone (.inr (.inl rfl))) h
      (fun _ hab => (State.diffFwdBody_agree hab).mono fun _ _ ⟨hab, _⟩ => ⟨hab, rfl⟩) hs ht
  case diffInv =>
    exact stage_command_agree State.diffInvBody (fun _ => {}) (hnone (.inr (.inr rfl))) h
      (fun _ hab => (State.diffInvBody_agree hab).mono fun _ _ hab => ⟨hab, rfl⟩) hs ht
  all_goals exact absurd hi Bool.false_ne_true

/-- Settles O39: each stage, run from two states that agree on its input, gives related states or the same fault. -/
theorem reportDependsOnInputsOnly : Obligations.ReportDependsOnInputsOnly := by
  intro i s t hi h
  obtain ⟨s', hs, -⟩ := exec_command_ends s hi
  obtain ⟨t', ht, -⟩ := exec_command_ends t hi
  exact ⟨s', t', hs, ht, exec_agree hi h hs ht⟩

end Sys2Proof.Machine
end

section
/-! PROOF for O49: HUF_ENC writes the packed bit stream of its input, or the input itself. -/

namespace Sys2Proof

/-! ### Packed bits (R65, R99) -/

theorem Reference.bitsValue_eq_classBits (bits : List Bool) :
    Reference.bitsValue bits = Reference.classBits (bits.map fun b => (b, 0#8)) := by
  induction bits with
  | nil => rfl
  | cons b bs ih => rw [Reference.bitsValue, List.map_cons, Reference.classBits, ih]

theorem Reference.testBit_bitsValue (bits : List Bool) (i : Nat) :
    (Reference.bitsValue bits).testBit i = bits.getD i false := by
  rw [Reference.bitsValue_eq_classBits, Reference.testBit_classBits, List.getElem?_map, Option.map_map,
    List.getD_eq_getElem?_getD]
  exact congrArg (Option.getD · false) Option.map_id'

/-- The byte that the bits from `n` on are packed into, those after the last counting as 0 (R65, R99). -/
def Reference.packedByte (bits : List Bool) (n : Nat) : Byte :=
  BitVec.ofNat 8 (Reference.bitsValue ((bits.drop n).take 8))

theorem Reference.packedByte_getLsbD (bits : List Bool) (n : Nat) {j : Nat} (hj : j < 8) :
    (Reference.packedByte bits n).getLsbD j = bits.getD (n + j) false := by
  rw [Reference.packedByte, BitVec.getLsbD_ofNat, Reference.testBit_bitsValue, List.getD_eq_getElem?_getD,
    List.getElem?_take_of_lt hj, List.getElem?_drop, List.getD_eq_getElem?_getD, decide_eq_true hj, Bool.true_and]

theorem Reference.packBits_getElem? (fuel : Nat) (bits : List Bool) (h : bits.length ≤ 8 * fuel) (i : Nat) :
    (Reference.packBits fuel bits)[i]? =
      if 8 * i < bits.length then some (Reference.packedByte bits (8 * i)) else none := by
  induction fuel generalizing bits i with
  | zero => rw [if_neg (by omega)]; rfl
  | succ fuel ih =>
    unfold Reference.packBits
    split
    · rw [if_neg (by simp_all)]
      rfl
    · have hpos : 0 < bits.length := List.length_pos_of_ne_nil ‹_›
      cases i with
      | zero => rw [if_pos (by omega)]; rfl
      | succ i =>
        rw [List.getElem?_cons_succ, ih (bits.drop 8) (by rw [List.length_drop]; omega), List.length_drop,
          Reference.packedByte, List.drop_drop]
        by_cases hi : 8 * (i + 1) < bits.length
        · rw [if_pos hi, if_pos (by omega), Reference.packedByte, Nat.mul_succ, Nat.add_comm 8]
        · rw [if_neg hi, if_neg (by omega)]

theorem getD_concat (bits : List Bool) (v : Bool) (i : Nat) :
    (bits ++ [v]).getD i false = (bits.getD i false || (decide (i = bits.length) && v)) := by
  rcases Nat.lt_trichotomy i bits.length with h | rfl | h
  · rw [List.getD_append _ _ _ _ h, decide_eq_false h.ne, Bool.false_and, Bool.or_false]
  · simp
  · rw [List.getD_eq_default _ _ h.le, decide_eq_false h.ne', List.getD_eq_default _ _ (by simpa using h)]
    rfl

namespace Machine

/-! ### The bit writer (R183) -/

/-- The bits written since the writer was at 0: its position, which stays at its last value (log entry 13), and the
bytes of OUT that exist. -/
structure State.Written (s : State) (bits : List Bool) : Prop where
  position : 8 * s.huf.wb.toNat + s.huf.wi.toNat = min bits.length (8 * 2 ^ 64 - 1)
  stored : ∀ a j, a < s.bufCap.toNat → 8 * a < bits.length → j < 8 →
    (s.peek .out a).getLsbD j = bits.getD (8 * a + j) false

/-- The state `t` is `s` but for OUT, the Huffman registers and the tree. -/
def State.Recoded (s t : State) : Prop := { t with outMem := s.outMem, huf := s.huf, tree := s.tree } = s

theorem State.Recoded.trans {s t u : State} (h : s.Recoded t) (h' : t.Recoded u) : s.Recoded u := by
  unfold State.Recoded at *
  exact (congrArg (fun x : State => { x with outMem := s.outMem, huf := s.huf, tree := s.tree }) h').trans h

/-- The input is none of what the encoder writes. -/
theorem State.Recoded.reads {s t : State} (h : s.Recoded t) (hsrc : s.src.readable) :
    t.src = s.src ∧ t.bufCap = s.bufCap ∧ t.inputLen = s.inputLen ∧ t.peek t.src = s.peek s.src := by
  have hread (u : State) (hu : u.src.readable) :
      State.inputLen { u with outMem := s.outMem, huf := s.huf, tree := s.tree } = u.inputLen ∧
        State.peek { u with outMem := s.outMem, huf := s.huf, tree := s.tree } u.src = u.peek u.src := by
    unfold State.inputLen
    rcases hu with hu | hu <;> rw [hu] <;> exact ⟨rfl, rfl⟩
  have hsame : t.src = s.src := (congrArg State.src h :)
  obtain ⟨hlen, hpeek⟩ := hread t (hsame ▸ hsrc)
  rw [h] at hlen hpeek
  exact ⟨hsame, (congrArg State.bufCap h :), hlen.symm, by rw [← hpeek, hsame]⟩

/-- The state `t` is `s` with bits written, the input's cursor being where it was. -/
structure State.Codes (s t : State) : Prop where
  frame : s.Recoded t
  cursor : t.huf.ip = s.huf.ip

theorem State.Codes.refl (s : State) : s.Codes s := ⟨rfl, rfl⟩

theorem State.Codes.trans {s t u : State} (h : s.Codes t) (h' : t.Codes u) : s.Codes u :=
  ⟨h.frame.trans h'.frame, h'.cursor.trans h.cursor⟩

theorem State.Written.retree {s : State} {bits : List Bool} (h : s.Written bits) (u : Tree) :
    State.Written { s with tree := u } bits := ⟨h.position, h.stored⟩

/-- One bit set in a byte. -/
theorem getLsbD_or_bit (old : Byte) (v : Bool) {k j : Nat} (hj : j < 8) :
    (old ||| ((BitVec.ofBool v).setWidth 8 <<< k)).getLsbD j = (old.getLsbD j || (decide (j = k) && v)) := by
  rw [BitVec.getLsbD_or, BitVec.getLsbD_shiftLeft, BitVec.getLsbD_setWidth]
  rcases Nat.lt_trichotomy j k with h | rfl | h
  · simp [h, h.ne]
  · simp [hj]
  · simp [h.ne', Nat.not_lt.2 h.le, Nat.sub_ne_zero_of_lt h]

theorem State.Written.writeBit {s : State} {bits : List Bool} (h : s.Written bits) (v : Bool) :
    ∃ t, s.writeBit v = .ok t ∧ s.Codes t ∧ t.tree = s.tree ∧ t.Written (bits ++ [v]) := by
  obtain ⟨hpos, hstored⟩ := h
  have hcap := s.bufCap.isLt
  have hwi := s.huf.wi.isLt
  have hnext : 8 * s.huf.advance.wb.toNat + s.huf.advance.wi.toNat = min (bits ++ [v]).length (8 * 2 ^ 64 - 1) := by
    rw [List.length_append, List.length_singleton]
    rcases s.huf.advance_position with ⟨hlt, heq⟩ | ⟨hlast, hstay, -⟩
    · omega
    · rw [hstay]
      omega
  rcases Nat.lt_or_ge s.huf.wb.toNat s.bufCap.toNat with hroom | hfull
  · have hcount : 8 * s.huf.wb.toNat + s.huf.wi.toNat = bits.length := by omega
    refine ⟨_, s.writeBit_stored v hroom, ⟨rfl, s.huf.advance_ip⟩, rfl, hnext, fun a j ha hlt hj => ?_⟩
    rw [List.length_append, List.length_singleton] at hlt
    rw [getD_concat]
    by_cases hat : a = s.huf.wb.toNat
    · subst hat
      have hold : (if s.huf.wi = 0#3 then 0#8 else s.peek .out s.huf.wb.toNat).getLsbD j =
          bits.getD (8 * s.huf.wb.toNat + j) false := by
        split
        · have h0 : s.huf.wi.toNat = 0 := congrArg BitVec.toNat ‹_›
          rw [BitVec.getLsbD_zero, List.getD_eq_default _ _ (by omega)]
        · have h0 : s.huf.wi.toNat ≠ 0 := fun e => ‹s.huf.wi ≠ 0#3› (BitVec.eq_of_toNat_eq e)
          exact hstored _ j ha (by omega) hj
      refine (congrArg (·.getLsbD j) (s.peek_setMem_write_same .out _ _)).trans ?_
      rw [getLsbD_or_bit _ _ hj, hold]
      congr 2
      exact decide_eq_decide.2 (by omega)
    · refine (congrArg (·.getLsbD j) (s.peek_setMem_write_other .out _ a _ hat)).trans ?_
      rw [hstored a j ha (by omega) hj, decide_eq_false (by omega), Bool.false_and, Bool.or_false]
  · refine ⟨_, s.writeBit_counted v hfull, ⟨rfl, s.huf.advance_ip⟩, rfl, hnext, fun a j ha hlt hj => ?_⟩
    have ha : a < s.bufCap.toNat := ha
    rw [getD_concat, decide_eq_false (by omega), Bool.false_and, Bool.or_false]
    exact hstored a j ha (by omega) hj

theorem State.Written.writeBits {s : State} {bits : List Bool} (h : s.Written bits) (vs : List Bool) :
    ∃ t, s.writeBits vs = .ok t ∧ s.Codes t ∧ t.tree = s.tree ∧ t.Written (bits ++ vs) := by
  induction vs generalizing s bits with
  | nil => exact ⟨s, rfl, .refl s, rfl, by rwa [List.append_nil]⟩
  | cons v vs ih =>
    obtain ⟨t, ht, hst, htree, hwritten⟩ := h.writeBit v
    obtain ⟨u, hu, htu, hutree, hall⟩ := ih hwritten
    refine ⟨u, ?_, hst.trans htu, hutree.trans htree, by rwa [List.append_assoc] at hall⟩
    simp only [State.writeBits, bind, Except.bind, ht, hu]

theorem State.Written.emitPath {s : State} {bits p : List Bool} {l : Link} (h : s.Written bits)
    (hp : s.tree.path l = some p) :
    ∃ t, s.emitPath l = .ok t ∧ s.Codes t ∧ t.tree = s.tree ∧ t.Written (bits ++ p) := by
  unfold State.emitPath
  rw [hp]
  exact h.writeBits p

/-! ### The encode loop (R184 to R187) -/

theorem State.Written.encodeSymbol {s : State} {done bits : List Bool} {b : Byte} {u : Tree} (h : s.Written done)
    (hcode : Reference.symbolCode s.tree b = some (bits, u)) :
    ∃ t, s.encodeSymbol b = .ok t ∧ s.Codes t ∧ t.tree = u ∧ t.Written (done ++ bits) := by
  unfold Reference.symbolCode at hcode
  unfold State.encodeSymbol
  by_cases hnew : s.tree.symOf b = nilLink
  · rw [if_pos hnew] at hcode ⊢
    obtain ⟨p, hp, hcode⟩ := Option.bind_eq_some_iff.1 hcode
    obtain ⟨r, hr, hcode⟩ := Option.bind_eq_some_iff.1 hcode
    obtain ⟨w, hw, hcode⟩ := Option.bind_eq_some_iff.1 hcode
    cases hcode
    obtain ⟨x, hx, hsx, hxtree, hxbits⟩ := h.emitPath hp
    obtain ⟨y, hy, hxy, hytree, hybits⟩ := (hxbits.retree r.1).writeBits (literalBits b)
    have hretree : x.Codes { x with tree := r.1 } := ⟨rfl, rfl⟩
    refine ⟨{ y with tree := u }, ?_, (hsx.trans hretree).trans (hxy.trans ⟨rfl, rfl⟩), rfl, ?_⟩
    · simp only [bind, Except.bind, hx, hxtree, hr, orCorrupt, State.emitLiteral, hy, hytree, hw]
    · rw [← List.append_assoc]
      exact hybits.retree u
  · rw [if_neg hnew] at hcode ⊢
    obtain ⟨p, hp, hcode⟩ := Option.bind_eq_some_iff.1 hcode
    obtain ⟨w, hw, hcode⟩ := Option.bind_eq_some_iff.1 hcode
    cases hcode
    obtain ⟨x, hx, hsx, hxtree, hxbits⟩ := h.emitPath hp
    refine ⟨{ x with tree := u }, ?_, hsx.trans ⟨rfl, rfl⟩, rfl, hxbits.retree u⟩
    simp only [bind, Except.bind, hx, hxtree, hw, orCorrupt]

theorem State.Written.encodeSymbols (k : Nat) {s : State} {done bits : List Bool} (h : s.Written done)
    (hsrc : s.src.readable) (hfit : s.huf.ip.toNat + k ≤ s.bufCap.toNat)
    (hbits : Reference.streamBits s.tree ((List.range' s.huf.ip.toNat k).map (s.peek s.src)) = some bits) :
    ∃ t, State.encodeSymbols k s = .ok t ∧ t.Written (done ++ bits) ∧ s.Recoded t := by
  induction k generalizing s done bits with
  | zero =>
    cases hbits
    exact ⟨s, rfl, by rwa [List.append_nil], rfl⟩
  | succ k ih =>
    rw [List.range'_succ, List.map_cons] at hbits
    obtain ⟨⟨code, u⟩, hcode, hbits⟩ := Option.bind_eq_some_iff.1 hbits
    obtain ⟨rest, hrest, hbits⟩ := Option.bind_eq_some_iff.1 hbits
    cases hbits
    obtain ⟨t, ht, hst, htree, hwritten⟩ := h.encodeSymbol hcode
    obtain ⟨hsame, hcap, -, hpeek⟩ := hst.frame.reads hsrc
    have hip : (t.huf.ip + 1#64).toNat = s.huf.ip.toNat + 1 := by
      rw [hst.cursor]
      have hlt := s.bufCap.isLt
      bv_omega
    obtain ⟨x, hx, hall, hframe⟩ := ih (s := { t with huf := { t.huf with ip := t.huf.ip + 1#64 } }) (bits := rest)
      ⟨hwritten.position, hwritten.stored⟩ (hsame ▸ hsrc) (by rw [hip, hcap]; omega) (by
        rw [hip, ← hrest, htree, ← hpeek]
        rfl)
    have hnext : s.Recoded { t with huf := { t.huf with ip := t.huf.ip + 1#64 } } := hst.frame
    refine ⟨x, ?_, by rwa [List.append_assoc] at hall, hnext.trans hframe⟩
    simp only [State.encodeSymbols, bind, Except.bind, s.inputByte_eq _ (show s.huf.ip.toNat < _ by omega), ht, hx]

/-! ### Arbitration (R188 to R190) -/

theorem State.copyInput_eq (k i : Nat) (s : State) (hsrc : s.src.readable) (hfit : i + k ≤ s.bufCap.toNat) :
    ∃ m, State.copyInput k i s = .ok { s with outMem := m } ∧
      ∀ a, State.peek { s with outMem := m } .out a = if i ≤ a ∧ a < i + k then s.peek s.src a else s.peek .out a := by
  induction k generalizing i s with
  | zero => exact ⟨s.outMem, rfl, fun a => by rw [if_neg (by omega)]⟩
  | succ k ih =>
    have hw := s.memWrite_eq .out i (s.peek s.src i) (by omega)
    have hkeep : State.peek { s with outMem := s.outMem.write i (s.peek s.src i) } s.src = s.peek s.src := by
      rcases hsrc with h | h <;> rw [h] <;> rfl
    obtain ⟨m, hm, hcopied⟩ := ih (i + 1) { s with outMem := s.outMem.write i (s.peek s.src i) } hsrc (by
      simp only
      omega)
    refine ⟨m, ?_, fun a => (hcopied a).trans ?_⟩
    · simp only [State.copyInput, bind, Except.bind, s.inputByte_eq i (by omega), hw]
      exact hm
    · rw [hkeep]
      by_cases hat : a = i
      · subst hat
        rw [if_neg (by omega), if_pos (by omega)]
        exact s.peek_setMem_write_same .out a _
      · refine (if_congr (by omega) rfl ?_)
        exact s.peek_setMem_write_other .out i a _ hat

/-- The outer byte of a coded payload of `n` bits (R189, R190). -/
theorem codedOuter_eq {wi : BitVec 3} {n : Nat} (h : wi.toNat = n % 8) :
    codedOuter wi = BitVec.ofNat 8 (8 + (8 - n % 8) % 8) := by
  simp [codedOuter, outerByte, padField, h]

/-- OUT holds the packed form of the bits written, when all of it exists. -/
theorem State.Written.bytes {s : State} {bits : List Bool} (h : s.Written bits)
    (hfit : (bits.length + 7) / 8 ≤ s.bufCap.toNat) :
    s.bytes .out ((bits.length + 7) / 8) = Reference.packBits bits.length bits := by
  refine List.ext_getElem? fun i => ?_
  rw [State.bytes_getElem?, Reference.packBits_getElem? _ _ (by omega)]
  by_cases hi : 8 * i < bits.length
  · rw [if_pos hi, if_pos (by omega)]
    refine congrArg some (BitVec.eq_of_getLsbD_eq fun j hj => ?_)
    rw [h.stored i j (by omega) hi hj, Reference.packedByte_getLsbD _ _ hj]
  · rw [if_neg hi, if_neg (by omega)]

theorem State.Written.arbitrate {s : State} {bits : List Bool} (h : s.Written bits) (hs : s.Ready) :
    ∃ t, s.arbitrate = .ok t ∧ (t.resOuter, t.output) = Reference.hufFrame (s.bytes s.src s.inputLen) bits := by
  have hlen : s.inputLen < 2 ^ 64 := (s.len s.src).isLt
  have hinput := hs.input
  have hwi := s.huf.wi.isLt
  have hpos := h.position
  have hsize := s.huf.encSize_eq
  unfold State.arbitrate Reference.hufFrame
  rw [State.bytes_length]
  by_cases hlong : s.inputLen < (bits.length + 7) / 8
  · rw [if_pos hlong, if_pos (by omega)]
    obtain ⟨m, hm, hcopied⟩ := State.copyInput_eq s.inputLen 0 s hs.src (by omega)
    simp only [bind, Except.bind, hm]
    refine ⟨_, rfl, Prod.ext rfl ?_⟩
    have hcount : (BitVec.ofNat 64 s.inputLen).toNat = s.inputLen := by
      rw [BitVec.toNat_ofNat, Nat.mod_eq_of_lt hlen]
    unfold State.output
    dsimp only
    rw [hcount]
    refine State.bytes_congr _ _ _ _ _ fun a ha => (hcopied a).trans ?_
    rw [if_pos (by omega)]
  · have hall : s.huf.encSize = (bits.length + 7) / 8 := by omega
    rw [if_neg hlong, if_neg (by omega), hall]
    have hcount : (BitVec.ofNat 64 ((bits.length + 7) / 8)).toNat = (bits.length + 7) / 8 := by
      rw [BitVec.toNat_ofNat, Nat.mod_eq_of_lt (by omega)]
    refine ⟨_, rfl, Prod.ext (codedOuter_eq (by omega)) ?_⟩
    unfold State.output
    dsimp only
    rw [hcount]
    exact h.bytes (by omega)

/-! ### The command (R181, R187) -/

/-- The state in which the encode loop starts (R187). -/
def State.startCoding (s : State) : State :=
  { s.clear .out with tree := s.tree.init, huf := { s.huf with wb := 0#64, wi := 0#3, ip := 0#64 } }

theorem State.hufEncBody_eq (s : State) :
    s.hufEncBody =
      if s.inputLen = 0 then .error (.err .hufEncEmpty)
      else State.encodeSymbols s.startCoding.inputLen s.startCoding >>= State.arbitrate := rfl

theorem State.startCoding_keeps (s : State) : s.Keeps s.startCoding :=
  (State.clear_keeps (sp := .out) (.inl rfl)).registers

theorem State.startCoding_peek {s : State} (hsrc : s.src.readable) :
    s.startCoding.peek s.startCoding.src = s.peek s.src := by
  change s.startCoding.peek s.src = _
  rcases hsrc with h | h <;> rw [h] <;> rfl

theorem State.startCoding_written (s : State) : s.startCoding.Written [] :=
  ⟨rfl, fun _ _ _ hlt => absurd hlt (Nat.not_lt_zero _)⟩

/-- The Huffman encoder writes the frame of whatever input its stage reads. -/
theorem State.hufEncBody_writes {s : State} {bits : List Bool} (hs : s.Ready) (hne : s.inputLen ≠ 0)
    (hbits : Reference.streamBits s.tree.init (s.bytes s.src s.inputLen) = some bits) :
    ∃ t, s.hufEncBody = .ok t ∧ (t.resOuter, t.output) = Reference.hufFrame (s.bytes s.src s.inputLen) bits := by
  have hready := hs.keeps s.startCoding_keeps
  have hlen := s.startCoding_keeps.inputLen hs.src
  have hpeek := State.startCoding_peek hs.src
  obtain ⟨t, ht, hwritten, hframe⟩ := s.startCoding_written.encodeSymbols s.startCoding.inputLen hready.src
    (by rw [show s.startCoding.huf.ip = 0#64 from rfl, BitVec.toNat_zero, Nat.zero_add]; exact hready.input)
    (by rw [hlen, hpeek, ← hbits, State.bytes, List.range_eq_range']; rfl)
  obtain ⟨hsrc, hcap, hinput, hbyte⟩ := hframe.reads hready.src
  have hdest : t.dest = s.startCoding.dest := (congrArg State.dest hframe :)
  have hready' : t.Ready := ⟨hsrc ▸ hready.src, hdest ▸ hready.dest, by rw [hinput, hcap]; exact hready.input⟩
  obtain ⟨u, hu, hreport⟩ := hwritten.arbitrate hready'
  refine ⟨u, ?_, hreport.trans ?_⟩
  · rw [State.hufEncBody_eq, if_neg hne, ht]
    exact hu
  · rw [hinput, hlen, State.bytes, hbyte, hpeek]
    rfl

/-- HUF_ENC is its engine on the input of the host. -/
theorem exec_hufEnc {s : State} (h : s.inLen.toNat ≤ s.bufCap.toNat) :
    exec .hufEnc s =
      s.outcome (s.begin.hufEncBody >>= fun t => .ok (t.finish { outer := some t.resOuter })) :=
  State.command_body s (fun b => b.hufEncBody >>= fun t => .ok (t.finish { outer := some t.resOuter })) h

/-- Settles O49: the writer holds the bits of the symbols coded so far, and arbitration compares their size with the
input's. -/
theorem hufEncoderWritesTheStream : Obligations.HufEncoderWritesTheStream := by
  intro s bits hne hfit hbits
  obtain ⟨t, ht, hreport⟩ := State.hufEncBody_writes (State.begin_stage hfit).ready (Nat.pos_iff_ne_zero.1 hne) hbits
  refine ⟨t.finish { outer := some t.resOuter }, ?_, t.finish_succeeded _, ?_, (State.output_length _).symm⟩
  · rw [exec_hufEnc hfit, ht]
    rfl
  · rw [State.finish_output, State.finish_resOuter _ _ _ rfl, hreport]
    rfl

end Machine

end Sys2Proof
end

section
/-! PROOFS for O51 and O52: what HUF_ENC reports, and the first symbol of a stream. -/

namespace Sys2Proof

namespace Machine

/-! ### The report of the Huffman encoder (R190, R192) -/

theorem codedOuter_bounds (wi : BitVec 3) : 8 ≤ (codedOuter wi).toNat ∧ (codedOuter wi).toNat ≤ 15 := by
  have hpad := (padField wi).isLt
  have hvalue : (codedOuter wi).toNat = 8 + (padField wi).toNat := by
    simp only [codedOuter, outerByte, BitVec.toNat_ofNat, Bool.toNat_true]
    omega
  omega

/-- The payload is no longer than the input, and the outer byte is one of nine. -/
abbrev State.Arbitrated (n : Nat) (t : State) : Prop :=
  t.outLen.toNat ≤ n ∧ (t.resOuter = 0x00#8 ∨ (8 ≤ t.resOuter.toNat ∧ t.resOuter.toNat ≤ 15))

theorem State.arbitrate_arbitrated {s : State} (hs : s.Ready) : Ends s.arbitrate (State.Arbitrated s.inputLen) := by
  have hcount (n : Nat) : (BitVec.ofNat 64 n).toNat ≤ n := (BitVec.toNat_ofNat ..).trans_le (Nat.mod_le ..)
  unfold State.arbitrate
  split
  · exact (State.copyInput_ends _ 0 hs (by omega)).bind fun t _ => ⟨hcount _, .inl rfl⟩
  · exact ⟨(hcount _).trans (Nat.not_lt.1 ‹_›), .inr (codedOuter_bounds _)⟩

theorem State.hufEncBody_arbitrated {s : State} (hs : s.Ready) :
    Ends s.hufEncBody (State.Arbitrated s.inputLen) := by
  have hready := hs.keeps s.startCoding_keeps
  rw [State.hufEncBody_eq]
  split
  · trivial
  · refine (State.encodeSymbols_ends _ hready (Nat.zero_add _).le).bind fun t ht => ?_
    rw [← s.startCoding_keeps.inputLen hs.src, ← ht.inputLen hready.src]
    exact State.arbitrate_arbitrated (hready.keeps ht)

/-- What a successful HUF_ENC reports is what its engine has arbitrated. -/
theorem exec_hufEnc_arbitrated {s t : State} (h : exec .hufEnc s = .next t) (hok : t.succeeded) :
    State.Arbitrated s.inLen.toNat t := by
  have h : s.command (fun b => b.hufEncBody >>= fun t => .ok (t.finish { outer := some t.resOuter })) = .next t := h
  rcases State.command_next h with ⟨e, rfl⟩ | ⟨hfit, hbody⟩
  · exact absurd (show statusFailed = statusOk from hok.1) (by decide)
  · have hend : Ends (s.begin.hufEncBody >>= fun t => .ok (t.finish { outer := some t.resOuter }))
        (State.Arbitrated s.inLen.toNat) :=
      (State.hufEncBody_arbitrated (State.begin_stage hfit).ready).bind fun u hu => by
        rw [Ends, State.Arbitrated, State.finish_outLen, State.finish_resOuter _ _ _ rfl]
        exact hu
    rw [hbody] at hend
    exact hend

/-! ### The root of a tree (R165 to R168) -/

theorem Tree.findCandidate_root (t : Tree) : t.findCandidate t.root = some t.root := by
  change t.search t.root (512 + 1) [t.root] = _
  rw [Tree.search, if_pos ⟨rfl, le_rfl⟩]

/-- `Update` from the root only counts. -/
theorem Tree.update_root (t : Tree) : t.update t.root = some (Tree.increment { t with unode := t.root }) := by
  have hturn : Tree.updateAt { t with unode := t.root } = some (Tree.increment { t with unode := t.root }) := by
    have hfind : Tree.findCandidate { t with unode := t.root } t.root = some t.root :=
      Tree.findCandidate_root { t with unode := t.root }
    rw [Tree.updateAt_eq, hfind, Option.bind_some, if_neg fun h => h.1 rfl, Option.bind_some]
  change Tree.climb (512 + 1) { t with unode := t.root } = _
  unfold Tree.climb
  rw [hturn]
  exact if_pos rfl

theorem Tree.path_root (t : Tree) : t.path t.root = some [] := by
  change t.pathFrom (512 + 1) t.root [] = _
  rw [Tree.pathFrom, if_pos rfl]

end Machine

namespace Reference

open Machine

/-! ### The first symbol (R164, R186) -/

/-- In a fresh tree the NYT leaf is the root, whose code is empty. -/
theorem symbolCode_init (t : Tree) (b : Byte) :
    ∃ u, symbolCode t.init b = some (literalBits b, u) := by
  have hsplit : t.init.split b = some (t.init.grown b, t.init.nyt) := rfl
  have hpath : t.init.path t.init.nyt = some [] := t.init.path_root
  obtain ⟨u, hu⟩ : ∃ u, (t.init.grown b).update t.init.nyt = some u := ⟨_, (t.init.grown b).update_root⟩
  exact ⟨u, by simp [symbolCode, t.init_symOf, hpath, hsplit, hu]⟩

theorem streamBits_single (t : Tree) (b : Byte) :
    streamBits t.init [b] = some (literalBits b) := by
  obtain ⟨u, hu⟩ := symbolCode_init t b
  simp [streamBits, hu]

/-- The literal's first bit, its most significant, is bit 0 of the packed byte (R66). -/
theorem packedByte_literalBits (b : Byte) {i : Nat} (hi : i < 8) :
    (packedByte (literalBits b) 0).getLsbD i = b.getLsbD (7 - i) := by
  rw [packedByte_getLsbD _ _ hi]
  interval_cases i <;> rfl

/-! ### Outer bytes of the reference (R190, R192) -/

/-- The outer byte of the frame that the reference makes of `bs` (R190). -/
def outerOf (bs : List Byte) : Option Byte :=
  (streamBits Tree.reset.init bs).map fun bits => (hufFrame bs bits).1

/-- Two symbols cost 8 and 9 bits, more than their 2 bytes hold. -/
theorem outerOf_two_symbols : outerOf [0x61#8, 0x62#8] = some 0x00#8 := by decide +kernel

/-- One symbol costs 8 bits, and each repetition 1 bit more. -/
theorem outerOf_one_symbol :
    ∀ pad < 8, outerOf (List.replicate ((8 - pad) % 8 + 1) 0x61#8) = some (BitVec.ofNat 8 (8 + pad)) := by
  decide +kernel

end Reference

namespace Machine

/-! ### Every outer byte occurs (R192) -/

theorem State.feed_input (s : State) {bs : List Byte} (h : bs.length < 2 ^ 64) : (s.feed bs).input = bs := by
  refine List.ext_getElem? fun i => ?_
  rw [State.input, State.bytes_getElem?, State.feed_inLen, BitVec.toNat_ofNat, Nat.mod_eq_of_lt h]
  have hread := Memory.read_ofBytes 0 bs i
  rw [Nat.zero_add] at hread
  split
  · rw [State.peek, State.mem, State.feed_inMem, hread, List.getElem?_eq_getElem ‹_›, Option.getD_some]
  · exact (List.getElem?_eq_none (Nat.not_lt.1 ‹_›)).symm

/-- Written to IN after reset, a byte sequence is coded with the outer byte of the reference. -/
theorem outer_occurs {bs : List Byte} {o : Byte} (hpos : 1 ≤ bs.length) (hfit : bs.length ≤ 16)
    (h : Reference.outerOf bs = some o) :
    ∃ s t : State, exec .hufEnc s = .next t ∧ t.succeeded ∧ t.resOuter = o := by
  obtain ⟨bits, hbits, rfl⟩ := Option.map_eq_some_iff.1 h
  have hinput := State.reset.feed_input (bs := bs) (by omega)
  have hlen : (State.reset.feed bs).inLen.toNat = bs.length := by rw [← State.input_length, hinput]
  obtain ⟨t, ht, hok, hreport, -⟩ := hufEncoderWritesTheStream (State.reset.feed bs) bits (by omega)
    (by rw [hlen]; exact hfit.trans (show 16 ≤ State.reset.bufCap.toNat by decide)) (by rw [hinput]; exact hbits)
  rw [hinput] at hreport
  exact ⟨_, t, ht, hok, congrArg Prod.fst hreport⟩

/-- Settles O51: arbitration bounds the report; one symbol, repeated, shows each outer byte but `00`, which two
symbols show. -/
theorem hufEncoderSizeAndOuterByte : Obligations.HufEncoderSizeAndOuterByte := by
  refine ⟨fun s t h hok => exec_hufEnc_arbitrated h hok, ?_⟩
  rintro o (rfl | ⟨hlow, hhigh⟩)
  · exact outer_occurs (by decide) (by decide) Reference.outerOf_two_symbols
  · have hcoded := Reference.outerOf_one_symbol (o.toNat - 8) (by omega)
    rw [Nat.add_sub_cancel' hlow, BitVec.ofNat_toNat, BitVec.setWidth_eq] at hcoded
    exact outer_occurs (by simp) (by rw [List.length_replicate]; omega) hcoded

/-! ### One input byte (R185) -/

/-- Settles O52: the stream of one symbol is its literal, which one byte holds. -/
theorem oneByteIsStoredBitReversed : Obligations.OneByteIsStoredBitReversed := by
  rintro s b hlen hcap hb
  have hinput : s.input = [b] := by
    rw [State.input, hlen]
    exact congrArg (fun x => [x]) hb
  obtain ⟨t, ht, hok, hreport, hsize⟩ := hufEncoderWritesTheStream s (literalBits b) (by rw [hlen]; decide)
    (by rw [hlen]; exact hcap) (by rw [hinput]; exact Reference.streamBits_single s.tree b)
  have hframe : Reference.hufFrame [b] (literalBits b) =
      (0x08#8, [Reference.packedByte (literalBits b) 0]) := by
    simp [Reference.hufFrame, Reference.packBits, Reference.packedByte, literalBits]
  rw [hinput, hframe] at hreport
  obtain ⟨houter, hout⟩ := Prod.ext_iff.1 hreport
  have hout : t.output = [Reference.packedByte (literalBits b) 0] := hout
  rw [hout] at hsize
  refine ⟨t, ht, hok, houter, BitVec.eq_of_toNat_eq hsize, fun i hi => ?_⟩
  have hbyte : t.peek .out 0 = Reference.packedByte (literalBits b) 0 := by
    rw [State.output, hsize] at hout
    exact List.head_eq_of_cons_eq (show [t.peek .out 0] = _ from hout)
  rw [hbyte, Reference.packedByte_literalBits b hi]

end Machine

end Sys2Proof
end

section
/-! PROOFS for O37 and O60: no command changes what belongs to the host, and a step between commands ends there. -/

namespace Sys2Proof.Machine

/-! ### Operations that may complete -/

/-- If the operation completes, its result has `P`. -/
def Yields {α : Type} (r : Run α) (P : α → Prop) : Prop := ∀ a, r = .ok a → P a

theorem yields_ok {α : Type} {a : α} {P : α → Prop} (h : P a) : Yields (.ok a) P := by
  rintro _ ⟨⟩
  exact h

theorem yields_error {α : Type} {e : Stop} {P : α → Prop} : Yields (.error e) P := nofun

theorem Yields.bind {α β : Type} {r : Run α} {f : α → Run β} {P : α → Prop} {Q : β → Prop} (h : Yields r P)
    (hf : ∀ a, P a → Yields (f a) Q) : Yields (r >>= f) Q := by
  cases r with
  | ok a => exact hf a (h a rfl)
  | error e => exact yields_error

/-- Nothing need be known of the first operation. -/
theorem yields_bind {α β : Type} {r : Run α} {f : α → Run β} {Q : β → Prop} (hf : ∀ a, Yields (f a) Q) :
    Yields (r >>= f) Q :=
  Yields.bind (P := fun _ => True) (fun _ _ => trivial) fun a _ => hf a

theorem Yields.mono {α : Type} {r : Run α} {P Q : α → Prop} (h : Yields r P) (hpq : ∀ a, P a → Q a) : Yields r Q :=
  fun a ha => hpq a (h a ha)

/-! ### What belongs to the host (R75, R217, R252) -/

/-- The registers and the buffer that the host writes, its accesses to come, and `BUF_CAP`. -/
def State.hostView (s : State) : Byte × Word × Word × Byte × Word × Memory × Word × List HostAccess :=
  (s.cmd, s.argW, s.argH, s.argFlags, s.inLen, s.inMem, s.bufCap, s.pending)

/-- Nothing of the host has changed from `s` to `t`, and the encoding pass still writes OUT or OUTB. -/
structure State.HostKept (s t : State) : Prop where
  view : t.hostView = s.hostView
  dest : s.dest.written → t.dest.written

theorem State.HostKept.refl (s : State) : s.HostKept s := ⟨rfl, id⟩

theorem State.HostKept.trans {s t u : State} (h : s.HostKept t) (h' : t.HostKept u) : s.HostKept u :=
  ⟨h'.view.trans h.view, fun hd => h'.dest (h.dest hd)⟩

theorem State.setMem_host {s : State} {sp : Space} (m : Memory) (hsp : sp.written) : s.HostKept (s.setMem sp m) := by
  rcases hsp with rfl | rfl <;> exact ⟨rfl, id⟩

theorem State.setLen_host {s : State} {sp : Space} (n : Word) (hsp : sp.written) : s.HostKept (s.setLen sp n) := by
  rcases hsp with rfl | rfl <;> exact ⟨rfl, id⟩

theorem State.clear_host {s : State} {sp : Space} (hsp : sp.written) : s.HostKept (s.clear sp) :=
  (State.setMem_host [] hsp).trans (State.setLen_host 0#64 hsp)

theorem State.memWrite_host {s : State} {sp : Space} (a : Nat) (v : Byte) (hsp : sp.written) :
    Yields (s.memWrite sp a v) s.HostKept := by
  intro t ht
  obtain ⟨-, rfl, -⟩ := State.memWrite_ok ht
  exact State.setMem_host _ hsp

theorem State.appendAll_host {s : State} {sp : Space} (vs : List Byte) (hsp : sp.written) :
    Yields (s.appendAll sp vs) s.HostKept := by
  intro t ht
  obtain ⟨m, n, rfl⟩ := State.appendAll_frame ht
  exact (State.setMem_host m hsp).trans (State.setLen_host n hsp)

theorem State.append_host {s : State} {sp : Space} (v : Byte) (hsp : sp.written) :
    Yields (s.append sp v) s.HostKept := by
  intro t ht
  obtain ⟨-, rfl, -⟩ := State.append_ok ht
  exact (State.setMem_host _ hsp).trans (State.setLen_host _ hsp)

/-! ### Group packer (R126 to R128) -/

theorem State.flush_host {s : State} (hd : s.dest.written) : Yields s.flush s.HostKept :=
  (State.appendAll_host _ hd).bind fun _ ht => yields_ok ⟨ht.view, ht.dest⟩

theorem State.put_host {s : State} (c : Bool) (b : Byte) (hd : s.dest.written) : Yields (s.put c b) s.HostKept := by
  rw [State.put_eq]
  split
  · exact (State.flush_host (s := s.stage c b) hd).mono fun t ht => ⟨ht.view, ht.dest⟩
  · exact yields_ok ⟨rfl, id⟩

theorem State.putItems_host {s : State} (items : List (Bool × Byte)) (hd : s.dest.written) :
    Yields (s.putItems items) s.HostKept := by
  induction items generalizing s with
  | nil => exact yields_ok (.refl s)
  | cons i is ih => exact (State.put_host i.1 i.2 hd).bind fun t ht => (ih (ht.dest hd)).mono fun u => ht.trans

theorem State.emitRun_host {s : State} (n : Nat) (v : Byte) (hd : s.dest.written) :
    Yields (s.emitRun n v) s.HostKept := by
  rw [State.emitRun_eq_putItems]
  exact State.putItems_host _ hd

theorem State.finalise_host {s : State} (hd : s.dest.written) : Yields s.finalise s.HostKept := by
  unfold State.finalise
  split
  · exact yields_ok (.refl s)
  · refine (State.put_host false Config.padLiteral hd).bind fun t ht => ?_
    split
    · exact yields_ok ht
    · exact (State.flush_host (ht.dest hd)).mono fun u => ht.trans

/-! ### Reconstruction (R146, R148) -/

theorem State.fill_host (a : Nat) (v : Byte) (k : Nat) (s : State) : Yields (State.fill a v k s) s.HostKept := by
  induction k generalizing a s with
  | zero => exact yields_ok (.refl s)
  | succ k ih => exact (State.memWrite_host a v (.inl rfl)).bind fun t ht => (ih (a + 1) t).mono fun u => ht.trans

theorem State.writePixelV_host (s : State) (v : Byte) : Yields (s.writePixelV v) s.HostKept := by
  refine (State.memWrite_host _ v (.inl rfl)).bind fun t ht => ?_
  dsimp only
  split
  · exact yields_ok ⟨ht.view, ht.dest⟩
  · exact yields_ok ⟨ht.view, ht.dest⟩

theorem State.writePixelsV_host (v : Byte) (k : Nat) (s : State) : Yields (State.writePixelsV v k s) s.HostKept := by
  induction k generalizing s with
  | zero => exact yields_ok (.refl s)
  | succ k ih => exact (s.writePixelV_host v).bind fun t ht => (ih t).mono fun u => ht.trans

theorem State.writePair_host (s : State) (count : Nat) (v : Byte) : Yields (s.writePair count v) s.HostKept := by
  unfold State.writePair State.writeV
  split
  · exact (State.fill_host _ v _ s).bind fun t ht => yields_ok ⟨ht.view, ht.dest⟩
  · split
    · exact yields_error
    · exact State.writePixelsV_host v count s

/-! ### Turns of a loop (R125, R143, R200) -/

theorem runSet_host (scan model : Bool) (kw kh : BitVec 3) (s : State) :
    Yields (runSet scan model kw kh s) s.HostKept := by
  unfold runSet
  split
  · exact yields_error
  · exact yields_ok ⟨rfl, id⟩

theorem runDimh_host (k : BitVec 3) (h : Word) (s : State) : Yields (runDimh k h s) s.HostKept := by
  unfold runDimh
  split
  · exact yields_error
  · split
    · exact yields_error
    · exact yields_ok ⟨rfl, id⟩

theorem runLit_host (v : Byte) (s : State) : Yields (runLit v s) s.HostKept :=
  (State.writePair_host { s with dec := { s.dec with rp := s.dec.rp + 1#64, gbit := s.dec.gbit + 1#4 } }
    s.dec.count v).bind fun _ ht => yields_ok ⟨ht.view, ht.dest⟩

theorem runOut_host (reserved : BitVec 4) (huf : Bool) (pad : BitVec 3) (s : State) :
    Yields (runOut reserved huf pad s) s.HostKept := by
  cases huf with
  | false => exact yields_ok ⟨rfl, id⟩
  | true => exact yields_ok ⟨rfl, id⟩

theorem runCode_host (b : Bool) (s : State) : Yields (runCode b s) s.HostKept := by
  unfold runCode
  dsimp only
  generalize (if b then (s.tree.node s.huf.dcur).right else (s.tree.node s.huf.dcur).left) = child
  split
  · exact yields_error
  · exact yields_ok ⟨rfl, id⟩

theorem runEsc_host (v : Byte) (s : State) : Yields (runEsc v s) s.HostKept := by
  unfold runEsc
  split
  · exact yields_error
  · refine (State.append_host v (.inl rfl)).bind fun t ht => yields_bind fun p => yields_bind fun u => ?_
    exact yields_ok ⟨ht.view, ht.dest⟩

theorem runElement_host (i : Instr) {s : State} (hd : s.dest.written) : Yields (runElement i s) s.HostKept := by
  cases i with
  | set scan model kw kh => exact runSet_host scan model kw kh s
  | dimw k w => exact yields_ok ⟨rfl, id⟩
  | dimh k h => exact runDimh_host k h s
  | grp c => exact yields_ok ⟨rfl, id⟩
  | cnt f => exact yields_bind fun d => yields_ok ⟨rfl, id⟩
  | lit v => exact runLit_host v s
  | out reserved huf pad => exact runOut_host reserved huf pad s
  | code b => exact runCode_host b s
  | esc v => exact runEsc_host v s
  | raw x => exact (State.append_host x (.inl rfl)).bind fun t ht => yields_ok ⟨ht.view, ht.dest⟩
  | run1 v => exact State.emitRun_host 1 v hd
  | run2 v => exact State.emitRun_host 2 v hd
  | runn n v => exact State.emitRun_host n.toNat v hd
  | rleEncH | rleEncV | rleEncA | rleDec | hufEnc | hufDec | diffFwd | diffInv | compress | decompress =>
    exact yields_error

theorem State.afterElement_host (s : State) : Yields s.afterElement s.HostKept := by
  unfold State.afterElement
  split
  · split
    · exact yields_bind fun v => yields_ok ⟨rfl, id⟩
    · exact yields_ok ⟨rfl, id⟩
  · exact yields_ok (.refl s)

theorem State.endLoop_host {s : State} (hd : s.dest.written) : Yields s.endLoop s.HostKept := by
  unfold State.endLoop
  split
  · unfold State.endRle
    split
    · exact yields_error
    · exact yields_ok ⟨rfl, id⟩
  · exact (State.finalise_host hd).bind fun t ht => yields_ok ⟨ht.view, ht.dest⟩
  · exact yields_ok ⟨rfl, id⟩

theorem State.take_host {s : State} (n : Turn) (hd : s.dest.written) : Yields (s.take n) s.HostKept := by
  cases n with
  | element i => exact (runElement_host i hd).bind fun t ht => t.afterElement_host.mono fun u => ht.trans
  | extend => exact yields_ok ⟨rfl, id⟩
  | emit =>
    refine (State.append_host _ (.inl rfl)).bind fun t ht => yields_bind fun u => ?_
    exact yields_ok ⟨ht.view, ht.dest⟩
  | stop => exact State.endLoop_host hd

theorem runTurns_host (fuel : Nat) {s : State} (hd : s.dest.written) : Yields (runTurns fuel s) s.HostKept := by
  induction fuel generalizing s with
  | zero =>
    unfold runTurns
    split
    · exact yields_ok (.refl s)
    · exact yields_error
  | succ fuel ih =>
    unfold runTurns
    split
    · exact yields_ok (.refl s)
    · rw [State.turn_eq, bind_assoc]
      exact yields_bind fun n => (State.take_host n hd).bind fun t ht => (ih (ht.dest hd)).mono fun u => ht.trans

/-! ### Stages of a command (R122, R145, R187, R200, R223, R224) -/

theorem State.checkDims_host (s : State) (w h : Word) : Yields (s.checkDims w h) s.HostKept := by
  unfold State.checkDims
  split
  · exact yields_error
  · split
    · exact yields_error
    · exact yields_ok ⟨rfl, id⟩

theorem State.encodePass_host {s : State} (scan : Bool) {dest : Space} (hdest : dest.written) :
    Yields (s.encodePass scan dest) s.HostKept := by
  have hstart : s.HostKept (s.startPass scan dest) :=
    ⟨(State.clear_host hdest).view, fun _ => hdest⟩
  rw [State.encodePass_eq]
  refine (State.appendAll_host _ (show (s.startPass scan dest).dest.written from hdest)).bind fun t ht => ?_
  have hopen : Yields t.openScan t.HostKept := yields_bind fun v => yields_ok ⟨rfl, id⟩
  refine hopen.bind fun u hu => ?_
  have hkept := hstart.trans (ht.trans hu)
  exact (runTurns_host _ (hu.dest (ht.dest hdest))).mono fun x => hkept.trans

theorem State.rleEncBody_host (scan : Bool) (w h : Word) (s : State) :
    Yields (State.rleEncBody scan w h s) s.HostKept :=
  (s.checkDims_host w h).bind fun _ ht => (State.encodePass_host scan (.inl rfl)).mono fun _ => ht.trans

theorem State.rleEncABody_host (w h : Word) (s : State) :
    Yields (State.rleEncABody w h s) fun p => s.HostKept p.1 := by
  refine (s.checkDims_host w h).bind fun t ht => (State.encodePass_host true (.inl rfl)).bind fun a ha => ?_
  refine (State.encodePass_host false (.inr rfl)).bind fun b hb => ?_
  have hkept := (ht.trans ha).trans hb
  split
  · exact yields_ok ⟨hkept.view, hkept.dest⟩
  · exact yields_ok hkept

theorem State.rleDecBody_host {s : State} (hd : s.dest.written) : Yields s.rleDecBody s.HostKept :=
  (runTurns_host _ (s := { s.clear .out with seq := .rleSet }) hd).mono fun _ ht => ⟨ht.view, ht.dest⟩

theorem State.hufDecBody_host {s : State} (hd : s.dest.written) : Yields s.hufDecBody s.HostKept :=
  (runTurns_host _ (s := { s with seq := .hufOuter }) hd).mono fun _ ht => ⟨ht.view, ht.dest⟩

theorem State.diffFwdFrom_host (k i : Nat) (s : State) : Yields (State.diffFwdFrom k i s) s.HostKept := by
  induction k generalizing i s with
  | zero => exact yields_ok (.refl s)
  | succ k ih =>
    refine yields_bind fun x => (State.append_host _ (.inl rfl)).bind fun t ht => ?_
    exact (ih (i + 1) _).mono fun u hu => ht.trans ⟨hu.view, hu.dest⟩

theorem State.diffInvFrom_host (k i : Nat) (s : State) : Yields (State.diffInvFrom k i s) s.HostKept := by
  induction k generalizing i s with
  | zero => exact yields_ok (.refl s)
  | succ k ih =>
    refine yields_bind fun y => (State.append_host _ (.inl rfl)).bind fun t ht => ?_
    exact (ih (i + 1) t).mono fun u hu => State.HostKept.trans ⟨ht.view, ht.dest⟩ hu

theorem State.diffFwdBody_host (s : State) : Yields s.diffFwdBody s.HostKept :=
  (State.diffFwdFrom_host _ 0 _).mono fun _ => (State.clear_host (.inl rfl)).trans

theorem State.diffInvBody_host (s : State) : Yields s.diffInvBody s.HostKept :=
  (State.diffInvFrom_host _ 0 _).mono fun _ => (State.clear_host (.inl rfl)).trans

/-! ### The Huffman encoder (R183 to R190) -/

theorem State.writeBit_host (s : State) (v : Bool) : Yields (s.writeBit v) s.HostKept := by
  rcases Nat.lt_or_ge s.huf.wb.toNat s.bufCap.toNat with hroom | hfull
  · rw [s.writeBit_stored v hroom]
    exact yields_ok ⟨rfl, id⟩
  · rw [s.writeBit_counted v hfull]
    exact yields_ok ⟨rfl, id⟩

theorem State.writeBits_host (s : State) (vs : List Bool) : Yields (s.writeBits vs) s.HostKept := by
  induction vs generalizing s with
  | nil => exact yields_ok (.refl s)
  | cons v vs ih => exact (s.writeBit_host v).bind fun t ht => (ih t).mono fun u => ht.trans

theorem State.encodeSymbol_host (s : State) (b : Byte) : Yields (s.encodeSymbol b) s.HostKept := by
  have hpath (l : Link) : Yields (s.emitPath l) s.HostKept := yields_bind fun bits => s.writeBits_host bits
  unfold State.encodeSymbol
  split
  · refine (hpath _).bind fun t ht => yields_bind fun p => ?_
    refine (State.writeBits_host _ _).bind fun u hu => yields_bind fun tree => yields_ok ?_
    exact ht.trans ⟨hu.view, hu.dest⟩
  · exact (hpath _).bind fun t ht => yields_bind fun tree => yields_ok ⟨ht.view, ht.dest⟩

theorem State.encodeSymbols_host (k : Nat) (s : State) : Yields (State.encodeSymbols k s) s.HostKept := by
  induction k generalizing s with
  | zero => exact yields_ok (.refl s)
  | succ k ih =>
    refine yields_bind fun b => (s.encodeSymbol_host b).bind fun t ht => ?_
    exact (ih _).mono fun u hu => ht.trans ⟨hu.view, hu.dest⟩

theorem State.copyInput_host (k i : Nat) (s : State) : Yields (State.copyInput k i s) s.HostKept := by
  induction k generalizing i s with
  | zero => exact yields_ok (.refl s)
  | succ k ih =>
    refine yields_bind fun b => (State.memWrite_host i b (.inl rfl)).bind fun t ht => ?_
    exact (ih (i + 1) t).mono fun u => ht.trans

theorem State.arbitrate_host (s : State) : Yields s.arbitrate s.HostKept := by
  unfold State.arbitrate
  split
  · exact (State.copyInput_host _ 0 s).bind fun t ht => yields_ok ⟨ht.view, ht.dest⟩
  · exact yields_ok ⟨rfl, id⟩

theorem State.hufEncBody_host (s : State) : Yields s.hufEncBody s.HostKept := by
  rw [State.hufEncBody_eq]
  split
  · exact yields_error
  · refine (State.encodeSymbols_host _ s.startCoding).bind fun t ht => ?_
    exact t.arbitrate_host.mono fun u hu => State.HostKept.trans ⟨ht.view, ht.dest⟩ hu

/-! ### Whole commands (R229, R230) -/

theorem State.compressRle_host (h : Word) (s : State) : Yields (s.compressRle h) fun p => s.HostKept p.1 := by
  unfold State.compressRle
  split
  · exact State.rleEncABody_host _ h s
  · exact (State.rleEncBody_host true _ h s).bind fun t ht => yields_ok ht

theorem State.compressDiff_host (s : State) : Yields s.compressDiff s.HostKept := by
  unfold State.compressDiff
  split
  · exact s.diffFwdBody_host.bind fun d hd => yields_ok ⟨hd.view, hd.dest⟩
  · exact yields_ok (.refl s)

theorem State.compressCode_host (h : Word) (x : State) : Yields (x.compressCode h) x.HostKept := by
  refine (State.compressRle_host h x).bind fun f hf => (State.hufEncBody_host _).bind fun p hp => ?_
  split
  · exact yields_error
  · exact yields_ok ⟨hp.view.trans hf.view, fun _ => .inl rfl⟩

theorem compressBody_host (s : State) : Yields (compressBody s) s.HostKept := by
  rw [compressBody_eq]
  split
  · exact yields_error
  · split
    · exact yields_error
    · exact s.compressDiff_host.bind fun x hx => (State.compressCode_host _ x).mono fun t => hx.trans

theorem decompressBody_host {s : State} (hd : s.dest.written) : Yields (decompressBody s) s.HostKept := by
  rw [decompressBody_eq]
  refine (State.hufDecBody_host hd).bind fun f hf => ?_
  refine (State.rleDecBody_host (s := f.toMid) (hf.dest hd)).bind fun img himg => ?_
  have hdiff : Yields img.decompressDiff img.HostKept := by
    unfold State.decompressDiff
    split
    · exact img.toMid.diffInvBody_host.mono fun x hx => ⟨hx.view, hx.dest⟩
    · exact yields_ok (.refl img)
  exact hdiff.bind fun x hx => yields_ok ⟨hx.view.trans (himg.view.trans hf.view), fun _ => .inl rfl⟩

/-- A command keeps what its body keeps. -/
theorem command_host {s t : State} {body : State → Run State} (hbody : Yields (body s.begin) s.begin.HostKept)
    (h : s.command body = .next t) : t.hostView = s.hostView := by
  rcases State.command_next h with ⟨e, rfl⟩ | ⟨-, ht⟩
  · rfl
  · exact (hbody t ht).view

/-- A command of one stage. -/
theorem stage_command_host {s t : State} {stage : State → Run State} {results : State → Results}
    (hstage : Yields (stage s.begin) s.begin.HostKept)
    (h : s.command (fun b => stage b >>= fun u => .ok (u.finish (results u))) = .next t) : t.hostView = s.hostView :=
  command_host (body := fun b => stage b >>= fun u => .ok (u.finish (results u)))
    (hstage.bind fun _ hu => yields_ok ⟨hu.view, fun _ => .inl rfl⟩) h

theorem exec_command_host {i : Instr} {s t : State} (hi : i.isCommand = true) (h : exec i s = .next t) :
    t.hostView = s.hostView := by
  have hd : s.begin.dest.written := .inl rfl
  cases i
  case compress => exact command_host (compressBody_host _) h
  case decompress => exact command_host (decompressBody_host hd) h
  case rleEncA =>
    refine command_host (body := fun b => State.rleEncABody b.argW b.argH b >>= fun p =>
      .ok (p.1.finish { flags := some (resultFlags false p.2) })) ?_ h
    exact (State.rleEncABody_host _ _ _).bind fun p hp => yields_ok ⟨hp.view, fun _ => .inl rfl⟩
  case rleEncH => exact stage_command_host (State.rleEncBody_host true _ _ _) h
  case rleEncV => exact stage_command_host (State.rleEncBody_host false _ _ _) h
  case rleDec => exact stage_command_host (State.rleDecBody_host hd) h
  case hufEnc => exact stage_command_host (State.hufEncBody_host _) h
  case hufDec => exact stage_command_host (State.hufDecBody_host hd) h
  case diffFwd => exact stage_command_host (State.diffFwdBody_host _) h
  case diffInv => exact stage_command_host (State.diffInvBody_host _) h
  all_goals exact absurd hi Bool.false_ne_true

/-- The end of a command: between commands, with the output alone in OUT. -/
theorem exec_command_closes {i : Instr} {s t : State} (hi : i.isCommand = true) (h : exec i s = .next t) :
    t.seq = .host ∧ t.outMem.within t.outLen.toNat := by
  obtain ⟨u, hu, hend⟩ := exec_command_ends s hi
  obtain rfl : t = u := by
    rw [h] at hu
    injection hu
  rcases hend with ⟨e, rfl⟩ | ⟨u, r, rfl, -⟩
  · exact ⟨rfl, nofun⟩
  · exact ⟨rfl, Memory.below_within _ _⟩

/-- Settles O37: every operation of an engine keeps what belongs to the host, and the end of a command forgets the
rest. -/
theorem commandsKeepTheHostsRegisters : Obligations.CommandsKeepTheHostsRegisters := by
  intro i s t hi h
  have hview := exec_command_host hi h
  obtain ⟨hseq, hout⟩ := exec_command_closes hi h
  simp only [State.hostView, Prod.mk.injEq] at hview
  obtain ⟨hcmd, hw, hh, hflags, hlen, hin, hcap, hpending⟩ := hview
  exact ⟨hcmd, hw, hh, hflags, hlen, hin, hcap, hpending, hseq, hout⟩

/-! ### Steps between commands (R272) -/

theorem State.writeCmd_indivisible {s t : State} {c : Byte} (h : s.writeCmd c = .next t) :
    t.seq = .host ∧ t.bufCap = s.bufCap := by
  unfold State.writeCmd at h
  split at h
  · obtain ⟨-, -, -, -, -, -, hcap, -, hseq, -⟩ :=
      commandsKeepTheHostsRegisters _ _ _ (decode_cmd_isCommand ‹_›) h
    exact ⟨hseq, hcap⟩
  · injection h with h
    subst h
    exact ⟨rfl, rfl⟩

theorem State.access_indivisible {s t : State} (a : HostAccess) (hseq : s.seq = .host) (h : s.access a = .next t) :
    t.seq = .host ∧ t.bufCap = s.bufCap := by
  cases a with
  | writeCmd c => exact State.writeCmd_indivisible h
  | writeIn x b =>
    rcases State.outcome_next h with hw | ⟨e, -, rfl⟩
    · obtain ⟨-, rfl, -⟩ := State.memWrite_ok hw
      exact ⟨hseq, rfl⟩
    · exact ⟨rfl, rfl⟩
  | writeInLen | writeArgW | writeArgH | writeArgFlags =>
    injection h with h
    subst h
    exact ⟨hseq, rfl⟩

/-- Settles O60: the step is nothing, or the host's next access. -/
theorem commandsAreIndivisible : Obligations.CommandsAreIndivisible := by
  intro s t hseq h
  match hpending : s.pending with
  | [] =>
    rw [step_idle hseq hpending] at h
    injection h with h
    subst h
    exact ⟨hseq, rfl⟩
  | a :: rest =>
    rw [step, if_pos hseq, State.hostStep, hpending] at h
    dsimp only at h
    split at h
    · cases h
    · exact State.access_indivisible (s := { s with pending := rest }) a hseq h

end Sys2Proof.Machine
end

section
/-! PROOF for O12: the turns of the encoder's scan as steps. -/

namespace Sys2Proof.Machine

/-! ### What the packer leaves of the scan (R126, R127) -/

/-- The state `t` is `s` with bytes written to the destination and the packer's registers changed. -/
def State.Repacked (s t : State) : Prop := ∃ m n e, t = { (s.setMem s.dest m).setLen s.dest n with enc := e }

theorem State.Repacked.trans {s t u : State} (h : s.Repacked t) (h' : t.Repacked u) : s.Repacked u := by
  obtain ⟨m, n, e, rfl⟩ := h
  obtain ⟨m', n', e', rfl⟩ := h'
  refine ⟨m', n', e', ?_⟩
  simp only [State.setLen_dest, State.setMem_dest]
  cases s.dest <;> rfl

/-- Registers of the packer alone. -/
theorem State.Repacked.registers (s : State) (e : EncRegs) : s.Repacked { s with enc := e } := by
  have hsame (sp : Space) : (s.setMem sp (s.mem sp)).setLen sp (s.len sp) = s := by cases sp <;> rfl
  exact ⟨s.mem s.dest, s.len s.dest, e, by rw [hsame]⟩

theorem State.flush_repacked (s : State) : Yields s.flush s.Repacked := by
  intro t ht
  obtain ⟨u, hu, rfl⟩ := State.flush_ok ht
  obtain ⟨m, n, rfl⟩ := State.appendAll_frame hu
  exact ⟨m, n, _, rfl⟩

theorem State.put_repacked (s : State) (c : Bool) (b : Byte) : Yields (s.put c b) s.Repacked := by
  have hstage : s.Repacked (s.stage c b) := .registers s _
  rw [State.put_eq]
  split
  · exact (s.stage c b).flush_repacked.mono fun t => hstage.trans
  · exact yields_ok hstage

theorem State.putItems_repacked (s : State) (items : List (Bool × Byte)) : Yields (s.putItems items) s.Repacked := by
  induction items generalizing s with
  | nil => exact yields_ok (.registers s s.enc)
  | cons i is ih => exact (s.put_repacked i.1 i.2).bind fun t ht => (ih t).mono fun u => ht.trans

/-- The pixels are none of what the packer writes. -/
theorem State.Repacked.peek {s t : State} (h : s.Repacked t) (hsrc : s.src.readable) (hdest : s.dest.written) :
    t.peek s.src = s.peek s.src := by
  obtain ⟨m, n, e, rfl⟩ := h
  refine funext fun a => ?_
  rw [← s.peek_setMem_space s.dest s.src m a (hsrc.ne_written hdest)]
  exact State.setLen_peek ..

/-- A run form that stays in the scan has put the items of the open run, and the pixels and the scan are as before. -/
theorem exec_runForm_inScan {s t : State} {n : Word} {v : Byte} (hsrc : s.src.readable) (hdest : s.dest.written)
    (h : exec (runForm n v) s = .next t) (hseq : t.seq = .encScan) :
    s.Puts t ∧ t.peek s.src = s.peek s.src := by
  rw [exec_element s (runForm_isCommand n v), runElement_runForm] at h
  rcases State.outcome_next h with h | ⟨e, -, rfl⟩
  · have hputs := State.putItems_ends (Reference.runItems (max 1 n.toNat) v) hdest
    rw [h] at hputs
    exact ⟨hputs, (s.putItems_repacked _ t h).peek hsrc hdest⟩
  · exact nomatch hseq

/-! ### The turns of the scan (R125) -/

/-- The address of the next pixel to visit (R71). -/
abbrev State.scanPlace (s : State) : Nat :=
  scanAddress s.enc.eScan s.enc.eW.toNat s.enc.eH.toNat s.enc.eT.toNat

theorem State.pix_next {s : State} (h : s.scanPlace < s.bufCap.toNat) :
    s.pix s.enc.eT.toNat = .ok (s.peek s.src s.scanPlace) := s.inputByte_eq _ h

theorem State.nextScan_same {s : State} (hmore : s.enc.eT.toNat < s.enc.eN.toNat)
    (hin : s.scanPlace < s.bufCap.toNat) (hcur : s.peek s.src s.scanPlace = s.enc.cur) :
    s.nextScan = .ok .extend := by
  rw [State.nextScan, if_pos hmore, State.pix_next hin]
  exact if_pos hcur

theorem State.nextScan_other {s : State} (hmore : s.enc.eT.toNat < s.enc.eN.toNat)
    (hin : s.scanPlace < s.bufCap.toNat) (hcur : s.peek s.src s.scanPlace ≠ s.enc.cur) :
    s.nextScan = .ok (.element (runForm s.enc.cnt s.enc.cur)) := by
  rw [State.nextScan, if_pos hmore, State.pix_next hin]
  exact if_neg hcur

theorem State.nextScan_end {s : State} (hdone : s.enc.eN.toNat ≤ s.enc.eT.toNat) :
    s.nextScan = .ok (.element (runForm s.enc.cnt s.enc.cur)) := if_neg (Nat.not_lt.2 hdone)

/-- In a scan the step is what the scan selects. -/
theorem step_scan {s : State} {n : Turn} (hseq : s.seq = .encScan) (hn : s.nextScan = .ok n) :
    s.nextTurn = .ok n ∧ step s = s.streamStep := by
  refine ⟨?_, ?_⟩
  · rw [State.nextTurn, hseq]
    exact hn
  · rw [step, if_neg (by rw [hseq]; exact nofun)]

/-- The step of a selected element: the element, and what follows it. -/
theorem step_scan_element {s t : State} {i : Instr} (hseq : s.seq = .encScan) (hn : s.nextScan = .ok (.element i))
    (ht : exec i s = .next t) : step s = t.outcome t.afterElement := by
  obtain ⟨hturn, hstep⟩ := step_scan hseq hn
  rw [hstep, State.streamStep, hturn]
  dsimp only
  rw [ht]

/-- A run that raises has left the scan: nothing follows it. -/
theorem step_scan_raise {s : State} {i : Instr} {e : Err} (hseq : s.seq = .encScan)
    (hn : s.nextScan = .ok (.element i)) (he : exec i s = .next (s.raise e)) : step s = .next (s.raise e) := by
  rw [step_scan_element hseq hn he, State.afterElement, if_neg nofun, State.outcome_ok]

theorem State.afterElement_opens {t : State} (hseq : t.seq = .encScan) (hmore : t.enc.eT.toNat < t.enc.eN.toNat)
    (hin : t.scanPlace < t.bufCap.toNat) :
    t.afterElement = .ok { t with
      enc := { t.enc with cur := t.peek t.src t.scanPlace, cnt := 1#64, eT := t.enc.eT + 1#64 } } := by
  rw [State.afterElement, if_pos hseq, if_pos hmore, State.pix_next hin]
  rfl

theorem State.afterElement_closes {t : State} (hseq : t.seq = .encScan) (hdone : t.enc.eN.toNat ≤ t.enc.eT.toNat) :
    t.afterElement = .ok { t with seq := .encClose } := by
  rw [State.afterElement, if_pos hseq, if_neg (Nat.not_lt.2 hdone)]

/-- Writing a run leaves the scan where it was. -/
theorem State.Puts.place {s t : State} (h : s.Puts t) :
    t.enc.eT = s.enc.eT ∧ t.enc.eN = s.enc.eN ∧ t.scanPlace = s.scanPlace := by
  have hT : t.enc.eT = s.enc.eT := (congrArg EncRegs.eT h.scan :)
  have hN : t.enc.eN = s.enc.eN := (congrArg EncRegs.eN h.scan :)
  have hscan : t.enc.eScan = s.enc.eScan := (congrArg EncRegs.eScan h.scan :)
  have hW : t.enc.eW = s.enc.eW := (congrArg EncRegs.eW h.scan :)
  have hH : t.enc.eH = s.enc.eH := (congrArg EncRegs.eH h.scan :)
  exact ⟨hT, hN, by rw [State.scanPlace, hscan, hW, hH, hT]⟩

/-- Settles O12, by the turn that the scan selects. -/
theorem stepRunsTheOpenRun : Obligations.StepRunsTheOpenRun := by
  rintro s _ hseq hsrc hdest rfl
  refine ⟨fun hmore hin hcur => ?_, fun t ht hstay => ?_, fun e he => ⟨fun hmore hin hcur => ?_, fun hdone => ?_⟩⟩
  · obtain ⟨hturn, hstep⟩ := step_scan hseq (State.nextScan_same hmore hin hcur)
    rw [hstep, State.streamStep, hturn]
    rfl
  · obtain ⟨hputs, hpeek⟩ := exec_runForm_inScan hsrc hdest ht hstay
    obtain ⟨hT, hN, hplace⟩ := hputs.place
    refine ⟨fun hmore hin hcur => ?_, fun hdone => ?_⟩
    · rw [step_scan_element hseq (State.nextScan_other hmore hin hcur) ht,
        State.afterElement_opens hstay (by rwa [hT, hN]) (by rwa [hplace, hputs.keeps.bufCap]), State.outcome_ok,
        hputs.keeps.src, hpeek, hplace, hT]
    · rw [step_scan_element hseq (State.nextScan_end hdone) ht,
        State.afterElement_closes hstay (by rwa [hT, hN]), State.outcome_ok]
  · exact step_scan_raise hseq (State.nextScan_other hmore hin hcur) he
  · exact step_scan_raise hseq (State.nextScan_end hdone) he

end Sys2Proof.Machine
end

section
/-! PROOF for O25: LIT in a vertical frame writes its run down the columns. -/

namespace Sys2Proof.Machine

/-! ### Pixels of a vertical frame (R71, R148) -/

/-- Where pixel `p` of a vertical frame is stored (R71). -/
abbrev DecRegs.placeV (d : DecRegs) (p : Nat) : Nat := scanAddress false d.dW.toNat d.dH.toNat p

/-- The state `t` is `s` with the pixels of the vertical frame up to its cursor written with `v`. -/
structure State.FilledV (s : State) (v : Byte) (t : State) : Prop where
  frame : { t with dec := s.dec, outMem := s.outMem } = s
  registers : { t.dec with written := s.dec.written, vx := s.dec.vx, vy := s.dec.vy } = s.dec
  payload : t.payloadSound
  stored : ∀ p, s.dec.written.toNat ≤ p → p < t.dec.written.toNat → t.peek .out (s.dec.placeV p) = v
  others : ∀ a, (∀ p, s.dec.written.toNat ≤ p → p < t.dec.written.toNat → a ≠ s.dec.placeV p) →
    t.peek .out a = s.peek .out a

theorem State.FilledV.refl {s : State} (v : Byte) (h : s.payloadSound) : s.FilledV v s :=
  ⟨rfl, rfl, h, fun _ hp hp' => absurd hp' (Nat.not_lt.2 hp), fun _ _ => rfl⟩

theorem State.FilledV.placeV {s t : State} {v : Byte} (h : s.FilledV v t) (p : Nat) :
    t.dec.placeV p = s.dec.placeV p := by
  have hW : t.dec.dW = s.dec.dW := (congrArg DecRegs.dW h.registers :)
  have hH : t.dec.dH = s.dec.dH := (congrArg DecRegs.dH h.registers :)
  rw [DecRegs.placeV, hW, hH]

theorem State.FilledV.trans {s t u : State} {v : Byte} (h : s.FilledV v t) (h' : t.FilledV v u)
    (hst : s.dec.written.toNat ≤ t.dec.written.toNat) (htu : t.dec.written.toNat ≤ u.dec.written.toNat) :
    s.FilledV v u where
  frame := by
    have hnext := congrArg (fun x : State => { x with dec := s.dec, outMem := s.outMem }) h'.frame
    exact hnext.trans h.frame
  registers := by
    have hnext := congrArg
      (fun d : DecRegs => { d with written := s.dec.written, vx := s.dec.vx, vy := s.dec.vy }) h'.registers
    exact hnext.trans h.registers
  payload := h'.payload
  stored p hp hp' := by
    by_cases hagain : ∃ q, t.dec.written.toNat ≤ q ∧ q < u.dec.written.toNat ∧ s.dec.placeV p = t.dec.placeV q
    · obtain ⟨q, hq, hq', hplace⟩ := hagain
      rw [hplace]
      exact h'.stored q hq hq'
    · rw [h'.others _ fun q hq hq' hplace => hagain ⟨q, hq, hq', hplace⟩]
      refine h.stored p hp (Nat.lt_of_not_le fun hle => hagain ⟨p, hle, hp', (h.placeV p).symm⟩)
  others a ha := by
    rw [h'.others a fun q hq hq' => h.placeV q ▸ ha q (hst.trans hq) hq',
      h.others a fun q hq hq' => ha q hq (hq'.trans_le htu)]

/-- The cursor's column and row are those of the next pixel. -/
theorem State.payloadSound.cursor {s : State} (h : s.payloadSound) (hscan : s.dec.dScan = false) :
    s.dec.vx.toNat = s.dec.written.toNat / s.dec.dH.toNat ∧
      s.dec.vy.toNat = s.dec.written.toNat % s.dec.dH.toNat := by
  obtain ⟨-, -, -, -, hcursor⟩ := h
  obtain ⟨hat, hy⟩ := hcursor hscan
  have hpos : 0 < s.dec.dH.toNat := (Nat.zero_le _).trans_lt hy
  have hsum : s.dec.vy.toNat + s.dec.dH.toNat * s.dec.vx.toNat = s.dec.written.toNat := by
    rw [hat, Nat.mul_comm, Nat.add_comm]
  obtain ⟨hx, hy⟩ := (Nat.div_mod_unique hpos).2 ⟨hsum, hy⟩
  exact ⟨hx.symm, hy.symm⟩

theorem DecRegs.nextV_frame (d : DecRegs) :
    { d.nextV with written := d.written, vx := d.vx, vy := d.vy } = d := by
  unfold DecRegs.nextV
  split <;> rfl

theorem State.writePixelV_fills {s : State} (v : Byte) (hs : s.payloadSound) (hscan : s.dec.dScan = false)
    (hleft : s.dec.written.toNat < s.dec.dN.toNat) :
    ∃ t, s.writePixelV v = .ok t ∧ s.FilledV v t ∧ t.dec.written.toNat = s.dec.written.toNat + 1 := by
  obtain ⟨hnext, hcount⟩ := State.nextV_payloadSound hs hscan hleft
  obtain ⟨hx, hy⟩ := State.payloadSound.cursor hs hscan
  obtain ⟨-, harea, hfit, -, hcursor⟩ := hs
  obtain ⟨hat, hlt⟩ := hcursor hscan
  have hplace : s.dec.vy.toNat * s.dec.dW.toNat + s.dec.vx.toNat = s.dec.placeV s.dec.written.toNat := by
    rw [hx, hy]
    rfl
  have hin : s.dec.placeV s.dec.written.toNat < s.bufCap.toNat :=
    hplace ▸ (pixel_lt harea hat hlt hleft).2.trans_le hfit
  have hw := s.memWrite_eq .out _ v hin
  obtain ⟨-, -, hpixel, hothers, -⟩ := State.memWrite_ok hw
  have hone {p : Nat} (hp : s.dec.written.toNat ≤ p) (hp' : p < s.dec.nextV.written.toNat) :
      p = s.dec.written.toNat := by omega
  rw [State.writePixelV_eq, hplace, hw]
  refine ⟨_, rfl, ⟨rfl, s.dec.nextV_frame, hnext, fun p hp hp' => ?_, fun a ha => ?_⟩, hcount⟩
  · rw [hone hp hp']
    exact hpixel
  · exact hothers a (ha _ le_rfl (hcount.symm ▸ Nat.lt_succ_self _))

theorem State.writePixelsV_fills (v : Byte) (k : Nat) {s : State} (hs : s.payloadSound) (hscan : s.dec.dScan = false)
    (hleft : s.dec.written.toNat + k ≤ s.dec.dN.toNat) :
    ∃ t, State.writePixelsV v k s = .ok t ∧ s.FilledV v t ∧ t.dec.written.toNat = s.dec.written.toNat + k := by
  induction k generalizing s with
  | zero => exact ⟨s, rfl, .refl v hs, rfl⟩
  | succ k ih =>
    obtain ⟨t, ht, hst, hone⟩ := State.writePixelV_fills v hs hscan (by omega)
    have hN : t.dec.dN = s.dec.dN := (congrArg DecRegs.dN hst.registers :)
    have hdir : t.dec.dScan = s.dec.dScan := (congrArg DecRegs.dScan hst.registers :)
    obtain ⟨u, hu, htu, hall⟩ := ih hst.payload (hdir.trans hscan) (by rw [hN]; omega)
    refine ⟨u, ?_, hst.trans htu (by omega) (by omega), by omega⟩
    simp only [State.writePixelsV, bind, Except.bind, ht, hu]

/-! ### LIT (R92, R143, R250) -/

/-- The state with one payload item taken (R143). -/
abbrev State.takeItem (s : State) : State :=
  { s with dec := { s.dec with rp := s.dec.rp + 1#64, gbit := s.dec.gbit + 1#4 } }

theorem runLit_vertical {s : State} (v : Byte) (hscan : s.dec.dScan = false) :
    runLit v s =
      if s.dec.dN.toNat - s.dec.written.toNat < s.dec.count then .error (.err .rleDecVertOverrun)
      else State.writePixelsV v s.dec.count s.takeItem >>= fun t =>
        .ok { t with dec := { t.dec with acc := 0#64, nfrag := false } } := by
  unfold runLit State.writePair State.writeV
  rw [if_neg (by simp [hscan])]
  split <;> rfl

/-- Settles O25, by induction on the pixels of the run. -/
theorem litWritesAVerticalRun : Obligations.LitWritesAVerticalRun := by
  rintro s v _ hscan hs rfl
  refine ⟨fun hover => ?_, fun hfits => ?_⟩
  · exact congrArg s.outcome ((runLit_vertical v hscan).trans (if_pos hover))
  · obtain ⟨-, -, -, hwritten, -⟩ := id hs
    obtain ⟨t, ht, hfilled, hcount⟩ := State.writePixelsV_fills v s.dec.count (s := s.takeItem) hs hscan
      (by change s.dec.written.toNat + s.dec.count ≤ s.dec.dN.toNat; unfold DecRegs.count; omega)
    have hrun : runLit v s = .ok { t with dec := { t.dec with acc := 0#64, nfrag := false } } := by
      rw [runLit_vertical v hscan, if_neg (by unfold DecRegs.count; omega), ht]
      rfl
    obtain ⟨hframe, hregisters, hpayload, hstored, hothers⟩ := hfilled
    have hdir : t.dec.dScan = s.dec.dScan := (congrArg DecRegs.dScan hregisters :)
    have hH : t.dec.dH = s.dec.dH := (congrArg DecRegs.dH hregisters :)
    have hcursor := State.payloadSound.cursor hpayload (hdir.trans hscan)
    rw [hH] at hcursor
    refine ⟨_, congrArg s.outcome hrun, ?_, ?_, (congrArg DecRegs.rp hregisters :),
      (congrArg DecRegs.gbit hregisters :), rfl, rfl, hcount, hcursor.1, hcursor.2, hstored, hothers⟩
    · exact (congrArg (fun x : State => { x with dec := s.dec }) hframe :)
    · exact (congrArg (fun d : DecRegs => { d with
        rp := s.dec.rp, gbit := s.dec.gbit, acc := s.dec.acc, nfrag := s.dec.nfrag }) hregisters :)

end Sys2Proof.Machine
end

section
/-! PROOFS for O4 and O46: words of the spec, and the length of an RLE frame. -/

namespace Sys2Proof

/-- Settles O4: the decoder, evaluated on each word. -/
theorem wordsOfTheSpecDecode : Obligations.WordsOfTheSpecDecode := by
  unfold Obligations.WordsOfTheSpecDecode
  decide

namespace Reference

/-! ### Items of a run (R78, R91) -/

theorem runItems_length_pos (n : Nat) (v : Byte) : 1 ≤ (runItems n v).length := by
  simp [runItems]

/-- A run is coded in no more items than it has pixels. -/
theorem runItems_length_le {n : Nat} (v : Byte) (h : 1 ≤ n) : (runItems n v).length ≤ n := by
  unfold runItems
  split
  · have := runDigits_length_lt ‹2 ≤ n›
    simpa using this
  · simpa using h

/-- The runs of a pixel sequence, laid out, are as long as it is, and none is empty. -/
theorem runs_lengths (pixels : List Byte) :
    ((runs pixels).map (·.1)).sum = pixels.length ∧ ∀ r ∈ runs pixels, 1 ≤ r.1 := by
  induction pixels with
  | nil => exact ⟨rfl, nofun⟩
  | cons b bs ih =>
    unfold runs
    match hruns : runs bs with
    | [] =>
      rw [hruns] at ih
      have hbs : bs.length = 0 := ih.1.symm
      exact ⟨by simp [hbs], by simp⟩
    | (n, v) :: rs =>
      rw [hruns] at ih
      obtain ⟨hsum, hpos⟩ := ih
      simp only [List.map_cons, List.sum_cons] at hsum
      dsimp only
      split
      · refine ⟨?_, ?_⟩
        · simp only [List.map_cons, List.sum_cons, List.length_cons]
          omega
        · rintro r (_ | ⟨_, hr⟩)
          · exact Nat.le_add_left 1 n
          · exact hpos r (List.mem_cons_of_mem _ hr)
      · refine ⟨?_, ?_⟩
        · simp only [List.map_cons, List.sum_cons, List.length_cons]
          omega
        · rintro r (_ | ⟨_, hr⟩)
          · exact le_rfl
          · exact hpos r hr

/-- The items that a pass's runs produce (R126). -/
abbrev itemsOf (pixels : List Byte) : List (Bool × Byte) := (runs pixels).flatMap fun r => runItems r.1 r.2

/-- There are no more items than pixels. -/
theorem itemsOf_length_le (pixels : List Byte) : (itemsOf pixels).length ≤ pixels.length := by
  obtain ⟨hsum, hpos⟩ := runs_lengths pixels
  rw [List.length_flatMap, ← hsum]
  exact List.sum_le_sum fun r hr => runItems_length_le r.2 (hpos r hr)

theorem itemsOf_length_pos {pixels : List Byte} (h : pixels ≠ []) : 1 ≤ (itemsOf pixels).length := by
  have hsum := (runs_lengths pixels).1
  match hruns : runs pixels with
  | [] =>
    rw [hruns] at hsum
    exact absurd (List.eq_nil_of_length_eq_zero hsum.symm) h
  | r :: rs =>
    rw [itemsOf, hruns, List.flatMap_cons, List.length_append]
    exact (runItems_length_pos r.1 r.2).trans (Nat.le_add_right ..)

/-! ### Length of a frame (R86, R89, R93, R131) -/

theorem fullGroups_rest_length (fuel : Nat) (items : List (Bool × Byte)) (h : items.length ≤ fuel) :
    (fullGroups fuel items).2.length = items.length % 8 := by
  induction fuel generalizing items with
  | zero => simp [fullGroups, Nat.le_zero.1 h]
  | succ fuel ih =>
    unfold fullGroups
    split
    · exact (Nat.mod_eq_of_lt ‹_›).symm
    · dsimp only
      rw [ih (items.drop 8) (by rw [List.length_drop]; omega), List.length_drop]
      omega

/-- Each full group takes a byte more than its items; an open one takes two more, its group byte and the pad item. -/
theorem payload_length (items : List (Bool × Byte)) :
    (payload items).length =
      items.length + (items.length + 7) / 8 + if items.length % 8 ≠ 0 then 1 else 0 := by
  have hgroups := fullGroups_length items.length items le_rfl
  have hrest := fullGroups_rest_length items.length items le_rfl
  unfold payload
  dsimp only
  rw [List.length_append, hgroups]
  split
  · rename_i hnil
    rw [hnil, List.length_nil] at hrest
    rw [if_neg (by omega), List.length_nil]
    omega
  · have hne := List.length_pos_of_ne_nil ‹_›
    rw [if_pos (by omega), groupBytes, List.length_cons, List.length_map, List.length_append, hrest,
      List.length_singleton]
    omega

theorem header_length (scan model : Bool) (w h : Nat) :
    (header scan model w h).length = 1 + byteCount w + byteCount h := by
  simp only [header, List.length_append, List.length_singleton, beBytes_length]

theorem scanOrder_length (scan : Bool) (w h : Nat) (pixels : List Byte) :
    (scanOrder scan w h pixels).length = w * h := by
  simp [scanOrder]

end Reference

/-- Settles O46: header, groups and pad item have the lengths of the formula, and a run has no more items than
pixels. -/
theorem frameLength : Obligations.FrameLength := by
  rintro scan model w h _ pixels hw - hh - rfl
  have hcount := Reference.scanOrder_length scan w h pixels
  have hne : Reference.scanOrder scan w h pixels ≠ [] :=
    List.ne_nil_of_length_pos (hcount.symm ▸ Nat.mul_pos hw hh)
  refine ⟨?_, Reference.itemsOf_length_pos hne, fun _ => (Reference.itemsOf_length_le _).trans_eq hcount⟩
  rw [Reference.rleFrame, List.length_append, Reference.header_length, Reference.payload_length]
  simp only [Nat.add_assoc]

end Sys2Proof
end

section
/-! PROOFS for O1 to O3: the decoder and the encoder undo each other, format by format. -/

namespace Sys2Proof

/-! ### Fields of the two settings bytes (R87, R95) -/

theorem toNat_settingsByte (scan model : Bool) (kw kh : BitVec 3) :
    (settingsByte scan model kw kh).toNat = scan.toNat * 128 + model.toNat * 64 + kw.toNat * 8 + kh.toNat := by
  have hs := scan.toNat_lt
  have hm := model.toNat_lt
  rw [settingsByte, BitVec.toNat_ofNat, Nat.mod_eq_of_lt (by omega)]

theorem toNat_outerByte (reserved : BitVec 4) (huf : Bool) (pad : BitVec 3) :
    (outerByte reserved huf pad).toNat = reserved.toNat * 16 + huf.toNat * 8 + pad.toNat := by
  have hh := huf.toNat_lt
  rw [outerByte, BitVec.toNat_ofNat, Nat.mod_eq_of_lt (by omega)]

/-- A bit of a byte, as a number. -/
theorem toNat_getLsbD (b : Byte) (i : Nat) : (b.getLsbD i).toNat = b.toNat / 2 ^ i % 2 := by
  rw [BitVec.getLsbD, Nat.toNat_testBit]

/-- A field of a byte, as a number. -/
theorem toNat_extractLsb' (b : Byte) (start len : Nat) :
    (b.extractLsb' start len).toNat = b.toNat / 2 ^ start % 2 ^ len := by
  rw [BitVec.extractLsb'_toNat, Nat.shiftRight_eq_div_pow]

theorem bool_eq_of_toNat_eq {a b : Bool} (h : a.toNat = b.toNat) : a = b := by
  revert a b
  decide

theorem decodeSettings_settingsByte (scan model : Bool) (kw kh : BitVec 3) :
    decodeSettings (settingsByte scan model kw kh) = .set scan model kw kh := by
  have hbyte := toNat_settingsByte scan model kw kh
  have hs := scan.toNat_lt
  have hm := model.toNat_lt
  rw [decodeSettings, Instr.set.injEq]
  refine ⟨bool_eq_of_toNat_eq ?_, bool_eq_of_toNat_eq ?_, BitVec.eq_of_toNat_eq ?_, BitVec.eq_of_toNat_eq ?_⟩
  · rw [toNat_getLsbD, hbyte]; omega
  · rw [toNat_getLsbD, hbyte]; omega
  · rw [toNat_extractLsb', hbyte]; omega
  · rw [toNat_extractLsb', hbyte]; omega

theorem settingsByte_fields (b : Byte) :
    settingsByte (b.getLsbD 7) (b.getLsbD 6) (b.extractLsb' 3 3) (b.extractLsb' 0 3) = b := by
  refine BitVec.eq_of_toNat_eq ?_
  rw [toNat_settingsByte, toNat_getLsbD, toNat_getLsbD, toNat_extractLsb', toNat_extractLsb']
  omega

theorem decodeOuter_outerByte (reserved : BitVec 4) (huf : Bool) (pad : BitVec 3) :
    decodeOuter (outerByte reserved huf pad) = .out reserved huf pad := by
  have hbyte := toNat_outerByte reserved huf pad
  have hh := huf.toNat_lt
  rw [decodeOuter, Instr.out.injEq]
  refine ⟨BitVec.eq_of_toNat_eq ?_, bool_eq_of_toNat_eq ?_, BitVec.eq_of_toNat_eq ?_⟩
  · rw [toNat_extractLsb', hbyte]; omega
  · rw [toNat_getLsbD, hbyte]; omega
  · rw [toNat_extractLsb', hbyte]; omega

theorem outerByte_fields (b : Byte) :
    outerByte (b.extractLsb' 4 4) (b.getLsbD 3) (b.extractLsb' 0 3) = b := by
  refine BitVec.eq_of_toNat_eq ?_
  rw [toNat_outerByte, toNat_getLsbD, toNat_extractLsb', toNat_extractLsb']
  omega

/-! ### Literals (R66, R98) -/

/-- The bits of the byte that 8 bits spell are these bits. -/
theorem literalBits_literalValue {bs : List Bool} (h : bs.length = 8) : literalBits (literalValue bs) = bs := by
  match bs, h with
  | [_, _, _, _, _, _, _, _], _ => simp [literalBits, literalValue]

theorem literalBits_injective {v w : Byte} (h : literalBits v = literalBits w) : v = w := by
  simp only [literalBits, List.cons.injEq, and_true] at h
  obtain ⟨h7, h6, h5, h4, h3, h2, h1, h0⟩ := h
  refine BitVec.eq_of_getLsbD_eq fun i hi => ?_
  interval_cases i
  all_goals assumption

theorem literalValue_literalBits (v : Byte) : literalValue (literalBits v) = v :=
  literalBits_injective (literalBits_literalValue rfl)

/-! ### Dimension fields and counters (R16, R88, R91) -/

theorem foldl_bytes (a : Nat) (bs : List Byte) :
    bs.foldl (fun n b => n * 256 + b.toNat) a = a * 256 ^ bs.length + unBE bs := by
  induction bs generalizing a with
  | nil => simp [unBE]
  | cons b bs ih =>
    have hrest := ih b.toNat
    rw [unBE, List.foldl_cons, List.foldl_cons, ih, Nat.zero_mul, Nat.zero_add, hrest, List.length_cons]
    ring

theorem unBE_cons (b : Byte) (bs : List Byte) : unBE (b :: bs) = b.toNat * 256 ^ bs.length + unBE bs := by
  rw [unBE, List.foldl_cons, Nat.zero_mul, Nat.zero_add, foldl_bytes]

theorem unBE_lt (bs : List Byte) : unBE bs < 256 ^ bs.length := by
  induction bs with
  | nil => exact Nat.one_pos
  | cons b bs ih =>
    have hb : b.toNat + 1 ≤ 256 := b.isLt
    rw [unBE_cons, List.length_cons, Nat.pow_succ']
    calc b.toNat * 256 ^ bs.length + unBE bs < (b.toNat + 1) * 256 ^ bs.length := by rw [Nat.succ_mul]; omega
      _ ≤ 256 * 256 ^ bs.length := Nat.mul_le_mul_right _ hb

theorem beBytes_unBE_add (a : Nat) (bs : List Byte) :
    beBytes bs.length (a * 256 ^ bs.length + unBE bs) = bs := by
  induction bs generalizing a with
  | nil => rfl
  | cons b bs ih =>
    have hsplit : a * 256 ^ (bs.length + 1) + unBE (b :: bs) = (a * 256 + b.toNat) * 256 ^ bs.length + unBE bs := by
      rw [unBE_cons]
      ring
    have hdiv : ((a * 256 + b.toNat) * 256 ^ bs.length + unBE bs) / 256 ^ bs.length = a * 256 + b.toNat := by
      rw [Nat.add_comm, Nat.add_mul_div_right _ _ (by positivity), Nat.div_eq_of_lt (unBE_lt bs), Nat.zero_add]
    rw [List.length_cons, beBytes, hsplit, hdiv, ih]
    congr 1
    refine BitVec.eq_of_toNat_eq ?_
    rw [BitVec.toNat_ofNat]
    omega

/-- The bytes of the number that bytes spell are these bytes. -/
theorem beBytes_unBE (bs : List Byte) : beBytes bs.length (unBE bs) = bs := by
  simpa using beBytes_unBE_add 0 bs

/-- A dimension of at most 8 bytes fits its register, fits its field, and is written as these bytes. -/
theorem dimension_written {k : BitVec 3} {bs : List Byte} (h : bs.length = k.toNat + 1) :
    (BitVec.ofNat 64 (unBE bs)).toNat < 256 ^ (k.toNat + 1) ∧
      beBytes (k.toNat + 1) (BitVec.ofNat 64 (unBE bs)).toNat = bs := by
  have hk : k.toNat + 1 ≤ 8 := k.isLt
  have hregister : unBE bs < 2 ^ 64 :=
    calc unBE bs < 256 ^ bs.length := unBE_lt bs
      _ ≤ 256 ^ 8 := Nat.pow_le_pow_right (by decide) (h.trans_le hk)
  rw [BitVec.toNat_ofNat, Nat.mod_eq_of_lt hregister, ← h]
  exact ⟨unBE_lt bs, beBytes_unBE bs⟩

/-- A dimension that fits its field is read back from the field's bytes. -/
theorem ofNat_unBE_beBytes {k : Nat} {w : Word} (h : w.toNat < 256 ^ k) :
    BitVec.ofNat 64 (unBE (beBytes k w.toNat)) = w := by
  rw [unBE_beBytes, Nat.mod_eq_of_lt h, BitVec.ofNat_toNat, BitVec.setWidth_eq]

/-- The length of a run from its counter digits (R92). -/
def digitsLength (digits : List Byte) : Nat := if digits = [] then 1 else unBE digits + 2

theorem decodeRun_append (digits : List Byte) (v : Byte) :
    decodeRun digits.length (digits ++ [v]) =
      if digitsLength digits < 2 ^ 64 then .ok (runForm (BitVec.ofNat 64 (digitsLength digits)) v)
      else .error .counterRange := by
  by_cases hnil : digits = []
  all_goals simp [decodeRun, digitsLength, hnil]

theorem digitsLength_runDigits {n : Nat} (h2 : 2 ≤ n) (hn : n < 2 ^ 64) : digitsLength (runDigits n) = n := by
  have hne : runDigits n ≠ [] := List.ne_nil_of_length_pos (runDigits_length n).1
  rw [digitsLength, if_neg hne, unBE_runDigits hn]
  omega

theorem decodeRun_runDigits {n : Word} (h2 : 2 ≤ n.toNat) (v : Byte) :
    decodeRun (runDigits n.toNat).length (runDigits n.toNat ++ [v]) = .ok (runForm n v) := by
  rw [decodeRun_append, digitsLength_runDigits h2 n.isLt, if_pos n.isLt, BitVec.ofNat_toNat, BitVec.setWidth_eq]

theorem runForm_of_three_le {n : Word} (h : 3 ≤ n.toNat) (v : Byte) : runForm n v = .runn n v := by
  rw [runForm, if_neg (by omega), if_neg (by omega)]

/-- Settles O1, by the format of each instruction. -/
theorem decodeOfEncode : Obligations.DecodeOfEncode := by
  intro i hwf
  cases i with
  | set scan model kw kh => exact congrArg Except.ok (decodeSettings_settingsByte scan model kw kh)
  | dimw k w =>
    have hfit : w.toNat < 256 ^ (k.toNat + 1) := by simpa [Instr.wf] using hwf
    rw [Instr.format, encode, Machine.decode_dw (beBytes_length _ _), ofNat_unBE_beBytes hfit]
  | dimh k h =>
    have hfit : h.toNat < 256 ^ (k.toNat + 1) := by simpa [Instr.wf] using hwf
    rw [Instr.format, encode, Machine.decode_dh (beBytes_length _ _), ofNat_unBE_beBytes hfit]
  | out reserved huf pad => exact congrArg Except.ok (decodeOuter_outerByte reserved huf pad)
  | esc v => rw [Instr.format, encode, Machine.decode_l rfl, literalValue_literalBits]
  | run1 v => exact decodeRun_append [] v
  | run2 v => exact decodeRun_append [0x00#8] v
  | runn n v =>
    have hn : 3 ≤ n.toNat := by simpa [Instr.wf] using hwf
    exact (decodeRun_runDigits (by omega) v).trans (congrArg Except.ok (runForm_of_three_le hn v))
  | grp | cnt | lit | code | raw => rfl
  | rleEncH | rleEncV | rleEncA | rleDec | hufEnc | hufDec | diffFwd | diffInv | compress | decompress => rfl

/-! ### From the written form (R85, R215) -/

/-- A command's code is the only written form of the command (R215). -/
theorem encode_decodeCommand {c : Byte} {i : Instr} (h : decodeCommand c = .ok i) :
    i.wf = true ∧ i.format = .cmd ∧ encode i = .bytes [c] := by
  unfold decodeCommand at h
  split at h
  case h_11 => cases h
  all_goals
    injection h with h
    subst h
    refine ⟨rfl, rfl, congrArg (fun x => Code.bytes [x]) (BitVec.eq_of_toNat_eq ?_)⟩
    exact Eq.symm ‹c.toNat = _›

/-- Settles O2, by the format. -/
theorem encodeOfDecode : Obligations.EncodeOfDecode := by
  intro f c i hrun h
  unfold decode at h
  split at h
  case h_1 b =>
    injection h with h
    subst h
    exact ⟨rfl, rfl, congrArg (fun x => Code.bytes [x]) (settingsByte_fields b)⟩
  case h_2 k bs =>
    split at h
    · injection h with h
      subst h
      obtain ⟨hfit, hbytes⟩ := dimension_written ‹_›
      exact ⟨by simpa [Instr.wf] using hfit, rfl, congrArg Code.bytes hbytes⟩
    · cases h
  case h_3 k bs =>
    split at h
    · injection h with h
      subst h
      obtain ⟨hfit, hbytes⟩ := dimension_written ‹_›
      exact ⟨by simpa [Instr.wf] using hfit, rfl, congrArg Code.bytes hbytes⟩
    · cases h
  case h_7 b =>
    injection h with h
    subst h
    exact ⟨rfl, rfl, congrArg (fun x => Code.bytes [x]) (outerByte_fields b)⟩
  case h_10 bs =>
    split at h
    · injection h with h
      subst h
      exact ⟨rfl, rfl, congrArg Code.bits (literalBits_literalValue ‹_›)⟩
    · cases h
  case h_11 digits bs => exact absurd rfl (hrun digits)
  case h_12 b => exact encode_decodeCommand h
  case h_13 => cases h
  all_goals
    injection h with h
    subst h
    exact ⟨rfl, rfl, rfl⟩

/-- Settles O3: a zero in front adds nothing to the number that the digits spell. -/
theorem leadingZeroDigitsChangeNothing : Obligations.LeadingZeroDigitsChangeNothing := by
  intro digits v hne
  have hlength : digitsLength (0x00#8 :: digits) = digitsLength digits := by
    rw [digitsLength, digitsLength, if_neg (List.cons_ne_nil _ _), if_neg hne, unBE_cons, BitVec.toNat_zero,
      Nat.zero_mul, Nat.zero_add]
  have hzero := decodeRun_append (0x00#8 :: digits) v
  rw [hlength] at hzero
  exact hzero.trans (decodeRun_append digits v).symm

end Sys2Proof
end

section
/-! PROOFS for O8 to O11, O22 to O24 and O30: the steps of the element-by-element view, and GRP, CNT, LIT in a
horizontal frame, and CODE. -/

namespace Sys2Proof

theorem Instr.isCommand_iff (i : Instr) : i.isCommand = true ↔ i.format = .cmd := by
  cases i
  all_goals simp [Instr.isCommand, Instr.format]

/-- A format that a position of a decoder's stream selects (R85). -/
abbrev Format.ofStream (f : Format) : Prop := (∀ k, f ≠ .run k) ∧ f ≠ .cmd

/-- What a format of the streams decodes to is no host command (R85). -/
theorem Format.ofStream.isCommand {f : Format} {c : Code} {i : Instr} (hf : f.ofStream)
    (h : decode f c = .ok i) : i.isCommand = false := by
  obtain ⟨hrun, hcmd⟩ := hf
  obtain ⟨-, hformat, -⟩ := encodeOfDecode f c i hrun h
  refine Bool.eq_false_iff.2 fun hi => hcmd ?_
  rw [← hformat, ← Instr.isCommand_iff]
  exact hi

namespace Machine

/-! ### No element enters the encoder's scan -/

theorem State.fill_seq (a : Nat) (v : Byte) (k : Nat) (s : State) :
    Yields (State.fill a v k s) fun t => t.seq = s.seq := by
  induction k generalizing a s with
  | zero => exact yields_ok rfl
  | succ k ih =>
    refine Yields.bind (P := fun t => t.seq = s.seq) (fun t ht => ?_) fun t ht => ?_
    · obtain ⟨-, rfl, -⟩ := State.memWrite_ok ht
      exact s.setMem_seq ..
    · exact (ih (a + 1) t).mono fun u hu => hu.trans ht

theorem State.writePixelV_seq (s : State) (v : Byte) : Yields (s.writePixelV v) fun t => t.seq = s.seq := by
  intro t ht
  rw [State.writePixelV_eq] at ht
  cases hw : s.memWrite .out (s.dec.vy.toNat * s.dec.dW.toNat + s.dec.vx.toNat) v with
  | error e =>
    rw [hw] at ht
    cases ht
  | ok u =>
    rw [hw] at ht
    cases ht
    obtain ⟨-, rfl, -⟩ := State.memWrite_ok hw
    rfl

theorem State.writePixelsV_seq (v : Byte) (k : Nat) (s : State) :
    Yields (State.writePixelsV v k s) fun t => t.seq = s.seq := by
  induction k generalizing s with
  | zero => exact yields_ok rfl
  | succ k ih => exact (s.writePixelV_seq v).bind fun t ht => (ih t).mono fun u hu => hu.trans ht

theorem State.writePair_seq (s : State) (count : Nat) (v : Byte) :
    Yields (s.writePair count v) fun t => t.seq = s.seq := by
  unfold State.writePair State.writeV
  split
  · exact (State.fill_seq _ v _ s).bind fun t ht => yields_ok ht
  · split
    · exact yields_error
    · exact State.writePixelsV_seq v count s

theorem State.append_seq (s : State) (sp : Space) (v : Byte) : Yields (s.append sp v) fun t => t.seq = s.seq := by
  intro t ht
  obtain ⟨-, rfl, -⟩ := State.append_ok ht
  simp

/-- A run form leaves the position as it is. -/
theorem State.emitRun_seq (s : State) (n : Nat) (v : Byte) : Yields (s.emitRun n v) fun t => t.seq = s.seq := by
  rw [State.emitRun_eq_putItems]
  refine (s.putItems_repacked _).mono ?_
  rintro _ ⟨m, n, e, rfl⟩
  simp

/-- Outside the encoder's scan an element leads to no position in it (R85). -/
theorem runElement_leaves_scan (i : Instr) {s : State} (hseq : s.seq ≠ .encScan) :
    Yields (runElement i s) fun t => t.seq ≠ .encScan := by
  have hstay {t : State} (h : t.seq = s.seq) : t.seq ≠ .encScan := h ▸ hseq
  cases i with
  | set scan model kw kh =>
    dsimp only [runElement, runSet]
    split
    · exact yields_error
    · exact yields_ok nofun
  | dimw k w => exact yields_ok nofun
  | dimh k h =>
    dsimp only [runElement, runDimh]
    split
    · exact yields_error
    · split
      · exact yields_error
      · exact yields_ok nofun
  | grp c => exact yields_ok hseq
  | cnt f => exact yields_bind fun d => yields_ok hseq
  | lit v => exact (State.writePair_seq _ _ v).bind fun t ht => yields_ok (hstay ht)
  | out reserved huf pad =>
    cases huf with
    | false => exact yields_ok nofun
    | true => exact yields_ok nofun
  | code b =>
    dsimp only [runElement, runCode]
    generalize (if b then (s.tree.node s.huf.dcur).right else (s.tree.node s.huf.dcur).left) = child
    split
    · exact yields_error
    · exact yields_ok hseq
  | esc v =>
    dsimp only [runElement, runEsc]
    split
    · exact yields_error
    · exact (s.append_seq .out v).bind fun t ht => yields_bind fun p => yields_bind fun u => yields_ok (hstay ht)
  | raw x => exact (s.append_seq .out x).bind fun t ht => yields_ok (hstay ht)
  | run1 v => exact (s.emitRun_seq 1 v).mono fun t => hstay
  | run2 v => exact (s.emitRun_seq 2 v).mono fun t => hstay
  | runn n v => exact (s.emitRun_seq n.toNat v).mono fun t => hstay
  | rleEncH | rleEncV | rleEncA | rleDec | hufEnc | hufDec | diffFwd | diffInv | compress | decompress =>
    exact yields_error

/-! ### Steps inside a stream (log entry 3) -/

/-- Outside the encoder's scan a selected element is the whole step. -/
theorem step_element {s : State} {i : Instr} (hhost : s.seq ≠ .host) (hscan : s.seq ≠ .encScan)
    (hi : i.isCommand = false) (hn : s.nextTurn = .ok (.element i)) : step s = exec i s := by
  have hleaves := runElement_leaves_scan i hscan
  rw [step, if_neg hhost, State.streamStep, hn]
  dsimp only
  rw [exec_element s hi]
  match hrun : runElement i s with
  | .ok t =>
    change t.outcome t.afterElement = .next t
    rw [State.afterElement, if_neg (hleaves t hrun), State.outcome_ok]
  | .error (.err e) =>
    change (s.raise e).outcome (s.raise e).afterElement = .next (s.raise e)
    rw [State.afterElement, if_neg nofun, State.outcome_ok]
  | .error (.fault f) | .error (.refuse r) => rfl

/-- A selected form that decodes in its format. -/
theorem step_decoded {s : State} {f : Format} {c : Code} {i : Instr} (hhost : s.seq ≠ .host)
    (hscan : s.seq ≠ .encScan) (hf : f.ofStream) (hn : s.nextTurn = elementOf f c)
    (h : decode f c = .ok i) : step s = exec i s :=
  step_element hhost hscan (hf.isCommand h) (hn.trans (elementOf_ok h))

/-- A position that reads the byte at `a` in format `f` (R85). -/
theorem step_byte {s : State} {a : Nat} {f : Format} {i : Instr} (hhost : s.seq ≠ .host) (hscan : s.seq ≠ .encScan)
    (hf : f.ofStream) (ha : a < s.bufCap.toNat)
    (hn : s.nextTurn = s.inputByte a >>= fun b => elementOf f (.bytes [b]))
    (h : decode f (.bytes [s.peek s.src a]) = .ok i) : step s = exec i s := by
  rw [s.inputByte_eq a ha] at hn
  exact step_decoded hhost hscan hf hn h

theorem State.nextTurn_rleSet {s : State} (hseq : s.seq = .rleSet) (h : 0 < s.inputLen) :
    s.nextTurn = s.inputByte 0 >>= fun b => elementOf .s (.bytes [b]) := by
  rw [State.nextTurn, hseq]
  exact if_neg (by omega)

theorem State.nextTurn_rlePayload {s : State} (hseq : s.seq = .rlePayload) (h : s.dec.rp.toNat < s.inputLen)
    (hleft : s.dec.written.toNat < s.dec.dN.toNat) :
    s.nextTurn = s.inputByte s.dec.rp.toNat >>= fun b => elementOf s.dec.format (.bytes [b]) := by
  rw [State.nextTurn, hseq]
  exact if_neg (by omega)

theorem State.nextTurn_hufOuter {s : State} (hseq : s.seq = .hufOuter) (h : 0 < s.inputLen) :
    s.nextTurn = s.inputByte 0 >>= fun b => elementOf .o (.bytes [b]) := by
  rw [State.nextTurn, hseq]
  exact if_neg (by omega)

theorem State.nextTurn_hufRaw {s : State} (hseq : s.seq = .hufRaw) (h : 1 + s.huf.rb.toNat < s.inputLen) :
    s.nextTurn = s.inputByte (1 + s.huf.rb.toNat) >>= fun b => elementOf .x (.bytes [b]) := by
  rw [State.nextTurn, hseq]
  exact if_neg (by unfold State.payloadLen; omega)

/-- Settles O8, by the position. -/
theorem stepRunsTheByteAtTheCursor : Obligations.StepRunsTheByteAtTheCursor := by
  rintro s a f i hin hcap hpos hdec
  have hopen {q : Seq} (h : s.seq = q) (hq : q ≠ .host ∧ q ≠ .encScan) : s.seq ≠ .host ∧ s.seq ≠ .encScan := h ▸ hq
  rcases hpos with ⟨hseq, rfl, rfl⟩ | ⟨hseq, rfl, hleft, rfl⟩ | ⟨hseq, rfl, rfl⟩ | ⟨hseq, rfl, rfl⟩
  · obtain ⟨hhost, hscan⟩ := hopen hseq ⟨nofun, nofun⟩
    exact step_byte hhost hscan (by exact ⟨nofun, nofun⟩) hcap (State.nextTurn_rleSet hseq hin) hdec
  · obtain ⟨hhost, hscan⟩ := hopen hseq ⟨nofun, nofun⟩
    have hformat : s.dec.format.ofStream := by
      unfold DecRegs.format
      split
      · exact ⟨nofun, nofun⟩
      · split
        · exact ⟨nofun, nofun⟩
        · exact ⟨nofun, nofun⟩
    exact step_byte hhost hscan hformat hcap (State.nextTurn_rlePayload hseq hin hleft) hdec
  · obtain ⟨hhost, hscan⟩ := hopen hseq ⟨nofun, nofun⟩
    exact step_byte hhost hscan (by exact ⟨nofun, nofun⟩) hcap (State.nextTurn_hufOuter hseq hin) hdec
  · obtain ⟨hhost, hscan⟩ := hopen hseq ⟨nofun, nofun⟩
    exact step_byte hhost hscan (by exact ⟨nofun, nofun⟩) hcap (State.nextTurn_hufRaw hseq hin) hdec

/-- The size of a dimension field, given back by its register. -/
theorem sizeField_eq {d : BitVec 4} {k : BitVec 3} (h : d.toNat = k.toNat + 1) : (d - 1#4).setWidth 3 = k := by
  bv_omega

/-- Settles O9: the field's size register gives the number of bytes to read. -/
theorem stepRunsTheDimensionFields : Obligations.StepRunsTheDimensionFields := by
  intro s k i a ha
  refine ⟨?_, ?_⟩
  · rintro hseq hsize rfl hdec
    refine step_decoded (hseq ▸ nofun) (hseq ▸ nofun) (by exact ⟨nofun, nofun⟩) ?_ hdec
    rw [State.nextTurn, hseq]
    dsimp only
    rw [sizeField_eq hsize, s.inputBytes_eq 1 (k.toNat + 1) (by omega)]
    rfl
  · rintro hseq hsize rfl hdec
    refine step_decoded (hseq ▸ nofun) (hseq ▸ nofun) (by exact ⟨nofun, nofun⟩) ?_ hdec
    rw [State.nextTurn, hseq]
    dsimp only
    rw [sizeField_eq hsize, s.inputBytes_eq (1 + s.dec.dKw.toNat) (k.toNat + 1) (by omega)]
    rfl

/-! ### The bit reader (R196, R197) -/

/-- Bit `p` of the payload (R65, R196). -/
def State.payloadBit (s : State) (p : Nat) : Bool := (s.peek s.src (1 + p / 8)).getLsbD (p % 8)

/-- The late advance keeps the position and makes it a byte and a bit of that byte. -/
theorem readerAt_position {rb ri : Nat} (hri : ri ≤ 8) :
    (readerAt rb ri).1 = (8 * rb + ri) / 8 ∧ (readerAt rb ri).2 = (8 * rb + ri) % 8 := by
  unfold readerAt
  split
  · dsimp only
    omega
  · dsimp only
    omega

theorem State.peekBit_whole {s : State} {rb ri : Nat} (hri : ri ≤ 8) (hin : s.inputLen ≤ s.bufCap.toNat)
    (h : 8 * rb + ri < 8 * s.payloadLen) : s.peekBit rb ri = .ok (some (s.payloadBit (8 * rb + ri))) := by
  obtain ⟨hbyte, hbit⟩ := readerAt_position (rb := rb) hri
  have hlen : s.payloadLen = s.inputLen - 1 := rfl
  rw [s.peekBit_eq rb ri (by omega) (by omega), hbyte, hbit]
  rfl

theorem State.peekBit_end {s : State} {rb ri : Nat} (hri : ri ≤ 8) (h : 8 * s.payloadLen ≤ 8 * rb + ri) :
    s.peekBit rb ri = .ok none := by
  obtain ⟨hbyte, -⟩ := readerAt_position (rb := rb) hri
  exact if_pos (by omega)

/-- The next `n` bits where the payload has them. -/
theorem State.peekBits_whole {s : State} {rb ri : Nat} (n : Nat) (hri : ri ≤ 8) (hin : s.inputLen ≤ s.bufCap.toNat)
    (h : 8 * rb + ri + n ≤ 8 * s.payloadLen) :
    s.peekBits rb ri n = .ok (some ((List.range' (8 * rb + ri) n).map s.payloadBit)) := by
  induction n generalizing rb ri with
  | zero => rfl
  | succ n ih =>
    obtain ⟨hbyte, hbit⟩ := readerAt_position (rb := rb) hri
    have hnext : 8 * (readerAt rb ri).1 + ((readerAt rb ri).2 + 1) = 8 * rb + ri + 1 := by omega
    have hrest := ih (rb := (readerAt rb ri).1) (ri := (readerAt rb ri).2 + 1) (by omega) (by omega)
    rw [hnext] at hrest
    have hbit := State.peekBit_whole (s := s) (rb := rb) hri hin (by omega)
    simp only [State.peekBits, hbit, bind, Except.bind, hrest]
    rfl

/-- The next `n` bits where the payload ends before them. -/
theorem State.peekBits_short {s : State} {rb ri : Nat} (n : Nat) (hri : ri ≤ 8) (hin : s.inputLen ≤ s.bufCap.toNat)
    (h : 8 * s.payloadLen < 8 * rb + ri + n) (hn : 0 < n) : s.peekBits rb ri n = .ok none := by
  induction n generalizing rb ri with
  | zero => exact absurd hn (Nat.lt_irrefl 0)
  | succ n ih =>
    obtain ⟨hbyte, hbit⟩ := readerAt_position (rb := rb) hri
    rcases Nat.lt_or_ge (8 * rb + ri) (8 * s.payloadLen) with hmore | hend
    · have hrest := ih (rb := (readerAt rb ri).1) (ri := (readerAt rb ri).2 + 1) (by omega) (by omega) (by omega)
      simp only [State.peekBits, State.peekBit_whole hri hin hmore, bind, Except.bind, hrest]
      rfl
    · simp only [State.peekBits, State.peekBit_end hri hend, bind, Except.bind]

theorem step_hufBits {s : State} {i : Instr} (hseq : s.seq = .hufBits) (hi : i.isCommand = false)
    (hn : s.nextHuf = .ok (.element i)) : step s = exec i s := by
  refine step_element (hseq ▸ nofun) (hseq ▸ nofun) hi ?_
  rw [State.nextTurn, hseq]
  exact hn

/-- At an internal node the bit at the cursor is the next code bit. -/
theorem State.nextHuf_code {s : State} {b : Bool} (hend : s.isEnd = false)
    (hnode : s.tree.isInternal s.huf.dcur = true)
    (h : s.peekBit s.huf.rb.toNat s.huf.ri.toNat = .ok (some b)) : s.nextHuf = .ok (.element (.code b)) := by
  rw [State.nextHuf, if_neg (Bool.eq_false_iff.1 hend), if_pos hnode, h]
  rfl

/-- The payload may end at an internal node. -/
theorem State.nextHuf_exhausted {s : State} (hend : s.isEnd = false) (hnode : s.tree.isInternal s.huf.dcur = true)
    (h : s.peekBit s.huf.rb.toNat s.huf.ri.toNat = .ok none) : s.nextHuf = .ok .stop := by
  rw [State.nextHuf, if_neg (Bool.eq_false_iff.1 hend), if_pos hnode, h]
  rfl

/-- At the NYT leaf the next 8 bits are a literal. -/
theorem State.nextHuf_literal {s : State} {bs : List Bool} (hend : s.isEnd = false)
    (hleaf : s.tree.isInternal s.huf.dcur = false) (hnyt : s.huf.dcur = s.tree.nyt) (hlen : bs.length = 8)
    (h : s.peekBits s.huf.rb.toNat s.huf.ri.toNat 8 = .ok (some bs)) :
    s.nextHuf = .ok (.element (.esc (literalValue bs))) := by
  rw [State.nextHuf, if_neg (Bool.eq_false_iff.1 hend), if_neg (Bool.eq_false_iff.1 hleaf), if_pos hnyt, h]
  exact elementOf_ok (decode_l hlen)

/-- The payload may not end within a literal. -/
theorem State.nextHuf_truncated {s : State} (hend : s.isEnd = false) (hleaf : s.tree.isInternal s.huf.dcur = false)
    (hnyt : s.huf.dcur = s.tree.nyt) (h : s.peekBits s.huf.rb.toNat s.huf.ri.toNat 8 = .ok none) :
    s.nextHuf = .error (.err .hufDecTruncLiteral) := by
  rw [State.nextHuf, if_neg (Bool.eq_false_iff.1 hend), if_neg (Bool.eq_false_iff.1 hleaf), if_pos hnyt, h]
  rfl

/-- Settles O10. -/
theorem stepRunsTheCodeBitAtTheCursor : Obligations.StepRunsTheCodeBitAtTheCursor := by
  intro s j k hseq hend hnode hcursor hin hcap
  have hcursor : readerAt s.huf.rb.toNat s.huf.ri.toNat = (j, k) := hcursor.symm
  have hbit := s.peekBit_eq s.huf.rb.toNat s.huf.ri.toNat (by rw [hcursor]; unfold State.payloadLen; omega)
    (by rw [hcursor]; omega)
  rw [hcursor] at hbit
  exact step_hufBits hseq rfl (State.nextHuf_code hend hnode hbit)

/-- Settles O11, by whether the payload has 8 more bits. -/
theorem stepRunsTheLiteralAtTheCursor : Obligations.StepRunsTheLiteralAtTheCursor := by
  intro s hseq hend hleaf hnyt hri hin
  refine ⟨fun hwhole => step_hufBits hseq rfl ?_, fun hshort => ?_⟩
  · have hbits := State.peekBits_whole 8 hri hin hwhole
    rw [List.range'_eq_map_range, List.map_map] at hbits
    exact State.nextHuf_literal hend hleaf hnyt (by simp) hbits
  · have hnext := State.nextHuf_truncated hend hleaf hnyt (State.peekBits_short 8 hri hin hshort (by decide))
    rw [step, if_neg (hseq ▸ nofun), State.streamStep, State.nextTurn, hseq]
    dsimp only
    rw [hnext]
    rfl

/-! ### GRP and CNT (R143, R144) -/

/-- Settles O22. -/
theorem grpOpensAGroup : Obligations.GrpOpensAGroup := fun _ _ => rfl

/-- A fragment shifted into an accumulator whose top byte is free. -/
theorem toNat_shiftIn {acc : Word} (f : Byte) (h : acc.toNat < 2 ^ 56) :
    ((acc <<< 8) ||| f.setWidth 64).toNat = acc.toNat * 256 + f.toNat := by
  have hf : f.toNat < 2 ^ 8 := f.isLt
  have hshift : (acc <<< 8).toNat = acc.toNat <<< 8 := by
    rw [BitVec.toNat_shiftLeft, Nat.shiftLeft_eq, Nat.mod_eq_of_lt (by omega)]
  rw [BitVec.toNat_or, hshift, BitVec.toNat_setWidth_of_le (by decide), ← Nat.shiftLeft_add_eq_or_of_lt hf,
    Nat.shiftLeft_eq]

theorem extract_top_eq_zero (acc : Word) : acc.extractLsb' 56 8 = 0#8 ↔ acc.toNat < 2 ^ 56 := by
  have hacc := acc.isLt
  rw [← BitVec.toNat_inj, BitVec.extractLsb'_toNat, Nat.shiftRight_eq_div_pow, BitVec.toNat_zero]
  omega

theorem DecRegs.accumulate_fits {d : DecRegs} {f : Byte} (h : d.acc.toNat < 2 ^ 56)
    (hfit : d.acc.toNat * 256 + f.toNat ≤ 2 ^ 64 - 3) :
    d.accumulate f = .ok { d with acc := (d.acc <<< 8) ||| f.setWidth 64, nfrag := true } := by
  rw [DecRegs.accumulate, if_neg (not_not.2 ((extract_top_eq_zero d.acc).2 h))]
  exact if_neg (by rw [toNat_shiftIn f h]; omega)

theorem DecRegs.accumulate_overflows {d : DecRegs} {f : Byte}
    (h : 2 ^ 56 ≤ d.acc.toNat ∨ 2 ^ 64 - 3 < d.acc.toNat * 256 + f.toNat) :
    d.accumulate f = .error (.err .rleDecCountOverflow) := by
  unfold DecRegs.accumulate
  split
  · rfl
  · have hlow := (extract_top_eq_zero d.acc).1 (not_not.1 ‹_›)
    exact if_pos (by rw [toNat_shiftIn f hlow]; omega)

theorem exec_cnt (s : State) (f : Byte) :
    exec (.cnt f) s = s.outcome (s.takeItem.dec.accumulate f >>= fun d => .ok { s with dec := d }) := rfl

/-- Settles O23, by the two tests of `Accumulate`. -/
theorem cntAccumulatesOrOverflows : Obligations.CntAccumulatesOrOverflows := by
  refine fun s f => ⟨fun h hfit => ?_, fun h => ?_⟩
  · have hrun := exec_cnt s f
    rw [DecRegs.accumulate_fits (d := s.takeItem.dec) h hfit] at hrun
    exact ⟨_, hrun, rfl, rfl, toNat_shiftIn f h, rfl, rfl, rfl⟩
  · rw [exec_cnt, DecRegs.accumulate_overflows (d := s.takeItem.dec) h]
    rfl

/-! ### LIT in a horizontal frame (R92, R143, R146) -/

theorem runLit_horizontal {s : State} (v : Byte) (hscan : s.dec.dScan = true) :
    runLit v s = s.takeItem.writeH s.dec.count v >>= fun t =>
      .ok { t with dec := { t.dec with acc := 0#64, nfrag := false } } := by
  unfold runLit State.writePair
  rw [if_pos hscan]

/-- What the horizontal reconstruction stores, and where it leaves the count of pixels. -/
theorem State.writeH_ok {s : State} (count : Nat) (v : Byte) (hwritten : s.dec.written.toNat ≤ s.dec.dN.toNat)
    (hfit : s.dec.dN.toNat ≤ s.bufCap.toNat) :
    ∃ m w, s.writeH count v = .ok { s with outMem := m, dec := { s.dec with written := w } } ∧
      w.toNat = s.dec.written.toNat + min count (s.dec.dN.toNat - s.dec.written.toNat) ∧
      ∀ a, Memory.read m a =
        if s.dec.written.toNat ≤ a ∧ a < w.toNat then some v else Memory.read s.outMem a := by
  have hcap := s.bufCap.isLt
  obtain ⟨m, hm, hread⟩ := s.fill_ok s.dec.written.toNat v (min count (s.dec.dN.toNat - s.dec.written.toNat))
    (by omega)
  have hcount : (s.dec.written + BitVec.ofNat 64 (min count (s.dec.dN.toNat - s.dec.written.toNat))).toNat =
      s.dec.written.toNat + min count (s.dec.dN.toNat - s.dec.written.toNat) := by
    rw [BitVec.toNat_add, BitVec.toNat_ofNat, Nat.add_mod_mod, Nat.mod_eq_of_lt (by omega)]
  refine ⟨m, _, ?_, hcount, fun a => ?_⟩
  · rw [State.writeH]
    dsimp only
    rw [hm]
    rfl
  · rw [hcount]
    exact hread a

/-- Settles O24, from what the horizontal reconstruction stores. -/
theorem litWritesAHorizontalRun : Obligations.LitWritesAHorizontalRun := by
  intro s v hscan hwritten hfit
  obtain ⟨m, w, hw, hcount, hread⟩ := State.writeH_ok (s := s.takeItem) s.dec.count v hwritten hfit
  have hrun : exec (.lit v) s = s.outcome (runLit v s) := rfl
  rw [runLit_horizontal v hscan, hw] at hrun
  refine ⟨_, hrun, rfl, rfl, rfl, rfl, rfl, rfl, hcount, fun a hlow hhigh => ?_, fun a hout => ?_⟩
  · simp only [State.peek, State.mem, hread, if_pos (And.intro hlow hhigh), Option.getD_some]
  · have hnot : ¬ (s.dec.written.toNat ≤ a ∧ a < w.toNat) := by
      change a < _ ∨ w.toNat ≤ a at hout
      omega
    simp only [State.peek, State.mem, hread, if_neg hnot]

/-! ### CODE (R97, R196, R203) -/

/-- The child that a code bit names (R97). -/
abbrev Tree.child (t : Tree) (l : Link) (b : Bool) : Link := if b then (t.node l).right else (t.node l).left

theorem runCode_absent {s : State} {b : Bool} (h : s.tree.child s.huf.dcur b = nilLink) :
    runCode b s = .error (.err .hufDecAbsentChild) := if_pos h

theorem runCode_present {s : State} {b : Bool} (h : s.tree.child s.huf.dcur b ≠ nilLink) :
    runCode b s = .ok { s with huf := { s.huf.takeBit with dcur := s.tree.child s.huf.dcur b } } := if_neg h

/-- The reader's registers but its position and the node reached. -/
theorem HufRegs.takeBit_frame (h : HufRegs) : { h.takeBit with rb := h.rb, ri := h.ri } = h := by
  unfold HufRegs.takeBit
  split <;> rfl

/-- Settles O30. -/
theorem codeDescendsOneStep : Obligations.CodeDescendsOneStep := by
  rintro s b _ rfl
  refine ⟨fun h => congrArg s.outcome (runCode_absent h), fun h hri hrb => ?_⟩
  obtain ⟨hnext, hlow, hhigh⟩ := s.huf.takeBit_position hri hrb
  have hframe := congrArg (fun k : HufRegs => { k with dcur := s.huf.dcur }) s.huf.takeBit_frame
  exact ⟨_, congrArg s.outcome (runCode_present h), rfl, hnext, hlow, hhigh, rfl, hframe⟩

end Machine

end Sys2Proof
end

section
/-! SUPPORT for O32 and O53: the form of a valid Huffman tree apart from its weights, and the search for a candidate. -/

namespace Sys2Proof.Machine

/-! ### The form of a valid tree (R160 to R163, R170, R171) -/

/-- The parent of a slot. -/
abbrev Tree.up (t : Tree) (l : Link) : Link := (t.node l).parent

/-- What `Tree.Valid` says of everything but the weights, `d` being the depth of each slot. -/
structure Tree.Formed (t : Tree) (d : Link → Nat) : Prop where
  size : t.nnodes.toNat = 1 + 2 * t.seen
  root_slot : t.root = 0#10
  root_parent : t.up t.root = nilLink
  nyt_live : t.live t.nyt
  nyt_leaf : (t.node t.nyt).left = nilLink ∧ (t.node t.nyt).right = nilLink
  children : ∀ l, t.live l →
    ((t.node l).left = nilLink ∧ (t.node l).right = nilLink) ∨
    (t.live (t.node l).left ∧ t.live (t.node l).right ∧ (t.node l).left ≠ (t.node l).right ∧
      t.up (t.node l).left = l ∧ t.up (t.node l).right = l)
  parents : ∀ l, t.live l → l ≠ t.root →
    t.live (t.up l) ∧ ((t.node (t.up l)).left = l ∨ (t.node (t.up l)).right = l)
  depth_root : d t.root = 0
  depth_up : ∀ l, t.live l → l ≠ t.root → d l = d (t.up l) + 1
  index_range : ∀ l, t.live l → 514 - t.nnodes.toNat ≤ t.indexOf l ∧ t.indexOf l ≤ 513
  index_unique : ∀ l m, t.live l → t.live m → t.indexOf l = t.indexOf m → l = m
  nyt_index : t.indexOf t.nyt = 514 - t.nnodes.toNat
  siblings : ∀ l, t.live l → t.isInternal l = true → t.indexOf (t.node l).right = t.indexOf (t.node l).left + 1
  sym_leaf : ∀ b, t.symOf b ≠ nilLink →
    t.live (t.symOf b) ∧ t.symOf b ≠ t.nyt ∧ t.isInternal (t.symOf b) = false ∧ (t.node (t.symOf b)).value = b
  leaf_sym : ∀ l, t.live l → l ≠ t.nyt → t.isInternal l = false → t.symOf (t.node l).value = l

theorem Tree.Valid.formed {t : Tree} {n : Nat} (h : t.Valid n) : ∃ d, t.Formed d := by
  obtain ⟨d, hroot, hup⟩ := h.rooted
  exact ⟨d, h.size, h.root_slot, h.root_parent, h.nyt_live, h.nyt_leaf, h.children, h.parents, hroot, hup,
    h.index_range, h.index_unique, h.nyt_index, h.siblings, h.sym_leaf, h.leaf_sym⟩

theorem Tree.seen_le (t : Tree) : t.seen ≤ 256 :=
  List.countP_le_length.trans_eq (List.length_range)

theorem Tree.isInternal_iff (t : Tree) (l : Link) : t.isInternal l = true ↔ (t.node l).left ≠ nilLink := by
  simp [Tree.isInternal]

theorem Tree.isInternal_eq_false_iff (t : Tree) (l : Link) : t.isInternal l = false ↔ (t.node l).left = nilLink := by
  simp [Tree.isInternal]

section Formed

variable {t : Tree} {d : Link → Nat}

theorem Tree.Formed.size_le (h : t.Formed d) : t.nnodes.toNat ≤ 513 := by
  have hsize := h.size
  have hseen := t.seen_le
  omega

theorem Tree.Formed.live_ne_nil (h : t.Formed d) {l : Link} (hl : t.live l) : l ≠ nilLink := by
  rintro rfl
  have hsize := h.size_le
  have hl : (1023#10).toNat < t.nnodes.toNat := hl
  simp at hl
  omega

theorem Tree.Formed.root_live (h : t.Formed d) : t.live t.root := by
  have hsize := h.size
  rw [Tree.live, h.root_slot, BitVec.toNat_zero]
  omega

/-- A node has two children, which know it, or none. -/
theorem Tree.Formed.internal (h : t.Formed d) {l : Link} (hl : t.live l) (hi : t.isInternal l = true) :
    t.live (t.node l).left ∧ t.live (t.node l).right ∧ (t.node l).left ≠ (t.node l).right ∧
      t.up (t.node l).left = l ∧ t.up (t.node l).right = l :=
  (h.children l hl).resolve_left fun hleaf => (t.isInternal_iff l).1 hi hleaf.1

/-- A slot below the root makes its parent internal. -/
theorem Tree.Formed.up_internal (h : t.Formed d) {l : Link} (hl : t.live l) (hroot : l ≠ t.root) :
    t.isInternal (t.up l) = true := by
  obtain ⟨hup, hchild⟩ := h.parents l hl hroot
  rw [Tree.isInternal_iff]
  intro hnone
  rcases h.children _ hup with ⟨hleft, hright⟩ | ⟨hleft, -⟩
  · rcases hchild with e | e
    · exact h.live_ne_nil hl (e ▸ hleft)
    · exact h.live_ne_nil hl (e ▸ hright)
  · exact h.live_ne_nil hleft hnone

/-- A child that is in use has the node as its parent, and is not the root. -/
theorem Tree.Formed.child_live (h : t.Formed d) {l : Link} (hl : t.live l) {c : Link} (hc : t.live c)
    (hchild : (t.node l).left = c ∨ (t.node l).right = c) : t.up c = l ∧ c ≠ t.root := by
  have hup : t.up c = l := by
    rcases h.children l hl with ⟨hleft, hright⟩ | ⟨-, -, -, hleft, hright⟩
    · rcases hchild with e | e
      · exact absurd (e.symm.trans hleft) (h.live_ne_nil hc)
      · exact absurd (e.symm.trans hright) (h.live_ne_nil hc)
    · rcases hchild with e | e
      · exact e ▸ hleft
      · exact e ▸ hright
  refine ⟨hup, ?_⟩
  rintro rfl
  exact h.live_ne_nil hl (hup.symm.trans h.root_parent)

/-! ### Subtrees -/

/-- Slot `l` lies in the subtree of slot `a`. -/
inductive Tree.Under (t : Tree) (a : Link) : Link → Prop where
  | refl : t.Under a a
  | step {l : Link} (hl : t.live l) (hroot : l ≠ t.root) (h : t.Under a (t.up l)) : t.Under a l

theorem Tree.Under.trans {a b c : Link} (hab : t.Under a b) (hbc : t.Under b c) : t.Under a c := by
  induction hbc with
  | refl => exact hab
  | step hl hroot _ ih => exact .step hl hroot ih

/-- Strictly below `a` is below `a` after one step up. -/
theorem Tree.Under.of_ne {a l : Link} (h : t.Under a l) (hne : l ≠ a) :
    t.live l ∧ l ≠ t.root ∧ t.Under a (t.up l) := by
  cases h with
  | refl => exact absurd rfl hne
  | step hl hroot h => exact ⟨hl, hroot, h⟩

theorem Tree.Formed.depth_le (h : t.Formed d) {a l : Link} (hu : t.Under a l) : d a ≤ d l := by
  induction hu with
  | refl => exact le_rfl
  | step hl hroot _ ih =>
    rw [h.depth_up _ hl hroot]
    omega

/-- Only the slot itself has its depth in its subtree. -/
theorem Tree.Formed.depth_lt (h : t.Formed d) {a l : Link} (hu : t.Under a l) (hne : l ≠ a) : d a < d l := by
  obtain ⟨hl, hroot, hu⟩ := hu.of_ne hne
  have hle := h.depth_le hu
  rw [h.depth_up l hl hroot]
  omega

theorem Tree.Formed.up_ne (h : t.Formed d) {l : Link} (hl : t.live l) (hroot : l ≠ t.root) : t.up l ≠ l := by
  intro e
  have hd := h.depth_up l hl hroot
  rw [e] at hd
  omega

/-- Every slot in use is in the root's subtree. -/
theorem Tree.Formed.under_root (h : t.Formed d) {l : Link} (hl : t.live l) : t.Under t.root l := by
  induction hk : d l generalizing l with
  | zero =>
    by_cases hroot : l = t.root
    · exact hroot ▸ .refl
    · have hd := h.depth_up l hl hroot
      omega
  | succ k ih =>
    by_cases hroot : l = t.root
    · exact hroot ▸ .refl
    · have hd := h.depth_up l hl hroot
      exact .step hl hroot (ih (h.parents l hl hroot).1 (by omega))

/-- What lies in a node's subtree is the node, or lies in the subtree of one of its children. -/
theorem Tree.Formed.under_child (h : t.Formed d) {a l : Link} (hu : t.Under a l) (hne : l ≠ a) :
    t.isInternal a = true ∧ (t.Under (t.node a).right l ∨ t.Under (t.node a).left l) := by
  induction hu with
  | refl => exact absurd rfl hne
  | @step m hl hroot hu ih =>
    by_cases hup : t.up m = a
    · obtain ⟨-, hchild⟩ := h.parents m hl hroot
      refine ⟨hup ▸ h.up_internal hl hroot, ?_⟩
      rw [hup] at hchild
      rcases hchild with e | e
      · exact .inr (e ▸ .refl)
      · exact .inl (e ▸ .refl)
    · obtain ⟨hi, hchild⟩ := ih hup
      exact ⟨hi, hchild.imp (.step hl hroot) (.step hl hroot)⟩

/-! ### Counting slots -/

/-- There are no more distinct slots in use than the node file holds. -/
theorem Tree.Formed.nodup_length_le (h : t.Formed d) {ls : List Link} (hnodup : ls.Nodup)
    (hlive : ∀ l ∈ ls, t.live l) : ls.length ≤ 513 := by
  have hmap : (ls.map BitVec.toNat).Nodup := hnodup.map fun _ _ => BitVec.eq_of_toNat_eq
  have hsub : ls.map BitVec.toNat ⊆ List.range t.nnodes.toNat := by
    intro x hx
    obtain ⟨l, hl, rfl⟩ := List.mem_map.1 hx
    exact List.mem_range.2 (hlive l hl)
  have hle := (List.subperm_of_subset hmap hsub).length_le
  rw [List.length_map, List.length_range] at hle
  exact hle.trans h.size_le

/-- The slots from `l` up to the root, one of each depth. -/
theorem Tree.Formed.ancestors (h : t.Formed d) {l : Link} (hl : t.live l) :
    ∃ ls : List Link, ls.length = d l + 1 ∧ ls.Nodup ∧ ∀ m ∈ ls, t.live m ∧ d m ≤ d l := by
  induction hk : d l generalizing l with
  | zero => exact ⟨[l], rfl, List.nodup_singleton l, by simpa using ⟨hl, hk⟩⟩
  | succ k ih =>
    have hroot : l ≠ t.root := by
      rintro rfl
      exact absurd (hk.symm.trans h.depth_root) (Nat.succ_ne_zero k)
    have hd := h.depth_up l hl hroot
    have hkup : d (t.up l) = k := by omega
    obtain ⟨ls, hlen, hnodup, hlow⟩ := ih (h.parents l hl hroot).1 hkup
    refine ⟨l :: ls, by rw [List.length_cons, hlen], List.nodup_cons.2 ⟨fun hmem => ?_, hnodup⟩, fun m hm => ?_⟩
    · have := (hlow l hmem).2
      omega
    · rcases List.mem_cons.1 hm with rfl | hm
      · exact ⟨hl, hk.le⟩
      · obtain ⟨hlive, hle⟩ := hlow m hm
        exact ⟨hlive, by omega⟩

theorem Tree.Formed.depth_bound (h : t.Formed d) {l : Link} (hl : t.live l) : d l < 513 := by
  obtain ⟨ls, hlen, hnodup, hlow⟩ := h.ancestors hl
  have hle := h.nodup_length_le hnodup fun m hm => (hlow m hm).1
  omega

/-! ### The search (R165) -/

/-- A place in the breadth-first search for `n`: the queue `q` and the slots `seen` taken from it. -/
structure Tree.Searching (t : Tree) (d : Link → Nat) (n : Link) (seen q : List Link) : Prop where
  nodup : (seen ++ q).Nodup
  live : ∀ l ∈ seen ++ q, t.live l
  /-- a slot is met after its parent -/
  closed : ∀ l ∈ seen ++ q, l ≠ t.root → t.up l ∈ seen
  /-- the queue goes down by at most one level -/
  sorted : q.Pairwise fun l m => d l ≤ d m
  level : ∀ l ∈ q, ∀ m ∈ q, d m ≤ d l + 1
  /-- the goal is still to come -/
  goal : ∃ a ∈ q, t.Under a n

theorem Tree.Searching.start (h : t.Formed d) {n : Link} (hn : t.live n) : t.Searching d n [] [t.root] where
  nodup := List.nodup_singleton _
  live := by simpa using h.root_live
  closed := by simp
  sorted := List.pairwise_singleton ..
  level := by simp
  goal := ⟨t.root, List.mem_singleton_self _, h.under_root hn⟩

/-- The first of the queue is no deeper than the goal. -/
theorem Tree.Searching.head_depth {n c : Link} {seen q : List Link} (h : t.Formed d)
    (hs : t.Searching d n seen (c :: q)) : d c ≤ d n := by
  obtain ⟨a, ha, hu⟩ := hs.goal
  have hda := h.depth_le hu
  rcases List.mem_cons.1 ha with rfl | ha
  · exact hda
  · exact ((List.pairwise_cons.1 hs.sorted).1 a ha).trans hda

/-- A slot of the queue is taken, and is not the goal; `q'` are its children. -/
theorem Tree.Searching.next {n c : Link} {seen q q' : List Link} (h : t.Formed d)
    (hs : t.Searching d n seen (c :: q)) (hchild : ∀ l ∈ q', t.live l ∧ t.up l = c ∧ l ≠ t.root) (hnodup : q'.Nodup)
    (hgoal : t.Under c n → ∃ a ∈ q', t.Under a n) : t.Searching d n (seen ++ [c]) (q ++ q') := by
  have hshift : seen ++ [c] ++ (q ++ q') = seen ++ c :: q ++ q' := by simp
  have hdepth (l : Link) (hl : l ∈ q') : d l = d c + 1 := by
    obtain ⟨hlive, hup, hroot⟩ := hchild l hl
    rw [h.depth_up l hlive hroot, hup]
  obtain ⟨hhead, hsorted⟩ := List.pairwise_cons.1 hs.sorted
  refine ⟨?_, ?_, ?_, ?_, ?_, ?_⟩
  · rw [hshift]
    refine hs.nodup.append hnodup fun l hl hl' => ?_
    obtain ⟨-, hup, hroot⟩ := hchild l hl'
    have hmem : c ∈ seen := hup ▸ hs.closed l hl hroot
    exact (List.disjoint_of_nodup_append hs.nodup) hmem (List.mem_cons_self ..)
  · rw [hshift]
    intro l hl
    rcases List.mem_append.1 hl with hl | hl
    · exact hs.live l hl
    · exact (hchild l hl).1
  · rw [hshift]
    intro l hl hroot
    rcases List.mem_append.1 hl with hl | hl
    · exact List.mem_append_left _ (hs.closed l hl hroot)
    · rw [(hchild l hl).2.1]
      exact List.mem_append_right _ (List.mem_singleton_self c)
  · refine List.pairwise_append.2 ⟨hsorted, ?_, fun l hl m hm => ?_⟩
    · refine List.pairwise_of_forall_mem_list fun l hl m hm => ?_
      rw [hdepth l hl, hdepth m hm]
    · rw [hdepth m hm]
      exact hs.level c (List.mem_cons_self ..) l (List.mem_cons_of_mem _ hl)
  · intro l hl m hm
    have hlow : d c ≤ d l := by
      rcases List.mem_append.1 hl with hl | hl
      · exact hhead l hl
      · rw [hdepth l hl]; omega
    rcases List.mem_append.1 hm with hm | hm
    · have := hs.level c (List.mem_cons_self ..) m (List.mem_cons_of_mem _ hm)
      omega
    · rw [hdepth m hm]
      omega
  · obtain ⟨a, ha, hu⟩ := hs.goal
    rcases List.mem_cons.1 ha with rfl | ha
    · obtain ⟨b, hb, hu⟩ := hgoal hu
      exact ⟨b, List.mem_append_right _ hb, hu⟩
    · exact ⟨a, List.mem_append_left _ ha, hu⟩

/-- The test of the search (R165). -/
abbrev Tree.matches (t : Tree) (n c : Link) : Prop :=
  (t.node c).weight = (t.node n).weight ∧ (t.node n).index.toNat ≤ (t.node c).index.toNat

/-- The search ends at a match that is no deeper than the goal, which itself is a match. -/
theorem Tree.Searching.finds {n : Link} (h : t.Formed d) (fuel : Nat) {seen q : List Link}
    (hs : t.Searching d n seen q) (hfuel : 513 ≤ fuel + seen.length) :
    ∃ c, t.search n fuel q = some c ∧ t.live c ∧ t.matches n c ∧ d c ≤ d n := by
  induction fuel generalizing seen q with
  | zero =>
    obtain ⟨a, ha, -⟩ := hs.goal
    have hpos := List.length_pos_of_mem ha
    have hle := h.nodup_length_le hs.nodup hs.live
    rw [List.length_append] at hle
    omega
  | succ fuel ih =>
    match q with
    | [] =>
      obtain ⟨a, ha, -⟩ := hs.goal
      exact absurd ha List.not_mem_nil
    | c :: q =>
      have hc : t.live c := hs.live c (List.mem_append_right _ (List.mem_cons_self ..))
      have hmore : 513 ≤ fuel + (seen ++ [c]).length := by
        rw [List.length_append, List.length_singleton]
        omega
      unfold Tree.search
      split
      · exact ⟨c, rfl, hc, ‹_›, hs.head_depth h⟩
      · have hne : n ≠ c := by
          rintro rfl
          exact ‹¬ t.matches n n› ⟨rfl, le_rfl⟩
        split
        · rename_i hi
          obtain ⟨hleft, hright, hdiff, hupl, hupr⟩ := h.internal hc hi
          refine ih (hs.next h (fun l hl => ?_) ?_ fun hu => ?_) hmore
          · rcases List.mem_pair.1 hl with rfl | rfl
            · exact ⟨hright, h.child_live hc hright (.inr rfl)⟩
            · exact ⟨hleft, h.child_live hc hleft (.inl rfl)⟩
          · simpa using hdiff.symm
          · rcases (h.under_child hu hne).2 with hu | hu
            · exact ⟨_, List.mem_cons_self .., hu⟩
            · exact ⟨_, List.mem_cons_of_mem _ (List.mem_singleton_self _), hu⟩
        · rename_i hi
          have hnext := hs.next (q' := []) h (by simp) List.nodup_nil fun hu =>
            absurd (h.under_child hu hne).1 hi
          rw [List.append_nil] at hnext
          exact ih hnext hmore

/-- `FindCandidate` answers on every valid tree, and its answer is no deeper than the node asked for. -/
theorem Tree.Formed.findCandidate (h : t.Formed d) {n : Link} (hn : t.live n) :
    ∃ c, t.findCandidate n = some c ∧ t.live c ∧ t.matches n c ∧ d c ≤ d n :=
  (Tree.Searching.start h hn).finds h Config.nodeFileSize le_rfl

/-- A candidate other than the node itself is not the NYT leaf, whose index is the least. -/
theorem Tree.Formed.candidate_ne_nyt (h : t.Formed d) {n c : Link} (hn : t.live n) (hnyt : n ≠ t.nyt)
    (hm : t.matches n c) : c ≠ t.nyt := by
  rintro rfl
  have hle : t.indexOf n ≤ t.indexOf t.nyt := hm.2
  have hlow := (h.index_range n hn).1
  have hmin := h.nyt_index
  exact hnyt (h.index_unique n t.nyt hn h.nyt_live (by omega))

/-- The walk that tests for an ancestor meets only slots above. -/
theorem Tree.Formed.isAncestor_under (h : t.Formed d) {a l : Link} (fuel : Nat) (hl : t.live l)
    (ha : t.isAncestor a fuel l = true) : t.Under a l ∧ l ≠ a := by
  induction fuel generalizing l with
  | zero => cases ha
  | succ fuel ih =>
    unfold Tree.isAncestor at ha
    dsimp only at ha
    split at ha
    · cases ha
    · rename_i hnil
      have hroot : l ≠ t.root := by
        rintro rfl
        exact hnil h.root_parent
      have hup := (h.parents l hl hroot).1
      have hover : t.Under a (t.up l) := by
        rcases Bool.or_eq_true_iff.1 ha with ha | ha
        · exact (beq_iff_eq.1 ha) ▸ .refl
        · exact (ih hup ha).1
      refine ⟨.step hl hroot hover, ?_⟩
      rintro rfl
      have := h.depth_le hover
      have := h.depth_up _ hl hroot
      omega

end Formed

end Sys2Proof.Machine
end

section
/-! SUPPORT for O32 and O53: a swap of two nodes keeps the form of the tree. -/

namespace Sys2Proof.Machine

/-! ### The exchange of two nodes (R166) -/

/-- Two nodes in use of which neither lies in the other's subtree. -/
structure Tree.Apart (t : Tree) (a b : Link) : Prop where
  left : t.live a
  right : t.live b
  not_above : ¬ t.Under a b
  not_below : ¬ t.Under b a

/-- Links after the exchange of `a` and `b`: each stands where the other stood. -/
def crossed (a b l : Link) : Link := Equiv.swap a b l

@[simp] theorem crossed_fst (a b : Link) : crossed a b a = b := Equiv.swap_apply_left a b

@[simp] theorem crossed_snd (a b : Link) : crossed a b b = a := Equiv.swap_apply_right a b

theorem crossed_other {a b l : Link} (ha : l ≠ a) (hb : l ≠ b) : crossed a b l = l :=
  Equiv.swap_apply_of_ne_of_ne ha hb

@[simp] theorem crossed_crossed (a b l : Link) : crossed a b (crossed a b l) = l := Equiv.swap_apply_self a b l

theorem crossed_injective (a b : Link) : Function.Injective (crossed a b) := (Equiv.swap a b).injective

/-- A property of both slots is kept by crossing them. -/
theorem crossed_of {P : Link → Prop} {a b : Link} (ha : P a) (hb : P b) {l : Link} (hl : P l) : P (crossed a b l) := by
  by_cases hla : l = a
  · rwa [hla, crossed_fst]
  · by_cases hlb : l = b
    · rwa [hlb, crossed_snd]
    · rwa [crossed_other hla hlb]

theorem Tree.node_adopt (t : Tree) {p : Link} (hp : p.toNat < 513) (right : Bool) (c m : Link) :
    (t.adopt p right c).node m =
      if m = p then if right then { t.node p with right := c } else { t.node p with left := c } else t.node m := by
  split
  · subst m
    exact t.node_put_same p _ hp
  · exact t.node_put_other p m _ ‹_›

theorem Tree.node_crossUp (t : Tree) {a b : Link} (ha : a.toNat < 513) (hb : b.toNat < 513) (hab : a ≠ b)
    (pa pb m : Link) : (t.crossUp a b pa pb).node m =
      if m = b then { t.node b with parent := pa, index := (t.node a).index }
      else if m = a then { t.node a with parent := pb, index := (t.node b).index } else t.node m := by
  unfold Tree.crossUp
  dsimp only
  split
  · subst m
    refine (Tree.node_put_same _ _ _ hb).trans ?_
    rw [Tree.node_put_other _ _ _ _ hab.symm]
  · refine (Tree.node_put_other _ _ _ _ ‹_›).trans ?_
    split
    · subst m
      exact Tree.node_put_same _ _ _ ha
    · exact Tree.node_put_other _ _ _ _ ‹_›

section Apart

variable {t : Tree} {d : Link → Nat} {a b : Link}

theorem Tree.Apart.symm (h : t.Apart a b) : t.Apart b a := ⟨h.right, h.left, h.not_below, h.not_above⟩

theorem Tree.Apart.ne (h : t.Apart a b) : a ≠ b := by
  rintro rfl
  exact h.not_above .refl

theorem Tree.Apart.ne_root (h : t.Apart a b) (hf : t.Formed d) : a ≠ t.root := by
  rintro rfl
  exact h.not_above (hf.under_root h.right)

/-- The parent of one lies neither in its subtree nor in the other's. -/
theorem Tree.Apart.up_outside (h : t.Apart a b) (hf : t.Formed d) : ¬ t.Under a (t.up a) ∧ ¬ t.Under b (t.up a) := by
  have hroot := h.ne_root hf
  refine ⟨fun hu => ?_, fun hu => h.not_below (.step h.left hroot hu)⟩
  have hle := hf.depth_le hu
  have hup := hf.depth_up a h.left hroot
  omega

theorem Tree.Apart.up_ne (h : t.Apart a b) (hf : t.Formed d) : t.up a ≠ a ∧ t.up a ≠ b := by
  obtain ⟨hself, hother⟩ := h.up_outside hf
  refine ⟨fun e => hself ?_, fun e => hother ?_⟩
  · rw [e]
    exact .refl
  · rw [e]
    exact .refl

/-- The side of a parent that its child does not stand on. -/
theorem Tree.Formed.isRight_iff (hf : t.Formed d) {l : Link} (hl : t.live l) (hroot : l ≠ t.root) :
    (t.isRight l = true → (t.node (t.up l)).right = l ∧ (t.node (t.up l)).left ≠ l) ∧
    (t.isRight l = false → (t.node (t.up l)).left = l ∧ (t.node (t.up l)).right ≠ l) := by
  obtain ⟨hup, hchild⟩ := hf.parents l hl hroot
  obtain ⟨-, -, hdiff, -⟩ := hf.internal hup (hf.up_internal hl hroot)
  refine ⟨fun h => ?_, fun h => ?_⟩
  · have hright : (t.node (t.up l)).right = l := by simpa [Tree.isRight] using h
    exact ⟨hright, fun e => hdiff (e.trans hright.symm)⟩
  · have hright : (t.node (t.up l)).right ≠ l := by simpa [Tree.isRight] using h
    exact ⟨hchild.resolve_right hright, hright⟩

/-- A parent that adopts `b` in the place of its child `a`: wherever `a` was a child, `b` is. -/
theorem Tree.Formed.node_adopt (hf : t.Formed d) (ha : t.live a) (hroot : a ≠ t.root) {m : Link} (hm : t.live m) :
    (t.adopt (t.up a) (t.isRight a) b).node m =
      { t.node m with
        left := if (t.node m).left = a then b else (t.node m).left,
        right := if (t.node m).right = a then b else (t.node m).right } := by
  have hpa := (hf.parents a ha hroot).1
  rw [Tree.node_adopt _ (hpa.trans_le hf.size_le)]
  split
  · subst m
    obtain ⟨hright, hleft⟩ := hf.isRight_iff ha hroot
    cases hside : t.isRight a with
    | true =>
      obtain ⟨hr, hl⟩ := hright hside
      rw [if_pos rfl, if_neg hl, if_pos hr]
    | false =>
      obtain ⟨hl, hr⟩ := hleft hside
      rw [if_neg Bool.false_ne_true, if_pos hl, if_neg hr]
  · rename_i hne
    rw [if_neg fun e => hne (hf.child_live hm ha (.inl e)).1.symm,
      if_neg fun e => hne (hf.child_live hm ha (.inr e)).1.symm]

/-- The two parents adopt each other's child: all children are crossed. -/
theorem Tree.Apart.node_adopted (h : t.Apart a b) (hf : t.Formed d) {m : Link} (hm : t.live m) :
    ((t.adopt (t.up a) (t.isRight a) b).adopt (t.up b) (t.isRight b) a).node m =
      { t.node m with left := crossed a b (t.node m).left, right := crossed a b (t.node m).right } := by
  have hroota := h.ne_root hf
  have hrootb := h.symm.ne_root hf
  have hpb := (hf.parents b h.right hrootb).1
  have hcross (x : Link) (hx : x ≠ b) : crossed a b x = if x = a then b else x := by
    split
    · rw [‹x = a›, crossed_fst]
    · exact crossed_other ‹_› hx
  rw [Tree.node_adopt _ (hpb.trans_le hf.size_le), hf.node_adopt h.left hroota hm]
  split
  · subst m
    rw [hf.node_adopt h.left hroota hpb]
    obtain ⟨hright, hleft⟩ := hf.isRight_iff h.right hrootb
    cases hside : t.isRight b with
    | true =>
      obtain ⟨hr, hl⟩ := hright hside
      rw [if_pos rfl, hcross _ hl, hr, crossed_snd]
    | false =>
      obtain ⟨hl, hr⟩ := hleft hside
      rw [if_neg Bool.false_ne_true, hcross _ hr, hl, crossed_snd]
  · rename_i hne
    rw [hcross _ fun e => hne (hf.child_live hm h.right (.inl e)).1.symm,
      hcross _ fun e => hne (hf.child_live hm h.right (.inr e)).1.symm]

/-- The tree `u` is `t` with `a` and `b` exchanged: the children of every node in use are crossed, and it stands where
its crossed slot stood. -/
structure Tree.Crossed (t u : Tree) (a b : Link) : Prop where
  root : u.root = t.root
  nyt : u.nyt = t.nyt
  nnodes : u.nnodes = t.nnodes
  sym : u.sym = t.sym
  unode : u.unode = t.unode
  node : ∀ m, t.live m → u.node m =
    { parent := t.up (crossed a b m), left := crossed a b (t.node m).left, right := crossed a b (t.node m).right,
      index := (t.node (crossed a b m)).index, weight := (t.node m).weight, value := (t.node m).value }

/-- Everything that the exchange does. -/
theorem Tree.Apart.exchange (h : t.Apart a b) (hf : t.Formed d) : t.Crossed (t.exchange a b) a b := by
  refine ⟨rfl, rfl, rfl, rfl, rfl, fun m hm => ?_⟩
  have hsize := hf.size_le
  rw [Tree.exchange_eq, Tree.node_crossUp _ (h.left.trans_le hsize) (h.right.trans_le hsize) h.ne,
    h.node_adopted hf h.left, h.node_adopted hf h.right, h.node_adopted hf hm]
  by_cases hmb : m = b
  · subst m
    rw [if_pos rfl, crossed_snd]
  · rw [if_neg hmb]
    by_cases hma : m = a
    · subst m
      rw [if_pos rfl, crossed_fst]
    · rw [if_neg hma, crossed_other hma hmb]

open Classical in
/-- The depth of each slot after the exchange: a subtree moves as a whole. -/
noncomputable def Tree.crossedDepth (t : Tree) (d : Link → Nat) (a b l : Link) : Nat :=
  if t.Under a l then d l - d a + d b else if t.Under b l then d l - d b + d a else d l

theorem Tree.crossedDepth_outside {l : Link} (ha : ¬ t.Under a l) (hb : ¬ t.Under b l) :
    t.crossedDepth d a b l = d l := by
  rw [Tree.crossedDepth, if_neg ha, if_neg hb]

theorem Tree.crossedDepth_fst (t : Tree) (d : Link → Nat) (a b : Link) : t.crossedDepth d a b a = d b := by
  rw [Tree.crossedDepth, if_pos .refl]
  omega

theorem Tree.Apart.crossedDepth_snd (h : t.Apart a b) (d : Link → Nat) : t.crossedDepth d a b b = d a := by
  rw [Tree.crossedDepth, if_neg h.not_above, if_pos .refl]
  omega

/-- One step up from a slot other than the two, the depth is one less. -/
theorem Tree.Formed.crossedDepth_up (hf : t.Formed d) {l : Link} (hl : t.live l) (hroot : l ≠ t.root) (hla : l ≠ a)
    (hlb : l ≠ b) : t.crossedDepth d a b l = t.crossedDepth d a b (t.up l) + 1 := by
  have hup := hf.depth_up l hl hroot
  have hunder (c : Link) (hlc : l ≠ c) : t.Under c l ↔ t.Under c (t.up l) :=
    ⟨fun hu => (hu.of_ne hlc).2.2, .step hl hroot⟩
  unfold Tree.crossedDepth
  rw [hunder a hla, hunder b hlb]
  split
  · have := hf.depth_le ‹t.Under a (t.up l)›
    omega
  · split
    · have := hf.depth_le ‹t.Under b (t.up l)›
      omega
    · exact hup

section Crossed

variable {u : Tree}

theorem Tree.Crossed.live_iff (hx : t.Crossed u a b) (l : Link) : u.live l ↔ t.live l := by
  rw [Tree.live, hx.nnodes]

theorem Tree.Crossed.symOf (hx : t.Crossed u a b) (c : Byte) : u.symOf c = t.symOf c := by
  rw [Tree.symOf, hx.sym, Tree.symOf]

theorem Tree.Crossed.seen (hx : t.Crossed u a b) : u.seen = t.seen := by
  simp only [Tree.seen, hx.symOf]

theorem Tree.Crossed.up (hx : t.Crossed u a b) {l : Link} (hl : t.live l) : u.up l = t.up (crossed a b l) := by
  rw [Tree.up, hx.node l hl]

theorem Tree.Crossed.left (hx : t.Crossed u a b) {l : Link} (hl : t.live l) :
    (u.node l).left = crossed a b (t.node l).left := by
  rw [hx.node l hl]

theorem Tree.Crossed.right (hx : t.Crossed u a b) {l : Link} (hl : t.live l) :
    (u.node l).right = crossed a b (t.node l).right := by
  rw [hx.node l hl]

theorem Tree.Crossed.index (hx : t.Crossed u a b) {l : Link} (hl : t.live l) :
    u.indexOf l = t.indexOf (crossed a b l) := by
  rw [Tree.indexOf, hx.node l hl]

theorem Tree.Crossed.weight (hx : t.Crossed u a b) {l : Link} (hl : t.live l) : u.weightOf l = t.weightOf l := by
  rw [Tree.weightOf, hx.node l hl]

theorem Tree.Crossed.value (hx : t.Crossed u a b) {l : Link} (hl : t.live l) :
    (u.node l).value = (t.node l).value := by
  rw [hx.node l hl]

theorem Tree.Apart.crossed_nil (h : t.Apart a b) (hf : t.Formed d) (l : Link) :
    crossed a b l = nilLink ↔ l = nilLink := by
  have hnone : crossed a b nilLink = nilLink :=
    crossed_other (hf.live_ne_nil h.left).symm (hf.live_ne_nil h.right).symm
  exact ⟨fun e => crossed_injective a b (e.trans hnone.symm), fun e => e ▸ hnone⟩

theorem Tree.Apart.crossed_live (h : t.Apart a b) {l : Link} (hl : t.live l) : t.live (crossed a b l) :=
  crossed_of h.left h.right hl

theorem Tree.Crossed.isInternal (hx : t.Crossed u a b) (h : t.Apart a b) (hf : t.Formed d) {l : Link}
    (hl : t.live l) : u.isInternal l = t.isInternal l := by
  rw [Bool.eq_iff_iff, Tree.isInternal_iff, Tree.isInternal_iff, hx.left hl]
  exact not_congr (h.crossed_nil hf _)

/-- The exchange keeps the form of the tree. -/
theorem Tree.Crossed.formed (hx : t.Crossed u a b) (h : t.Apart a b) (hf : t.Formed d) (ha : a ≠ t.nyt)
    (hb : b ≠ t.nyt) : u.Formed (t.crossedDepth d a b) := by
  have hroota := h.ne_root hf
  have hrootb := h.symm.ne_root hf
  have hne {l : Link} (hl : l ≠ t.root) : crossed a b l ≠ t.root := crossed_of (P := (· ≠ t.root)) hroota hrootb hl
  have hnyt : crossed a b t.nyt = t.nyt := crossed_other ha.symm hb.symm
  constructor
  case size => rw [hx.nnodes, hx.seen, hf.size]
  case root_slot => rw [hx.root, hf.root_slot]
  case root_parent => rw [hx.root, hx.up hf.root_live, crossed_other hroota.symm hrootb.symm, hf.root_parent]
  case nyt_live => rw [hx.live_iff, hx.nyt]; exact hf.nyt_live
  case nyt_leaf =>
    obtain ⟨hleft, hright⟩ := hf.nyt_leaf
    rw [hx.nyt, hx.left hf.nyt_live, hx.right hf.nyt_live]
    exact ⟨(h.crossed_nil hf _).2 hleft, (h.crossed_nil hf _).2 hright⟩
  case children =>
    intro l hl
    rw [hx.live_iff] at hl
    rw [hx.left hl, hx.right hl, hx.live_iff, hx.live_iff]
    rcases hf.children l hl with ⟨hleft, hright⟩ | ⟨hleft, hright, hdiff, hupl, hupr⟩
    · exact .inl ⟨(h.crossed_nil hf _).2 hleft, (h.crossed_nil hf _).2 hright⟩
    · rw [hx.up (h.crossed_live hleft), hx.up (h.crossed_live hright), crossed_crossed, crossed_crossed]
      exact .inr ⟨h.crossed_live hleft, h.crossed_live hright, fun e => hdiff (crossed_injective a b e), hupl, hupr⟩
  case parents =>
    intro l hl hroot
    rw [hx.live_iff] at hl
    rw [hx.root] at hroot
    obtain ⟨hlup, hchild⟩ := hf.parents _ (h.crossed_live hl) (hne hroot)
    rw [hx.up hl, hx.live_iff, hx.left hlup, hx.right hlup]
    refine ⟨hlup, hchild.imp (fun e => ?_) fun e => ?_⟩
    · rw [e, crossed_crossed]
    · rw [e, crossed_crossed]
  case depth_root =>
    rw [hx.root]
    refine (Tree.crossedDepth_outside (fun hu => ?_) fun hu => ?_).trans hf.depth_root
    · exact (hu.of_ne hroota.symm).2.1 rfl
    · exact (hu.of_ne hrootb.symm).2.1 rfl
  case depth_up =>
    intro l hl hroot
    rw [hx.live_iff] at hl
    rw [hx.root] at hroot
    rw [hx.up hl]
    by_cases hla : l = a
    · subst l
      obtain ⟨hself, hother⟩ := h.symm.up_outside hf
      rw [crossed_fst, Tree.crossedDepth_fst, Tree.crossedDepth_outside hother hself]
      exact hf.depth_up b h.right hrootb
    · by_cases hlb : l = b
      · subst l
        obtain ⟨hself, hother⟩ := h.up_outside hf
        rw [crossed_snd, h.crossedDepth_snd, Tree.crossedDepth_outside hself hother]
        exact hf.depth_up a h.left hroota
      · rw [crossed_other hla hlb]
        exact hf.crossedDepth_up hl hroot hla hlb
  case index_range =>
    intro l hl
    rw [hx.live_iff] at hl
    rw [hx.nnodes, hx.index hl]
    exact hf.index_range _ (h.crossed_live hl)
  case index_unique =>
    intro l m hl hm e
    rw [hx.live_iff] at hl hm
    rw [hx.index hl, hx.index hm] at e
    exact crossed_injective a b (hf.index_unique _ _ (h.crossed_live hl) (h.crossed_live hm) e)
  case nyt_index => rw [hx.nyt, hx.nnodes, hx.index hf.nyt_live, hnyt, hf.nyt_index]
  case siblings =>
    intro l hl hi
    rw [hx.live_iff] at hl
    rw [hx.isInternal h hf hl] at hi
    obtain ⟨hleft, hright, -⟩ := hf.internal hl hi
    rw [hx.left hl, hx.right hl, hx.index (h.crossed_live hleft), hx.index (h.crossed_live hright), crossed_crossed,
      crossed_crossed]
    exact hf.siblings l hl hi
  case sym_leaf =>
    intro c hc
    rw [hx.symOf] at hc ⊢
    obtain ⟨hl, hne, hleaf, hvalue⟩ := hf.sym_leaf c hc
    rw [hx.live_iff, hx.nyt, hx.isInternal h hf hl, hx.value hl]
    exact ⟨hl, hne, hleaf, hvalue⟩
  case leaf_sym =>
    intro l hl hne hleaf
    rw [hx.live_iff] at hl
    rw [hx.nyt] at hne
    rw [hx.isInternal h hf hl] at hleaf
    rw [hx.value hl, hx.symOf]
    exact hf.leaf_sym l hl hne hleaf

end Crossed

end Apart

end Sys2Proof.Machine
end

section
/-! SUPPORT for O32 and O53: `Split` and `Update` complete on a valid tree and leave a valid tree with one symbol
more. -/

namespace Sys2Proof.Machine

/-! ### Weights -/

/-- The tree `u` is `t` but for weights and the register of the walk. -/
structure Tree.Reweighed (t u : Tree) : Prop where
  root : u.root = t.root
  nyt : u.nyt = t.nyt
  nnodes : u.nnodes = t.nnodes
  sym : u.sym = t.sym
  node : ∀ m, { u.node m with weight := (t.node m).weight } = t.node m

/-- A tree of valid form whose weights fit is valid (R169, R173). -/
theorem Tree.Formed.valid {t : Tree} {d : Link → Nat} {n : Nat} (h : t.Formed d)
    (hsum : ∀ l, t.live l → t.isInternal l = true →
      t.weightOf l = t.weightOf (t.node l).left + t.weightOf (t.node l).right)
    (hroot : t.weightOf t.root = n) (hzero : ∀ l, t.live l → (t.weightOf l = 0 ↔ l = t.nyt)) : t.Valid n where
  size := h.size
  root_slot := h.root_slot
  root_parent := h.root_parent
  nyt_live := h.nyt_live
  nyt_leaf := h.nyt_leaf
  children := h.children
  parents := h.parents
  rooted := ⟨d, h.depth_root, h.depth_up⟩
  index_range := h.index_range
  index_unique := h.index_unique
  nyt_index := h.nyt_index
  siblings := h.siblings
  weight_sum := hsum
  root_weight := hroot
  zero_weight := hzero
  sym_leaf := h.sym_leaf
  leaf_sym := h.leaf_sym

section Reweighed

variable {t u : Tree}

theorem Tree.Reweighed.live_iff (hr : t.Reweighed u) (l : Link) : u.live l ↔ t.live l := by
  rw [Tree.live, hr.nnodes]

theorem Tree.Reweighed.up (hr : t.Reweighed u) (l : Link) : u.up l = t.up l :=
  (congrArg TreeNode.parent (hr.node l) :)

theorem Tree.Reweighed.left (hr : t.Reweighed u) (l : Link) : (u.node l).left = (t.node l).left :=
  (congrArg TreeNode.left (hr.node l) :)

theorem Tree.Reweighed.right (hr : t.Reweighed u) (l : Link) : (u.node l).right = (t.node l).right :=
  (congrArg TreeNode.right (hr.node l) :)

theorem Tree.Reweighed.index (hr : t.Reweighed u) (l : Link) : u.indexOf l = t.indexOf l :=
  (congrArg (fun n : TreeNode => n.index.toNat) (hr.node l) :)

theorem Tree.Reweighed.value (hr : t.Reweighed u) (l : Link) : (u.node l).value = (t.node l).value :=
  (congrArg TreeNode.value (hr.node l) :)

theorem Tree.Reweighed.isInternal (hr : t.Reweighed u) (l : Link) : u.isInternal l = t.isInternal l := by
  rw [Tree.isInternal, hr.left, Tree.isInternal]

theorem Tree.Reweighed.symOf (hr : t.Reweighed u) (b : Byte) : u.symOf b = t.symOf b := by
  rw [Tree.symOf, hr.sym, Tree.symOf]

theorem Tree.Reweighed.seen (hr : t.Reweighed u) : u.seen = t.seen := by
  simp only [Tree.seen, hr.symOf]

/-- The form of a tree is not about weights. -/
theorem Tree.Reweighed.formed {d : Link → Nat} (hr : t.Reweighed u) (h : t.Formed d) : u.Formed d := by
  constructor
  case size => rw [hr.nnodes, hr.seen, h.size]
  case root_slot => rw [hr.root, h.root_slot]
  case root_parent => rw [hr.root, hr.up, h.root_parent]
  case nyt_live => rw [hr.live_iff, hr.nyt]; exact h.nyt_live
  case nyt_leaf => rw [hr.nyt, hr.left, hr.right]; exact h.nyt_leaf
  case children => simpa only [hr.live_iff, hr.left, hr.right, hr.up] using h.children
  case parents => simpa only [hr.live_iff, hr.root, hr.left, hr.right, hr.up] using h.parents
  case depth_root => rw [hr.root, h.depth_root]
  case depth_up => simpa only [hr.live_iff, hr.root, hr.up] using h.depth_up
  case index_range => simpa only [hr.live_iff, hr.nnodes, hr.index] using h.index_range
  case index_unique => simpa only [hr.live_iff, hr.index] using h.index_unique
  case nyt_index => rw [hr.nyt, hr.nnodes, hr.index, h.nyt_index]
  case siblings => simpa only [hr.live_iff, hr.isInternal, hr.left, hr.right, hr.index] using h.siblings
  case sym_leaf => simpa only [hr.live_iff, hr.symOf, hr.nyt, hr.isInternal, hr.value] using h.sym_leaf
  case leaf_sym => simpa only [hr.live_iff, hr.symOf, hr.nyt, hr.isInternal, hr.value] using h.leaf_sym

end Reweighed

/-! ### The walk of `Update` (R167) -/

/-- The tree in the middle of `Update` after `n` symbols: valid, but that the symbol is not yet counted at the walk's
node and above it. -/
structure Tree.Climbing (t : Tree) (d : Link → Nat) (n : Nat) : Prop where
  formed : t.Formed d
  at_live : t.live t.unode
  at_ne_nyt : t.unode ≠ t.nyt
  weight_sum : ∀ l, t.live l → t.isInternal l = true →
    t.weightOf l + (if l = t.unode then 1 else 0) = t.weightOf (t.node l).left + t.weightOf (t.node l).right
  root_weight : t.weightOf t.root = n
  nyt_weight : t.weightOf t.nyt = 0
  zero_weight : ∀ l, t.live l → t.weightOf l = 0 → l = t.nyt ∨ l = t.unode

section Climbing

variable {t : Tree} {d : Link → Nat} {n : Nat}

/-- A slot below the root has a sibling, and away from the walk's node the two make up the parent's weight. -/
theorem Tree.Climbing.sibling (h : t.Climbing d n) {l : Link} (hl : t.live l) (hroot : l ≠ t.root)
    (hup : t.up l ≠ t.unode) :
    ∃ m, t.live m ∧ m ≠ l ∧ d m = d l ∧ t.weightOf (t.up l) = t.weightOf l + t.weightOf m := by
  have hf := h.formed
  obtain ⟨hlup, hchild⟩ := hf.parents l hl hroot
  have hi := hf.up_internal hl hroot
  obtain ⟨hleft, hright, hdiff, hupl, hupr⟩ := hf.internal hlup hi
  have hsum := h.weight_sum _ hlup hi
  rw [if_neg hup, Nat.add_zero] at hsum
  have hdepth {m : Link} (hm : t.live m) (hmup : t.up m = t.up l) (hmroot : m ≠ t.root) : d m = d l := by
    rw [hf.depth_up m hm hmroot, hmup, ← hf.depth_up l hl hroot]
  rcases hchild with e | e
  · rw [e] at hsum hdiff
    exact ⟨_, hright, hdiff.symm, hdepth hright hupr (hf.child_live hlup hright (.inr rfl)).2, hsum⟩
  · rw [e] at hsum hdiff
    exact ⟨_, hleft, hdiff, hdepth hleft hupl (hf.child_live hlup hleft (.inl rfl)).2, hsum.trans (Nat.add_comm ..)⟩

/-- From the walk's node up, weights do not fall. -/
theorem Tree.Climbing.weight_le (h : t.Climbing d n) {a l : Link} (hal : t.Under a l) (hlu : t.Under l t.unode) :
    t.weightOf l ≤ t.weightOf a := by
  induction hal with
  | refl => exact le_rfl
  | @step m hm hroot _ ih =>
    have hup : t.Under (t.up m) m := .step hm hroot .refl
    have hne : t.up m ≠ t.unode := by
      intro e
      have hle := h.formed.depth_le hlu
      have hdepth := h.formed.depth_up m hm hroot
      rw [e] at hdepth
      omega
    obtain ⟨_, -, -, -, hsum⟩ := h.sibling hm hroot hne
    have hle := ih (hup.trans hlu)
    omega

theorem Tree.Climbing.weight_le_root (h : t.Climbing d n) : t.weightOf t.unode ≤ n :=
  (h.weight_le (h.formed.under_root h.at_live) .refl).trans_eq h.root_weight

/-- Only the parent of the walk's node can have the same weight above it: two siblings of weight 0 would both be the NYT
leaf (R172). -/
theorem Tree.Climbing.above_eq_up (h : t.Climbing d n) {c : Link} (hc : t.Under c t.unode) (hne : c ≠ t.unode)
    (hw : t.weightOf c = t.weightOf t.unode) : c = t.up t.unode := by
  have hf := h.formed
  obtain ⟨hu, hroot, hcp⟩ := hc.of_ne hne.symm
  by_contra hcne
  obtain ⟨hp, hproot, hcg⟩ := hcp.of_ne fun e => hcne e.symm
  have hdu := hf.depth_up _ hu hroot
  have hdp := hf.depth_up _ hp hproot
  have hpu : t.Under (t.up t.unode) t.unode := .step hu hroot .refl
  have hgu : t.Under (t.up (t.up t.unode)) t.unode := Tree.Under.trans (.step hp hproot .refl) hpu
  obtain ⟨m, hm, hmne, hmd, hmsum⟩ := h.sibling hu hroot (hf.up_ne hu hroot)
  obtain ⟨k, hk, hkne, hkd, hksum⟩ := h.sibling hp hproot fun e => by rw [e] at hdp; omega
  have hle := h.weight_le hcg hgu
  have hm0 := (h.zero_weight m hm (by omega)).resolve_right hmne
  have hk0 := (h.zero_weight k hk (by omega)).resolve_right fun e => by rw [e] at hkd; omega
  rw [hm0, ← hk0] at hmd
  omega

/-- A candidate that is to be swapped and the walk's node lie apart (R172). -/
theorem Tree.Climbing.apart (h : t.Climbing d n) {c : Link} (hc : t.live c) (hm : t.matches t.unode c)
    (hd : d c ≤ d t.unode) (hne : c ≠ t.unode) (hup : c ≠ t.up t.unode) : t.Apart t.unode c where
  left := h.at_live
  right := hc
  not_above hu := Nat.not_lt.2 hd (h.formed.depth_lt hu hne)
  not_below hu := hup (h.above_eq_up hu hne (congrArg BitVec.toNat hm.1))

theorem Tree.Apart.swap {a b : Link} (h : t.Apart a b) (hf : t.Formed d) : t.swap a b = some (t.exchange a b) := by
  refine if_neg fun hanc => ?_
  rcases Bool.or_eq_true_iff.1 hanc with hanc | hanc
  · exact h.not_above (hf.isAncestor_under _ h.right hanc).1
  · exact h.not_below (hf.isAncestor_under _ h.left hanc).1

/-- The exchange of nodes of one weight keeps the weights in order. -/
theorem Tree.Climbing.crossed {u : Tree} {c : Link} (h : t.Climbing d n) (ha : t.Apart t.unode c)
    (hx : t.Crossed u t.unode c) (hc : c ≠ t.nyt) (hw : t.weightOf c = t.weightOf t.unode) :
    u.Climbing (t.crossedDepth d t.unode c) n := by
  have hf := h.formed
  have hweight {l : Link} (hl : t.live l) : u.weightOf (Machine.crossed t.unode c l) = t.weightOf l := by
    rw [hx.weight (ha.crossed_live hl)]
    by_cases hlu : l = t.unode
    · rw [hlu, crossed_fst, hw]
    · by_cases hlc : l = c
      · rw [hlc, crossed_snd, hw]
      · rw [crossed_other hlu hlc]
  constructor
  case formed => exact hx.formed ha hf h.at_ne_nyt hc
  case at_live => rw [hx.live_iff, hx.unode]; exact h.at_live
  case at_ne_nyt => rw [hx.unode, hx.nyt]; exact h.at_ne_nyt
  case weight_sum =>
    intro l hl hi
    rw [hx.live_iff] at hl
    rw [hx.isInternal ha hf hl] at hi
    obtain ⟨hleft, hright, -⟩ := hf.internal hl hi
    rw [hx.unode, hx.weight hl, hx.left hl, hx.right hl, hweight hleft, hweight hright]
    exact h.weight_sum l hl hi
  case root_weight => rw [hx.root, hx.weight hf.root_live, h.root_weight]
  case nyt_weight => rw [hx.nyt, hx.weight hf.nyt_live, h.nyt_weight]
  case zero_weight =>
    intro l hl hzero
    rw [hx.live_iff] at hl
    rw [hx.weight hl] at hzero
    rw [hx.nyt, hx.unode]
    exact h.zero_weight l hl hzero

/-- One turn of `Update` up to its count: the walk's node has found its place, which is no deeper. -/
theorem Tree.Climbing.updateAt (h : t.Climbing d n) :
    ∃ (u : Tree) (d' : Link → Nat), t.updateAt = some u.increment ∧ u.Climbing d' n ∧ u.unode = t.unode ∧ d' t.unode ≤ d t.unode ∧
      u.sym = t.sym := by
  obtain ⟨c, hfind, hc, hm, hd⟩ := h.formed.findCandidate h.at_live
  rw [Tree.updateAt_eq, hfind, Option.bind_some]
  by_cases hswap : c ≠ t.unode ∧ c ≠ (t.node t.unode).parent
  · have hapart := h.apart hc hm hd hswap.1 hswap.2
    have hx := hapart.exchange h.formed
    have hnyt := h.formed.candidate_ne_nyt h.at_live h.at_ne_nyt hm
    rw [if_pos hswap, hapart.swap h.formed, Option.bind_some]
    refine ⟨_, _, rfl, h.crossed hapart hx hnyt (congrArg BitVec.toNat hm.1), hx.unode, ?_, hx.sym⟩
    rw [Tree.crossedDepth_fst]
    exact hd
  · rw [if_neg hswap, Option.bind_some]
    exact ⟨t, d, rfl, h, rfl, le_rfl, rfl⟩

/-! ### Counting the symbol -/

theorem Tree.node_increment (h : t.live t.unode) (hsize : t.nnodes.toNat ≤ 513) (m : Link) :
    t.increment.node m =
      if m = t.unode then { t.node t.unode with weight := (t.node t.unode).weight + 1#64 } else t.node m := by
  split
  · subst m
    exact t.node_put_same _ _ (h.trans_le hsize)
  · exact t.node_put_other _ _ _ ‹_›

/-- The tree `u` is `t` with the symbol counted at the walk's node. -/
structure Tree.Counted (t u : Tree) : Prop extends t.Reweighed u where
  weight : ∀ l, u.weightOf l = t.weightOf l + if l = t.unode then 1 else 0

theorem Tree.Climbing.counted (h : t.Climbing d n) (hn : n + 1 < 2 ^ 64) : t.Counted t.increment := by
  have hnode := Tree.node_increment h.at_live h.formed.size_le
  refine ⟨⟨rfl, rfl, rfl, rfl, fun m => ?_⟩, fun m => ?_⟩
  · rw [hnode]
    split
    · subst m
      rfl
    · rfl
  · rw [Tree.weightOf, hnode]
    split
    · subst m
      have hle := h.weight_le_root
      rw [BitVec.toNat_add, Nat.mod_eq_of_lt]
      · rfl
      · change t.weightOf t.unode + 1 < 2 ^ 64
        omega
    · rfl

/-- The walk's register is no part of what is counted. -/
theorem Tree.Counted.walk {u : Tree} (hc : t.Counted u) (l : Link) : t.Counted { u with unode := l } :=
  ⟨⟨hc.root, hc.nyt, hc.nnodes, hc.sym, hc.node⟩, hc.weight⟩

/-- How many children of `l` are the slot `c`. -/
theorem Tree.Formed.children_count (hf : t.Formed d) {l c : Link} (hl : t.live l) (hi : t.isInternal l = true)
    (hc : t.live c) :
    ((if (t.node l).left = c then 1 else 0) + if (t.node l).right = c then 1 else 0) =
      if c ≠ t.root ∧ l = t.up c then 1 else 0 := by
  obtain ⟨-, -, hdiff, -⟩ := hf.internal hl hi
  by_cases hchild : c ≠ t.root ∧ l = t.up c
  · obtain ⟨hroot, rfl⟩ := id hchild
    rw [if_pos hchild]
    rcases (hf.parents c hc hroot).2 with e | e
    · rw [if_pos e, if_neg fun e' => hdiff (e.trans e'.symm)]
    · rw [if_pos e, if_neg fun e' => hdiff (e'.trans e.symm)]
  · have hnot (e : (t.node l).left = c ∨ (t.node l).right = c) : False := by
      obtain ⟨hup, hroot⟩ := hf.child_live hl hc e
      exact hchild ⟨hroot, hup.symm⟩
    rw [if_neg fun e => hnot (.inl e), if_neg fun e => hnot (.inr e), if_neg hchild]

/-- After the count, the sums are in order but at the parent. -/
theorem Tree.Climbing.sum_counted {u : Tree} (h : t.Climbing d n) (hc : t.Counted u) {l : Link} (hl : t.live l)
    (hi : t.isInternal l = true) :
    u.weightOf l + (if t.unode ≠ t.root ∧ l = t.up t.unode then 1 else 0) =
      u.weightOf (t.node l).left + u.weightOf (t.node l).right := by
  have hcount := h.formed.children_count hl hi h.at_live
  have hsum := h.weight_sum l hl hi
  rw [hc.weight, hc.weight, hc.weight, ← hcount]
  omega

theorem Tree.Climbing.nyt_counted {u : Tree} (h : t.Climbing d n) (hc : t.Counted u) : u.weightOf t.nyt = 0 := by
  rw [hc.weight, if_neg h.at_ne_nyt.symm, h.nyt_weight]

theorem Tree.Climbing.zero_counted {u : Tree} (h : t.Climbing d n) (hc : t.Counted u) {l : Link} (hl : t.live l)
    (hzero : u.weightOf l = 0) : l = t.nyt := by
  rw [hc.weight] at hzero
  refine (h.zero_weight l hl (by omega)).resolve_right fun e => ?_
  rw [if_pos e] at hzero
  omega

/-- The walk goes on at the parent. -/
theorem Tree.Climbing.next {u : Tree} (h : t.Climbing d n) (hc : t.Counted u) (hroot : t.unode ≠ t.root)
    (hu : u.unode = t.up t.unode) : u.Climbing d n := by
  have hf := h.formed
  constructor
  case formed => exact hc.formed hf
  case at_live => rw [hc.live_iff, hu]; exact (hf.parents _ h.at_live hroot).1
  case at_ne_nyt =>
    rw [hu, hc.nyt]
    intro e
    have hi := hf.up_internal h.at_live hroot
    rw [e, Tree.isInternal_iff] at hi
    exact hi hf.nyt_leaf.1
  case weight_sum =>
    intro l hl hi
    rw [hc.live_iff] at hl
    rw [hc.isInternal] at hi
    have hsum := h.sum_counted hc hl hi
    simp only [hroot, ne_eq, not_false_eq_true, true_and] at hsum
    rw [hc.left, hc.right, hu]
    exact hsum
  case root_weight => rw [hc.root, hc.weight, if_neg (Ne.symm hroot), h.root_weight, Nat.add_zero]
  case nyt_weight => rw [hc.nyt, h.nyt_counted hc]
  case zero_weight =>
    intro l hl hzero
    rw [hc.live_iff] at hl
    rw [hc.nyt]
    exact .inl (h.zero_counted hc hl hzero)

/-- The walk ends at the root. -/
theorem Tree.Climbing.done {u : Tree} (h : t.Climbing d n) (hc : t.Counted u) (hroot : t.unode = t.root) :
    u.Valid (n + 1) := by
  refine (hc.formed h.formed).valid (fun l hl hi => ?_) ?_ fun l hl => ⟨fun hzero => ?_, fun e => ?_⟩
  · rw [hc.live_iff] at hl
    rw [hc.isInternal] at hi
    have hsum := h.sum_counted hc hl hi
    rw [if_neg fun hne => hne.1 hroot] at hsum
    rw [hc.left, hc.right]
    exact hsum
  · rw [hc.root, hc.weight, if_pos hroot.symm, h.root_weight]
  · rw [hc.live_iff] at hl
    rw [hc.nyt]
    exact h.zero_counted hc hl hzero
  · rw [e, hc.nyt, h.nyt_counted hc]

/-- The whole walk: every turn brings it one level up. -/
theorem Tree.Climbing.climb (fuel : Nat) (h : t.Climbing d n) (hn : n + 1 < 2 ^ 64) (hfuel : d t.unode < fuel) :
    ∃ u, Tree.climb fuel t = some u ∧ u.Valid (n + 1) ∧ u.sym = t.sym := by
  induction fuel generalizing t d with
  | zero => exact absurd hfuel (Nat.not_lt_zero _)
  | succ fuel ih =>
    obtain ⟨u, d', hturn, hu, hunode, hd, hsym⟩ := h.updateAt
    have hcount := hu.counted hn
    unfold Tree.climb
    rw [hturn]
    dsimp only [bind, Option.bind]
    split
    · exact ⟨_, rfl, hu.done hcount ‹_›, hcount.sym.trans hsym⟩
    · rename_i hroot
      have hroot : u.unode ≠ u.root := hroot
      have hup := hu.formed.depth_up u.unode hu.at_live hroot
      have hnext := hcount.walk (u.increment.node u.increment.unode).parent
      obtain ⟨w, hw, hvalid, hwsym⟩ := ih (hu.next hnext hroot (hcount.up _)) (by
        change d' (u.increment.up u.unode) < fuel
        rw [hcount.up]
        rw [hunode] at hup
        rw [hunode]
        omega)
      exact ⟨w, hw, hvalid, hwsym.trans (hcount.sym.trans hsym)⟩

/-- `Update` completes, and counts the symbol. -/
theorem Tree.Climbing.update {l : Link} (h : Tree.Climbing { t with unode := l } d n) (hn : n + 1 < 2 ^ 64) :
    ∃ u, t.update l = some u ∧ u.Valid (n + 1) ∧ u.sym = t.sym :=
  h.climb Config.nodeFileSize hn (h.formed.depth_bound h.at_live)

end Climbing

/-! ### A known symbol -/

section Valid

variable {t : Tree} {n : Nat}

/-- `Update` starts at the leaf of a known symbol. -/
theorem Tree.Valid.climbing_leaf (h : t.Valid n) {l : Link} (hl : t.live l) (hne : l ≠ t.nyt)
    (hleaf : t.isInternal l = false) : ∃ d, Tree.Climbing { t with unode := l } d n := by
  obtain ⟨d, hf⟩ := h.formed
  have hr : t.Reweighed { t with unode := l } := ⟨rfl, rfl, rfl, rfl, fun _ => rfl⟩
  refine ⟨d, hr.formed hf, hl, hne, fun m hm hi => ?_, h.root_weight, (h.zero_weight _ h.nyt_live).2 rfl,
    fun m hm hzero => .inl ((h.zero_weight m hm).1 hzero)⟩
  have hi : t.isInternal m = true := hi
  have hml : m ≠ l := by
    rintro rfl
    exact Bool.false_ne_true (hleaf.symm.trans hi)
  dsimp only
  rw [if_neg hml, Nat.add_zero]
  exact h.weight_sum m hm hi

/-- `Update` of a leaf but the NYT leaf. -/
theorem Tree.Valid.update_leaf (h : t.Valid n) (hn : n + 1 < 2 ^ 64) {l : Link} (hl : t.live l) (hne : l ≠ t.nyt)
    (hleaf : t.isInternal l = false) : ∃ u, t.update l = some u ∧ u.Valid (n + 1) ∧ u.sym = t.sym := by
  obtain ⟨d, hclimb⟩ := h.climbing_leaf hl hne hleaf
  exact hclimb.update hn

/-! ### A new symbol (R164) -/

/-- One more member of a list satisfies the predicate. -/
theorem countP_one_more {α : Type} {p q : α → Bool} {x : α} {xs : List α} (hx : x ∈ xs) (hnodup : xs.Nodup)
    (hp : p x = false) (hq : q x = true) (hother : ∀ y ∈ xs, y ≠ x → q y = p y) :
    xs.countP q = xs.countP p + 1 := by
  induction xs with
  | nil => exact absurd hx List.not_mem_nil
  | cons y ys ih =>
    obtain ⟨hy, hnodup⟩ := List.nodup_cons.1 hnodup
    obtain ⟨hhead, htail⟩ := List.forall_mem_cons.1 hother
    by_cases hyx : y = x
    · subst y
      have hrest : ys.countP q = ys.countP p := List.countP_congr fun z hz => by
        rw [htail z hz fun e => hy (e ▸ hz)]
      rw [List.countP_cons_of_pos hq, List.countP_cons_of_neg (by simp [hp]), hrest]
    · have hrest := ih ((List.mem_cons.1 hx).resolve_left (Ne.symm hyx)) hnodup htail
      rw [List.countP_cons, List.countP_cons, hhead hyx, hrest]
      omega

theorem Tree.symOf_grown (t : Tree) (b c : Byte) :
    (t.grown b).symOf c = if c = b then t.nnodes + 1#10 else t.symOf c := by
  split
  · subst c
    exact Tree.symOf_setSym_same _ _ _
  · exact Tree.symOf_setSym_other _ _ _ _ ‹_›

end Valid

section Grown

variable {t : Tree} {d : Link → Nat} {n : Nat} {b : Byte}

/-- The two slots that a split takes into use are no links to none. -/
theorem Tree.Formed.new_ne_nil (hf : t.Formed d) : t.nnodes ≠ nilLink ∧ t.nnodes + 1#10 ≠ nilLink := by
  have hsize := hf.size_le
  refine ⟨fun e => ?_, fun e => ?_⟩
  · have he := congrArg BitVec.toNat e
    simp only [BitVec.toNat_ofNat] at he
    omega
  · have he := congrArg BitVec.toNat e
    simp only [BitVec.toNat_add, BitVec.toNat_ofNat] at he
    omega

/-- A new symbol is one symbol more (R162). -/
theorem Tree.Formed.seen_grown (hf : t.Formed d) (hb : t.symOf b = nilLink) : (t.grown b).seen = t.seen + 1 := by
  unfold Tree.seen
  refine countP_one_more (x := b.toNat) (List.mem_range.2 b.isLt) List.nodup_range ?_ ?_ fun y hy hne => ?_
  · simp [hb]
  · simp [Tree.symOf_grown, hf.new_ne_nil.2]
  · have hyb : BitVec.ofNat 8 y ≠ b := by
      rintro rfl
      exact hne (by rw [BitVec.toNat_ofNat, Nat.mod_eq_of_lt (List.mem_range.1 hy)])
    rw [Tree.symOf_grown, if_neg hyb]

/-- The node file has room for a new symbol (R162). -/
theorem Tree.Formed.room (hf : t.Formed d) (hb : t.symOf b = nilLink) : t.nnodes.toNat + 2 ≤ 513 := by
  have hsize := hf.size
  have hseen := hf.seen_grown hb
  have hle := (t.grown b).seen_le
  omega

/-- The tree after a split, in terms of the nodes before it: the old NYT leaf gets the two new slots as its children,
and nothing else changes. -/
structure Tree.Split (t u : Tree) (b : Byte) (l r : Link) : Prop where
  root : u.root = t.root
  nyt : u.nyt = l
  nnodes : u.nnodes.toNat = t.nnodes.toNat + 2
  symOf : ∀ c, u.symOf c = if c = b then r else t.symOf c
  live : ∀ m, u.live m ↔ t.live m ∨ m = l ∨ m = r
  new : ¬ t.live l ∧ ¬ t.live r ∧ l ≠ r ∧ l ≠ nilLink ∧ r ≠ nilLink
  top : u.node t.nyt = { t.node t.nyt with left := l, right := r }
  left : u.node l =
    { parent := t.nyt, left := nilLink, right := nilLink, index := (t.node t.nyt).index - 2#32, weight := 0, value := 0 }
  right : u.node r =
    { parent := t.nyt, left := nilLink, right := nilLink, index := (t.node t.nyt).index - 1#32, weight := 1, value := b }
  other : ∀ m, t.live m → m ≠ t.nyt → u.node m = t.node m

theorem Tree.Formed.split (hf : t.Formed d) (hb : t.symOf b = nilLink) :
    t.split b = some (t.grown b, t.nyt) ∧ t.Split (t.grown b) b t.nnodes (t.nnodes + 1#10) := by
  have hroom := hf.room hb
  have hnode := Tree.node_grown b hroom hf.nyt_live
  have hr : (t.nnodes + 1#10).toNat = t.nnodes.toNat + 1 := by bv_omega
  have hcount : (t.grown b).nnodes.toNat = t.nnodes.toNat + 2 := by
    change (t.nnodes + 2#10).toNat = _
    bv_omega
  have hl' : ¬ t.live t.nnodes := Nat.lt_irrefl _
  have hr' : ¬ t.live (t.nnodes + 1#10) := fun h => by rw [Tree.live, hr] at h; omega
  have hlr : t.nnodes ≠ t.nnodes + 1#10 := fun e => by have := congrArg BitVec.toNat e; omega
  have hlo : t.nnodes ≠ t.nyt := fun e => hl' (e ▸ hf.nyt_live)
  have hro : t.nnodes + 1#10 ≠ t.nyt := fun e => hr' (e ▸ hf.nyt_live)
  refine ⟨by rw [Tree.split_eq, if_neg (Nat.not_lt.2 hroom)], rfl, rfl, hcount, t.symOf_grown b, fun m => ?_,
    ⟨hl', hr', hlr, hf.new_ne_nil.1, hf.new_ne_nil.2⟩, ?_, ?_, ?_, fun m hm hne => ?_⟩
  · rw [Tree.live, hcount, Tree.live, ← BitVec.toNat_inj, ← BitVec.toNat_inj, hr]
    omega
  · rw [hnode, if_pos rfl]
  · rw [hnode, if_neg hlo, if_neg hlr, if_pos rfl]
  · rw [hnode, if_neg hro, if_pos rfl]
  · have hml : m ≠ t.nnodes := fun e => hl' (e ▸ hm)
    have hmr : m ≠ t.nnodes + 1#10 := fun e => hr' (e ▸ hm)
    rw [hnode, if_neg hne, if_neg hmr, if_neg hml]

/-- The depth of each slot after a split. -/
def Tree.splitDepth (t : Tree) (d : Link → Nat) (l : Link) : Nat :=
  if l.toNat < t.nnodes.toNat then d l else d t.nyt + 1

section Split

variable {u : Tree} {l r : Link}

/-- What a split leaves of a slot that was in use. -/
theorem Tree.Split.kept (hs : t.Split u b l r) {m : Link} (hm : t.live m) :
    u.up m = t.up m ∧ u.indexOf m = t.indexOf m ∧ u.weightOf m = t.weightOf m := by
  by_cases hne : m = t.nyt
  · rw [Tree.up, Tree.indexOf, Tree.weightOf, hne, hs.top]
    exact ⟨rfl, rfl, rfl⟩
  · rw [Tree.up, Tree.indexOf, Tree.weightOf, hs.other m hm hne]
    exact ⟨rfl, rfl, rfl⟩

theorem Tree.Split.new_up (hs : t.Split u b l r) : u.up l = t.nyt ∧ u.up r = t.nyt := by
  rw [Tree.up, Tree.up, hs.left, hs.right]
  exact ⟨rfl, rfl⟩

/-- The indices of the two new slots (R164, R170). -/
theorem Tree.Split.new_index (hs : t.Split u b l r) (hf : t.Formed d) (hroom : t.nnodes.toNat + 2 ≤ 513) :
    u.indexOf l + 2 = 514 - t.nnodes.toNat ∧ u.indexOf r + 1 = 514 - t.nnodes.toNat := by
  have hidx : (t.node t.nyt).index.toNat = 514 - t.nnodes.toNat := hf.nyt_index
  rw [Tree.indexOf, Tree.indexOf, hs.left, hs.right]
  dsimp only
  bv_omega

/-- The old NYT leaf is internal after the split, the new slots are leaves, and the rest is as before. -/
theorem Tree.Split.isInternal (hs : t.Split u b l r) :
    u.isInternal t.nyt = true ∧ u.isInternal l = false ∧ u.isInternal r = false ∧
      ∀ m, t.live m → m ≠ t.nyt → u.isInternal m = t.isInternal m := by
  obtain ⟨-, -, -, hl, -⟩ := hs.new
  refine ⟨?_, ?_, ?_, fun m hm hne => ?_⟩
  · rw [Tree.isInternal_iff, hs.top]
    exact hl
  · rw [Tree.isInternal_eq_false_iff, hs.left]
  · rw [Tree.isInternal_eq_false_iff, hs.right]
  · rw [Tree.isInternal, hs.other m hm hne, Tree.isInternal]

/-- A split keeps the form of the tree (R164). -/
theorem Tree.Split.formed (hs : t.Split u b l r) (hf : t.Formed d) (hb : t.symOf b = nilLink)
    (hroom : t.nnodes.toNat + 2 ≤ 513) (hseen : u.seen = t.seen + 1) : u.Formed (t.splitDepth d) := by
  obtain ⟨hl, hr, hlr, hlnil, hrnil⟩ := hs.new
  obtain ⟨hupl, hupr⟩ := hs.new_up
  obtain ⟨hidxl, hidxr⟩ := hs.new_index hf hroom
  obtain ⟨hitop, hil, hir, hiold⟩ := hs.isInternal
  have hold {m : Link} (hm : t.live m) : u.live m := (hs.live m).2 (.inl hm)
  have hlo : l ≠ t.nyt := fun e => hl (e ▸ hf.nyt_live)
  have hro : r ≠ t.nyt := fun e => hr (e ▸ hf.nyt_live)
  have hdold {m : Link} (hm : t.live m) : t.splitDepth d m = d m := if_pos hm
  have hdnew {m : Link} (hm : ¬ t.live m) : t.splitDepth d m = d t.nyt + 1 := if_neg hm
  constructor
  case size => rw [hs.nnodes, hseen, hf.size]; ring
  case root_slot => rw [hs.root, hf.root_slot]
  case root_parent => rw [hs.root, (hs.kept hf.root_live).1, hf.root_parent]
  case nyt_live => rw [hs.nyt, hs.live]; exact .inr (.inl rfl)
  case nyt_leaf => rw [hs.nyt, hs.left]; exact ⟨rfl, rfl⟩
  case children =>
    intro m hm
    rcases (hs.live m).1 hm with hm | rfl | rfl
    · by_cases hne : m = t.nyt
      · rw [hne, hs.top]
        exact .inr ⟨(hs.live l).2 (.inr (.inl rfl)), (hs.live r).2 (.inr (.inr rfl)), hlr, hupl, hupr⟩
      · rw [hs.other m hm hne]
        refine (hf.children m hm).imp_right ?_
        rintro ⟨hleft, hright, hdiff, hul, hur⟩
        exact ⟨hold hleft, hold hright, hdiff, (hs.kept hleft).1.trans hul, (hs.kept hright).1.trans hur⟩
    · rw [hs.left]
      exact .inl ⟨rfl, rfl⟩
    · rw [hs.right]
      exact .inl ⟨rfl, rfl⟩
  case parents =>
    intro m hm hroot
    rw [hs.root] at hroot
    rcases (hs.live m).1 hm with hm | rfl | rfl
    · obtain ⟨hup, hchild⟩ := hf.parents m hm hroot
      have hne : t.up m ≠ t.nyt := fun e => by
        have hi := hf.up_internal hm hroot
        rw [e, Tree.isInternal_iff] at hi
        exact hi hf.nyt_leaf.1
      rw [(hs.kept hm).1, hs.other _ hup hne]
      exact ⟨hold hup, hchild⟩
    · rw [hupl, hs.top]
      exact ⟨hold hf.nyt_live, .inl rfl⟩
    · rw [hupr, hs.top]
      exact ⟨hold hf.nyt_live, .inr rfl⟩
  case depth_root => rw [hs.root, hdold hf.root_live, hf.depth_root]
  case depth_up =>
    intro m hm hroot
    rw [hs.root] at hroot
    rcases (hs.live m).1 hm with hm | rfl | rfl
    · rw [(hs.kept hm).1, hdold hm, hdold (hf.parents m hm hroot).1, hf.depth_up m hm hroot]
    · rw [hupl, hdnew hl, hdold hf.nyt_live]
    · rw [hupr, hdnew hr, hdold hf.nyt_live]
  case index_range =>
    intro m hm
    rw [hs.nnodes]
    rcases (hs.live m).1 hm with hm | rfl | rfl
    · have hrange := hf.index_range m hm
      rw [(hs.kept hm).2.1]
      omega
    · omega
    · omega
  case index_unique =>
    intro m k hm hk e
    have hlow {x : Link} (hx : t.live x) : 514 - t.nnodes.toNat ≤ u.indexOf x := by
      rw [(hs.kept hx).2.1]
      exact (hf.index_range x hx).1
    rcases (hs.live m).1 hm with hm | rfl | rfl <;> rcases (hs.live k).1 hk with hk | rfl | rfl
    case inl.inl =>
      rw [(hs.kept hm).2.1, (hs.kept hk).2.1] at e
      exact hf.index_unique m k hm hk e
    case inl.inr.inl | inl.inr.inr =>
      have := hlow hm
      omega
    case inr.inl.inl | inr.inr.inl =>
      have := hlow hk
      omega
    case inr.inl.inr.inl | inr.inr.inr.inr => rfl
    case inr.inl.inr.inr | inr.inr.inr.inl => omega
  case nyt_index => rw [hs.nyt, hs.nnodes]; omega
  case siblings =>
    intro m hm hi
    rcases (hs.live m).1 hm with hm | rfl | rfl
    · by_cases hne : m = t.nyt
      · rw [hne, hs.top]
        dsimp only
        omega
      · rw [hiold m hm hne] at hi
        obtain ⟨hleft, hright, -⟩ := hf.internal hm hi
        rw [hs.other m hm hne, (hs.kept hleft).2.1, (hs.kept hright).2.1, hf.siblings m hm hi]
    · exact absurd (hi.symm.trans hil) (by decide)
    · exact absurd (hi.symm.trans hir) (by decide)
  case sym_leaf =>
    intro c hc
    rw [hs.symOf] at hc ⊢
    by_cases hcb : c = b
    · rw [if_pos hcb, hs.nyt, hs.right, hcb]
      exact ⟨(hs.live r).2 (.inr (.inr rfl)), hlr.symm, hir, rfl⟩
    · rw [if_neg hcb] at hc ⊢
      obtain ⟨hm, hne, hleaf, hvalue⟩ := hf.sym_leaf c hc
      rw [hs.nyt, hs.other _ hm hne]
      exact ⟨hold hm, fun e => hl (e ▸ hm), (hiold _ hm hne).trans hleaf, hvalue⟩
  case leaf_sym =>
    intro m hm hne hleaf
    rw [hs.nyt] at hne
    rcases (hs.live m).1 hm with hm | rfl | rfl
    · have hmo : m ≠ t.nyt := fun e => by
        rw [e, hitop] at hleaf
        cases hleaf
      rw [hiold m hm hmo] at hleaf
      have hsym := hf.leaf_sym m hm hmo hleaf
      rw [hs.other m hm hmo, hs.symOf, if_neg, hsym]
      intro e
      rw [e, hb] at hsym
      exact hf.live_ne_nil hm hsym.symm
    · exact absurd rfl hne
    · rw [hs.right, hs.symOf, if_pos rfl]

/-- After a split, `Update` starts at the old NYT leaf. -/
theorem Tree.Split.climbing (hs : t.Split u b l r) (h : t.Valid n) (hf : t.Formed d) (hu : u.Formed (t.splitDepth d)) :
    Tree.Climbing { u with unode := t.nyt } (t.splitDepth d) n := by
  obtain ⟨hl, hr, hlr, -⟩ := hs.new
  obtain ⟨hitop, hil, hir, hiold⟩ := hs.isInternal
  have hwr : u.weightOf r = 1 := by rw [Tree.weightOf, hs.right]; rfl
  have hwl : u.weightOf l = 0 := by rw [Tree.weightOf, hs.left]; rfl
  have hwo : u.weightOf t.nyt = 0 := (hs.kept hf.nyt_live).2.2.trans ((h.zero_weight _ hf.nyt_live).2 rfl)
  have hr' : u.Reweighed { u with unode := t.nyt } := ⟨rfl, rfl, rfl, rfl, fun _ => rfl⟩
  refine ⟨hr'.formed hu, (hs.live _).2 (.inl hf.nyt_live), fun e => hl ?_, fun m hm hi => ?_, ?_, ?_,
    fun m hm hzero => ?_⟩
  · exact (e.trans hs.nyt) ▸ hf.nyt_live
  · change u.weightOf m + (if m = t.nyt then 1 else 0) = u.weightOf (u.node m).left + u.weightOf (u.node m).right
    rcases (hs.live m).1 hm with hm | rfl | rfl
    · by_cases hne : m = t.nyt
      · rw [if_pos hne, hne, hs.top, hwo, hwl, hwr]
      · have hi : t.isInternal m = true := (hiold m hm hne).symm.trans hi
        obtain ⟨hleft, hright, -⟩ := hf.internal hm hi
        rw [if_neg hne, hs.other m hm hne, (hs.kept hm).2.2, (hs.kept hleft).2.2, (hs.kept hright).2.2]
        exact h.weight_sum m hm hi
    · exact absurd (Eq.trans (Eq.symm hi) hil) (by decide)
    · exact absurd (Eq.trans (Eq.symm hi) hir) (by decide)
  · change u.weightOf u.root = n
    rw [hs.root, (hs.kept hf.root_live).2.2, h.root_weight]
  · change u.weightOf u.nyt = 0
    rw [hs.nyt, hwl]
  · have hzero : u.weightOf m = 0 := hzero
    change m = u.nyt ∨ m = t.nyt
    rw [hs.nyt]
    rcases (hs.live m).1 hm with hm | rfl | rfl
    · rw [(hs.kept hm).2.2] at hzero
      exact .inr ((h.zero_weight m hm).1 hzero)
    · exact .inl rfl
    · omega

end Split

/-- `Split` and `Update` introduce a new symbol (R164, R167, R204). -/
theorem Tree.Valid.introduce (h : t.Valid n) (hn : n + 1 < 2 ^ 64) (hb : t.symOf b = nilLink) :
    ∃ t1 u, t.split b = some (t1, t.nyt) ∧ t1.update t.nyt = some u ∧ u.Valid (n + 1) ∧ u.symOf b ≠ nilLink ∧
      ∀ c, c ≠ b → u.symOf c = t.symOf c := by
  obtain ⟨d, hf⟩ := h.formed
  obtain ⟨hsplit, hs⟩ := hf.split hb
  have hu := hs.formed hf hb (hf.room hb) (hf.seen_grown hb)
  obtain ⟨u, hupdate, hvalid, hsym⟩ := (hs.climbing h hf hu).update hn
  have hsymOf (c : Byte) : u.symOf c = if c = b then t.nnodes + 1#10 else t.symOf c := by
    rw [← hs.symOf c, Tree.symOf, hsym, Tree.symOf]
  refine ⟨_, u, hsplit, hupdate, hvalid, ?_, fun c hc => ?_⟩
  · rw [hsymOf, if_pos rfl]
    exact hf.new_ne_nil.2
  · rw [hsymOf, if_neg hc]

end Grown

/-! ### A fresh tree (R161) -/

theorem Tree.init_live (t : Tree) (l : Link) : t.init.live l ↔ l = 0#10 := by
  change l.toNat < 1 ↔ _
  rw [← BitVec.toNat_inj, BitVec.toNat_zero]
  omega

theorem Tree.init_leaf (t : Tree) : t.init.isInternal 0#10 = false := by
  rw [Tree.isInternal_eq_false_iff, Tree.init_node_root]

theorem Tree.init_seen (t : Tree) : t.init.seen = 0 := by
  simp [Tree.seen, t.init_symOf]

theorem Tree.init_formed (t : Tree) : t.init.Formed fun _ => 0 := by
  have hone {l : Link} (hl : t.init.live l) : l = 0#10 := (t.init_live l).1 hl
  have hleaf {l : Link} (hl : t.init.live l) : t.init.isInternal l = false := hone hl ▸ t.init_leaf
  have hindex : t.init.indexOf 0#10 = 513 := by rw [Tree.indexOf, Tree.init_node_root]; rfl
  have hnode := t.init_node_root
  constructor
  case size => rw [t.init_seen]; rfl
  case root_slot => rfl
  case root_parent => exact (congrArg TreeNode.parent hnode :)
  case nyt_live => exact (t.init_live _).2 rfl
  case nyt_leaf => exact ⟨(congrArg TreeNode.left hnode :), (congrArg TreeNode.right hnode :)⟩
  case children =>
    intro l hl
    rw [hone hl, hnode]
    exact .inl ⟨rfl, rfl⟩
  case parents => exact fun l hl hroot => absurd (hone hl) hroot
  case depth_root => rfl
  case depth_up => exact fun l hl hroot => absurd (hone hl) hroot
  case index_range =>
    intro l hl
    rw [hone hl, hindex]
    exact ⟨le_rfl, le_rfl⟩
  case index_unique => exact fun l m hl hm _ => (hone hl).trans (hone hm).symm
  case nyt_index => exact hindex
  case siblings => exact fun l hl hi => absurd (hi.symm.trans (hleaf hl)) (by decide)
  case sym_leaf => exact fun b hb => absurd (t.init_symOf b) hb
  case leaf_sym => exact fun l hl hne => absurd (hone hl) hne

/-- `TreeInit` makes a valid tree without symbols. -/
theorem Tree.init_valid (t : Tree) : t.init.Valid 0 := by
  have hweight : t.init.weightOf 0#10 = 0 := by rw [Tree.weightOf, Tree.init_node_root]; rfl
  refine t.init_formed.valid (fun l hl hi => ?_) hweight fun l hl => ?_
  · rw [(t.init_live l).1 hl, t.init_leaf] at hi
    cases hi
  · rw [(t.init_live l).1 hl]
    exact ⟨fun _ => rfl, fun _ => hweight⟩

end Sys2Proof.Machine
end

section
/-! PROOF for O32: ESC introduces a new symbol, or refuses a known one. -/

namespace Sys2Proof.Machine

/-! ### The reader after several bits (R196, R197) -/

/-- The position after one bit, as far as the registers can hold it. -/
theorem HufRegs.takeBit_advance (h : HufRegs) (hri : h.ri.toNat ≤ 8)
    (hroom : 8 * h.rb.toNat + h.ri.toNat + 1 ≤ 8 * 2 ^ 64) :
    8 * h.takeBit.rb.toNat + h.takeBit.ri.toNat = 8 * h.rb.toNat + h.ri.toNat + 1 ∧ 1 ≤ h.takeBit.ri.toNat ∧
      h.takeBit.ri.toNat ≤ 8 := by
  rcases Nat.lt_or_ge (h.rb.toNat + 1) (2 ^ 64) with hrb | hrb
  · exact h.takeBit_position hri hrb
  · have hne : h.ri ≠ 8#4 := by
      intro e
      have he : h.ri.toNat = 8 := congrArg BitVec.toNat e
      omega
    have hlt : h.ri.toNat ≠ 8 := fun e => hne (BitVec.eq_of_toNat_eq e)
    have hnext : (h.ri + 1#4).toNat = h.ri.toNat + 1 := by bv_omega
    rw [HufRegs.takeBit, if_neg hne]
    dsimp only
    omega

theorem HufRegs.takeBits_advance (h : HufRegs) (n : Nat) (hri : h.ri.toNat ≤ 8)
    (hroom : 8 * h.rb.toNat + h.ri.toNat + n ≤ 8 * 2 ^ 64) :
    8 * (h.takeBits n).rb.toNat + (h.takeBits n).ri.toNat = 8 * h.rb.toNat + h.ri.toNat + n ∧
      (h.takeBits n).ri.toNat ≤ 8 ∧ (0 < n → 1 ≤ (h.takeBits n).ri.toNat) := by
  induction n generalizing h with
  | zero => exact ⟨rfl, hri, fun hn => absurd hn (Nat.lt_irrefl 0)⟩
  | succ n ih =>
    obtain ⟨hone, hlow, hhigh⟩ := h.takeBit_advance hri (by omega)
    obtain ⟨hall, hlast, hpos⟩ := ih h.takeBit hhigh (by omega)
    refine ⟨?_, hlast, fun _ => ?_⟩
    · rw [HufRegs.takeBits, hall, hone]
      omega
    · cases n with
      | zero => exact hlow
      | succ n => exact hpos (Nat.succ_pos n)

/-- The bits taken change the position, and the descent starts again at `l`. -/
theorem HufRegs.takeBits_frame (h : HufRegs) (n : Nat) (l : Link) :
    { { h.takeBits n with dcur := l } with dcur := h.dcur, rb := h.rb, ri := h.ri } = h := by
  induction n generalizing h with
  | zero => rfl
  | succ n ih =>
    have hrest := congrArg (fun k : HufRegs => { k with dcur := h.dcur, rb := h.rb, ri := h.ri }) (ih h.takeBit)
    have hone := congrArg (fun k : HufRegs => { k with dcur := h.dcur }) h.takeBit_frame
    exact hrest.trans hone

/-! ### ESC (R98, R204) -/

/-- A byte appended to OUT changes nothing but OUT. -/
theorem State.append_out_frame {s t : State} {v : Byte} (h : s.append .out v = .ok t) :
    { t with outLen := s.outLen, outMem := s.outMem } = s ∧ t.tree = s.tree ∧ t.huf = s.huf ∧ t.seq = s.seq := by
  obtain ⟨-, rfl, -⟩ := State.append_ok h
  exact ⟨rfl, rfl, rfl, rfl⟩

theorem State.append_room {s : State} {sp : Space} (v : Byte) (h : (s.len sp).toNat < s.bufCap.toNat) :
    ∃ t, s.append sp v = .ok t := ⟨_, s.append_eq sp v h⟩

theorem runEsc_known {s : State} {v : Byte} (h : s.tree.symOf v ≠ nilLink) :
    runEsc v s = .error (.err .hufDecDupLiteral) := if_pos h

theorem runEsc_full {s : State} {v : Byte} (h : s.tree.symOf v = nilLink) (hfull : s.bufCap.toNat ≤ s.outLen.toNat) :
    runEsc v s = .error (.err .alloc) := by
  rw [runEsc, if_neg (not_not.2 h), s.append_full .out v hfull]
  rfl

/-- ESC of a symbol that the tree can introduce. -/
theorem runEsc_introduces {s t : State} {v : Byte} {p u : Tree} {o : Link} (h : s.tree.symOf v = nilLink)
    (happ : s.append .out v = .ok t) (hsplit : s.tree.split v = some (p, o)) (hupdate : p.update o = some u) :
    runEsc v s = .ok { t with tree := u, huf := { t.huf.takeBits 8 with dcur := u.root } } := by
  obtain ⟨-, htree, -⟩ := State.append_out_frame happ
  rw [runEsc, if_neg (not_not.2 h), happ]
  change (orCorrupt (t.tree.split v) >>= _) = _
  rw [htree, hsplit]
  change (orCorrupt (p.update o) >>= _) = _
  rw [hupdate]
  rfl

/-- Settles O32: a valid tree introduces every new symbol. -/
theorem escIntroducesItsSymbol : Obligations.EscIntroducesItsSymbol := by
  intro s v n hvalid hn hri hrb
  refine ⟨fun h => congrArg s.outcome (runEsc_known h), fun h hfull => congrArg s.outcome (runEsc_full h hfull),
    fun h hroom => ?_⟩
  obtain ⟨p, u, hsplit, hupdate, hu, hknown, hothers⟩ := hvalid.introduce hn h
  obtain ⟨t, happ⟩ := State.append_room (sp := .out) v hroom
  obtain ⟨-, -, hlen, hat, helse, -⟩ := State.append_ok happ
  obtain ⟨hframe, -, hhuf, -⟩ := State.append_out_frame happ
  obtain ⟨hposition, -⟩ := t.huf.takeBits_advance 8 (by rwa [hhuf]) (by rw [hhuf]; omega)
  have hreader := s.huf.takeBits_frame 8 u.root
  rw [hhuf] at hposition
  have hrun := exec_element s (i := .esc v) rfl
  rw [runElement, runEsc_introduces h happ hsplit hupdate, State.outcome_ok] at hrun
  refine ⟨_, hrun, hu, hknown, hothers, rfl, ?_, hlen, hat, helse, ?_, ?_⟩
  · dsimp only
    rw [hhuf, hposition]
  · exact (congrArg (fun x : State => { x with tree := s.tree, huf := s.huf }) hframe :)
  · rw [hhuf]
    generalize s.huf.takeBits 8 = k at hreader ⊢
    exact hreader

end Sys2Proof.Machine
end

section
/-! SUPPORT for O53: the coded payload, read by the machine and by the reference turn by turn. -/

namespace Sys2Proof

/-! ### Bits of the payload (R65) -/

theorem Reference.classifiers_getElem? (b : Byte) {j : Nat} (hj : j < 8) :
    (Reference.classifiers b)[j]? = some (b.getLsbD j) := by
  interval_cases j
  all_goals rfl

theorem Reference.payloadBits_length (bs : List Byte) : (bs.flatMap Reference.classifiers).length = 8 * bs.length := by
  induction bs with
  | nil => rfl
  | cons b bs ih =>
    rw [List.flatMap_cons, List.length_append, ih, List.length_cons]
    change 8 + _ = _
    omega

/-- Bit `p` of the payload is bit `p mod 8` of its byte `p div 8`. -/
theorem Reference.payloadBits_getElem? (bs : List Byte) (p : Nat) :
    (bs.flatMap Reference.classifiers)[p]? = bs[p / 8]?.map (·.getLsbD (p % 8)) := by
  induction bs generalizing p with
  | nil => rfl
  | cons b bs ih =>
    have hlen : (Reference.classifiers b).length = 8 := rfl
    rw [List.flatMap_cons]
    rcases Nat.lt_or_ge p 8 with hp | hp
    · rw [List.getElem?_append_left (hlen ▸ hp), Reference.classifiers_getElem? b hp, Nat.div_eq_of_lt hp,
        Nat.mod_eq_of_lt hp]
      rfl
    · obtain ⟨q, rfl⟩ := Nat.exists_eq_add_of_le hp
      rw [List.getElem?_append_right (hlen ▸ hp), hlen, Nat.add_sub_cancel_left, ih,
        Nat.add_div_left q (by decide), Nat.add_mod_left, List.getElem?_cons_succ]

namespace Machine

/-! ### One turn after the other -/

/-- The machine's run answers what the reference says: the bytes in OUT, or the fault. -/
def Answers (r : Run State) (x : Except Err (List Byte)) : Prop :=
  match x with
  | .ok out => ∃ t, r = .ok t ∧ t.output = out
  | .error e => r = .error (.err e)

theorem runTurns_ended (fuel : Nat) {s : State} (hseq : s.seq = .host) : runTurns fuel s = .ok s := by
  cases fuel
  all_goals exact if_pos hseq

theorem runTurns_succ (fuel : Nat) {s t : State} (hseq : s.seq ≠ .host) (h : s.turn = .ok t) :
    runTurns (fuel + 1) s = runTurns fuel t := by
  rw [runTurns, if_neg hseq, h]
  rfl

theorem runTurns_error (fuel : Nat) {s : State} {e : Stop} (hseq : s.seq ≠ .host) (h : s.turn = .error e) :
    runTurns (fuel + 1) s = .error e := by
  rw [runTurns, if_neg hseq, h]
  rfl

theorem State.turn_element {s t : State} {i : Instr} (hn : s.nextTurn = .ok (.element i))
    (h : runElement i s = .ok t) (hscan : t.seq ≠ .encScan) : s.turn = .ok t := by
  rw [State.turn_eq, hn]
  change runElement i s >>= State.afterElement = _
  rw [h]
  exact if_neg hscan

theorem State.turn_element_error {s : State} {i : Instr} {e : Stop} (hn : s.nextTurn = .ok (.element i))
    (h : runElement i s = .error e) : s.turn = .error e := by
  rw [State.turn_eq, hn]
  change runElement i s >>= State.afterElement = _
  rw [h]
  rfl

theorem State.turn_next_error {s : State} {e : Stop} (hn : s.nextTurn = .error e) : s.turn = .error e := by
  rw [State.turn_eq, hn]
  rfl

/-- A turn that completes keeps the stream going, and is one turn less to do. -/
theorem State.StreamSound.of_turn {s t : State} (hs : s.StreamSound) (hseq : s.seq ≠ .host) (h : s.turn = .ok t) :
    s.Turned t := by
  have hend := State.turn_ends hs hseq
  rw [h] at hend
  exact hend

/-- What an append to OUT leaves of the running stage's input. -/
theorem State.append_out_peek {s t : State} {v : Byte} (hsrc : s.src.readable) (h : s.append .out v = .ok t) :
    t.src = s.src ∧ t.peek s.src = s.peek s.src := by
  obtain ⟨hframe, -⟩ := State.append_out_frame h
  obtain ⟨-, -, -, -, -, hother⟩ := State.append_ok h
  refine ⟨(congrArg State.src hframe :), funext fun a => ?_⟩
  have hne : s.src ≠ .out := by
    intro e
    rcases hsrc with h | h
    · exact nomatch h.symm.trans e
    · exact nomatch h.symm.trans e
  rw [State.peek, (hother s.src hne).1, State.peek]

theorem State.append_out_output {s t : State} {v : Byte} (h : s.append .out v = .ok t) :
    t.output = s.output ++ [v] := State.append_bytes h

/-! ### The coded payload (R196 to R206) -/

/-- The decoder in `s` has `bits` of the payload's bits `all` left to read, and has put out `out`. -/
structure State.Reads (s : State) (all bits : List Bool) (out : List Byte) : Prop where
  stream : s.StreamSound
  seq : s.seq = .hufBits
  nonempty : 0 < s.payloadLen
  length : all.length = 8 * s.payloadLen
  bit : ∀ p, p < 8 * s.payloadLen → all[p]? = some (s.payloadBit p)
  reader : s.huf.ri.toNat ≤ 8
  start : s.huf.ri.toNat = 0 → s.huf.rb.toNat = 0
  place : 8 * s.huf.rb.toNat + s.huf.ri.toNat ≤ all.length
  left : bits = all.drop (8 * s.huf.rb.toNat + s.huf.ri.toNat)
  output : s.output = out
  tree : s.tree.Valid out.length
  node : s.tree.live s.huf.dcur

section Reads

variable {s t : State} {all bits : List Bool} {out : List Byte}

theorem State.Reads.bits_length (h : s.Reads all bits out) :
    bits.length = 8 * s.payloadLen - (8 * s.huf.rb.toNat + s.huf.ri.toNat) := by
  rw [h.left, List.length_drop, h.length]

theorem State.Reads.outLen (h : s.Reads all bits out) : s.outLen.toNat = out.length := by
  rw [← h.output, State.output_length]

theorem State.Reads.nextTurn (h : s.Reads all bits out) : s.nextTurn = s.nextHuf := by
  rw [State.nextTurn, h.seq]

theorem State.Reads.position_lt (h : s.Reads all bits out) :
    8 * s.huf.rb.toNat + s.huf.ri.toNat ≤ 8 * s.payloadLen ∧ 8 * s.payloadLen < 8 * 2 ^ 64 := by
  have hlen : s.inputLen < 2 ^ 64 := (s.len s.src).isLt
  have hplace := h.place
  have hall := h.length
  unfold State.payloadLen at *
  omega

/-- The stop rule, by the number of bits left (R198). -/
theorem State.Reads.isEnd_iff (h : s.Reads all bits out) : s.isEnd = true ↔ bits.length + 1 = s.huf.pad.toNat := by
  have hlen := h.bits_length
  have hplace := h.position_lt.1
  have hpos := h.nonempty
  have hri := h.reader
  have hstart := h.start
  have hpad := s.huf.pad.isLt
  rw [State.isEnd, Bool.and_eq_true, decide_eq_true_iff, decide_eq_true_iff]
  change s.huf.ri.toNat + s.huf.pad.toNat = 9 ∧ _ ↔ _
  omega

/-- The bits that the reader gives are the bits left. -/
theorem State.Reads.take (h : s.Reads all bits out) {n : Nat} (hn : n ≤ bits.length) :
    (List.range' (8 * s.huf.rb.toNat + s.huf.ri.toNat) n).map s.payloadBit = bits.take n := by
  have hlen := h.bits_length
  refine List.ext_getElem? fun i => ?_
  rw [List.getElem?_map, List.getElem?_take, h.left, List.getElem?_drop]
  rcases Nat.lt_or_ge i n with hi | hi
  · rw [List.getElem?_range' hi, if_pos hi, h.bit _ (by omega), Option.map_some, Nat.one_mul]
  · rw [List.getElem?_eq_none (by simpa using hi), if_neg (Nat.not_lt.2 hi), Option.map_none]

/-- The reader at the end of the payload. -/
theorem State.Reads.peekBit_nil (h : s.Reads all [] out) : s.peekBit s.huf.rb.toNat s.huf.ri.toNat = .ok none := by
  have hlen := h.bits_length
  rw [List.length_nil] at hlen
  exact State.peekBit_end h.reader (by omega)

theorem State.Reads.peekBit_cons {b : Bool} (h : s.Reads all (b :: bits) out) :
    s.peekBit s.huf.rb.toNat s.huf.ri.toNat = .ok (some b) := by
  have hlen := h.bits_length
  rw [List.length_cons] at hlen
  have htake := h.take (n := 1) (Nat.le_add_left 1 _)
  rw [State.peekBit_whole h.reader h.stream.input (by omega)]
  exact congrArg (fun x => Except.ok (some x)) (List.head_eq_of_cons_eq htake)

theorem State.Reads.peekBits (h : s.Reads all bits out) :
    s.peekBits s.huf.rb.toNat s.huf.ri.toNat 8 = .ok (if bits.length < 8 then none else some (bits.take 8)) := by
  have hlen := h.bits_length
  split
  · exact State.peekBits_short 8 h.reader h.stream.input (by omega) (by decide)
  · rw [State.peekBits_whole 8 h.reader h.stream.input (by omega), h.take (by omega)]

/-- A turn that takes `k` bits. -/
theorem State.Reads.next (h : s.Reads all bits out) {k : Nat} {out' : List Byte} (ht : s.turn = .ok t)
    (hk : k ≤ bits.length) (hseq : t.seq = .hufBits) (hpeek : t.peek s.src = s.peek s.src)
    (hposition : 8 * t.huf.rb.toNat + t.huf.ri.toNat = 8 * s.huf.rb.toNat + s.huf.ri.toNat + k)
    (hreader : t.huf.ri.toNat ≤ 8) (hstart : t.huf.ri.toNat = 0 → t.huf.rb.toNat = 0) (hout : t.output = out')
    (htree : t.tree.Valid out'.length) (hnode : t.tree.live t.huf.dcur) : t.Reads all (bits.drop k) out' := by
  have hturned := h.stream.of_turn (h.seq ▸ nofun) ht
  have hlen := h.bits_length
  have hplace := h.place
  have hpayload : t.payloadLen = s.payloadLen := by
    rw [State.payloadLen, hturned.keeps.inputLen h.stream.src, State.payloadLen]
  have hbit (p : Nat) : t.payloadBit p = s.payloadBit p := by
    rw [State.payloadBit, hturned.keeps.src, hpeek, State.payloadBit]
  refine ⟨h.stream.turned hturned, hseq, hpayload ▸ h.nonempty, hpayload ▸ h.length, fun p hp => ?_, hreader,
    hstart, ?_, ?_, hout, htree, hnode⟩
  · rw [hbit]
    exact h.bit p (hpayload ▸ hp)
  · rw [hposition]
    have hall := h.length
    omega
  · rw [hposition, h.left, List.drop_drop]

end Reads

/-! ### One turn of a coded payload (R200, R203 to R205) -/

section Turns

variable {s t : State} {all bits : List Bool} {out : List Byte} {b : Bool}

theorem HufRegs.takeBits_pad (h : HufRegs) (n : Nat) : (h.takeBits n).pad = h.pad :=
  (congrArg HufRegs.pad (h.takeBits_frame n h.dcur) :)

/-- The turn from `s` leaves `bits` of the payload to read from the node `l` of the tree `u`, and has made the output
`out`. -/
structure State.ReadsOn (s t : State) (all bits : List Bool) (out : List Byte) (u : Tree) (l : Link) : Prop where
  turn : s.turn = .ok t
  reads : t.Reads all bits out
  tree : t.tree = u
  node : t.huf.dcur = l
  pad : t.huf.pad = s.huf.pad

theorem State.Reads.turn_element (h : s.Reads all bits out) {i : Instr} (hn : s.nextHuf = .ok (.element i))
    (hrun : runElement i s = .ok t) : s.turn = .ok t :=
  State.turn_element (h.nextTurn.trans hn) hrun (runElement_leaves_scan i (h.seq ▸ nofun) t hrun)

theorem State.Reads.turn_element_error (h : s.Reads all bits out) {i : Instr} {e : Stop}
    (hn : s.nextHuf = .ok (.element i)) (hrun : runElement i s = .error e) : s.turn = .error e :=
  State.turn_element_error (h.nextTurn.trans hn) hrun

/-- A code bit that names a child (R203). -/
theorem State.Reads.descends (h : s.Reads all (b :: bits) out) (hend : s.isEnd = false)
    (hnode : s.tree.isInternal s.huf.dcur = true) (hchild : s.tree.child s.huf.dcur b ≠ nilLink) :
    ∃ t, s.ReadsOn t all bits out s.tree (s.tree.child s.huf.dcur b) := by
  have hturn := h.turn_element (State.nextHuf_code hend hnode h.peekBit_cons) (runCode_present hchild)
  obtain ⟨hplace, hlimit⟩ := h.position_lt
  obtain ⟨hposition, hlow, hhigh⟩ := s.huf.takeBit_advance h.reader (by omega)
  have hlive : s.tree.live (s.tree.child s.huf.dcur b) := by
    obtain ⟨d, hf⟩ := h.tree.formed
    obtain ⟨hleft, hright, -⟩ := hf.internal h.node hnode
    cases b with
    | false => exact hleft
    | true => exact hright
  exact ⟨_, hturn, h.next (k := 1) hturn (Nat.le_add_left 1 _) h.seq rfl hposition hhigh
    (fun hz => absurd hz (Nat.ne_of_gt hlow)) h.output h.tree hlive, rfl, rfl, s.huf.takeBit_pad⟩

/-- A code bit that names no child (R203). -/
theorem State.Reads.strands (h : s.Reads all (b :: bits) out) (hend : s.isEnd = false)
    (hnode : s.tree.isInternal s.huf.dcur = true) (hchild : s.tree.child s.huf.dcur b = nilLink) :
    s.turn = .error (.err .hufDecAbsentChild) :=
  h.turn_element_error (State.nextHuf_code hend hnode h.peekBit_cons) (runCode_absent hchild)

theorem State.Reads.capacity (h : s.Reads all bits out) (hroom : out.length < s.bufCap.toNat) :
    (s.len .out).toNat < s.bufCap.toNat ∧ out.length + 1 < 2 ^ 64 := by
  have hcap := s.bufCap.isLt
  have hlen := h.outLen
  exact ⟨hlen.trans_lt hroom, by omega⟩

section Literal

variable (h : s.Reads all bits out) (hend : s.isEnd = false) (hleaf : s.tree.isInternal s.huf.dcur = false)
  (hnyt : s.huf.dcur = s.tree.nyt)
include h hend hleaf hnyt

theorem State.Reads.literal_next (hlen : 8 ≤ bits.length) :
    s.nextHuf = .ok (.element (.esc (literalValue (bits.take 8)))) := by
  have hpeek := h.peekBits
  rw [if_neg (Nat.not_lt.2 hlen)] at hpeek
  exact State.nextHuf_literal hend hleaf hnyt (by rw [List.length_take]; omega) hpeek

theorem State.Reads.literal_truncated (hlen : bits.length < 8) : s.turn = .error (.err .hufDecTruncLiteral) := by
  have hpeek := h.peekBits
  rw [if_pos hlen] at hpeek
  exact State.turn_next_error (h.nextTurn.trans (State.nextHuf_truncated hend hleaf hnyt hpeek))

theorem State.Reads.literal_known (hlen : 8 ≤ bits.length)
    (hknown : s.tree.symOf (literalValue (bits.take 8)) ≠ nilLink) : s.turn = .error (.err .hufDecDupLiteral) :=
  h.turn_element_error (h.literal_next hend hleaf hnyt hlen) (runEsc_known hknown)

theorem State.Reads.literal_full (hlen : 8 ≤ bits.length)
    (hnew : s.tree.symOf (literalValue (bits.take 8)) = nilLink) (hfull : s.bufCap.toNat ≤ out.length) :
    s.turn = .error (.err .alloc) :=
  h.turn_element_error (h.literal_next hend hleaf hnyt hlen) (runEsc_full hnew (hfull.trans_eq h.outLen.symm))

/-- A new symbol joins the tree (R204). -/
theorem State.Reads.literal_introduced (hlen : 8 ≤ bits.length)
    (hnew : s.tree.symOf (literalValue (bits.take 8)) = nilLink) (hroom : out.length < s.bufCap.toNat) :
    ∃ p u t, s.tree.split (literalValue (bits.take 8)) = some p ∧ p.1.update p.2 = some u ∧
      s.ReadsOn t all (bits.drop 8) (out ++ [literalValue (bits.take 8)]) u u.root := by
  have hnext := h.literal_next hend hleaf hnyt hlen
  generalize literalValue (bits.take 8) = v at *
  obtain ⟨hfit, hcount⟩ := h.capacity hroom
  obtain ⟨p, u, hsplit, hupdate, hvalid, -⟩ := h.tree.introduce hcount hnew
  obtain ⟨r, happ⟩ := State.append_room v hfit
  obtain ⟨-, -, hhuf, hseq⟩ := State.append_out_frame happ
  obtain ⟨-, hpeek⟩ := State.append_out_peek h.stream.src happ
  have hturn := h.turn_element hnext (runEsc_introduces hnew happ hsplit hupdate)
  obtain ⟨hplace, hlimit⟩ := h.position_lt
  have hleft := h.bits_length
  obtain ⟨hposition, hhigh, hlow⟩ := s.huf.takeBits_advance 8 h.reader (by omega)
  have hpad := s.huf.takeBits_pad 8
  rw [hhuf] at hturn
  generalize s.huf.takeBits 8 = k at hturn hposition hhigh hlow hpad
  obtain ⟨d, hf⟩ := hvalid.formed
  exact ⟨_, u, _, hsplit, hupdate, hturn, h.next hturn hlen (hseq.trans h.seq) hpeek hposition hhigh
    (fun hz => absurd hz (Nat.ne_of_gt (hlow (by decide))))
    ((State.append_out_output happ).trans (congrArg (· ++ [v]) h.output)) (by rwa [List.length_append]) hf.root_live,
    rfl, rfl, hpad⟩

end Literal

section Symbol

variable (h : s.Reads all bits out) (hend : s.isEnd = false) (hleaf : s.tree.isInternal s.huf.dcur = false)
  (hnyt : s.huf.dcur ≠ s.tree.nyt)
include h hend hleaf hnyt

theorem State.Reads.turn_emit : s.turn = s.emitSymbol := by
  have hnext : s.nextHuf = .ok .emit := by
    rw [State.nextHuf, if_neg (Bool.eq_false_iff.1 hend), if_neg (Bool.eq_false_iff.1 hleaf), if_neg hnyt]
  rw [State.turn_eq, h.nextTurn, hnext]
  rfl

theorem State.Reads.emit_full (hfull : s.bufCap.toNat ≤ out.length) : s.turn = .error (.err .alloc) := by
  rw [h.turn_emit hend hleaf hnyt, State.emitSymbol, s.append_full .out _ (hfull.trans_eq h.outLen.symm)]
  rfl

omit hend in
/-- A symbol leaf is not the root, which has the NYT leaf under it. -/
theorem State.Reads.leaf_ne_root : s.huf.dcur ≠ s.tree.root := by
  intro hroot
  obtain ⟨d, hf⟩ := h.tree.formed
  obtain ⟨hinternal, -⟩ := hf.under_child (hf.under_root hf.nyt_live) (hroot ▸ hnyt.symm)
  rw [← hroot, hleaf] at hinternal
  cases hinternal

/-- A symbol that a bit has led to is put out (R205). -/
theorem State.Reads.emits (hroom : out.length < s.bufCap.toNat) :
    ∃ u t, s.tree.update s.huf.dcur = some u ∧
      s.ReadsOn t all bits (out ++ [(s.tree.node s.huf.dcur).value]) u u.root := by
  obtain ⟨hfit, hcount⟩ := h.capacity hroom
  obtain ⟨u, hupdate, hvalid, -⟩ := h.tree.update_leaf hcount h.node hnyt hleaf
  obtain ⟨r, happ⟩ := State.append_room (s.tree.node s.huf.dcur).value hfit
  obtain ⟨-, htree, hhuf, hseq⟩ := State.append_out_frame happ
  obtain ⟨-, hpeek⟩ := State.append_out_peek h.stream.src happ
  obtain ⟨d, hf⟩ := hvalid.formed
  have hturn : s.turn = .ok { r with tree := u, huf := { s.huf with dcur := u.root } } := by
    rw [h.turn_emit hend hleaf hnyt, State.emitSymbol, happ, ← hhuf]
    change (orCorrupt (r.tree.update r.huf.dcur) >>= _) = _
    rw [htree, hhuf, hupdate]
    rfl
  exact ⟨u, _, hupdate, hturn, h.next (k := 0) hturn (Nat.zero_le _) (hseq.trans h.seq) hpeek rfl h.reader h.start
    ((State.append_out_output happ).trans (congrArg (· ++ [_]) h.output)) (by rwa [List.length_append]) hf.root_live,
    rfl, rfl, rfl⟩

end Symbol
/-! ### The coded payload to its end or its first fault (R200, R253) -/

/-- The turns that the reference may still need: two for each bit left, and one for the symbol that a bit has led to. -/
def Tree.turnsDue (t : Tree) (l : Link) (bits : List Bool) : Nat := 2 * bits.length + if l = t.root then 0 else 1

theorem Tree.turnsDue_root (t : Tree) (bits : List Bool) : t.turnsDue t.root bits = 2 * bits.length := by
  rw [Tree.turnsDue, if_pos rfl]
  rfl

theorem Tree.turnsDue_le (t : Tree) (l : Link) (bits : List Bool) :
    2 * bits.length ≤ t.turnsDue l bits ∧ t.turnsDue l bits ≤ 2 * bits.length + 1 := by
  unfold Tree.turnsDue
  split
  · omega
  · omega

theorem Tree.turnsDue_of_ne {t : Tree} {l : Link} (h : l ≠ t.root) (bits : List Bool) :
    t.turnsDue l bits = 2 * bits.length + 1 := by
  rw [Tree.turnsDue, if_neg h]

/-- The payload has ended. -/
theorem State.Reads.stops (h : s.Reads all bits out) (hn : s.nextHuf = .ok .stop) (fuel : Nat) :
    Answers (runTurns (fuel + 1) s) (.ok out) := by
  have hturn : s.turn = .ok { s with seq := .host } := by
    rw [State.turn_eq, h.nextTurn, hn]
    change s.endLoop = _
    rw [State.endLoop, h.seq]
  rw [runTurns_succ fuel (h.seq ▸ nofun) hturn, runTurns_ended fuel rfl]
  exact ⟨_, rfl, h.output⟩

theorem State.Reads.fails (h : s.Reads all bits out) {e : Err} (ht : s.turn = .error (.err e)) (fuel : Nat) :
    Answers (runTurns (fuel + 1) s) (.error e) :=
  runTurns_error fuel (h.seq ▸ nofun) ht

/-- The machine reads a coded payload as the reference does, turn by turn. -/
theorem State.Reads.answers (fuel : Nat) {turns : Nat} (h : s.Reads all bits out)
    (hdue : s.tree.turnsDue s.huf.dcur bits < fuel) (hleft : s.turnsLeft ≤ turns) :
    Answers (runTurns turns s)
      (Reference.hufSymbols s.bufCap.toNat s.huf.pad.toNat fuel s.tree s.huf.dcur bits out) := by
  induction fuel generalizing s bits out turns with
  | zero => exact absurd hdue (Nat.not_lt_zero _)
  | succ fuel ih =>
    obtain ⟨turns, rfl⟩ : ∃ n, turns = n + 1 :=
      Nat.exists_eq_add_one.2 ((State.turnsLeft_pos (h.seq ▸ nofun)).trans_le hleft)
    have goes {t : State} {bits' : List Bool} {out' : List Byte} {u : Tree} {l : Link}
        (ht : s.ReadsOn t all bits' out' u l) (hdue' : u.turnsDue l bits' < fuel) :
        Answers (runTurns (turns + 1) s)
          (Reference.hufSymbols s.bufCap.toNat s.huf.pad.toNat fuel u l bits' out') := by
      have hturned := h.stream.of_turn (h.seq ▸ nofun) ht.turn
      have hless := (hturned.progress fun _ => h.reader).2
      rw [runTurns_succ turns (h.seq ▸ nofun) ht.turn, ← hturned.keeps.bufCap, ← ht.pad, ← ht.tree, ← ht.node]
      exact ih ht.reads (by rwa [ht.tree, ht.node]) (by omega)
    have hdues := s.tree.turnsDue_le s.huf.dcur bits
    unfold Reference.hufSymbols
    by_cases hend : bits.length + 1 = s.huf.pad.toNat
    · rw [if_pos hend]
      exact h.stops (by rw [State.nextHuf, if_pos (h.isEnd_iff.2 hend)]) turns
    have hopen : s.isEnd = false := Bool.eq_false_iff.2 fun e => hend (h.isEnd_iff.1 e)
    rw [if_neg hend]
    cases hnode : s.tree.isInternal s.huf.dcur with
    | true =>
      rw [if_pos rfl]
      cases bits with
      | nil => exact h.stops (State.nextHuf_exhausted hopen hnode h.peekBit_nil) turns
      | cons b rest =>
        dsimp only
        by_cases hchild : s.tree.child s.huf.dcur b = nilLink
        · rw [if_pos hchild]
          exact h.fails (h.strands hopen hnode hchild) turns
        · rw [if_neg hchild]
          obtain ⟨t, ht⟩ := h.descends hopen hnode hchild
          rw [List.length_cons] at hdues
          exact goes ht ((s.tree.turnsDue_le (s.tree.child s.huf.dcur b) rest).2.trans_lt (by omega))
    | false =>
      rw [if_neg Bool.false_ne_true]
      by_cases hnyt : s.huf.dcur = s.tree.nyt
      · rw [if_pos hnyt]
        dsimp only
        by_cases hlen : bits.length < 8
        · rw [if_pos hlen]
          exact h.fails (h.literal_truncated hopen hnode hnyt hlen) turns
        rw [if_neg hlen]
        have hlen := Nat.not_lt.1 hlen
        by_cases hnew : s.tree.symOf (literalValue (bits.take 8)) = nilLink
        · rw [if_neg (not_not.2 hnew)]
          by_cases hfull : s.bufCap.toNat ≤ out.length
          · rw [if_pos hfull]
            exact h.fails (h.literal_full hopen hnode hnyt hlen hnew hfull) turns
          · obtain ⟨p, u, t, hsplit, hupdate, ht⟩ :=
              h.literal_introduced hopen hnode hnyt hlen hnew (Nat.not_le.1 hfull)
            rw [if_neg hfull, hsplit, Option.bind_some, hupdate]
            exact goes ht (by rw [u.turnsDue_root, List.length_drop]; omega)
        · rw [if_pos hnew]
          exact h.fails (h.literal_known hopen hnode hnyt hlen hnew) turns
      · rw [if_neg hnyt]
        by_cases hfull : s.bufCap.toNat ≤ out.length
        · rw [if_pos hfull]
          exact h.fails (h.emit_full hopen hnode hnyt hfull) turns
        · obtain ⟨u, t, hupdate, ht⟩ := h.emits hopen hnode hnyt (Nat.not_le.1 hfull)
          rw [if_neg hfull, hupdate]
          rw [Tree.turnsDue_of_ne (h.leaf_ne_root hnode hnyt)] at hdue
          exact goes ht (by rw [u.turnsDue_root]; omega)

end Turns

end Machine

end Sys2Proof
end

section
/-! PROOF for O53: HUF_DEC answers the bytes in its frame, or the first fault of its bits. -/

namespace Sys2Proof.Machine

/-! ### The pass-through (R202) -/

/-- The bytes of the payload from the pass-through cursor on. -/
def State.rawLeft (s : State) : List Byte :=
  (List.range' (1 + s.huf.rb.toNat) (s.payloadLen - s.huf.rb.toNat)).map (s.peek s.src)

theorem State.nextTurn_rawEnd {s : State} (hseq : s.seq = .hufRaw) (h : s.payloadLen ≤ s.huf.rb.toNat) :
    s.nextTurn = .ok .stop := by
  rw [State.nextTurn, hseq]
  exact if_pos h

/-- A turn of the pass-through copies one byte to OUT. -/
theorem State.copies_byte {s : State} (hs : s.StreamSound) (hseq : s.seq = .hufRaw)
    (hmore : s.huf.rb.toNat < s.payloadLen) (hcursor : s.outLen.toNat = s.huf.rb.toNat) :
    ∃ t, s.turn = .ok t ∧ t.seq = .hufRaw ∧ t.outLen.toNat = t.huf.rb.toNat ∧
      t.output ++ t.rawLeft = s.output ++ s.rawLeft := by
  have hpayload : s.payloadLen = s.inputLen - 1 := rfl
  have hinput := hs.input
  have hlen : s.inputLen < 2 ^ 64 := (s.len s.src).isLt
  have hroom : (s.len .out).toNat < s.bufCap.toNat := by
    change s.outLen.toNat < _
    omega
  obtain ⟨r, happ⟩ := State.append_room (s.peek s.src (1 + s.huf.rb.toNat)) hroom
  obtain ⟨-, -, hhuf, hstay⟩ := State.append_out_frame happ
  obtain ⟨-, -, hcount, -⟩ := State.append_ok happ
  obtain ⟨hsrc, hpeek⟩ := State.append_out_peek hs.src happ
  have hout := State.append_out_output happ
  have hnext : (s.huf.rb + 1#64).toNat = s.huf.rb.toNat + 1 := by bv_omega
  have hrun : runElement (.raw (s.peek s.src (1 + s.huf.rb.toNat))) s =
      .ok { r with huf := { s.huf with rb := s.huf.rb + 1#64 } } := by
    rw [runElement, runRaw, happ, ← hhuf]
    rfl
  have hselect : s.nextTurn = .ok (.element (.raw (s.peek s.src (1 + s.huf.rb.toNat)))) := by
    rw [State.nextTurn_hufRaw hseq (by omega), s.inputByte_eq _ (by omega)]
    rfl
  have hturn := State.turn_element hselect hrun (runElement_leaves_scan _ (hseq ▸ nofun) _ hrun)
  have hlength := (hs.of_turn (hseq ▸ nofun) hturn).keeps.inputLen hs.src
  refine ⟨_, hturn, hstay.trans hseq, ?_, ?_⟩
  · change r.outLen.toNat = (s.huf.rb + 1#64).toNat
    rw [hnext, ← hcursor]
    exact hcount
  · rw [State.rawLeft, State.payloadLen, hlength]
    change r.output ++ (List.range' (1 + (s.huf.rb + 1#64).toNat) (s.payloadLen - (s.huf.rb + 1#64).toNat)).map
      (r.peek r.src) = _
    obtain ⟨k, hk⟩ := Nat.exists_eq_add_of_lt hmore
    rw [hsrc, hpeek, hout, hnext, State.rawLeft, show s.payloadLen - s.huf.rb.toNat = k + 1 by omega,
      show s.payloadLen - (s.huf.rb.toNat + 1) = k by omega, List.range'_succ, List.map_cons, List.append_assoc]
    rfl

/-- The pass-through copies the rest of the payload to OUT. -/
theorem State.copies_payload (turns : Nat) {s : State} (hs : s.StreamSound) (hseq : s.seq = .hufRaw)
    (hcursor : s.outLen.toNat = s.huf.rb.toNat) (hleft : s.turnsLeft ≤ turns) :
    Answers (runTurns turns s) (.ok (s.output ++ s.rawLeft)) := by
  have hopen : s.seq ≠ .host := hseq ▸ nofun
  induction turns generalizing s with
  | zero => exact absurd hleft (Nat.not_le.2 (State.turnsLeft_pos hopen))
  | succ turns ih =>
    by_cases hmore : s.huf.rb.toNat < s.payloadLen
    · obtain ⟨t, hturn, hstay, hcursor', hbytes⟩ := State.copies_byte hs hseq hmore hcursor
      have hturned := hs.of_turn hopen hturn
      have hless := (hturned.progress fun e => absurd (hseq.symm.trans e) nofun).2
      rw [runTurns_succ turns hopen hturn, ← hbytes]
      exact ih (hs.turned hturned) hstay hcursor' (by omega) (hstay ▸ nofun)
    · have hend := Nat.not_lt.1 hmore
      have hturn : s.turn = .ok { s with seq := .host } := by
        rw [State.turn_eq, State.nextTurn_rawEnd hseq hend]
        change s.endLoop = _
        rw [State.endLoop, hseq]
      rw [runTurns_succ turns hopen hturn, runTurns_ended turns rfl]
      refine ⟨_, rfl, ?_⟩
      rw [State.rawLeft, Nat.sub_eq_zero_of_le hend]
      exact (List.append_nil _).symm

/-! ### The frame from its outer byte on (R195, R200, R202) -/

/-- The bytes behind the outer byte (R63). -/
def State.payload (s : State) : List Byte := (List.range' 1 s.payloadLen).map (s.peek s.src)

theorem State.payload_length (s : State) : s.payload.length = s.payloadLen := by
  rw [State.payload, List.length_map, List.length_range']

theorem State.payload_getElem? {s : State} {i : Nat} (h : i < s.payloadLen) :
    s.payload[i]? = some (s.peek s.src (1 + i)) := by
  rw [State.payload, List.getElem?_map, List.getElem?_range' h, Nat.one_mul]
  rfl

/-- The running stage's input is its outer byte and its payload. -/
theorem State.bytes_input {s : State} (h : s.inputLen ≠ 0) :
    s.bytes s.src s.inputLen = s.peek s.src 0 :: s.payload := by
  obtain ⟨k, hk⟩ := Nat.exists_eq_succ_of_ne_zero h
  rw [State.payload, State.payloadLen, hk, State.bytes, List.range_eq_range', List.range'_succ]
  rfl

/-- The pass-through begins. -/
abbrev State.rawStart (s : State) : State :=
  { s.clear .out with seq := .hufRaw, huf := { s.huf with rb := 0#64 } }

/-- The coded payload begins, with the one-node tree. -/
abbrev State.codedStart (s : State) (pad : BitVec 3) : State :=
  { s.clear .out with
    seq := .hufBits, tree := s.tree.init,
    huf := { s.huf with pad := pad, rb := 0#64, ri := 0#4, dcur := s.tree.init.root } }

theorem State.nextTurn_outer {s : State} (hs : s.StreamSound) (hseq : s.seq = .hufOuter) (h : s.inputLen ≠ 0) :
    s.nextTurn = .ok (.element (decodeOuter (s.peek s.src 0))) := by
  have hinput := hs.input
  rw [State.nextTurn_hufOuter hseq (Nat.pos_of_ne_zero h), s.inputByte_eq 0 (by omega)]
  rfl

theorem State.turn_outer_raw {s : State} (hs : s.StreamSound) (hseq : s.seq = .hufOuter) (h : s.inputLen ≠ 0)
    (hbit : (s.peek s.src 0).getLsbD 3 = false) : s.turn = .ok s.rawStart := by
  refine State.turn_element (State.nextTurn_outer hs hseq h) ?_ nofun
  rw [decodeOuter, hbit]
  rfl

theorem State.turn_outer_coded {s : State} (hs : s.StreamSound) (hseq : s.seq = .hufOuter) (h : s.inputLen ≠ 0)
    (hbit : (s.peek s.src 0).getLsbD 3 = true) :
    s.turn = .ok (s.codedStart ((s.peek s.src 0).extractLsb' 0 3)) := by
  refine State.turn_element (State.nextTurn_outer hs hseq h) ?_ nofun
  rw [decodeOuter, hbit]
  rfl

/-- The input stays when OUT is cleared. -/
theorem State.clear_out_peek {s : State} (hsrc : s.src.readable) : (s.clear .out).peek s.src = s.peek s.src := by
  rcases hsrc with h | h
  · rw [h]
    rfl
  · rw [h]
    rfl

theorem State.clear_out_payload {s : State} (hsrc : s.src.readable) : (s.clear .out).payload = s.payload := by
  rw [State.payload, State.payloadLen, (State.clear_keeps (.inl rfl)).inputLen hsrc, State.clear_src,
    State.clear_out_peek hsrc]
  rfl

/-- A coded payload whose reading begins. -/
theorem State.codedStart_reads {s : State} {pad : BitVec 3} (hs : (s.codedStart pad).StreamSound)
    (hsrc : s.src.readable) (hne : s.payload ≠ []) :
    (s.codedStart pad).Reads (s.payload.flatMap Reference.classifiers) (s.payload.flatMap Reference.classifiers)
      [] where
  stream := hs
  seq := rfl
  nonempty := by
    have hpos := List.length_pos_iff.2 hne
    rwa [← State.clear_out_payload hsrc, State.payload_length] at hpos
  length := by
    rw [Reference.payloadBits_length, ← State.clear_out_payload hsrc, State.payload_length]
    rfl
  bit p hp := by
    rw [Reference.payloadBits_getElem?, ← State.clear_out_payload hsrc,
      State.payload_getElem? (s := s.clear .out) (show p / 8 < (s.codedStart pad).payloadLen by omega)]
    rfl
  reader := Nat.zero_le 8
  start _ := rfl
  place := Nat.zero_le _
  left := rfl
  output := rfl
  tree := s.tree.init_valid
  node := (s.tree.init_live _).2 rfl

/-- A coded frame without payload is a truncated literal (R207). -/
theorem State.codedStart_truncated {s : State} {pad : BitVec 3} (hs : (s.codedStart pad).StreamSound)
    (hempty : (s.codedStart pad).payloadLen = 0) :
    (s.codedStart pad).turn = .error (.err .hufDecTruncLiteral) := by
  have hopen : (s.codedStart pad).isEnd = false := by
    rw [State.isEnd, hempty]
    exact Bool.and_false _
  have hshort : (s.codedStart pad).peekBits 0 0 8 = .ok none :=
    State.peekBits_short 8 (Nat.zero_le 8) hs.input (by rw [hempty]; decide) (by decide)
  exact State.turn_next_error (State.nextHuf_truncated hopen s.tree.init_leaf rfl hshort)

/-- The Huffman decoder's engine answers what the reference reads from the frame, or its first fault. -/
theorem State.hufDecBody_answers {s : State} (hs : s.Ready) :
    Answers s.hufDecBody (Reference.hufBytes s.bufCap.toNat s.tree.init (s.bytes s.src s.inputLen)) := by
  have hsound : State.StreamSound { s with seq := .hufOuter } := ⟨hs.src, hs.dest, hs.input, trivial⟩
  have hlast (t : State) (ht : State.turn { s with seq := .hufOuter } = .ok t) :
      t.StreamSound ∧ s.hufDecBody = runTurns (8 * s.inputLen + s.bufCap.toNat + 3) t ∧
        t.turnsLeft ≤ 8 * s.inputLen + s.bufCap.toNat + 3 := by
    have hturned := hsound.of_turn nofun ht
    have hless : t.turnsLeft < 8 * s.inputLen + s.bufCap.toNat + 4 := (hturned.progress nofun).2
    exact ⟨hsound.turned hturned, runTurns_succ _ nofun ht, Nat.lt_succ_iff.1 hless⟩
  by_cases hempty : s.inputLen = 0
  · rw [hempty]
    exact runTurns_error _ nofun (State.turn_next_error (if_pos hempty))
  rw [State.bytes_input hempty, Reference.hufBytes]
  cases hbit : (s.peek s.src 0).getLsbD 3 with
  | false =>
    obtain ⟨hraw, hrun, hleft⟩ := hlast _ (State.turn_outer_raw hsound rfl hempty hbit)
    have hbytes := State.copies_payload _ hraw rfl rfl hleft
    rw [if_pos rfl, hrun, ← State.clear_out_payload hs.src]
    exact hbytes
  | true =>
    obtain ⟨hcoded, hrun, hleft⟩ := hlast _ (State.turn_outer_coded hsound rfl hempty hbit)
    rw [if_neg nofun, hrun]
    by_cases hpayload : s.payload = []
    · rw [if_pos hpayload]
      refine runTurns_error _ nofun (State.codedStart_truncated hcoded ?_)
      rw [← List.length_eq_zero_iff, ← State.clear_out_payload hs.src, State.payload_length] at hpayload
      exact hpayload
    · have hreads := State.codedStart_reads hcoded hs.src hpayload
      rw [if_neg hpayload]
      refine hreads.answers _ ?_ hleft
      have hdue := s.tree.init.turnsDue_root (s.payload.flatMap Reference.classifiers)
      rw [Reference.payloadBits_length] at hdue
      exact hdue.trans_lt (by omega)

/-! ### HUF_DEC (R200, R253) -/

/-- HUF_DEC is its engine on the input of the host. -/
theorem exec_hufDec {s : State} (h : s.inLen.toNat ≤ s.bufCap.toNat) :
    exec .hufDec s = s.outcome (s.begin.hufDecBody >>= fun t => .ok (t.finish {})) :=
  State.command_body s (fun b => b.hufDecBody >>= fun t => .ok (t.finish {})) h

theorem exec_hufDec_bytes {s : State} {out : List Byte} (h : s.inLen.toNat ≤ s.bufCap.toNat)
    (hout : Reference.hufBytes s.bufCap.toNat s.tree.init s.input = .ok out) :
    ∃ t, exec .hufDec s = .next t ∧ t.succeeded ∧ t.outLen.toNat = out.length ∧ t.output = out := by
  have hbody : Answers s.begin.hufDecBody (Reference.hufBytes s.bufCap.toNat s.tree.init s.input) :=
    State.hufDecBody_answers (State.begin_stage h).ready
  rw [hout] at hbody
  obtain ⟨t, ht, rfl⟩ := hbody
  refine ⟨t.finish {}, ?_, t.finish_succeeded _, ?_, t.finish_output _⟩
  · rw [exec_hufDec h, ht]
    rfl
  · rw [← t.finish_output {}, State.output_length]

theorem exec_hufDec_fault {s : State} {e : Err} (h : s.inLen.toNat ≤ s.bufCap.toNat)
    (hfault : Reference.hufBytes s.bufCap.toNat s.tree.init s.input = .error e) :
    exec .hufDec s = .next (s.raise e) := by
  have hbody : Answers s.begin.hufDecBody (Reference.hufBytes s.bufCap.toNat s.tree.init s.input) :=
    State.hufDecBody_answers (State.begin_stage h).ready
  rw [hfault] at hbody
  have hbody : s.begin.hufDecBody = .error (.err e) := hbody
  rw [exec_hufDec h, hbody]
  rfl

/-- A frame with bit 3 of its outer byte clear is passed through (R202). -/
theorem State.hufBytes_passThrough {s : State} (hne : 1 ≤ s.inLen.toNat) (hbit : (s.peek .inp 0).getLsbD 3 = false)
    (cap : Nat) (t : Tree) : Reference.hufBytes cap t s.input = .ok (s.input.drop 1) := by
  obtain ⟨k, hk⟩ := Nat.exists_eq_add_one.2 hne
  have hinput : s.input = s.peek .inp 0 :: (List.range' 1 k).map (s.peek .inp) := by
    rw [State.input, State.bytes, hk, List.range_eq_range', List.range'_succ]
    rfl
  rw [hinput, Reference.hufBytes, if_pos hbit]
  rfl

/-- Settles O53: the machine and the reference read the frame turn by turn. -/
theorem hufDecoderReadsTheFrame : Obligations.HufDecoderReadsTheFrame := by
  intro s hfit
  refine ⟨fun out hout => exec_hufDec_bytes hfit hout, fun e he => exec_hufDec_fault hfit he, fun hne hbit => ?_⟩
  obtain ⟨t, ht, hok, hlen, hout⟩ := exec_hufDec_bytes hfit (State.hufBytes_passThrough hne hbit _ _)
  refine ⟨t, ht, hok, hlen.trans ?_, hout⟩
  rw [List.length_drop, State.input, State.bytes_length]

end Sys2Proof.Machine
end

section
/-! SUPPORT for O44 and O45: the payload of an item sequence, piece by piece, and what the packer writes for it. -/

namespace Sys2Proof

namespace Reference

/-! ### Runs of a pixel sequence (R125) -/

theorem runs_head {pixels : List Byte} {r : Nat × Byte} {rs : List (Nat × Byte)} (h : runs pixels = r :: rs) :
    pixels.head? = some r.2 := by
  cases pixels with
  | nil => exact nomatch h
  | cons b bs =>
    unfold runs at h
    match hrest : runs bs with
    | [] =>
      rw [hrest, List.cons.injEq] at h
      rw [← h.1]
      rfl
    | (n, v) :: rs' =>
      rw [hrest] at h
      dsimp only at h
      split at h
      · rename_i hv
        rw [List.cons.injEq] at h
        rw [← h.1, hv]
        rfl
      · rw [List.cons.injEq] at h
        rw [← h.1]
        rfl

/-- Equal pixels that no further one follows are the first run. -/
theorem runs_replicate_append (n : Nat) {v : Byte} {pixels : List Byte} (h : pixels.head? ≠ some v) :
    runs (List.replicate (n + 1) v ++ pixels) = (n + 1, v) :: runs pixels := by
  induction n with
  | zero =>
    rw [List.replicate_one, List.singleton_append, runs]
    match hrest : runs pixels with
    | [] => rfl
    | r :: rs => exact if_neg fun e => h ((runs_head hrest).trans (congrArg some e))
  | succ n ih =>
    rw [List.replicate_succ, List.cons_append, runs, ih]
    exact if_pos rfl

/-- The items of an open run of `n` pixels and of the pixels behind it, when none of these joins the run. -/
theorem itemsOf_replicate_append {n : Nat} {v : Byte} {pixels : List Byte} (hn : 1 ≤ n) (h : pixels.head? ≠ some v) :
    itemsOf (List.replicate n v ++ pixels) = runItems n v ++ itemsOf pixels := by
  obtain ⟨n, rfl⟩ := Nat.exists_eq_add_one.2 hn
  rw [itemsOf, runs_replicate_append n h, List.flatMap_cons]

/-! ### The payload of an item sequence (R89, R93) -/

theorem payload_short {items : List (Bool × Byte)} (h : items.length < 8) (hne : items ≠ []) :
    payload items = groupBytes (items ++ [(false, Config.padLiteral)]) := by
  rw [payload, fullGroups_short _ h]
  exact if_neg hne

/-- An open group takes the pad item, and is written unless this filled it. -/
theorem payload_open {items : List (Bool × Byte)} (h : items.length < 8) (hne : items ≠ []) :
    payload items =
      (groups (items ++ [(false, Config.padLiteral)])).1 ++
        if (groups (items ++ [(false, Config.padLiteral)])).2 = [] then []
        else groupBytes (groups (items ++ [(false, Config.padLiteral)])).2 := by
  rw [payload_short h hne]
  rcases Nat.lt_or_eq_of_le (Nat.le_of_lt_succ h) with hshort | hlast
  · rw [groups, fullGroups_short _ (by rw [List.length_append, List.length_singleton]; omega)]
    simp
  · have hfull := groups_append [] (group := items ++ [(false, Config.padLiteral)]) (by simp [hlast])
    rw [List.append_nil] at hfull
    rw [hfull, show groups [] = ([], []) from rfl]
    simp

theorem payload_group_append {group : List (Bool × Byte)} (items : List (Bool × Byte)) (h : group.length = 8) :
    payload (group ++ items) = groupBytes group ++ payload items := by
  have hgroups := groups_append items h
  unfold groups at hgroups
  rw [payload, hgroups, payload]
  exact List.append_assoc ..

/-- The full groups of the first items can be written before the others are known. -/
theorem payload_append (items more : List (Bool × Byte)) :
    payload (items ++ more) = (groups items).1 ++ payload ((groups items).2 ++ more) := by
  by_cases hshort : items.length < 8
  · rw [groups, fullGroups_short _ hshort]
    rfl
  · have h8 : (items.take 8).length = 8 := by rw [List.length_take]; omega
    have ih := payload_append (items.drop 8) more
    have hgroups := groups_append (items.drop 8) h8
    rw [List.take_append_drop] at hgroups
    rw [hgroups, List.append_assoc, ← ih, ← payload_group_append _ h8, ← List.append_assoc, List.take_append_drop]
termination_by items.length
decreasing_by
  rw [List.length_drop]
  omega

end Reference

namespace Machine

/-! ### Bytes appended to the destination (R17) -/

/-- Every byte below the length of the space has been stored. -/
abbrev State.whole (s : State) (sp : Space) : Prop := ∀ a, a < (s.len sp).toNat → ((s.mem sp).read a).isSome

theorem State.append_whole (s : State) (sp : Space) (v : Byte) :
    Yields (s.append sp v) fun t => s.whole sp → t.whole sp := by
  intro t h hs a ha
  obtain ⟨-, rfl, hlen, -⟩ := State.append_ok h
  rw [hlen] at ha
  rw [State.setLen_mem, State.setMem_mem]
  by_cases hlast : a = (s.len sp).toNat
  · rw [hlast, Memory.read_write_same]
    rfl
  · rw [Memory.read_write_other _ _ _ _ hlast]
    exact hs a (by omega)

theorem State.appendAll_whole (s : State) (sp : Space) (vs : List Byte) :
    Yields (s.appendAll sp vs) fun t => s.whole sp → t.whole sp := by
  induction vs generalizing s with
  | nil => exact yields_ok id
  | cons v vs ih => exact (s.append_whole sp v).bind fun t ht => (ih t).mono fun u hu h => hu (ht h)

/-- The state `t` is `s` with `bytes` appended to the destination; the position and the registers of the scan and of the
packer may have moved on, in an image of the same size. -/
structure State.Appended (s t : State) (bytes : List Byte) : Prop where
  length : (t.len s.dest).toNat = (s.len s.dest).toNat + bytes.length
  stored : t.bytes s.dest (t.len s.dest).toNat = s.bytes s.dest (s.len s.dest).toNat ++ bytes
  elsewhere : ∀ sp, sp ≠ s.dest → t.mem sp = s.mem sp ∧ t.len sp = s.len sp
  frame : { t with
    seq := s.seq, enc := s.enc, outMem := s.outMem, outbMem := s.outbMem, outLen := s.outLen,
    outbLen := s.outbLen } = s
  dims : s.sameDims t
  whole : s.whole s.dest → t.whole s.dest

theorem State.Appended.dest {s t : State} {bytes : List Byte} (h : s.Appended t bytes) : t.dest = s.dest :=
  (congrArg State.dest h.frame :)

theorem State.Appended.bufCap {s t : State} {bytes : List Byte} (h : s.Appended t bytes) : t.bufCap = s.bufCap :=
  (congrArg State.bufCap h.frame :)

theorem State.Appended.src {s t : State} {bytes : List Byte} (h : s.Appended t bytes) : t.src = s.src :=
  (congrArg State.src h.frame :)

/-- Nothing is appended to the running stage's input. -/
theorem State.Appended.input {s t : State} {bytes : List Byte} (h : s.Appended t bytes) (hsrc : s.src ≠ s.dest) :
    t.inputLen = s.inputLen ∧ t.peek t.src = s.peek s.src := by
  obtain ⟨hmem, hlen⟩ := h.elsewhere s.src hsrc
  rw [State.inputLen, h.src, hlen]
  exact ⟨rfl, funext fun a => by rw [State.peek, hmem, State.peek]⟩

theorem State.Ready.appended {s t : State} {bytes : List Byte} (hs : s.Ready) (h : s.Appended t bytes) : t.Ready where
  src := h.src.symm ▸ hs.src
  dest := h.dest.symm ▸ hs.dest
  input := by
    rw [(h.input (hs.src.ne_written hs.dest)).1, h.bufCap]
    exact hs.input

theorem State.Measured.appended {s t : State} {bytes : List Byte} (hm : s.Measured) (hs : s.Ready)
    (h : s.Appended t bytes) : t.Measured := by
  obtain ⟨hW, hH, hN⟩ := h.dims
  refine ⟨by rw [hW, hH, hN, hm.area], ?_, hN.symm ▸ hm.pixels⟩
  rw [hN, hm.input, (h.input (hs.src.ne_written hs.dest)).1]

theorem State.Appended.trans {s t u : State} {b c : List Byte} (h : s.Appended t b) (h' : t.Appended u c) :
    s.Appended u (b ++ c) := by
  obtain ⟨hlength, hstored, helsewhere, hframe, hdims, hwhole⟩ := h'
  rw [h.dest] at hlength hstored helsewhere hwhole
  refine ⟨?_, ?_, fun sp hsp => ?_, ?_, ?_, fun hs => hwhole (h.whole hs)⟩
  · rw [hlength, h.length, List.length_append, Nat.add_assoc]
  · rw [hstored, h.stored, List.append_assoc]
  · exact ⟨(helsewhere sp hsp).1.trans (h.elsewhere sp hsp).1, (helsewhere sp hsp).2.trans (h.elsewhere sp hsp).2⟩
  · rw [← h.frame, ← hframe]
  · exact ⟨hdims.1.trans h.dims.1, hdims.2.1.trans h.dims.2.1, hdims.2.2.trans h.dims.2.2⟩

/-- Nothing is appended when only the position and the registers of the scan and of the packer change. -/
theorem State.Appended.registers (s : State) (seq : Seq) {enc : EncRegs}
    (h : s.sameDims { s with enc := enc }) : s.Appended { s with seq := seq, enc := enc } [] := by
  have hlen (sp : Space) : State.len { s with seq := seq, enc := enc } sp = s.len sp := by cases sp <;> rfl
  have hmem (sp : Space) : State.mem { s with seq := seq, enc := enc } sp = s.mem sp := by cases sp <;> rfl
  refine ⟨?_, ?_, fun sp _ => ⟨hmem sp, hlen sp⟩, rfl, h, fun hs a ha => ?_⟩
  · rw [hlen]
    rfl
  · rw [hlen, List.append_nil]
    exact State.bytes_congr _ _ _ _ _ fun a _ => by rw [State.peek, hmem, State.peek]
  · rw [hmem]
    exact hs a (hlen s.dest ▸ ha)

/-- From `s` the operation appends `bytes` to the destination and ends in a state with `P`; where they do not fit it
raises `ERR_ALLOC` (R17, R244). -/
def State.Delivers (s : State) (r : Run State) (bytes : List Byte) (P : State → Prop) : Prop :=
  (s.len s.dest).toNat ≤ s.bufCap.toNat →
    if (s.len s.dest).toNat + bytes.length ≤ s.bufCap.toNat then ∃ t, r = .ok t ∧ s.Appended t bytes ∧ P t
    else r = .error (.err .alloc)

theorem State.Delivers.mono {s : State} {r : Run State} {bytes : List Byte} {P Q : State → Prop}
    (h : s.Delivers r bytes P) (hpq : ∀ t, P t → Q t) : s.Delivers r bytes Q := by
  intro hroom
  have h := h hroom
  split at h
  · obtain ⟨t, ht, happ, hp⟩ := h
    rw [if_pos ‹_›]
    exact ⟨t, ht, happ, hpq t hp⟩
  · rwa [if_neg ‹_›]

/-- An operation that needs no room. -/
theorem State.delivers_ok {s t : State} {P : State → Prop} (h : s.Appended t []) (hp : P t) :
    s.Delivers (.ok t) [] P := fun hroom => by
  exact (if_pos hroom).mpr ⟨t, rfl, h, hp⟩

/-- What is delivered in turn is delivered in one piece, and the first piece without room raises. -/
theorem State.Delivers.bind {s : State} {r : Run State} {f : State → Run State} {b c : List Byte}
    {P Q : State → Prop} (h : s.Delivers r b P) (hf : ∀ t, s.Appended t b → P t → t.Delivers (f t) c Q) :
    s.Delivers (r >>= f) (b ++ c) Q := by
  intro hroom
  have hfirst := h hroom
  rw [List.length_append]
  split at hfirst
  · obtain ⟨t, rfl, happ, hp⟩ := hfirst
    have hrest := hf t happ hp
    unfold State.Delivers at hrest
    rw [happ.dest, happ.length, happ.bufCap, Nat.add_assoc] at hrest
    have hrest := hrest ‹_›
    split at hrest
    · obtain ⟨u, hu, happ', hq⟩ := hrest
      rw [if_pos ‹_›]
      exact ⟨u, hu, happ.trans happ', hq⟩
    · rwa [if_neg ‹_›]
  · rw [if_neg (by omega), hfirst]
    rfl

/-- An operation that starts behind a change of the position or of registers. -/
theorem State.Delivers.moved {s t : State} {r : Run State} {bytes : List Byte} {P : State → Prop}
    (h : t.Delivers r bytes P) (happ : s.Appended t []) : s.Delivers r bytes P :=
  State.Delivers.bind (f := fun _ => r) (State.delivers_ok (P := fun u => u = t) happ rfl) fun _ _ hu => hu ▸ h

theorem State.appendAll_delivers {s : State} (hd : s.dest.written) (vs : List Byte) :
    s.Delivers (s.appendAll s.dest vs) vs fun t => t.enc = s.enc := by
  intro hroom
  split
  · obtain ⟨t, ht⟩ := s.appendAll_fits s.dest vs ‹_›
    obtain ⟨hlength, hstored, -, helsewhere, -⟩ := State.appendAll_ok ht
    obtain ⟨m, n, hframe⟩ := State.appendAll_frame ht
    have henc : t.enc = s.enc := by rw [hframe, State.setLen_enc, State.setMem_enc]
    refine ⟨t, ht, ⟨hlength, hstored, helsewhere, ?_, by rw [State.sameDims, henc]; exact ⟨rfl, rfl, rfl⟩,
      s.appendAll_whole s.dest vs t ht⟩, henc⟩
    rw [hframe]
    rcases hd with hd | hd
    · rw [hd]
      rfl
    · rw [hd]
      rfl
  · exact s.appendAll_full s.dest vs hroom (Nat.not_le.1 ‹_›)

/-! ### Group packer (R126 to R128) -/

/-- The state `t` writes where `s` writes, and all of that space is stored if it was. -/
abbrev State.KeepsWhole (s t : State) : Prop := t.dest = s.dest ∧ (s.whole s.dest → t.whole s.dest)

theorem State.KeepsWhole.trans {s t u : State} (h : s.KeepsWhole t) (h' : t.KeepsWhole u) : s.KeepsWhole u := by
  obtain ⟨hdest, hwhole⟩ := h'
  rw [h.1] at hdest hwhole
  exact ⟨hdest, fun hs => hwhole (h.2 hs)⟩

theorem State.flush_whole (s : State) : Yields s.flush s.KeepsWhole := by
  intro t ht
  obtain ⟨u, hu, rfl⟩ := State.flush_ok ht
  obtain ⟨m, n, hframe⟩ := State.appendAll_frame hu
  refine ⟨by simp [hframe], fun hs => ?_⟩
  have hwhole := s.appendAll_whole s.dest _ u hu hs
  cases hd : s.dest
  all_goals
    rw [hd] at hwhole
    exact hwhole

theorem State.put_whole (s : State) (c : Bool) (b : Byte) : Yields (s.put c b) s.KeepsWhole := by
  have hstage : s.KeepsWhole (s.stage c b) := by
    refine ⟨rfl, fun hs a ha => ?_⟩
    rw [State.stage_len] at ha
    cases hd : s.dest
    all_goals
      rw [hd] at ha hs
      exact hs a ha
  rw [State.put_eq]
  split
  · exact (s.stage c b).flush_whole.mono fun t => hstage.trans
  · exact yields_ok hstage

theorem State.putItems_whole (s : State) (items : List (Bool × Byte)) : Yields (s.putItems items) s.KeepsWhole := by
  induction items generalizing s with
  | nil => exact yields_ok ⟨rfl, id⟩
  | cons i is ih => exact (s.put_whole i.1 i.2).bind fun t ht => (ih t).mono fun u => ht.trans

/-- The registers of the scan are left as they are, and the position. -/
structure State.SameScan (s t : State) : Prop where
  seq : t.seq = s.seq
  scan : { t.enc with g := s.enc.g, gcnt := s.enc.gcnt, gbuf := s.enc.gbuf } = s.enc

/-- Items that are put are delivered in full groups, and the others are staged. -/
theorem State.putItems_delivers {s : State} (hs : s.packerSound) (items : List (Bool × Byte)) :
    s.Delivers (s.putItems items) (Reference.groups (s.openItems ++ items)).1 fun t =>
      t.packerSound ∧ t.openItems = (Reference.groups (s.openItems ++ items)).2 ∧ s.SameScan t := by
  intro hroom
  split
  · obtain ⟨t, ht, hp⟩ := State.putItems_packs items hs ‹_›
    have hdims : s.sameDims t :=
      ⟨(congrArg EncRegs.eW hp.scan :), (congrArg EncRegs.eH hp.scan :), (congrArg EncRegs.eN hp.scan :)⟩
    have hframe := congrArg (fun x : State => { x with seq := s.seq }) hp.frame
    exact ⟨t, ht, ⟨hp.length, hp.stored, hp.elsewhere, hframe, hdims, (s.putItems_whole items t ht).2⟩, hp.sound,
      hp.staged, (congrArg State.seq hp.frame :), hp.scan⟩
  · obtain ⟨h7, -, -⟩ := id hs
    refine s.putItems_full items h7 hroom ?_
    have hfull := Nat.not_le.1 ‹_›
    rwa [Reference.groups, Reference.fullGroups_length _ _ le_rfl, List.length_append, State.openItems_length] at hfull

/-- What a flush of an open group appends is the group's bytes. -/
theorem State.packerSound.staged_eq {s : State} (hs : s.packerSound) : s.staged = Reference.groupBytes s.openItems := by
  obtain ⟨h7, hg, -⟩ := hs
  refine congrArg₂ List.cons (BitVec.eq_of_getLsbD_eq fun i hi => ?_) (List.ext_getElem? fun i => ?_)
  · rw [BitVec.getLsbD_ofNat, Reference.testBit_classBits, State.openItems_getElem?]
    by_cases hopen : i < s.enc.gcnt.toNat
    · simp [hopen, hi]
    · have hclear : s.enc.g.getLsbD i = false :=
        Nat.testBit_lt_two_pow (hg.trans_le (Nat.pow_le_pow_right (by decide) (Nat.not_lt.1 hopen)))
      simp [hopen, hclear]
  · rw [List.getElem?_map, State.openItems_getElem?, List.getElem?_take]
    by_cases hopen : i < s.enc.gcnt.toNat
    · have hi : i < 8 := by omega
      simp [hopen, hi]
    · simp [hopen]

theorem State.flush_delivers {s : State} (hs : s.packerSound) :
    s.Delivers s.flush (Reference.groupBytes s.openItems) fun _ => True := by
  rw [← hs.staged_eq, ← List.append_nil s.staged]
  refine (State.appendAll_delivers hs.2.2 s.staged).bind fun t _ _ => ?_
  exact State.delivers_ok (State.Appended.registers t t.seq ⟨rfl, rfl, rfl⟩) trivial

/-- The end of the payload: the open group is closed by the pad item (R93, R128). -/
theorem State.finalise_delivers {s : State} (hs : s.packerSound) :
    s.Delivers s.finalise (Reference.payload s.openItems) fun _ => True := by
  have hlen := s.openItems_length
  obtain ⟨h7, -, -⟩ := id hs
  unfold State.finalise
  split
  · rename_i hempty
    rw [hempty] at hlen
    rw [List.eq_nil_of_length_eq_zero hlen]
    exact State.delivers_ok (State.Appended.registers s s.seq ⟨rfl, rfl, rfl⟩) trivial
  · rename_i hopen
    have hne : s.openItems ≠ [] := by
      rw [← List.length_pos_iff, hlen]
      exact Nat.pos_of_ne_zero fun e => hopen (BitVec.eq_of_toNat_eq e)
    have hput : s.put false Config.padLiteral = s.putItems [(false, Config.padLiteral)] :=
      (bind_pure (s.put false Config.padLiteral)).symm
    rw [Reference.payload_open (by omega) hne, hput]
    refine (State.putItems_delivers hs _).bind fun t _ ⟨hsound, hstaged, _⟩ => ?_
    rw [← hstaged]
    have hlen' := t.openItems_length
    by_cases hempty : t.enc.gcnt = 0#4
    · rw [hempty] at hlen'
      rw [if_pos hempty, if_pos (List.eq_nil_of_length_eq_zero hlen')]
      exact State.delivers_ok (State.Appended.registers t t.seq ⟨rfl, rfl, rfl⟩) trivial
    · rw [if_neg hempty, if_neg fun e => hempty (BitVec.eq_of_toNat_eq (by rw [← hlen', e]; rfl))]
      exact State.flush_delivers hsound

end Machine

end Sys2Proof
end

section
/-! PROOFS for O44 and O45: the scan puts the runs of the image, and a pass of the encoder writes one frame. -/

namespace Sys2Proof.Machine

/-! ### The scan (R125) -/

/-- In the scan of an image, a run of `cnt` pixels `cur` is open and the pixels `left` are not visited yet. -/
structure State.Scans (s : State) (left : List Byte) : Prop where
  seq : s.seq = .encScan
  packer : s.packerSound
  src : s.src.readable
  image : s.scanSound
  run : 1 ≤ s.enc.cnt.toNat ∧ s.enc.cnt.toNat ≤ s.enc.eT.toNat
  visited : s.enc.eT.toNat + left.length = s.enc.eN.toNat
  pixels : left = (List.range' s.enc.eT.toNat left.length).map fun p =>
    s.peek s.src (scanAddress s.enc.eScan s.enc.eW.toNat s.enc.eH.toNat p)

/-- The items that are still to be written, the staged ones first. -/
abbrev State.itemsDue (s : State) (left : List Byte) : List (Bool × Byte) :=
  s.openItems ++ Reference.itemsOf (List.replicate s.enc.cnt.toNat s.enc.cur ++ left)

theorem runTurns_turn (turns : Nat) {s : State} (hseq : s.seq ≠ .host) :
    runTurns (turns + 1) s = s.turn >>= runTurns turns := by
  rw [runTurns, if_neg hseq]

theorem State.Scans.nextTurn {s : State} {left : List Byte} (h : s.Scans left) : s.nextTurn = s.nextScan := by
  rw [State.nextTurn, h.seq]

/-- The next pixel exists, and stands at its place. -/
theorem State.Scans.next_pixel {s : State} {b : Byte} {left : List Byte} (h : s.Scans (b :: left)) :
    s.enc.eT.toNat < s.enc.eN.toNat ∧ s.scanPlace < s.bufCap.toNat ∧ s.peek s.src s.scanPlace = b ∧
      (s.enc.eT + 1#64).toNat = s.enc.eT.toNat + 1 ∧
      left = (List.range' (s.enc.eT.toNat + 1) left.length).map fun p =>
        s.peek s.src (scanAddress s.enc.eScan s.enc.eW.toNat s.enc.eH.toNat p) := by
  obtain ⟨harea, hfit⟩ := h.image
  have hvisited := h.visited
  have hpixels := h.pixels
  rw [List.length_cons] at hvisited
  rw [List.length_cons, List.range'_succ, List.map_cons, List.cons.injEq] at hpixels
  have hmore : s.enc.eT.toNat < s.enc.eN.toNat := by omega
  refine ⟨hmore, ?_, hpixels.1.symm, by bv_omega, hpixels.2⟩
  exact (scanAddress_lt s.enc.eScan (harea ▸ hmore)).trans_le (harea ▸ hfit)

/-- The pixel joins the open run. -/
theorem State.Scans.extends {s : State} {left : List Byte} (h : s.Scans (s.enc.cur :: left)) :
    s.turn = .ok s.extendRun ∧ s.Appended s.extendRun [] ∧ s.extendRun.Scans left ∧
      s.extendRun.itemsDue left = s.itemsDue (s.enc.cur :: left) := by
  obtain ⟨hmore, hin, hat, hnext, hpixels⟩ := h.next_pixel
  have hrun := h.run
  have hcount : (s.enc.cnt + 1#64).toNat = s.enc.cnt.toNat + 1 := by bv_omega
  have hvisited := h.visited
  rw [List.length_cons] at hvisited
  refine ⟨?_, State.Appended.registers s s.seq ⟨rfl, rfl, rfl⟩, ⟨h.seq, h.packer, h.src, h.image, ?_, ?_, ?_⟩, ?_⟩
  · rw [State.turn_eq, h.nextTurn, State.nextScan_same hmore hin hat]
    rfl
  · change 1 ≤ (s.enc.cnt + 1#64).toNat ∧ (s.enc.cnt + 1#64).toNat ≤ (s.enc.eT + 1#64).toNat
    omega
  · change (s.enc.eT + 1#64).toNat + _ = s.enc.eN.toNat
    omega
  · change left = (List.range' (s.enc.eT + 1#64).toNat _).map _
    rw [hnext]
    exact hpixels
  · change s.openItems ++ Reference.itemsOf (List.replicate (s.enc.cnt + 1#64).toNat s.enc.cur ++ left) = _
    rw [hcount, List.replicate_succ', List.append_assoc]
    rfl

/-- The open run ends: its items are put, and the scan goes on behind it. -/
theorem State.Scans.turn_run {s : State} {left : List Byte} (h : s.Scans left)
    (hn : s.nextScan = .ok (.element (runForm s.enc.cnt s.enc.cur))) :
    s.turn = s.putItems (Reference.runItems s.enc.cnt.toNat s.enc.cur) >>= State.afterElement := by
  rw [State.turn_eq, h.nextTurn, hn]
  change runElement _ s >>= State.afterElement = _
  rw [runElement_runForm, Nat.max_eq_right h.run.1]

/-- The state with the run of the pixel at `e_t` open (R125). -/
def State.openNext (t : State) : State :=
  { t with enc := { t.enc with cur := t.peek t.src t.scanPlace, cnt := 1#64, eT := t.enc.eT + 1#64 } }

/-- Once the items of the open run are put, the pixel behind it opens a run. -/
theorem State.Scans.opens {s t : State} {b : Byte} {left : List Byte} {bytes : List Byte} (h : s.Scans (b :: left))
    (happ : s.Appended t bytes) (hsound : t.packerSound) (hsame : s.SameScan t) :
    t.afterElement = .ok t.openNext ∧ t.openNext.Scans left ∧ t.openNext.enc.cnt = 1#64 ∧
      t.openNext.enc.cur = b := by
  obtain ⟨hmore, hin, hat, hnext, hpixels⟩ := h.next_pixel
  obtain ⟨harea, hfit⟩ := h.image
  have hW : t.enc.eW = s.enc.eW := happ.dims.1
  have hH : t.enc.eH = s.enc.eH := happ.dims.2.1
  have hN : t.enc.eN = s.enc.eN := happ.dims.2.2
  have hT : t.enc.eT = s.enc.eT := (congrArg EncRegs.eT hsame.scan :)
  have hscan : t.enc.eScan = s.enc.eScan := (congrArg EncRegs.eScan hsame.scan :)
  have hplace : t.scanPlace = s.scanPlace := by rw [State.scanPlace, hscan, hW, hH, hT]
  have hpeek := (happ.input (h.src.ne_written h.packer.2.2)).2
  have hvisited := h.visited
  rw [List.length_cons] at hvisited
  refine ⟨State.afterElement_opens (hsame.seq.trans h.seq) (by rwa [hT, hN]) (by rwa [hplace, happ.bufCap]),
    ⟨hsame.seq.trans h.seq, hsound, happ.src ▸ h.src, ?_, ?_, ?_, ?_⟩, rfl, ?_⟩
  · change t.enc.eN.toNat = t.enc.eW.toNat * t.enc.eH.toNat ∧ t.enc.eN.toNat ≤ t.bufCap.toNat
    rw [hN, hW, hH, happ.bufCap]
    exact ⟨harea, hfit⟩
  · change 1 ≤ (1#64).toNat ∧ (1#64).toNat ≤ (t.enc.eT + 1#64).toNat
    rw [hT, hnext]
    exact ⟨le_rfl, Nat.le_add_left 1 _⟩
  · change (t.enc.eT + 1#64).toNat + _ = t.enc.eN.toNat
    rw [hT, hN]
    omega
  · change left = (List.range' (t.enc.eT + 1#64).toNat _).map
      fun p => t.peek t.src (scanAddress t.enc.eScan t.enc.eW.toNat t.enc.eH.toNat p)
    rw [hT, hnext, hpeek, hscan, hW, hH]
    exact hpixels
  · change t.peek t.src t.scanPlace = b
    rw [hpeek, hplace, hat]

/-- When every pixel is visited and the last run is put, the payload is closed (R125, R128). -/
theorem State.closes_payload (turns : Nat) {t : State} (hseq : t.seq = .encScan)
    (hdone : t.enc.eN.toNat ≤ t.enc.eT.toNat) (hsound : t.packerSound) :
    t.Delivers (t.afterElement >>= runTurns (turns + 1)) (Reference.payload t.openItems) fun _ => True := by
  have hclose : runTurns (turns + 1) { t with seq := .encClose } =
      State.finalise { t with seq := .encClose } >>= fun u => .ok { u with seq := .host } := by
    rw [runTurns_turn turns (by exact nofun)]
    change (State.finalise { t with seq := .encClose } >>= fun u => .ok { u with seq := .host }) >>= _ = _
    rw [bind_assoc]
    exact congrArg _ (funext fun u => runTurns_ended turns rfl)
  have hfinal : State.Delivers { t with seq := .encClose } (runTurns (turns + 1) { t with seq := .encClose })
      (Reference.payload t.openItems) fun _ => True := by
    rw [hclose, ← List.append_nil (Reference.payload _)]
    exact (State.finalise_delivers (s := { t with seq := .encClose }) hsound).bind fun u _ _ =>
      State.delivers_ok (State.Appended.registers u .host ⟨rfl, rfl, rfl⟩) trivial
  rw [State.afterElement_closes hseq hdone]
  exact hfinal.moved (State.Appended.registers t .encClose ⟨rfl, rfl, rfl⟩)

/-- The scan writes the payload of the items that are due: those of the open run and of the pixels left (R125). -/
theorem State.Scans.delivers {s : State} {left : List Byte} (h : s.Scans left) {turns : Nat}
    (hturns : left.length + 2 ≤ turns) :
    s.Delivers (runTurns turns s) (Reference.payload (s.itemsDue left)) fun _ => True := by
  induction left generalizing s turns with
  | nil =>
    obtain ⟨k, rfl⟩ : ∃ k, turns = k + 2 := Nat.exists_eq_add_of_le' hturns
    have hdone : s.enc.eN.toNat ≤ s.enc.eT.toNat := h.visited.ge
    have hitems : s.itemsDue [] = (s.openItems ++ Reference.runItems s.enc.cnt.toNat s.enc.cur) ++ [] := by
      rw [State.itemsDue, Reference.itemsOf_replicate_append h.run.1 (by simp), List.append_assoc]
      rfl
    rw [runTurns_turn (k + 1) (h.seq ▸ nofun), h.turn_run (State.nextScan_end hdone), bind_assoc, hitems,
      Reference.payload_append]
    refine (State.putItems_delivers h.packer _).bind fun t happ ⟨hsound, hstaged, hsame⟩ => ?_
    rw [List.append_nil, ← hstaged]
    have hT : t.enc.eT = s.enc.eT := (congrArg EncRegs.eT hsame.scan :)
    exact State.closes_payload k (hsame.seq.trans h.seq) (by rwa [happ.dims.2.2, hT]) hsound
  | cons b left ih =>
    obtain ⟨k, rfl⟩ : ∃ k, turns = k + 1 := Nat.exists_eq_add_of_le' ((Nat.le_add_left 1 _).trans hturns)
    rw [List.length_cons] at hturns
    rw [runTurns_turn k (h.seq ▸ nofun)]
    by_cases hjoins : b = s.enc.cur
    · subst hjoins
      obtain ⟨hturn, happ, hscans, hdue⟩ := h.extends
      rw [hturn, ← hdue]
      exact (ih hscans (by omega)).moved happ
    · obtain ⟨hmore, hin, hat, -⟩ := h.next_pixel
      have hitems : s.itemsDue (b :: left) =
          (s.openItems ++ Reference.runItems s.enc.cnt.toNat s.enc.cur) ++ Reference.itemsOf (b :: left) := by
        rw [State.itemsDue, Reference.itemsOf_replicate_append h.run.1 (by simpa using hjoins), List.append_assoc]
      rw [h.turn_run (State.nextScan_other hmore hin (hat ▸ hjoins)), bind_assoc, hitems, Reference.payload_append]
      refine (State.putItems_delivers h.packer _).bind fun t happ ⟨hsound, hstaged, hsame⟩ => ?_
      obtain ⟨hopens, hscans, hone, hcur⟩ := h.opens happ hsound hsame
      have hdue : t.openNext.itemsDue left = t.openItems ++ Reference.itemsOf (b :: left) := by
        rw [State.itemsDue, hone, hcur]
        rfl
      rw [hopens, ← hstaged, ← hdue]
      exact (ih hscans (by omega)).moved (State.Appended.registers t t.seq ⟨rfl, rfl, rfl⟩)

/-! ### One pass (R122 to R131) -/

/-- The bytes of an image in scan order are those at the places of its pixels (R71). -/
theorem State.scanOrder_bytes {s : State} {w h : Nat} (scan : Bool) (harea : w * h = s.inputLen) :
    Reference.scanOrder scan w h (s.bytes s.src s.inputLen) =
      (List.range (w * h)).map fun p => s.peek s.src (scanAddress scan w h p) := by
  refine List.map_congr_left fun p hp => ?_
  have hlt := scanAddress_lt scan (List.mem_range.1 hp)
  rw [List.getD_eq_getElem?_getD, State.bytes_getElem?, if_pos (harea ▸ hlt)]
  rfl

/-- The scan begins with the pixel `v` as its open run (R125). -/
def State.scanStart (t : State) (v : Byte) : State :=
  { t with seq := .encScan, enc := { t.enc with cur := v, cnt := 1#64, eT := 1#64 } }

theorem State.scanStart_itemsDue {t : State} (hempty : t.openItems = []) (v : Byte) (left : List Byte) :
    (t.scanStart v).itemsDue left = Reference.itemsOf (v :: left) := by
  change t.openItems ++ _ = _
  rw [hempty]
  rfl

theorem State.openScan_eq {t : State} (h : scanAddress t.enc.eScan t.enc.eW.toNat t.enc.eH.toNat 0 < t.bufCap.toNat) :
    t.openScan = .ok (t.scanStart (t.peek t.src (scanAddress t.enc.eScan t.enc.eW.toNat t.enc.eH.toNat 0))) := by
  rw [State.openScan, State.pix, State.inputByte_eq t _ h]
  rfl

/-- With an empty packer, the scan of a measured image writes the payload of all its pixels. -/
theorem State.scan_delivers {t : State} (hs : t.Ready) (hm : t.Measured) (hpacker : t.packerSound)
    (hempty : t.openItems = []) :
    t.Delivers (t.openScan >>= fun u => runTurns (u.enc.eN.toNat + 2) u)
      (Reference.payload (Reference.itemsOf
        (Reference.scanOrder t.enc.eScan t.enc.eW.toNat t.enc.eH.toNat (t.bytes t.src t.inputLen))))
      fun _ => True := by
  obtain ⟨k, hk⟩ := Nat.exists_eq_add_one.2 hm.pixels
  have harea := hm.area
  have hinput := hm.input
  have hcap := hs.input
  have hlength (f : Nat → Byte) : ((List.range' 1 k).map f).length = k := by simp
  have hpixels := State.scanOrder_bytes (s := t) t.enc.eScan (harea.symm.trans hinput)
  rw [← harea, hk, List.range_eq_range', List.range'_succ, List.map_cons] at hpixels
  have hfirst : scanAddress t.enc.eScan t.enc.eW.toNat t.enc.eH.toNat 0 < t.bufCap.toNat :=
    (scanAddress_lt t.enc.eScan (by omega)).trans_le (by omega)
  have hscans (v : Byte) : (t.scanStart v).Scans ((List.range' 1 k).map fun p =>
      t.peek t.src (scanAddress t.enc.eScan t.enc.eW.toNat t.enc.eH.toNat p)) := by
    refine ⟨rfl, hpacker, hs.src, ⟨harea, hinput.trans_le hcap⟩, ⟨le_rfl, le_rfl⟩, ?_, ?_⟩
    · rw [hlength]
      exact (Nat.add_comm 1 k).trans hk.symm
    · rw [hlength]
      rfl
  have hpass (v : Byte) := (hscans v).delivers (turns := t.enc.eN.toNat + 2) (by rw [hlength]; omega)
  rw [State.openScan_eq hfirst, hpixels, ← State.scanStart_itemsDue hempty]
  exact (hpass _).moved (State.Appended.registers t .encScan ⟨rfl, rfl, rfl⟩)

/-- The frame of the running stage's input. -/
abbrev State.frameOf (s : State) (scan : Bool) : List Byte :=
  Reference.rleFrame scan s.argModel s.enc.eW.toNat s.enc.eH.toNat (s.bytes s.src s.inputLen)

/-- The start of a pass empties its destination only. -/
theorem State.startPass_elsewhere (s : State) (scan : Bool) {dest sp : Space} (h : sp ≠ dest) :
    (s.startPass scan dest).mem sp = s.mem sp ∧ (s.startPass scan dest).len sp = s.len sp := by
  refine ⟨?_, ?_⟩
  · calc (s.startPass scan dest).mem sp = (s.clear dest).mem sp := by cases sp <;> rfl
      _ = s.mem sp := by rw [State.clear, State.setLen_mem, State.setMem_mem_other _ _ _ _ h]
  · calc (s.startPass scan dest).len sp = (s.clear dest).len sp := by cases sp <;> rfl
      _ = s.len sp := by rw [State.clear, State.setLen_len_other _ _ _ _ h, State.setMem_len]

theorem State.startPass_bytes {s : State} (scan : Bool) {dest : Space} (hsrc : s.src.readable) (hdest : dest.written) :
    (s.startPass scan dest).bytes (s.startPass scan dest).src (s.startPass scan dest).inputLen =
      s.bytes s.src s.inputLen := by
  have hkeeps := s.startPass_keeps scan hdest
  rw [hkeeps.inputLen hsrc, hkeeps.src]
  refine State.bytes_congr _ _ _ _ _ fun a _ => ?_
  rw [State.peek, (s.startPass_elsewhere scan (hsrc.ne_written hdest)).1, State.peek]

/-- A pass appends the frame to its empty destination. -/
theorem State.encodePass_delivers {s : State} (scan : Bool) {dest : Space} (hs : s.Ready) (hm : s.Measured)
    (hdest : dest.written) :
    (s.startPass scan dest).Delivers (s.encodePass scan dest) (s.frameOf scan) fun _ => True := by
  have hkeeps := s.startPass_keeps scan hdest
  have hready := hs.keeps hkeeps
  have hmeasured : (s.startPass scan dest).Measured := hm.keeps hs.src hkeeps ⟨rfl, rfl, rfl⟩
  rw [State.encodePass_eq]
  refine (State.appendAll_delivers hdest _).bind fun t happ henc => ?_
  obtain ⟨hlen, hpeek⟩ := happ.input (hready.src.ne_written hdest)
  have hpacker : t.packerSound := by
    rw [State.packerSound, henc, happ.dest]
    exact ⟨Nat.zero_le 7, Nat.one_pos, hdest⟩
  have hempty : t.openItems = [] := by
    rw [State.openItems, henc]
    rfl
  have hpass := State.scan_delivers (hready.appended happ) (hmeasured.appended hready happ) hpacker hempty
  have hbytes := State.startPass_bytes scan hs.src hdest
  rw [State.bytes, ← hpeek, ← hlen] at hbytes
  rw [henc, State.bytes, hbytes] at hpass
  exact hpass

/-- What a pass of the encoder leaves: the frame in its destination, everything else where it was. -/
structure State.Passed (s : State) (scan : Bool) (dest : Space) (t : State) : Prop where
  appended : (s.startPass scan dest).Appended t (s.frameOf scan)
  length : (t.len dest).toNat = (s.frameOf scan).length
  stored : t.bytes dest (t.len dest).toNat = s.frameOf scan
  whole : t.whole dest

theorem State.startPass_len (s : State) (scan : Bool) (dest : Space) : (s.startPass scan dest).len dest = 0#64 := by
  cases dest <;> rfl

theorem State.encodePass_fits {s : State} {scan : Bool} {dest : Space} (hs : s.Ready) (hm : s.Measured)
    (hdest : dest.written) (h : (s.frameOf scan).length ≤ s.bufCap.toNat) :
    ∃ t, s.encodePass scan dest = .ok t ∧ s.Passed scan dest t := by
  have hzero := s.startPass_len scan dest
  have hpass := State.encodePass_delivers scan hs hm hdest
  unfold State.Delivers at hpass
  rw [(s.startPass_keeps scan hdest).bufCap, show (s.startPass scan dest).dest = dest from rfl, hzero,
    BitVec.toNat_zero, Nat.zero_add, if_pos h] at hpass
  obtain ⟨t, ht, happ, -⟩ := hpass (Nat.zero_le _)
  have hlength := happ.length
  have hstored := happ.stored
  rw [show (s.startPass scan dest).dest = dest from rfl, hzero] at hlength hstored
  refine ⟨t, ht, happ, hlength.trans (Nat.zero_add _), hstored, happ.whole fun a ha => ?_⟩
  rw [show (s.startPass scan dest).dest = dest from rfl, hzero] at ha
  exact absurd ha (Nat.not_lt_zero a)

theorem State.encodePass_full {s : State} {scan : Bool} {dest : Space} (hs : s.Ready) (hm : s.Measured)
    (hdest : dest.written) (h : s.bufCap.toNat < (s.frameOf scan).length) :
    s.encodePass scan dest = .error (.err .alloc) := by
  have hpass := State.encodePass_delivers scan hs hm hdest
  unfold State.Delivers at hpass
  rw [(s.startPass_keeps scan hdest).bufCap, show (s.startPass scan dest).dest = dest from rfl,
    s.startPass_len scan dest, BitVec.toNat_zero, Nat.zero_add, if_neg (Nat.not_le.2 h)] at hpass
  exact hpass (Nat.zero_le _)

/-! ### RLE_ENC_H and RLE_ENC_V (R121, R129, R130, R134) -/

/-- The encoder with the dimensions that CheckDims has accepted. -/
def State.sized (s : State) (w h : Word) : State :=
  { s with enc := { s.enc with eW := w, eH := h, eN := BitVec.ofNat 64 (w.toNat * h.toNat) } }

theorem State.checkDims_fits {s : State} {w h : Word} (hw : w ≠ 0#64) (hh : h ≠ 0#64)
    (harea : w.toNat * h.toNat = s.inputLen) : s.checkDims w h = .ok (s.sized w h) :=
  (if_neg (not_or.2 ⟨hw, hh⟩)).trans (if_neg (not_not.2 harea))

/-- A state whose input is an image of the size `w` by `h`. -/
structure State.Pictures (s : State) (w h : Word) : Prop where
  ready : s.Ready
  width : w ≠ 0#64
  height : h ≠ 0#64
  area : w.toNat * h.toNat = s.inputLen

theorem State.Pictures.sized_ready {s : State} {w h : Word} (hp : s.Pictures w h) :
    (s.sized w h).Ready ∧ (s.sized w h).Measured := by
  have hends := State.checkDims_ends (s := s) w h
  rw [State.checkDims_fits hp.width hp.height hp.area] at hends
  exact ⟨hp.ready.keeps hends.1, hends.2⟩

theorem State.rleEncBody_eq {s : State} {w h : Word} (hp : s.Pictures w h) (scan : Bool) :
    State.rleEncBody scan w h s = (s.sized w h).encodePass scan .out := by
  rw [State.rleEncBody, State.checkDims_fits hp.width hp.height hp.area]
  rfl

/-- The arguments of an encoder command fit its input. -/
theorem State.begin_pictures {s : State} (hfit : s.inLen.toNat ≤ s.bufCap.toNat) (hw : s.argW ≠ 0#64)
    (hh : s.argH ≠ 0#64) (harea : s.argW.toNat * s.argH.toNat = s.inLen.toNat) : s.begin.Pictures s.argW s.argH :=
  ⟨(State.begin_stage hfit).ready, hw, hh, harea⟩

theorem exec_rleEnc {s : State} (scan : Bool) (hfit : s.inLen.toNat ≤ s.bufCap.toNat) :
    exec (if scan then .rleEncH else .rleEncV) s =
      s.outcome (State.rleEncBody scan s.argW s.argH s.begin >>= fun t =>
        .ok (t.finish { flags := some (resultFlags false scan) })) := by
  cases scan
  all_goals
    exact State.command_body s (fun b => State.rleEncBody _ b.argW b.argH b >>= fun t =>
      .ok (t.finish { flags := some (resultFlags false _) })) hfit

theorem resultFlags_scan (model scan : Bool) : (resultFlags model scan).getLsbD 1 = scan := by
  revert model scan
  decide

/-- Settles O44: a pass appends header and payload, or the first piece without room raises. -/
theorem rleEncodersWriteTheFrame : Obligations.RleEncodersWriteTheFrame := by
  rintro s scan _ hfit hw hh harea rfl
  have hp := State.begin_pictures hfit hw hh harea
  obtain ⟨hready, hmeasured⟩ := hp.sized_ready
  rw [exec_rleEnc scan hfit, State.rleEncBody_eq hp scan]
  refine ⟨fun hroom => ?_, fun hfull => ?_⟩
  · obtain ⟨t, ht, hpassed⟩ := State.encodePass_fits hready hmeasured (.inl rfl) hroom (dest := .out)
    rw [ht]
    refine ⟨_, rfl, t.finish_succeeded _, hpassed.length, (t.finish_output _).trans hpassed.stored, ?_⟩
    rw [State.finish_resFlags _ _ _ rfl, resultFlags_scan]
  · rw [State.encodePass_full hready hmeasured (.inl rfl) hfull]
    rfl

/-! ### RLE_ENC_A (R135) -/

/-- The next pass begins with the same image. -/
theorem State.Passed.next {s t : State} {scan : Bool} {dest : Space} (h : s.Passed scan dest t) (hs : s.Ready)
    (hm : s.Measured) (hdest : dest.written) :
    t.Ready ∧ t.Measured ∧ t.bufCap = s.bufCap ∧ ∀ other, t.frameOf other = s.frameOf other := by
  obtain ⟨happ, -, -, -⟩ := h
  have hkeeps := s.startPass_keeps scan hdest
  have hready := hs.keeps hkeeps
  have hmeasured : (s.startPass scan dest).Measured := hm.keeps hs.src hkeeps ⟨rfl, rfl, rfl⟩
  obtain ⟨hlen, hpeek⟩ := happ.input (hready.src.ne_written hdest)
  have hbytes := State.startPass_bytes scan hs.src hdest
  rw [State.bytes, ← hpeek, ← hlen] at hbytes
  have hargs : t.argFlags = (s.startPass scan dest).argFlags := (congrArg State.argFlags happ.frame :)
  have hmodel : t.argModel = s.argModel := by
    rw [State.argModel, hargs, State.startPass]
    exact congrArg (·.getLsbD 0) (s.clear_argFlags dest)
  refine ⟨hready.appended happ, hmeasured.appended hready happ, happ.bufCap.trans hkeeps.bufCap, fun other => ?_⟩
  rw [State.frameOf, hmodel, happ.dims.1, happ.dims.2.1, State.bytes, hbytes]
  rfl

/-- OUT holds what OUTB holds once its memory is moved there (R135). -/
theorem State.whole.moved {s : State} (h : s.whole .outb) :
    State.output { s with outMem := s.outbMem, outLen := s.outbLen } = s.bytes .outb s.outbLen.toNat :=
  State.bytes_congr _ _ _ _ _ fun a ha => by
    obtain ⟨v, hv⟩ := Option.isSome_iff_exists.1 (h a ha)
    have hv' : Memory.read s.outbMem a = some v := hv
    simp only [State.peek, State.mem, hv', Option.getD_some]

theorem exec_rleEncA {s : State} (hp : s.begin.Pictures s.argW s.argH) (hfit : s.inLen.toNat ≤ s.bufCap.toNat) :
    exec .rleEncA s = s.outcome
      ((s.begin.sized s.argW s.argH).encodePass true .out >>= fun a => a.encodePass false .outb >>= fun b =>
        if b.outbLen.toNat ≤ b.outLen.toNat then
          .ok (State.finish { b with outMem := b.outbMem, outLen := b.outbLen }
            { flags := some (resultFlags false false) })
        else .ok (b.finish { flags := some (resultFlags false true) })) := by
  have hcommand := State.command_body s (fun b => State.rleEncABody b.argW b.argH b >>= fun t =>
    .ok (t.1.finish { flags := some (resultFlags false t.2) })) hfit
  refine hcommand.trans (congrArg s.outcome ?_)
  change State.rleEncABody s.argW s.argH s.begin >>= _ = _
  rw [State.rleEncABody, State.checkDims_fits hp.width hp.height hp.area]
  change ((s.begin.sized s.argW s.argH).encodePass true .out >>= _) >>= _ = _
  rw [bind_assoc]
  refine congrArg _ (funext fun a => ?_)
  rw [bind_assoc]
  refine congrArg _ (funext fun b => ?_)
  split
  · rfl
  · rfl

/-- After both passes OUT holds the horizontal frame and OUTB the vertical one. -/
theorem State.passes_fit {s : State} (hs : s.Ready) (hm : s.Measured)
    (hfitH : (s.frameOf true).length ≤ s.bufCap.toNat) (hfitV : (s.frameOf false).length ≤ s.bufCap.toNat) :
    ∃ a b, s.encodePass true .out = .ok a ∧ a.encodePass false .outb = .ok b ∧
      b.outLen.toNat = (s.frameOf true).length ∧ b.output = s.frameOf true ∧
      b.outbLen.toNat = (s.frameOf false).length ∧ b.bytes .outb b.outbLen.toNat = s.frameOf false ∧
      b.whole .outb := by
  obtain ⟨a, ha, hpassed⟩ := State.encodePass_fits hs hm (.inl rfl) hfitH (dest := .out)
  obtain ⟨hready, hmeasured, hcap, hframe⟩ := hpassed.next hs hm (.inl rfl)
  rw [← hframe false, ← hcap] at hfitV
  obtain ⟨b, hb, hpassed'⟩ := State.encodePass_fits hready hmeasured (.inr rfl) hfitV (dest := .outb)
  have hlength := hpassed'.length
  have hstored := hpassed'.stored
  rw [hframe false] at hlength hstored
  obtain ⟨hmem, hlen⟩ := hpassed'.appended.elsewhere .out nofun
  obtain ⟨hmem', hlen'⟩ := a.startPass_elsewhere false (dest := .outb) (sp := .out) nofun
  have houtLen : b.outLen = a.outLen := hlen.trans hlen'
  refine ⟨a, b, ha, hb, ?_, ?_, hlength, hstored, hpassed'.whole⟩
  · rw [houtLen]
    exact hpassed.length
  · rw [State.output, houtLen, State.bytes_congr b a .out .out _ fun p _ => by
      rw [State.peek, hmem, hmem', State.peek]]
    exact hpassed.stored

/-- A frame that does not fit ends its pass, and with it the command. -/
theorem State.passes_full {s : State} (hs : s.Ready) (hm : s.Measured) (f : State → Run State)
    (hfull : s.bufCap.toNat < (s.frameOf true).length ∨ s.bufCap.toNat < (s.frameOf false).length) :
    (s.encodePass true .out >>= fun a => a.encodePass false .outb >>= f) = .error (.err .alloc) := by
  by_cases hfirst : s.bufCap.toNat < (s.frameOf true).length
  · rw [State.encodePass_full hs hm (.inl rfl) hfirst]
    rfl
  · obtain ⟨a, ha, hpassed⟩ := State.encodePass_fits hs hm (.inl rfl) (Nat.not_lt.1 hfirst) (dest := .out)
    obtain ⟨hready, hmeasured, hcap, hframe⟩ := hpassed.next hs hm (.inl rfl)
    have hsecond := hfull.resolve_left hfirst
    rw [← hframe false, ← hcap] at hsecond
    rw [ha]
    change a.encodePass false .outb >>= f = _
    rw [State.encodePass_full hready hmeasured (.inr rfl) hsecond]
    rfl

/-- Settles O45: the second pass leaves the first frame in OUT, and the shorter one is kept. -/
theorem adaptiveEncoderKeepsTheShorter : Obligations.AdaptiveEncoderKeepsTheShorter := by
  rintro s _ _ hfit hw hh harea rfl rfl
  have hp := State.begin_pictures hfit hw hh harea
  obtain ⟨hready, hmeasured⟩ := hp.sized_ready
  rw [exec_rleEncA hp hfit]
  refine ⟨fun hfitH hfitV => ?_, fun hfull => ?_⟩
  · obtain ⟨a, b, ha, hb, hlenH, houtH, hlenV, houtV, hwhole⟩ := State.passes_fit hready hmeasured hfitH hfitV
    rw [ha]
    change ∃ t, s.outcome (a.encodePass false .outb >>= _) = _ ∧ _
    rw [hb]
    change ∃ t, s.outcome (if b.outbLen.toNat ≤ b.outLen.toNat then _ else _) = _ ∧ _
    by_cases hshorter : b.outbLen.toNat ≤ b.outLen.toNat
    · rw [if_pos hshorter]
      refine ⟨_, rfl, State.finish_succeeded _ _, ?_, (State.output_length _).symm, ?_⟩
      · rw [State.finish_output, hwhole.moved, houtV, if_pos (hlenV ▸ hlenH ▸ hshorter)]
        rfl
      · rw [State.finish_resFlags _ _ _ rfl, resultFlags_scan]
        exact (decide_eq_false (hlenV ▸ hlenH ▸ Nat.not_lt.2 hshorter)).symm
    · rw [if_neg hshorter]
      refine ⟨_, rfl, State.finish_succeeded _ _, ?_, (State.output_length _).symm, ?_⟩
      · rw [State.finish_output, houtH, if_neg (hlenV ▸ hlenH ▸ hshorter)]
        rfl
      · rw [State.finish_resFlags _ _ _ rfl, resultFlags_scan]
        exact (decide_eq_true (hlenV ▸ hlenH ▸ Nat.not_le.1 hshorter)).symm
  · rw [State.passes_full hready hmeasured _ hfull]
    rfl

end Sys2Proof.Machine
end

section
/-! PROOF for O19: the tests that a command makes first on its arguments. -/

namespace Sys2Proof.Machine

/-! ### Dimensions (R121) -/

theorem State.checkDims_zero {s : State} {w h : Word} (hzero : w = 0#64 ∨ h = 0#64) :
    s.checkDims w h = .error (.err .rleEncDimZero) := if_pos hzero

theorem State.checkDims_mismatch {s : State} {w h : Word} (hw : w ≠ 0#64) (hh : h ≠ 0#64)
    (harea : w.toNat * h.toNat ≠ s.inputLen) : s.checkDims w h = .error (.err .rleEncDimMismatch) :=
  (if_neg (not_or.2 ⟨hw, hh⟩)).trans (if_pos harea)

/-- What CheckDims raises, every encoder command raises. -/
theorem exec_rleEnc_dims {s : State} {i : Instr} {e : Err} (hi : i = .rleEncH ∨ i = .rleEncV ∨ i = .rleEncA)
    (hfit : s.inLen.toNat ≤ s.bufCap.toNat) (h : s.begin.checkDims s.argW s.argH = .error (.err e)) :
    exec i s = .next (s.raise e) := by
  have hbody (scan : Bool) : State.rleEncBody scan s.argW s.argH s.begin = .error (.err e) := by
    rw [State.rleEncBody, h]
    rfl
  rcases hi with rfl | rfl | rfl
  · refine (exec_rleEnc true hfit).trans ?_
    rw [hbody]
    rfl
  · refine (exec_rleEnc false hfit).trans ?_
    rw [hbody]
    rfl
  · have hadaptive : State.rleEncABody s.argW s.argH s.begin = .error (.err e) := by
      rw [State.rleEncABody, h]
      rfl
    refine (State.command_body s (fun b => State.rleEncABody b.argW b.argH b >>= fun t =>
      .ok (t.1.finish { flags := some (resultFlags false t.2) })) hfit).trans ?_
    change s.outcome (State.rleEncABody s.argW s.argH s.begin >>= _) = _
    rw [hadaptive]
    rfl

/-! ### COMPRESS (R229) -/

theorem exec_compress {s : State} (hfit : s.inLen.toNat ≤ s.bufCap.toNat) :
    exec .compress s = s.outcome (compressBody s.begin) := State.command_body s compressBody hfit

theorem compressBody_zero {s : State} (h : s.argW = 0#64 ∨ s.inLen = 0#64) :
    compressBody s = .error (.err .rleEncDimZero) := by
  rw [compressBody_eq, if_pos h]

theorem compressBody_indivisible {s : State} (hw : s.argW ≠ 0#64) (hlen : s.inLen ≠ 0#64)
    (h : s.inLen.toNat % s.argW.toNat ≠ 0) : compressBody s = .error (.err .pipeDim) := by
  rw [compressBody_eq, if_neg (not_or.2 ⟨hw, hlen⟩), if_pos h]

/-! ### Empty inputs (R141, R181, R195) -/

theorem State.hufEncBody_empty {s : State} (h : s.inputLen = 0) : s.hufEncBody = .error (.err .hufEncEmpty) := by
  unfold State.hufEncBody
  exact if_pos h

theorem State.hufDecBody_empty {s : State} (h : s.inputLen = 0) : s.hufDecBody = .error (.err .hufDecEmpty) :=
  runTurns_error _ nofun (State.turn_next_error (if_pos h))

theorem State.rleDecBody_empty {s : State} (hsrc : s.src.readable) (h : s.inputLen = 0) :
    s.rleDecBody = .error (.err .rleDecShortHeader) := by
  have hlen : (s.clear .out).inputLen = s.inputLen := (State.clear_keeps (.inl rfl)).inputLen hsrc
  exact runTurns_error _ nofun (State.turn_next_error (if_pos (by
    change (s.clear .out).inputLen < 1
    omega)))

/-- A command of one stage whose engine raises. -/
theorem stage_command_raises {s : State} {stage : State → Run State} {results : State → Results} {e : Err}
    (hfit : s.inLen.toNat ≤ s.bufCap.toNat) (h : stage s.begin = .error (.err e)) :
    s.command (fun b => stage b >>= fun t => .ok (t.finish (results t))) = .next (s.raise e) := by
  rw [State.command_body s _ hfit, h]
  rfl

theorem exec_decompress_empty {s : State} (hfit : s.inLen.toNat ≤ s.bufCap.toNat) (h : s.begin.inputLen = 0) :
    exec .decompress s = .next (s.raise .hufDecEmpty) := by
  refine (State.command_body s decompressBody hfit).trans ?_
  rw [decompressBody_eq, State.hufDecBody_empty h]
  rfl

/-- Settles O19: each command makes its own test before its engine starts, or its engine's first turn makes it. -/
theorem argumentTestsRaiseTheirFaults : Obligations.ArgumentTestsRaiseTheirFaults := by
  intro s hfit
  have hempty (h : s.inLen = 0#64) : s.begin.inputLen = 0 := congrArg BitVec.toNat h
  refine ⟨fun i hi => ⟨fun hzero => ?_, fun hw hh harea => ?_⟩, fun hzero => ?_, fun hw hlen hmod => ?_, fun h => ?_,
    fun h => ?_, fun h => ?_, fun h => ?_⟩
  · exact exec_rleEnc_dims hi hfit (State.checkDims_zero hzero)
  · exact exec_rleEnc_dims hi hfit (State.checkDims_mismatch hw hh harea)
  · rw [exec_compress hfit, compressBody_zero (s := s.begin) hzero]
    rfl
  · rw [exec_compress hfit, compressBody_indivisible (s := s.begin) hw hlen hmod]
    rfl
  · exact stage_command_raises hfit (State.hufEncBody_empty (hempty h))
  · exact stage_command_raises hfit (State.hufDecBody_empty (hempty h))
  · exact exec_decompress_empty hfit (hempty h)
  · exact stage_command_raises hfit (State.rleDecBody_empty (State.begin_stage hfit).ready.src (hempty h))

end Sys2Proof.Machine
end

section
/-! SUPPORT for O48: the payload of an RLE frame, read by the machine and by the reference turn by turn. -/

namespace Sys2Proof

/-! ### The reference, byte by byte (R143 to R148) -/

namespace Reference

section Bytes

variable (scan : Bool) {n : Nat} (b : Byte) (bs : List Byte) (cs : List Bool) (acc : Option Nat) {out : List Byte}

theorem payloadPixels_full (cls : List Bool) (h : n ≤ out.length) :
    payloadPixels scan n bs cls acc out = .ok out := by
  cases bs with
  | nil => exact if_neg (Nat.not_lt.2 h)
  | cons b bs =>
    unfold payloadPixels
    exact if_pos h

theorem payloadPixels_group (h : out.length < n) :
    payloadPixels scan n (b :: bs) [] acc out = payloadPixels scan n bs (classifiers b) acc out := by
  rw [payloadPixels, if_neg (Nat.not_le.2 h)]

theorem payloadPixels_counter (h : out.length < n) :
    payloadPixels scan n (b :: bs) (true :: cs) acc out =
      if 2 ^ 56 ≤ acc.getD 0 ∨ 2 ^ 64 - 3 < acc.getD 0 * 256 + b.toNat then .error .rleDecCountOverflow
      else payloadPixels scan n bs cs (some (acc.getD 0 * 256 + b.toNat)) out := by
  rw [payloadPixels, if_neg (Nat.not_le.2 h), ite_or]

/-- The length of the run that a literal ends, from the counter before it (R92). -/
def runLength (acc : Option Nat) : Nat := acc.elim 1 (· + 2)

theorem payloadPixels_literal (h : out.length < n) :
    payloadPixels scan n (b :: bs) (false :: cs) acc out =
      if scan then
        payloadPixels scan n bs cs none (out ++ List.replicate (min (runLength acc) (n - out.length)) b)
      else if n - out.length < runLength acc then .error .rleDecVertOverrun
      else payloadPixels scan n bs cs none (out ++ List.replicate (runLength acc) b) := by
  cases acc
  all_goals
    rw [payloadPixels, if_neg (Nat.not_le.2 h)]
    rfl

end Bytes

end Reference

namespace Machine

/-! ### Places of the pixels (R71) -/

/-- The transposed address leads back to the scan position. -/
theorem scanAddress_scanAddress {w h p : Nat} (hp : p < w * h) :
    scanAddress false h w (scanAddress false w h p) = p := by
  have hh : 0 < h := Nat.pos_of_ne_zero fun e => by subst e; exact absurd hp (Nat.not_lt_zero _)
  have hx : p / h < w := Nat.div_lt_of_lt_mul (by rwa [Nat.mul_comm])
  have hmod : (p % h * w + p / h) % w = p / h := by
    rw [Nat.add_comm, Nat.add_mul_mod_self_right, Nat.mod_eq_of_lt hx]
  have hdiv : (p % h * w + p / h) / w = p % h := by
    rw [Nat.add_comm, Nat.add_mul_div_right _ _ (Nat.zero_lt_of_lt hx), Nat.div_eq_of_lt hx, Nat.zero_add]
  change (p % h * w + p / h) % w * h + (p % h * w + p / h) / w = p
  rw [hmod, hdiv, Nat.div_add_mod']

theorem scanAddress_injective {scan : Bool} {w h p q : Nat} (hp : p < w * h) (hq : q < w * h)
    (h : scanAddress scan w h p = scanAddress scan w h q) : p = q := by
  cases scan with
  | true => exact h
  | false => rw [← scanAddress_scanAddress hp, h, scanAddress_scanAddress hq]

/-! ### The frame's bytes from an address on -/

def State.frameFrom (s : State) (a : Nat) : List Byte := (List.range' a (s.inputLen - a)).map (s.peek s.src)

@[simp] theorem State.frameFrom_length (s : State) (a : Nat) : (s.frameFrom a).length = s.inputLen - a := by
  rw [State.frameFrom, List.length_map, List.length_range']

theorem State.frameFrom_getElem? (s : State) (a i : Nat) :
    (s.frameFrom a)[i]? = if a + i < s.inputLen then some (s.peek s.src (a + i)) else none := by
  rw [State.frameFrom, List.getElem?_map]
  split
  · rw [List.getElem?_range' (by omega), Nat.one_mul]
    rfl
  · rw [List.getElem?_eq_none (by rw [List.length_range']; omega)]
    rfl

theorem State.frameFrom_of_lt {s : State} {a : Nat} (h : a < s.inputLen) :
    s.frameFrom a = s.peek s.src a :: s.frameFrom (a + 1) := by
  rw [State.frameFrom, show s.inputLen - a = s.inputLen - (a + 1) + 1 by omega, List.range'_succ, List.map_cons]
  rfl

theorem State.frameFrom_drop (s : State) (a d : Nat) : (s.frameFrom a).drop d = s.frameFrom (a + d) := by
  refine List.ext_getElem? fun i => ?_
  rw [List.getElem?_drop, State.frameFrom_getElem?, State.frameFrom_getElem?, Nat.add_assoc]

theorem State.frameFrom_take {s : State} {a d : Nat} (h : a + d ≤ s.inputLen) :
    (s.frameFrom a).take d = (List.range d).map fun i => s.peek s.src (a + i) := by
  refine List.ext_getElem? fun i => ?_
  rw [List.getElem?_take, State.frameFrom_getElem?, List.getElem?_map]
  by_cases hi : i < d
  · rw [if_pos hi, if_pos (by omega), List.getElem?_range hi]
    rfl
  · rw [if_neg hi, List.getElem?_eq_none (by rw [List.length_range]; omega)]
    rfl

/-! ### LIT in a frame of either direction (R146, R148) -/

/-- Where pixel `p` of the frame is stored (R71). -/
abbrev DecRegs.place (d : DecRegs) (p : Nat) : Nat := scanAddress d.dScan d.dW.toNat d.dH.toNat p

/-- The header's registers, which the payload leaves as they are. -/
structure DecRegs.sameHeader (d e : DecRegs) : Prop where
  dScan : e.dScan = d.dScan
  dModel : e.dModel = d.dModel
  dW : e.dW = d.dW
  dH : e.dH = d.dH
  dN : e.dN = d.dN

theorem DecRegs.sameHeader.trans {d e f : DecRegs} (h : d.sameHeader e) (h' : e.sameHeader f) : d.sameHeader f :=
  ⟨h'.dScan.trans h.dScan, h'.dModel.trans h.dModel, h'.dW.trans h.dW, h'.dH.trans h.dH, h'.dN.trans h.dN⟩

theorem DecRegs.sameHeader.place {d e : DecRegs} (h : d.sameHeader e) (p : Nat) : e.place p = d.place p := by
  rw [DecRegs.place, h.dScan, h.dW, h.dH]

/-- The literal `v` has been taken and `k` pixels are written with it. -/
structure State.LitWrote (s : State) (v : Byte) (k : Nat) (t : State) : Prop where
  frame : { t with dec := s.dec, outMem := s.outMem } = s
  header : s.dec.sameHeader t.dec
  group : t.dec.dG = s.dec.dG
  cursor : t.dec.rp = s.dec.rp + 1#64 ∧ t.dec.gbit = s.dec.gbit + 1#4
  pair : t.dec.acc = 0#64 ∧ t.dec.nfrag = false
  count : t.dec.written.toNat = s.dec.written.toNat + k
  stored : ∀ p, s.dec.written.toNat ≤ p → p < s.dec.written.toNat + k → t.peek .out (s.dec.place p) = v
  kept : ∀ p, p < s.dec.written.toNat → t.peek .out (s.dec.place p) = s.peek .out (s.dec.place p)

/-- An element that answers a state inside the payload has not raised. -/
theorem runLit_of_exec {s t : State} {v : Byte} (h : exec (.lit v) s = .next t) (hseq : t.seq ≠ .host) :
    runLit v s = .ok t := by
  rcases State.outcome_next (show s.outcome (runLit v s) = .next t from h) with h | ⟨e, -, rfl⟩
  · exact h
  · exact absurd rfl hseq

/-- The horizontal reconstruction cuts the run off at the end of the image (R146). -/
theorem runLit_wrote_horizontal {s : State} (v : Byte) (hopen : s.seq ≠ .host) (hs : s.payloadSound)
    (hscan : s.dec.dScan = true) :
    ∃ t, runLit v s = .ok t ∧ s.LitWrote v (min s.dec.count (s.dec.dN.toNat - s.dec.written.toNat)) t := by
  obtain ⟨-, -, hfit, hwritten, -⟩ := hs
  obtain ⟨t, ht, hframe, hregisters, hrp, hgbit, hacc, hnfrag, hcount, hstored, hkept⟩ :=
    litWritesAHorizontalRun s v hscan hwritten hfit
  have hcount : t.dec.written.toNat = s.dec.written.toNat +
    min s.dec.count (s.dec.dN.toNat - s.dec.written.toNat) := hcount
  have hplace (p : Nat) : s.dec.place p = p := by
    rw [DecRegs.place, hscan]
    rfl
  refine ⟨t, runLit_of_exec ht ((congrArg State.seq hframe :) ▸ hopen), hframe,
    ⟨(congrArg DecRegs.dScan hregisters :), (congrArg DecRegs.dModel hregisters :),
      (congrArg DecRegs.dW hregisters :), (congrArg DecRegs.dH hregisters :), (congrArg DecRegs.dN hregisters :)⟩,
    (congrArg DecRegs.dG hregisters :), ⟨hrp, hgbit⟩, ⟨hacc, hnfrag⟩, hcount, fun p hp hp' => ?_, fun p hp => ?_⟩
  · rw [hplace]
    exact hstored p hp (hcount ▸ hp')
  · rw [hplace]
    exact hkept p (.inl hp)

/-- The vertical reconstruction writes the whole run, where it fits (R148). -/
theorem runLit_wrote_vertical {s : State} (v : Byte) (hopen : s.seq ≠ .host) (hs : s.payloadSound)
    (hscan : s.dec.dScan = false) (hfits : s.dec.count ≤ s.dec.dN.toNat - s.dec.written.toNat) :
    ∃ t, runLit v s = .ok t ∧ s.LitWrote v s.dec.count t := by
  obtain ⟨t, ht, hframe, hregisters, hrp, hgbit, hacc, hnfrag, hcount, -, -, hstored, hkept⟩ :=
    (litWritesAVerticalRun s v s.dec.count hscan hs rfl).2 hfits
  obtain ⟨-, harea, -, hwritten, -⟩ := hs
  have hplace (p : Nat) : s.dec.place p = scanAddress false s.dec.dW.toNat s.dec.dH.toNat p := by
    rw [DecRegs.place, hscan]
  refine ⟨t, runLit_of_exec ht ((congrArg State.seq hframe :) ▸ hopen), hframe,
    ⟨(congrArg DecRegs.dScan hregisters :), (congrArg DecRegs.dModel hregisters :),
      (congrArg DecRegs.dW hregisters :), (congrArg DecRegs.dH hregisters :), (congrArg DecRegs.dN hregisters :)⟩,
    (congrArg DecRegs.dG hregisters :), ⟨hrp, hgbit⟩, ⟨hacc, hnfrag⟩, hcount, fun p hp hp' => ?_, fun p hp => ?_⟩
  · rw [hplace]
    exact hstored p hp (hcount ▸ hp')
  · rw [hplace]
    refine hkept _ fun q hq hq' heq => ?_
    have hpq := scanAddress_injective (by omega) (by omega) heq
    omega

/-! ### One turn of the payload (R143 to R148) -/

/-- The decoder in `s` has the bytes `left` and the classifiers `cls` of the active group left to read, has the counter
`acc` so far, and has written the pixels `out`. -/
structure State.Paints (s : State) (left : List Byte) (cls : List Bool) (acc : Option Nat) (out : List Byte) :
    Prop where
  stream : s.StreamSound
  seq : s.seq = .rlePayload
  left : s.frameFrom s.dec.rp.toNat = left
  group : s.dec.gbit.toNat ≤ 8
  classes : (Reference.classifiers s.dec.dG).drop s.dec.gbit.toNat = cls
  counter : (if s.dec.nfrag then some s.dec.acc.toNat else none) = acc
  fresh : s.dec.nfrag = false → s.dec.acc = 0#64
  length : out.length = s.dec.written.toNat
  painted : ∀ p v, out[p]? = some v → s.peek .out (s.dec.place p) = v

section Paints

variable {s t : State} {b : Byte} {left : List Byte} {cls : List Bool} {acc : Option Nat} {out : List Byte}

theorem State.Paints.payload (h : s.Paints left cls acc out) : s.payloadSound := by
  have hpos := h.stream.position
  rw [State.positionSound, h.seq] at hpos
  exact hpos

theorem State.Paints.count (h : s.Paints left cls acc out) :
    s.dec.count = Reference.runLength acc := by
  rw [← h.counter, DecRegs.count]
  split
  · rfl
  · rfl

/-- The byte at the cursor is the next one left. -/
theorem State.Paints.next_byte (h : s.Paints (b :: left) cls acc out) :
    s.dec.rp.toNat < s.inputLen ∧ s.peek s.src s.dec.rp.toNat = b ∧
      (s.dec.rp + 1#64).toNat = s.dec.rp.toNat + 1 ∧ s.frameFrom (s.dec.rp.toNat + 1) = left := by
  have hleft := h.left
  have hlength := congrArg List.length hleft
  rw [State.frameFrom_length, List.length_cons] at hlength
  have hlen : s.inputLen < 2 ^ 64 := (s.len s.src).isLt
  have hmore : s.dec.rp.toNat < s.inputLen := by omega
  rw [State.frameFrom_of_lt hmore, List.cons.injEq] at hleft
  exact ⟨hmore, hleft.1, by bv_omega, hleft.2⟩

/-- The turn reads the next byte in the format that the group selects (R85, R143). -/
theorem State.Paints.nextTurn (h : s.Paints (b :: left) cls acc out) (hmore : out.length < s.dec.dN.toNat) :
    s.nextTurn = elementOf s.dec.format (.bytes [b]) := by
  obtain ⟨hin, hbyte, -, -⟩ := h.next_byte
  rw [State.nextTurn_rlePayload h.seq hin (h.length ▸ hmore), s.inputByte_eq _ (hin.trans_le h.stream.input)]
  exact congrArg (fun x => elementOf s.dec.format (.bytes [x])) hbyte

theorem State.Paints.class_cons {c : Bool} {cs : List Bool} (h : s.Paints left (c :: cs) acc out) :
    s.dec.gbit.toNat < 8 ∧ s.dec.classifier = c ∧ (s.dec.gbit + 1#4).toNat = s.dec.gbit.toNat + 1 ∧
      (Reference.classifiers s.dec.dG).drop (s.dec.gbit.toNat + 1) = cs := by
  have hclasses := h.classes
  have hlt : s.dec.gbit.toNat < 8 := by
    by_contra hge
    rw [List.drop_eq_nil_of_le (by simpa [Reference.classifiers] using hge)] at hclasses
    exact nomatch hclasses
  have hhead := congrArg (·[0]?) hclasses
  simp only [List.getElem?_drop, Nat.add_zero, List.getElem?_cons_zero] at hhead
  rw [Reference.classifiers_getElem? _ hlt, Option.some.injEq] at hhead
  refine ⟨hlt, hhead, by bv_omega, ?_⟩
  rw [← List.drop_drop, hclasses]
  rfl

theorem State.Paints.class_nil (h : s.Paints left [] acc out) : s.dec.gbit = 8#4 := by
  have hlength := congrArg List.length h.classes
  have hgroup := h.group
  simp only [List.length_drop, Reference.classifiers, List.length_cons, List.length_nil] at hlength
  exact BitVec.eq_of_toNat_eq (by simp only [BitVec.toNat_ofNat]; omega)

/-- A turn that takes the next byte. -/
theorem State.Paints.next {cls' : List Bool} {acc' : Option Nat} {out' : List Byte}
    (h : s.Paints (b :: left) cls acc out) (ht : s.turn = .ok t)
    (hseq : t.seq = s.seq) (hpeek : t.peek s.src = s.peek s.src) (hrp : t.dec.rp = s.dec.rp + 1#64)
    (hgroup : t.dec.gbit.toNat ≤ 8) (hclasses : (Reference.classifiers t.dec.dG).drop t.dec.gbit.toNat = cls')
    (hcounter : (if t.dec.nfrag then some t.dec.acc.toNat else none) = acc')
    (hfresh : t.dec.nfrag = false → t.dec.acc = 0#64) (hlength : out'.length = t.dec.written.toNat)
    (hpainted : ∀ p v, out'[p]? = some v → t.peek .out (t.dec.place p) = v) : t.Paints left cls' acc' out' := by
  obtain ⟨-, -, hnext, hleft⟩ := h.next_byte
  have hturned := h.stream.of_turn (h.seq ▸ nofun) ht
  refine ⟨h.stream.turned hturned, hseq.trans h.seq, ?_, hgroup, hclasses, hcounter, hfresh, hlength, hpainted⟩
  rw [State.frameFrom, hturned.keeps.inputLen h.stream.src, hturned.keeps.src, hpeek, hrp, hnext]
  exact hleft

/-- A group byte is taken (R143). -/
theorem State.Paints.takes_group (h : s.Paints (b :: left) [] acc out) (hmore : out.length < s.dec.dN.toNat) :
    ∃ t, s.turn = .ok t ∧ s.dec.sameHeader t.dec ∧ t.Paints left (Reference.classifiers b) acc out := by
  have hnext := h.nextTurn hmore
  rw [DecRegs.format, if_pos h.class_nil] at hnext
  have ht := State.turn_element (i := .grp b) hnext rfl (by rw [h.seq]; exact nofun)
  exact ⟨_, ht, ⟨rfl, rfl, rfl, rfl, rfl⟩,
    h.next ht rfl rfl rfl (Nat.zero_le 8) rfl h.counter h.fresh h.length h.painted⟩

/-- The turn of an item reads it in the format of its class. -/
theorem State.Paints.nextTurn_item {c : Bool} {cs : List Bool} (h : s.Paints (b :: left) (c :: cs) acc out)
    (hmore : out.length < s.dec.dN.toNat) :
    s.nextTurn = .ok (.element (if c then .cnt b else .lit b)) := by
  obtain ⟨hlt, hclass, -, -⟩ := h.class_cons
  have hopen : s.dec.gbit ≠ 8#4 := fun e => absurd (congrArg BitVec.toNat e) (Nat.ne_of_lt hlt)
  rw [h.nextTurn hmore, DecRegs.format, if_neg hopen, hclass]
  cases c
  all_goals rfl

/-- The accumulator holds the counter so far, or 0. -/
theorem State.Paints.accumulator (h : s.Paints left cls acc out) : s.dec.acc.toNat = acc.getD 0 := by
  rw [← h.counter]
  cases hn : s.dec.nfrag with
  | true => rfl
  | false => rw [h.fresh hn]; rfl

/-- A counter fragment that fits is taken (R144). -/
theorem State.Paints.takes_counter {cs : List Bool} (h : s.Paints (b :: left) (true :: cs) acc out)
    (hmore : out.length < s.dec.dN.toNat)
    (hfit : ¬ (2 ^ 56 ≤ acc.getD 0 ∨ 2 ^ 64 - 3 < acc.getD 0 * 256 + b.toNat)) :
    ∃ t, s.turn = .ok t ∧ s.dec.sameHeader t.dec ∧ t.Paints left cs (some (acc.getD 0 * 256 + b.toNat)) out := by
  rw [← h.accumulator] at hfit ⊢
  obtain ⟨hlow, hfit⟩ := not_or.1 hfit
  have hlow := Nat.not_le.1 hlow
  obtain ⟨hlt, -, hgbit, hcs⟩ := h.class_cons
  have hrun : runElement (.cnt b) s = .ok { s with
      dec := { s.takeItem.dec with acc := (s.dec.acc <<< 8) ||| b.setWidth 64, nfrag := true } } := by
    change s.takeItem.dec.accumulate b >>= (fun d => .ok { s with dec := d }) = _
    rw [DecRegs.accumulate_fits (d := s.takeItem.dec) hlow (Nat.not_lt.1 hfit)]
    rfl
  have ht := State.turn_element (h.nextTurn_item hmore) hrun (by rw [h.seq]; exact nofun)
  refine ⟨_, ht, ⟨rfl, rfl, rfl, rfl, rfl⟩, h.next ht rfl rfl rfl ?_ ?_ ?_ nofun h.length h.painted⟩
  · change (s.dec.gbit + 1#4).toNat ≤ 8
    omega
  · change (Reference.classifiers s.dec.dG).drop (s.dec.gbit + 1#4).toNat = cs
    rw [hgbit]
    exact hcs
  · exact congrArg some (toNat_shiftIn b hlow)

theorem State.Paints.counter_overflows {cs : List Bool} (h : s.Paints (b :: left) (true :: cs) acc out)
    (hmore : out.length < s.dec.dN.toNat)
    (hover : 2 ^ 56 ≤ acc.getD 0 ∨ 2 ^ 64 - 3 < acc.getD 0 * 256 + b.toNat) :
    s.turn = .error (.err .rleDecCountOverflow) := by
  rw [← h.accumulator] at hover
  refine State.turn_element_error (h.nextTurn_item hmore) ?_
  change s.takeItem.dec.accumulate b >>= (fun d => .ok { s with dec := d }) = _
  rw [DecRegs.accumulate_overflows (d := s.takeItem.dec) hover]
  rfl

/-- The pixels of a literal are appended to those written before. -/
theorem State.Paints.takes_literal {cs : List Bool} {k : Nat} (h : s.Paints (b :: left) (false :: cs) acc out)
    (hmore : out.length < s.dec.dN.toNat) (hrun : runLit b s = .ok t) (hw : s.LitWrote b k t) :
    s.turn = .ok t ∧ s.dec.sameHeader t.dec ∧ t.Paints left cs none (out ++ List.replicate k b) := by
  obtain ⟨hframe, hheader, hgroup, ⟨hrp, hgbit⟩, ⟨hacc, hnfrag⟩, hcount, hstored, hkept⟩ := hw
  obtain ⟨hlt, -, hnext, hcs⟩ := h.class_cons
  have hseq : t.seq = s.seq := (congrArg State.seq hframe :)
  have ht := State.turn_element (h.nextTurn_item hmore) hrun (by rw [hseq, h.seq]; exact nofun)
  have hlength := h.length
  have hpeek : t.peek s.src = s.peek s.src := by
    refine funext fun a => ?_
    have hmem (sp : Space) (hsp : sp ≠ .out) : t.mem sp = s.mem sp := by
      rw [← hframe]
      cases sp
      case out => exact absurd rfl hsp
      all_goals rfl
    rw [State.peek, hmem _ (h.stream.src.ne_written (.inl rfl)), State.peek]
  refine ⟨ht, hheader, h.next ht hseq hpeek hrp ?_ ?_ ?_ (fun _ => hacc) ?_ fun p v hp => ?_⟩
  · rw [hgbit]
    omega
  · rw [hgroup, hgbit, hnext]
    exact hcs
  · rw [hnfrag]
    rfl
  · rw [List.length_append, List.length_replicate, hcount, hlength]
  · rw [hheader.place]
    rcases Nat.lt_or_ge p out.length with hold | hnew
    · rw [List.getElem?_append_left hold] at hp
      exact (hkept p (hlength ▸ hold)).trans (h.painted p v hp)
    · rw [List.getElem?_append_right hnew, List.getElem?_replicate] at hp
      obtain ⟨hlast, hv⟩ := Option.ite_none_right_eq_some.1 hp
      rw [← Option.some.inj hv]
      exact hstored p (by omega) (by omega)

/-! ### The payload to its end or its first fault (R145, R147, R253) -/

/-- The loop has ended with the pixels `pixels` of the image that `s` decodes. -/
structure State.Painted (s t : State) (pixels : List Byte) : Prop where
  header : s.dec.sameHeader t.dec
  outLen : t.outLen = s.dec.dN
  length : pixels.length = s.dec.dN.toNat
  painted : ∀ p v, pixels[p]? = some v → t.peek .out (s.dec.place p) = v

/-- The machine's run answers what the reference says of the pixels: all of them, or the fault. -/
def State.AnswersPixels (s : State) (r : Run State) (x : Except Err (List Byte)) : Prop :=
  match x with
  | .ok pixels => ∃ t, r = .ok t ∧ s.Painted t pixels
  | .error e => r = .error (.err e)

/-- What the rest of the payload answers is the answer from before the turn. -/
theorem State.AnswersPixels.before {r : Run State} {x : Except Err (List Byte)} (h : t.AnswersPixels r x)
    (hheader : s.dec.sameHeader t.dec) : s.AnswersPixels r x := by
  cases x with
  | error e => exact h
  | ok pixels =>
    obtain ⟨u, hu, ⟨hsame, hlen, hlength, hpainted⟩⟩ := h
    exact ⟨u, hu, hheader.trans hsame, hlen.trans hheader.dN, hheader.dN ▸ hlength, fun p v hp =>
      hheader.place p ▸ hpainted p v hp⟩

/-- The loop ends when the image is full or the frame has no more bytes. -/
theorem State.Paints.ends (h : s.Paints left cls acc out) (hend : left = [] ∨ s.dec.dN.toNat ≤ out.length)
    (turns : Nat) :
    s.AnswersPixels (runTurns (turns + 1) s)
      (if out.length < s.dec.dN.toNat then .error .rleDecShortData else .ok out) := by
  have hlength := h.length
  have hstop : s.nextTurn = .ok .stop := by
    rw [State.nextTurn, h.seq]
    refine if_pos ?_
    rcases hend with rfl | hfull
    · have hleft := congrArg List.length h.left
      rw [State.frameFrom_length, List.length_nil] at hleft
      omega
    · omega
  have hturn : s.turn = s.endRle := by
    rw [State.turn_eq, hstop]
    change s.endLoop = _
    rw [State.endLoop, h.seq]
  obtain ⟨-, -, -, hwritten, -⟩ := h.payload
  by_cases hshort : out.length < s.dec.dN.toNat
  · rw [if_pos hshort]
    refine runTurns_error turns (h.seq ▸ nofun) (hturn.trans ?_)
    exact if_pos (hlength ▸ hshort)
  · rw [if_neg hshort]
    have hdone : s.endRle = .ok { s with seq := .host, outLen := s.dec.dN } := if_neg (hlength ▸ hshort)
    rw [runTurns_succ turns (h.seq ▸ nofun) (hturn.trans hdone), runTurns_ended turns rfl]
    exact ⟨_, rfl, ⟨rfl, rfl, rfl, rfl, rfl⟩, rfl, by omega, h.painted⟩

/-- The machine reads the payload as the reference does, byte by byte. -/
theorem State.Paints.answers (h : s.Paints left cls acc out) {turns : Nat} (hturns : left.length < turns) :
    s.AnswersPixels (runTurns turns s)
      (Reference.payloadPixels s.dec.dScan s.dec.dN.toNat left cls acc out) := by
  induction left generalizing s cls acc out turns with
  | nil =>
    obtain ⟨k, rfl⟩ := Nat.exists_eq_add_one.2 hturns
    exact h.ends (.inl rfl) k
  | cons b left ih =>
    obtain ⟨k, rfl⟩ := Nat.exists_eq_add_one.2 (Nat.zero_lt_of_lt hturns)
    have hleft : left.length < k := Nat.lt_of_succ_lt_succ hturns
    have goes {t : State} {cls' : List Bool} {acc' : Option Nat} {out' : List Byte} (ht : s.turn = .ok t)
        (hheader : s.dec.sameHeader t.dec) (hpaints : t.Paints left cls' acc' out') :
        s.AnswersPixels (runTurns (k + 1) s)
          (Reference.payloadPixels s.dec.dScan s.dec.dN.toNat left cls' acc' out') := by
      rw [runTurns_succ k (h.seq ▸ nofun) ht, ← hheader.dScan, ← hheader.dN]
      exact (ih hpaints hleft).before hheader
    have fails {e : Err} (ht : s.turn = .error (.err e)) :
        s.AnswersPixels (runTurns (k + 1) s) (.error e) := runTurns_error k (h.seq ▸ nofun) ht
    by_cases hmore : s.dec.dN.toNat ≤ out.length
    · have hends := h.ends (.inr hmore) k
      rw [if_neg (Nat.not_lt.2 hmore)] at hends
      rwa [Reference.payloadPixels_full _ _ _ _ hmore]
    · have hmore := Nat.not_le.1 hmore
      match cls, h with
      | [], h =>
        obtain ⟨t, ht, hheader, hpaints⟩ := h.takes_group hmore
        rw [Reference.payloadPixels_group _ _ _ _ hmore]
        exact goes ht hheader hpaints
      | true :: cs, h =>
        rw [Reference.payloadPixels_counter _ _ _ _ _ hmore]
        split
        · exact fails (h.counter_overflows hmore ‹_›)
        · obtain ⟨t, ht, hheader, hpaints⟩ := h.takes_counter hmore ‹_›
          exact goes ht hheader hpaints
      | false :: cs, h =>
        rw [Reference.payloadPixels_literal _ _ _ _ _ hmore, ← h.count, h.length]
        cases hscan : s.dec.dScan with
        | true =>
          obtain ⟨t, hrun, hw⟩ := runLit_wrote_horizontal b (h.seq ▸ nofun) h.payload hscan
          obtain ⟨ht, hheader, hpaints⟩ := h.takes_literal hmore hrun hw
          rw [if_pos rfl, ← hscan]
          exact goes ht hheader hpaints
        | false =>
          rw [if_neg Bool.false_ne_true]
          by_cases hover : s.dec.dN.toNat - s.dec.written.toNat < s.dec.count
          · rw [if_pos hover]
            refine fails (State.turn_element_error (h.nextTurn_item hmore) ?_)
            exact (runLit_vertical b hscan).trans (if_pos hover)
          · obtain ⟨t, hrun, hw⟩ :=
              runLit_wrote_vertical b (h.seq ▸ nofun) h.payload hscan (Nat.not_lt.1 hover)
            obtain ⟨ht, hheader, hpaints⟩ := h.takes_literal hmore hrun hw
            rw [if_neg hover, ← hscan]
            exact goes ht hheader hpaints

end Paints

end Machine

end Sys2Proof
end

section
/-! SUPPORT for O48: the RLE decoder answers the image that the reference reads from the frame, or its first fault. -/

namespace Sys2Proof

namespace Reference

/-- What a frame holds behind its header, of the size `w` by `h` (R142 to R149). -/
def imageOf (cap : Nat) (scan model : Bool) (w h : Nat) (bytes : List Byte) :
    Except Machine.Err Image :=
  if w = 0 ∨ h = 0 then .error .rleDecDimZero
  else if cap < w * h then .error .rleDecDimRange
  else
    match payloadPixels scan (w * h) bytes [] none [] with
    | .error e => .error e
    | .ok pixels =>
      .ok { w := w, h := h, model := model, scan := scan,
            pixels := if scan then pixels else scanOrder false h w pixels }

/-- A frame is its settings byte, the two fields and the rest (R141). -/
theorem rleImage_cons (cap : Nat) (b : Byte) (rest : List Byte) :
    rleImage cap (b :: rest) =
      if rest.length < (b.extractLsb' 3 3).toNat + 1 + ((b.extractLsb' 0 3).toNat + 1) then .error .rleDecShortHeader
      else
        imageOf cap (b.getLsbD 7) (b.getLsbD 6) (unBE (rest.take ((b.extractLsb' 3 3).toNat + 1)))
          (unBE ((rest.drop ((b.extractLsb' 3 3).toNat + 1)).take ((b.extractLsb' 0 3).toNat + 1)))
          (rest.drop ((b.extractLsb' 3 3).toNat + 1 + ((b.extractLsb' 0 3).toNat + 1))) := rfl

end Reference

namespace Machine

/-! ### The header, turn by turn (R141, R142) -/

/-- The bytes of a field of `n` bytes at `a`. -/
abbrev State.field (s : State) (a n : Nat) : List Byte := (List.range n).map fun i => s.peek s.src (a + i)

/-- A field of at most 8 bytes spells a number that its register holds (R11, R88). -/
theorem toNat_field {bs : List Byte} (h : bs.length ≤ 8) : (BitVec.ofNat 64 (unBE bs)).toNat = unBE bs := by
  rw [BitVec.toNat_ofNat, Nat.mod_eq_of_lt]
  calc unBE bs < 256 ^ bs.length := unBE_lt bs
    _ ≤ 256 ^ 8 := Nat.pow_le_pow_right (by decide) h

/-- The settings byte `b` has been taken. -/
def State.withSettings (s : State) (b : Byte) : State :=
  { s with
    seq := .rleDimW,
    dec := { s.dec with
      dScan := b.getLsbD 7, dModel := b.getLsbD 6, dKw := (b.extractLsb' 3 3).setWidth 4 + 1#4,
      dKh := (b.extractLsb' 0 3).setWidth 4 + 1#4 } }

/-- The width field has been taken. -/
def State.withWidth (s : State) : State :=
  { s with
    seq := .rleDimH,
    dec := { s.dec with dW := BitVec.ofNat 64 (unBE (s.field 1 s.dec.dKw.toNat)) } }

/-- What the height field spells. -/
def State.height (s : State) : Word := BitVec.ofNat 64 (unBE (s.field (1 + s.dec.dKw.toNat) s.dec.dKh.toNat))

/-- The height field has been taken, and the payload begins. -/
def State.withHeight (s : State) : State := { s with seq := .rlePayload, dec := s.dec.opened s.height }

theorem State.nextTurn_settings {s : State} (hs : s.StreamSound) (hseq : s.seq = .rleSet) (h : 0 < s.inputLen) :
    s.nextTurn = .ok (.element (decodeSettings (s.peek s.src 0))) := by
  rw [State.nextTurn_rleSet hseq h, s.inputByte_eq 0 (h.trans_le hs.input)]
  rfl

theorem State.turn_settings {s : State} (hs : s.StreamSound) (hseq : s.seq = .rleSet)
    (h : ((s.peek s.src 0).extractLsb' 3 3).toNat + ((s.peek s.src 0).extractLsb' 0 3).toNat + 3 ≤ s.inputLen) :
    s.turn = .ok (s.withSettings (s.peek s.src 0)) :=
  State.turn_element (State.nextTurn_settings hs hseq (by omega)) (runSet_whole _ _ h) nofun

theorem State.turn_settings_short {s : State} (hs : s.StreamSound) (hseq : s.seq = .rleSet) (hne : 0 < s.inputLen)
    (h : s.inputLen < ((s.peek s.src 0).extractLsb' 3 3).toNat + ((s.peek s.src 0).extractLsb' 0 3).toNat + 3) :
    s.turn = .error (.err .rleDecShortHeader) :=
  State.turn_element_error (State.nextTurn_settings hs hseq hne) (runSet_short _ _ h)

theorem State.turn_width {s : State} (hs : s.StreamSound) (hseq : s.seq = .rleDimW) : s.turn = .ok s.withWidth := by
  have hpos := hs.position
  rw [State.positionSound, hseq] at hpos
  obtain ⟨hkw, hkh, hwhole⟩ := hpos
  have hinput := hs.input
  have hnext : s.nextTurn = .ok (.element (.dimw ((s.dec.dKw - 1#4).setWidth 3)
      (BitVec.ofNat 64 (unBE (s.field 1 s.dec.dKw.toNat))))) := by
    rw [State.nextTurn, hseq]
    dsimp only
    rw [sizeField_read hkw, s.inputBytes_eq 1 _ (by omega)]
    exact elementOf_ok (decode_dw (by rw [List.length_map, List.length_range, sizeField_read hkw]))
  exact State.turn_element hnext rfl nofun

theorem State.nextTurn_height {s : State} (hs : s.StreamSound) (hseq : s.seq = .rleDimH) :
    s.nextTurn = .ok (.element (.dimh ((s.dec.dKh - 1#4).setWidth 3) s.height)) := by
  have hpos := hs.position
  rw [State.positionSound, hseq] at hpos
  obtain ⟨hkw, hkh, hwhole⟩ := hpos
  have hinput := hs.input
  rw [State.nextTurn, hseq]
  dsimp only
  rw [sizeField_read hkh, s.inputBytes_eq (1 + s.dec.dKw.toNat) _ (by omega)]
  exact elementOf_ok (decode_dh (by rw [List.length_map, List.length_range, sizeField_read hkh]))

theorem State.turn_height {s : State} (hs : s.StreamSound) (hseq : s.seq = .rleDimH) (hw : s.dec.dW ≠ 0#64)
    (hh : s.height ≠ 0#64) (hfit : s.dec.dW.toNat * s.height.toNat ≤ s.bufCap.toNat) :
    s.turn = .ok s.withHeight :=
  State.turn_element (State.nextTurn_height hs hseq) (runDimh_fits ((s.dec.dKh - 1#4).setWidth 3) hw hh hfit) nofun

/-- The payload begins without a group, a counter or a pixel. -/
theorem State.withHeight_paints {s : State} (hs : s.withHeight.StreamSound) :
    s.withHeight.Paints (s.frameFrom (1 + s.dec.dKw.toNat + s.dec.dKh.toNat)) [] none [] where
  stream := hs
  seq := rfl
  left := congrArg s.frameFrom (DecRegs.opened_rp s.dec s.height)
  group := le_rfl
  classes := rfl
  counter := rfl
  fresh _ := rfl
  length := rfl
  painted := nofun

/-! ### The image (R71, R149) -/

/-- The output is the pixels in scan order, put at their places. -/
theorem State.Painted.output {s t : State} {pixels : List Byte} (h : s.Painted t pixels)
    (harea : s.dec.dN.toNat = s.dec.dW.toNat * s.dec.dH.toNat) :
    t.output =
      if s.dec.dScan then pixels
      else Reference.scanOrder false s.dec.dH.toNat s.dec.dW.toNat pixels := by
  obtain ⟨-, hlen, hlength, hpainted⟩ := h
  rw [State.output, hlen]
  cases hscan : s.dec.dScan with
  | true =>
    rw [if_pos rfl]
    refine List.ext_getElem? fun i => ?_
    rw [State.bytes_getElem?]
    split
    · have hi : i < pixels.length := by omega
      have hpixel := hpainted i pixels[i] (List.getElem?_eq_getElem hi)
      rw [DecRegs.place, hscan] at hpixel
      rw [List.getElem?_eq_getElem hi, ← hpixel]
      rfl
    · rw [List.getElem?_eq_none (by omega)]
  | false =>
    rw [if_neg Bool.false_ne_true, State.bytes, Reference.scanOrder, harea, Nat.mul_comm]
    refine List.map_congr_left fun a ha => ?_
    have ha := List.mem_range.1 ha
    have hback : scanAddress false s.dec.dH.toNat s.dec.dW.toNat a < pixels.length := by
      rw [hlength, harea, Nat.mul_comm]
      exact scanAddress_lt false ha
    have hpixel := hpainted _ _ (List.getElem?_eq_getElem hback)
    rw [DecRegs.place, hscan, scanAddress_scanAddress ha] at hpixel
    rw [hpixel, List.getD_eq_getElem?_getD, List.getElem?_eq_getElem hback]
    rfl

/-- The machine's run answers what the reference says of the frame: its image, or the fault. -/
def AnswersImage (r : Run State) (x : Except Err Reference.Image) : Prop :=
  match x with
  | .ok img => ∃ t, r = .ok t ∧ t.outLen.toNat = img.w * img.h ∧ t.output = img.pixels ∧
      t.dec.dW.toNat = img.w ∧ t.dec.dH.toNat = img.h ∧ t.dec.dModel = img.model ∧ t.dec.dScan = img.scan
  | .error e => r = .error (.err e)

/-- The image is answered when its payload is. -/
theorem State.AnswersPixels.image {s : State} {r : Run State} {bytes : List Byte}
    (h : s.AnswersPixels r (Reference.payloadPixels s.dec.dScan s.dec.dN.toNat bytes [] none []))
    (hs : s.payloadSound) :
    AnswersImage r
      (Reference.imageOf s.bufCap.toNat s.dec.dScan s.dec.dModel s.dec.dW.toNat s.dec.dH.toNat bytes) := by
  obtain ⟨hpos, harea, hfit, -, -⟩ := hs
  rw [harea] at h hpos hfit
  rw [Reference.imageOf, if_neg (by rw [← Nat.mul_eq_zero]; omega), if_neg (Nat.not_lt.2 hfit)]
  match hpixels : Reference.payloadPixels s.dec.dScan (s.dec.dW.toNat * s.dec.dH.toNat) bytes [] none [] with
  | .error e =>
    rw [hpixels] at h
    exact h
  | .ok pixels =>
    rw [hpixels] at h
    obtain ⟨t, ht, hpainted⟩ := h
    obtain ⟨hheader, hlen, -, -⟩ := id hpainted
    refine ⟨t, ht, hlen ▸ harea, hpainted.output harea, ?_, ?_, hheader.dModel, hheader.dScan⟩
    · rw [hheader.dW]
    · rw [hheader.dH]

/-- From the height field on, the machine reads the frame as the reference does. -/
theorem State.height_answers {s : State} (hs : s.StreamSound) (hseq : s.seq = .rleDimH) :
    AnswersImage (runTurns (s.inputLen + 2) s)
      (Reference.imageOf s.bufCap.toNat s.dec.dScan s.dec.dModel s.dec.dW.toNat s.height.toNat
        (s.frameFrom (1 + s.dec.dKw.toNat + s.dec.dKh.toNat))) := by
  have hopen : s.seq ≠ .host := hseq ▸ nofun
  have hzero (w : Word) : w.toNat = 0 ↔ w = 0#64 := BitVec.toNat_inj (x := w) (y := 0#64)
  have hnext := State.nextTurn_height hs hseq
  by_cases hempty : s.dec.dW = 0#64 ∨ s.height = 0#64
  · rw [Reference.imageOf, if_pos (by rwa [hzero, hzero])]
    exact runTurns_error _ hopen (State.turn_element_error hnext (runDimh_zero ((s.dec.dKh - 1#4).setWidth 3) hempty))
  · obtain ⟨hw, hh⟩ := not_or.1 hempty
    by_cases hrange : s.bufCap.toNat < s.dec.dW.toNat * s.height.toNat
    · rw [Reference.imageOf, if_neg (by rwa [hzero, hzero]), if_pos hrange]
      exact runTurns_error _ hopen
        (State.turn_element_error hnext (runDimh_range ((s.dec.dKh - 1#4).setWidth 3) hw hh hrange))
    · have hturn := State.turn_height hs hseq hw hh (Nat.not_lt.1 hrange)
      have hpaints := State.withHeight_paints (hs.turned (hs.of_turn hopen hturn))
      rw [runTurns_succ _ hopen hturn]
      exact (hpaints.answers (turns := s.inputLen + 1) (by rw [State.frameFrom_length]; omega)).image hpaints.payload

/-- The machine reads the frame as the reference does. -/
theorem State.frame_answers {s : State} (hs : s.StreamSound) (hseq : s.seq = .rleSet) :
    AnswersImage (runTurns (s.inputLen + 4) s) (Reference.rleImage s.bufCap.toNat (s.frameFrom 0)) := by
  have hopen : s.seq ≠ .host := hseq ▸ nofun
  by_cases hempty : s.inputLen = 0
  · have hturn : s.turn = .error (.err .rleDecShortHeader) := by
      refine State.turn_next_error ?_
      rw [State.nextTurn, hseq]
      exact if_pos (by omega)
    rw [State.frameFrom, hempty]
    exact runTurns_error _ hopen hturn
  · have hpos := Nat.pos_of_ne_zero hempty
    rw [State.frameFrom_of_lt hpos, Reference.rleImage_cons, State.frameFrom_length, Nat.zero_add]
    by_cases hshort : s.inputLen - 1 <
        ((s.peek s.src 0).extractLsb' 3 3).toNat + 1 + (((s.peek s.src 0).extractLsb' 0 3).toNat + 1)
    · rw [if_pos hshort]
      exact runTurns_error _ hopen (State.turn_settings_short hs hseq hpos (by omega))
    · rw [if_neg hshort]
      have hturn := State.turn_settings hs hseq (by omega)
      have hsound := hs.turned (hs.of_turn hopen hturn)
      have hturn' := State.turn_width hsound rfl
      have hsound' := hsound.turned (hsound.of_turn nofun hturn')
      have hanswers := State.height_answers hsound' rfl
      have hkw : (s.withSettings (s.peek s.src 0)).dec.dKw.toNat =
        ((s.peek s.src 0).extractLsb' 3 3).toNat + 1 := sizeField_toNat _
      have hkh : (s.withSettings (s.peek s.src 0)).dec.dKh.toNat =
        ((s.peek s.src 0).extractLsb' 0 3).toNat + 1 := sizeField_toNat _
      have hw : (s.withSettings (s.peek s.src 0)).withWidth.dec.dW.toNat =
          unBE ((s.frameFrom 1).take (((s.peek s.src 0).extractLsb' 3 3).toNat + 1)) := by
        rw [State.frameFrom_take (by omega), ← hkw]
        exact toNat_field (by rw [List.length_map, List.length_range]; omega)
      have hh : (s.withSettings (s.peek s.src 0)).withWidth.height.toNat =
          unBE (((s.frameFrom 1).drop (((s.peek s.src 0).extractLsb' 3 3).toNat + 1)).take
            (((s.peek s.src 0).extractLsb' 0 3).toNat + 1)) := by
        rw [State.frameFrom_drop, State.frameFrom_take (by omega), ← hkw, ← hkh]
        exact toNat_field (by rw [List.length_map, List.length_range]; exact hkh.trans_le (by omega))
      rw [runTurns_succ _ hopen hturn, runTurns_succ _ (by exact nofun) hturn', ← hw, ← hh, State.frameFrom_drop,
        ← hkw, ← hkh, ← Nat.add_assoc]
      exact hanswers

/-- The RLE decoder's engine answers the image in its frame, or the first fault of its bytes. -/
theorem State.rleDecBody_answers {s : State} (hs : s.Ready) :
    AnswersImage s.rleDecBody (Reference.rleImage s.bufCap.toNat (s.bytes s.src s.inputLen)) := by
  have hclear : s.Keeps (s.clear .out) := State.clear_keeps (.inl rfl)
  have hlen := hclear.inputLen hs.src
  have hready := hs.keeps hclear
  have hanswers := State.frame_answers (s := { s.clear .out with seq := .rleSet })
    ⟨hready.src, hready.dest, hready.input, trivial⟩ rfl
  have hframe : State.frameFrom { s.clear .out with seq := .rleSet } 0 = s.bytes s.src s.inputLen := by
    change (List.range' 0 ((s.clear .out).inputLen - 0)).map ((s.clear .out).peek (s.clear .out).src) = _
    rw [hlen, hclear.src, State.clear_out_peek hs.src, Nat.sub_zero, ← List.range_eq_range']
    rfl
  have hturns : State.inputLen { s.clear .out with seq := .rleSet } = s.inputLen := hlen
  rw [hframe, hturns] at hanswers
  exact hanswers

/-- RLE_DEC answers the image in the host's frame (R145, R149). -/
theorem exec_rleDec_image {s : State} {img : Reference.Image} (hfit : s.inLen.toNat ≤ s.bufCap.toNat)
    (himg : Reference.rleImage s.bufCap.toNat s.input = .ok img) :
    ∃ t, exec .rleDec s = .next t ∧ t.succeeded ∧ t.output = img.pixels ∧ t.resW.toNat = img.w ∧
      t.resH.toNat = img.h ∧ t.resFlags = resultFlags img.model img.scan := by
  have hbody : AnswersImage s.begin.rleDecBody (Reference.rleImage s.bufCap.toNat s.input) :=
    State.rleDecBody_answers (State.begin_stage hfit).ready
  rw [himg] at hbody
  obtain ⟨t, ht, -, hout, hw, hh, hmodel, hscan⟩ := hbody
  refine ⟨t.finish t.rleResults, ?_, t.finish_succeeded _, (t.finish_output _).trans hout, ?_, ?_, ?_⟩
  · refine (State.command_body s (fun b => b.rleDecBody >>= fun t => .ok (t.finish t.rleResults)) hfit).trans ?_
    rw [ht]
    rfl
  · rw [State.finish_resW _ _ _ rfl, hw]
  · rw [State.finish_resH _ _ _ rfl, hh]
  · rw [State.finish_resFlags _ _ _ rfl, hmodel, hscan]

end Machine

end Sys2Proof
end

section
/-! PROOF for O48: the reference reads an image back from its frame, and so does RLE_DEC. -/

namespace Sys2Proof

namespace Reference

/-! ### Items read from groups (R64, R89, R93) -/

/-- With the classifiers `cls` left of the active group, the bytes read as the items. -/
inductive Carries : List Byte → List Bool → List (Bool × Byte) → Prop
  | done (cls : List Bool) : Carries [] cls []
  | group {b : Byte} {bytes : List Byte} {items : List (Bool × Byte)} (h : Carries bytes (classifiers b) items) :
      Carries (b :: bytes) [] items
  | item {c : Bool} {b : Byte} {bytes : List Byte} {cs : List Bool} {items : List (Bool × Byte)}
      (h : Carries bytes cs items) : Carries (b :: bytes) (c :: cs) ((c, b) :: items)

theorem Carries.append {bytes : List Byte} {cs : List Bool} {items : List (Bool × Byte)} (h : Carries bytes cs items)
    (group : List (Bool × Byte)) :
    Carries (group.map (·.2) ++ bytes) (group.map (·.1) ++ cs) (group ++ items) := by
  induction group with
  | nil => exact h
  | cons i is ih => exact ih.item

/-- The group byte gives back the classes of its items, and 0 for the items that are missing. -/
theorem classifiers_classBits {items : List (Bool × Byte)} (h : items.length ≤ 8) :
    classifiers (BitVec.ofNat 8 (classBits items)) = items.map (·.1) ++ List.replicate (8 - items.length) false := by
  refine List.ext_getElem? fun i => ?_
  rcases Nat.lt_or_ge i 8 with hi | hi
  · rw [classifiers_getElem? _ hi, BitVec.getLsbD_ofNat, testBit_classBits]
    rcases Nat.lt_or_ge i items.length with hin | hout
    · rw [List.getElem?_append_left (by simpa using hin), List.getElem?_map, List.getElem?_eq_getElem hin]
      simp [hi]
    · rw [List.getElem?_append_right (by simpa using hout), List.getElem?_eq_none hout, List.length_map,
        List.getElem?_replicate, if_pos (by omega)]
      simp
  · rw [List.getElem?_eq_none (by simpa [classifiers] using hi),
      List.getElem?_eq_none (by rw [List.length_append, List.length_map, List.length_replicate]; omega)]

theorem groupBytes_carries {group : List (Bool × Byte)} (h : group.length ≤ 8) {bytes : List Byte}
    {items : List (Bool × Byte)} (hrest : Carries bytes (List.replicate (8 - group.length) false) items) :
    Carries (groupBytes group ++ bytes) [] (group ++ items) := by
  have hitems := hrest.append group
  rw [← classifiers_classBits h] at hitems
  exact hitems.group

/-- The payload reads as its items, and perhaps the pad item. -/
theorem payload_carries (items : List (Bool × Byte)) : ∃ tail, Carries (payload items) [] (items ++ tail) := by
  by_cases hshort : items.length < 8
  · by_cases hnil : items = []
    · exact ⟨[], by rw [hnil]; exact .done []⟩
    · refine ⟨[(false, Config.padLiteral)], ?_⟩
      have hopen := groupBytes_carries (group := items ++ [(false, Config.padLiteral)])
        (by rw [List.length_append, List.length_singleton]; omega) (.done _)
      rwa [List.append_nil, List.append_nil, ← payload_short hshort hnil] at hopen
  · have h8 : (items.take 8).length = 8 := by rw [List.length_take]; omega
    obtain ⟨tail, htail⟩ := payload_carries (items.drop 8)
    refine ⟨tail, ?_⟩
    rw [← List.take_append_drop 8 items, payload_group_append _ h8, List.append_assoc]
    exact groupBytes_carries h8.le (by rw [h8]; exact htail)
termination_by items.length
decreasing_by
  rw [List.length_drop]
  omega

/-! ### Pixels read from items (R92, R143 to R148) -/

section Pixels

variable (scan : Bool) {n : Nat} {bytes : List Byte} {cls : List Bool} {items : List (Bool × Byte)} {out : List Byte}

/-- The next item is read, behind a group byte where one stands before it. -/
theorem Carries.next {c : Bool} {b : Byte} (h : Carries bytes cls ((c, b) :: items)) (acc : Option Nat)
    (hmore : out.length < n) :
    ∃ rest cs, Carries rest cs items ∧
      payloadPixels scan n bytes cls acc out = payloadPixels scan n (b :: rest) (c :: cs) acc out := by
  cases h with
  | item h => exact ⟨_, _, h, rfl⟩
  | group h =>
    unfold classifiers at h
    cases h with
    | item h => exact ⟨_, _, h, payloadPixels_group scan _ _ acc hmore⟩

/-- Digits are shifted into the counter. -/
theorem Carries.digits {d : Byte} {ds : List Byte}
    (h : Carries bytes cls ((d :: ds).map (fun d => (true, d)) ++ items)) (acc : Option Nat)
    (hmore : out.length < n) (hfit : acc.getD 0 * 256 ^ (ds.length + 1) + unBE (d :: ds) ≤ 2 ^ 64 - 3) :
    ∃ rest cs, Carries rest cs items ∧
      payloadPixels scan n bytes cls acc out =
        payloadPixels scan n rest cs (some (acc.getD 0 * 256 ^ (ds.length + 1) + unBE (d :: ds))) out := by
  induction ds generalizing d bytes cls acc with
  | nil =>
    obtain ⟨rest, cs, hrest, hread⟩ := h.next scan acc hmore
    have hone : acc.getD 0 * 256 ^ 1 + unBE [d] = acc.getD 0 * 256 + d.toNat := by simp [unBE]
    rw [List.length_nil, Nat.zero_add, hone] at hfit ⊢
    rw [payloadPixels_counter _ _ _ _ _ hmore, if_neg (by omega)] at hread
    exact ⟨rest, cs, hrest, hread⟩
  | cons d' ds ih =>
    have hsplit : acc.getD 0 * 256 ^ ((d' :: ds).length + 1) + unBE (d :: d' :: ds) =
        (acc.getD 0 * 256 + d.toNat) * 256 ^ (ds.length + 1) + unBE (d' :: ds) := by
      rw [unBE_cons d, List.length_cons]
      ring
    have hpow : acc.getD 0 * 256 + d.toNat ≤ (acc.getD 0 * 256 + d.toNat) * 256 ^ (ds.length + 1) :=
      Nat.le_mul_of_pos_right _ (by positivity)
    rw [hsplit] at hfit ⊢
    obtain ⟨rest, cs, hrest, hread⟩ := h.next scan acc hmore
    rw [payloadPixels_counter _ _ _ _ _ hmore, if_neg (by omega)] at hread
    obtain ⟨rest', cs', hrest', hread'⟩ := ih hrest (some (acc.getD 0 * 256 + d.toNat)) hfit
    exact ⟨rest', cs', hrest', hread.trans hread'⟩

/-- A literal ends a run that fits in the image. -/
theorem Carries.literal {v : Byte} (h : Carries bytes cls ((false, v) :: items)) {acc : Option Nat} {k : Nat}
    (hrun : runLength acc = k) (hk : 1 ≤ k) (hfit : out.length + k ≤ n) :
    ∃ rest cs, Carries rest cs items ∧
      payloadPixels scan n bytes cls acc out =
        payloadPixels scan n rest cs none (out ++ List.replicate k v) := by
  obtain ⟨rest, cs, hrest, hread⟩ := h.next scan (n := n) (out := out) acc (by omega)
  rw [payloadPixels_literal _ _ _ _ _ (by omega), hrun, Nat.min_eq_left (by omega),
    if_neg (show ¬ n - out.length < k by omega), ite_self] at hread
  exact ⟨rest, cs, hrest, hread⟩

/-- The items of a run read as its pixels. -/
theorem Carries.run {k : Nat} {v : Byte} (h : Carries bytes cls (runItems k v ++ items)) (hk : 1 ≤ k)
    (hfit : out.length + k ≤ n) (hn : n < 2 ^ 64) :
    ∃ rest cs, Carries rest cs items ∧
      payloadPixels scan n bytes cls none out =
        payloadPixels scan n rest cs none (out ++ List.replicate k v) := by
  unfold runItems at h
  by_cases h2 : 2 ≤ k
  · rw [if_pos h2, List.append_assoc] at h
    have hvalue := unBE_runDigits (n := k) (by omega)
    obtain ⟨d, ds, hds⟩ := List.exists_cons_of_length_pos (runDigits_length k).1
    rw [hds] at h hvalue
    obtain ⟨rest, cs, hrest, hread⟩ := h.digits scan (n := n) (out := out) none (by omega)
      (by rw [hvalue, Option.getD_none]; omega)
    rw [hvalue, Option.getD_none, Nat.zero_mul, Nat.zero_add] at hread
    obtain ⟨rest', cs', hrest', hread'⟩ := hrest.literal scan (acc := some (k - 2)) (Nat.sub_add_cancel h2) hk hfit
    exact ⟨rest', cs', hrest', hread.trans hread'⟩
  · rw [if_neg h2] at h
    exact Carries.literal scan h (acc := none) (show 1 = k by omega) hk hfit

/-- The items of runs that make up the image read as its pixels. -/
theorem Carries.pixels {rs : List (Nat × Byte)} {tail : List (Bool × Byte)}
    (h : Carries bytes cls (rs.flatMap (fun r => runItems r.1 r.2) ++ tail)) (hpos : ∀ r ∈ rs, 1 ≤ r.1)
    (hlen : out.length + (rs.map (·.1)).sum = n) (hn : n < 2 ^ 64) :
    payloadPixels scan n bytes cls none out = .ok (out ++ rs.flatMap fun r => List.replicate r.1 r.2) := by
  induction rs generalizing bytes cls out with
  | nil =>
    rw [List.flatMap_nil, List.append_nil]
    exact payloadPixels_full _ _ _ _ hlen.ge
  | cons r rs ih =>
    rw [List.flatMap_cons, List.append_assoc] at h
    rw [List.map_cons, List.sum_cons] at hlen
    obtain ⟨rest, cs, hrest, hread⟩ := h.run scan (n := n) (out := out) (hpos r List.mem_cons_self) (by omega) hn
    rw [hread, ih hrest (fun r hr => hpos r (List.mem_cons_of_mem _ hr))
      (by rw [List.length_append, List.length_replicate]; omega), List.append_assoc, List.flatMap_cons]

end Pixels

/-- The runs of a pixel sequence, laid out, are the sequence (R125). -/
theorem runs_flatMap (pixels : List Byte) : ((runs pixels).flatMap fun r => List.replicate r.1 r.2) = pixels := by
  induction pixels with
  | nil => rfl
  | cons b bs ih =>
    unfold runs
    match hruns : runs bs with
    | [] =>
      rw [hruns] at ih
      rw [← ih]
      rfl
    | (k, v) :: rs =>
      rw [hruns, List.flatMap_cons] at ih
      dsimp only
      split
      · rename_i hv
        rw [List.flatMap_cons, List.replicate_succ, List.cons_append, ih, hv]
      · rw [List.flatMap_cons, List.flatMap_cons, ih]
        rfl

/-- A payload reads as the pixels it was made from. -/
theorem payloadPixels_payload (scan : Bool) {pixels : List Byte} (hn : pixels.length < 2 ^ 64) :
    payloadPixels scan pixels.length (payload (itemsOf pixels)) [] none [] = .ok pixels := by
  obtain ⟨hsum, hpos⟩ := runs_lengths pixels
  obtain ⟨tail, htail⟩ := payload_carries (itemsOf pixels)
  have hread := htail.pixels scan (out := []) hpos ((Nat.zero_add _).trans hsum) hn
  rwa [List.nil_append, runs_flatMap] at hread

/-! ### The frame (R86 to R88, R133) -/

theorem byteCount_pos {v : Nat} (h : 1 ≤ v) (hv : v < 2 ^ 64) : 1 ≤ byteCount v := by
  by_contra hzero
  have hlt := lt_pow_byteCount hv
  rw [Nat.lt_one_iff.1 (Nat.not_le.1 hzero)] at hlt
  omega

/-- A dimension's byte count fits its size field (R87). -/
theorem sizeField_byteCount {v : Nat} (h : 1 ≤ v) (hv : v < 2 ^ 64) :
    (BitVec.ofNat 3 (byteCount v - 1)).toNat + 1 = byteCount v := by
  have hpos := byteCount_pos h hv
  have hle := byteCount_le v
  rw [BitVec.toNat_ofNat, Nat.mod_eq_of_lt (by omega)]
  omega

/-- The pixels in scan order, put at their places, are the image. -/
theorem scanOrder_inverse (scan : Bool) {w h : Nat} {pixels : List Byte} (hlen : pixels.length = w * h) :
    (if scan then scanOrder scan w h pixels else scanOrder false h w (scanOrder scan w h pixels)) = pixels := by
  cases scan with
  | true =>
    refine List.ext_getElem? fun i => ?_
    rw [if_pos rfl, scanOrder, List.getElem?_map, ← hlen]
    rcases Nat.lt_or_ge i pixels.length with hi | hi
    · rw [List.getElem?_range hi, Option.map_some, List.getD_eq_getElem?_getD, List.getElem?_eq_getElem hi]
      exact congrArg some (congrArg (·.getD 0#8) (List.getElem?_eq_getElem hi))
    · rw [List.getElem?_eq_none (by simpa using hi), List.getElem?_eq_none hi]
      rfl
  | false =>
    refine List.ext_getElem? fun i => ?_
    rw [if_neg Bool.false_ne_true, scanOrder, List.getElem?_map]
    rcases Nat.lt_or_ge i pixels.length with hi | hi
    · have hin : i < h * w := by rwa [Nat.mul_comm, ← hlen]
      have hat : Machine.scanAddress false h w i < w * h := by
        rw [Nat.mul_comm]
        exact Machine.scanAddress_lt false hin
      rw [List.getElem?_range hin, Option.map_some, List.getD_eq_getElem?_getD, scanOrder, List.getElem?_map,
        List.getElem?_range hat, Option.map_some, Option.getD_some, Machine.scanAddress_scanAddress hin,
        List.getD_eq_getElem?_getD, List.getElem?_eq_getElem hi]
      rfl
    · rw [List.getElem?_eq_none (by rw [List.length_range, Nat.mul_comm, ← hlen]; exact hi), List.getElem?_eq_none hi]
      rfl

/-- The reference reads back from a frame the image it was made from (R133). -/
theorem rleImage_rleFrame (scan model : Bool) {cap w h : Nat} {pixels : List Byte} (hw : 1 ≤ w ∧ w < 2 ^ 64)
    (hh : 1 ≤ h ∧ h < 2 ^ 64) (hlen : pixels.length = w * h) (hcap : w * h ≤ cap) (hfit : w * h < 2 ^ 64) :
    rleImage cap (rleFrame scan model w h pixels) =
      .ok { w := w, h := h, model := model, scan := scan, pixels := pixels } := by
  have hkw := sizeField_byteCount hw.1 hw.2
  have hkh := sizeField_byteCount hh.1 hh.2
  have hsettings := decodeSettings_settingsByte scan model (BitVec.ofNat 3 (byteCount w - 1))
    (BitVec.ofNat 3 (byteCount h - 1))
  rw [decodeSettings, Instr.set.injEq] at hsettings
  obtain ⟨hscan, hmodel, hsw, hsh⟩ := hsettings
  have hframe : rleFrame scan model w h pixels =
      settingsByte scan model (BitVec.ofNat 3 (byteCount w - 1)) (BitVec.ofNat 3 (byteCount h - 1)) ::
        (beBytes (byteCount w) w ++ (beBytes (byteCount h) h ++ payload (itemsOf (scanOrder scan w h pixels)))) := by
    rw [rleFrame, header, List.append_assoc, List.append_assoc]
    rfl
  have hcount := scanOrder_length scan w h pixels
  have hpixels := payloadPixels_payload scan (hcount.trans_lt hfit)
  rw [hcount] at hpixels
  rw [hframe, rleImage_cons, hscan, hmodel, hsw, hsh, hkw, hkh,
    if_neg (by simp only [List.length_append, beBytes_length]; omega), List.take_left' (beBytes_length ..),
    List.drop_left' (beBytes_length ..), List.take_left' (beBytes_length ..), ← List.drop_drop,
    List.drop_left' (beBytes_length ..), List.drop_left' (beBytes_length ..), unBE_beBytes, unBE_beBytes,
    Nat.mod_eq_of_lt (lt_pow_byteCount hw.2), Nat.mod_eq_of_lt (lt_pow_byteCount hh.2), imageOf,
    if_neg (by omega), if_neg (Nat.not_lt.2 hcap), hpixels]
  exact congrArg (fun p => Except.ok (Image.mk w h model scan p)) (scanOrder_inverse scan hlen)

end Reference

namespace Machine

/-! ### RLE_DEC behind an encoder command (R133) -/

theorem resultFlags_model (model scan : Bool) : (resultFlags model scan).getLsbD 0 = model := by
  revert model scan
  decide

/-- A raise is no success. -/
theorem State.raise_not_succeeded (s : State) (e : Err) : ¬ (s.raise e).succeeded :=
  fun h => absurd ((s.raise_failed e).1.symm.trans h.1) (by decide)

/-- R121, R253: the arguments of an encoder command that succeeds fit its input. -/
theorem exec_rleEnc_arguments {s t : State} {i : Instr} (hi : i = .rleEncH ∨ i = .rleEncV ∨ i = .rleEncA)
    (ht : exec i s = .next t) (hok : t.succeeded) :
    s.inLen.toNat ≤ s.bufCap.toNat ∧ s.argW ≠ 0#64 ∧ s.argH ≠ 0#64 ∧
      s.argW.toNat * s.argH.toNat = s.inLen.toNat := by
  have hraise {e : Err} (h : exec i s = .next (s.raise e)) : False := by
    cases ht.symm.trans h
    exact s.raise_not_succeeded e hok
  have hfit : s.inLen.toNat ≤ s.bufCap.toNat := by
    refine Nat.not_lt.1 fun hlong => hraise (e := .alloc) ?_
    obtain rfl | rfl | rfl := hi <;> exact if_pos hlong
  obtain ⟨hzero, hmismatch⟩ := (argumentTestsRaiseTheirFaults s hfit).1 i hi
  have hw : s.argW ≠ 0#64 := fun h => hraise (hzero (.inl h))
  have hh : s.argH ≠ 0#64 := fun h => hraise (hzero (.inr h))
  exact ⟨hfit, hw, hh, not_not.1 fun h => hraise (hmismatch hw hh h)⟩

/-- A pass in one direction that succeeds leaves the frame in that direction, and reports the direction. -/
theorem exec_rleEnc_direction {s t : State} {scan : Bool} (hfit : s.inLen.toNat ≤ s.bufCap.toNat)
    (hw : s.argW ≠ 0#64) (hh : s.argH ≠ 0#64) (harea : s.argW.toNat * s.argH.toNat = s.inLen.toNat)
    (ht : exec (if scan then .rleEncH else .rleEncV) s = .next t) (hok : t.succeeded) :
    t.output.length ≤ s.bufCap.toNat ∧
    t.output = Reference.rleFrame (t.resFlags.getLsbD 1) s.argModel s.argW.toNat s.argH.toNat s.input := by
  obtain ⟨hfits, hfull⟩ := rleEncodersWriteTheFrame s scan _ hfit hw hh harea rfl
  rcases Nat.lt_or_ge s.bufCap.toNat
    (Reference.rleFrame scan s.argModel s.argW.toNat s.argH.toNat s.input).length with hlong | hroom
  · cases ht.symm.trans (hfull hlong)
    exact absurd hok (s.raise_not_succeeded _)
  · obtain ⟨t', ht', -, -, hout, hscan⟩ := hfits hroom
    cases ht.symm.trans ht'
    rw [hscan, hout]
    exact ⟨hroom, rfl⟩

/-- An adaptive run that succeeds leaves one of the two frames, and reports its direction. -/
theorem exec_rleEncA_direction {s t : State} (hfit : s.inLen.toNat ≤ s.bufCap.toNat)
    (hw : s.argW ≠ 0#64) (hh : s.argH ≠ 0#64) (harea : s.argW.toNat * s.argH.toNat = s.inLen.toNat)
    (ht : exec .rleEncA s = .next t) (hok : t.succeeded) :
    t.output.length ≤ s.bufCap.toNat ∧
    t.output = Reference.rleFrame (t.resFlags.getLsbD 1) s.argModel s.argW.toNat s.argH.toNat s.input := by
  obtain ⟨hfits, hfull⟩ := adaptiveEncoderKeepsTheShorter s _ _ hfit hw hh harea rfl rfl
  have hroom (scan : Bool) :
      (Reference.rleFrame scan s.argModel s.argW.toNat s.argH.toNat s.input).length ≤ s.bufCap.toNat := by
    refine Nat.not_lt.1 fun hlong => s.raise_not_succeeded .alloc ?_
    cases ht.symm.trans (hfull (by cases scan <;> simp only [hlong, true_or, or_true]))
    exact hok
  obtain ⟨t', ht', -, hout, -, hscan⟩ := hfits (hroom true) (hroom false)
  cases ht.symm.trans ht'
  rw [hscan, hout]
  split
  · rename_i hle
    rw [decide_eq_false (Nat.not_lt.2 hle)]
    exact ⟨hroom false, rfl⟩
  · rename_i hlt
    rw [decide_eq_true (Nat.not_le.1 hlt)]
    exact ⟨hroom true, rfl⟩

/-- The output of an encoder command that succeeds is the frame in the direction that it reports. -/
theorem exec_rleEnc_output {s t : State} {i : Instr} (hi : i = .rleEncH ∨ i = .rleEncV ∨ i = .rleEncA)
    (ht : exec i s = .next t) (hok : t.succeeded) :
    t.output.length ≤ s.bufCap.toNat ∧
    t.output = Reference.rleFrame (t.resFlags.getLsbD 1) s.argModel s.argW.toNat s.argH.toNat s.input := by
  obtain ⟨hfit, hw, hh, harea⟩ := exec_rleEnc_arguments hi ht hok
  obtain rfl | rfl | rfl := hi
  · exact exec_rleEnc_direction (scan := true) hfit hw hh harea ht hok
  · exact exec_rleEnc_direction (scan := false) hfit hw hh harea ht hok
  · exact exec_rleEncA_direction hfit hw hh harea ht hok

/-- R217: an encoder command leaves `BUF_CAP` alone. -/
theorem exec_rleEnc_bufCap {s t : State} {i : Instr} (hi : i = .rleEncH ∨ i = .rleEncV ∨ i = .rleEncA)
    (ht : exec i s = .next t) : t.bufCap = s.bufCap := by
  obtain ⟨-, -, -, -, -, -, hcap, -⟩ := commandsKeepTheHostsRegisters i s t
    (by obtain rfl | rfl | rfl := hi <;> rfl) ht
  exact hcap

/-- Settles O48: the frame of a success reads back as the image, and RLE_DEC reads frames as the reference does. -/
theorem rleRoundTrip : Obligations.RleRoundTrip := by
  intro s t i hi ht hok
  obtain ⟨hfit, hw, hh, harea⟩ := exec_rleEnc_arguments hi ht hok
  obtain ⟨hroom, hout⟩ := exec_rleEnc_output hi ht hok
  have hcap := exec_rleEnc_bufCap hi ht
  have hlen : t.output.length < 2 ^ 64 := hroom.trans_lt s.bufCap.isLt
  have hpos {x : Word} (hx : x ≠ 0#64) : 1 ≤ x.toNat ∧ x.toNat < 2 ^ 64 :=
    ⟨Nat.pos_of_ne_zero fun e => hx (BitVec.eq_of_toNat_eq e), x.isLt⟩
  have himg := Reference.rleImage_rleFrame (t.resFlags.getLsbD 1) s.argModel (pixels := s.input) (hpos hw) (hpos hh)
    ((State.input_length s).trans harea.symm) (harea.trans_le hfit) (harea.trans_lt s.inLen.isLt)
  rw [← hout, ← hcap, ← State.feed_input t hlen] at himg
  obtain ⟨u, hu, hok', hpixels, hresW, hresH, hflags⟩ := exec_rleDec_image (s := t.feed t.output)
    (by rw [State.feed_inLen, BitVec.toNat_ofNat, Nat.mod_eq_of_lt hlen, State.feed_bufCap, hcap]; exact hroom) himg
  refine ⟨u, hu, hok', hpixels, BitVec.eq_of_toNat_eq hresW, BitVec.eq_of_toNat_eq hresH, ?_, ?_⟩
  · rw [hflags, resultFlags_model]
  · rw [hflags, resultFlags_scan]

end Machine

end Sys2Proof
end

section
/-! PROOF for O47: RLE_DEC answers the image in its frame, or the first fault of its bytes. -/

namespace Sys2Proof.Machine

/-! ### What a decoding command reports (R149) -/

/-- A success that reports the image `img`, with `pixels` in OUT. -/
structure State.Reports (t : State) (img : Reference.Image) (pixels : List Byte) : Prop where
  succeeded : t.succeeded
  outLen : t.outLen.toNat = img.w * img.h
  output : t.output = pixels
  resW : t.resW.toNat = img.w
  resH : t.resH.toNat = img.h
  resFlags : t.resFlags = resultFlags img.model img.scan

/-- The decoder's header registers are those of the image. -/
structure DecRegs.Describes (d : DecRegs) (img : Reference.Image) : Prop where
  dW : d.dW.toNat = img.w
  dH : d.dH.toNat = img.h
  dModel : d.dModel = img.model
  dScan : d.dScan = img.scan

/-- The end of a decoding command whose last stage is `x`, after the RLE decoder's stage `t`. -/
theorem State.finish_reports {t x : State} {img : Reference.Image} (h : t.dec.Describes img)
    (hlen : x.outLen.toNat = img.w * img.h) : (x.finish t.rleResults).Reports img x.output where
  succeeded := x.finish_succeeded _
  outLen := hlen
  output := x.finish_output _
  resW := by rw [State.finish_resW _ _ _ rfl, h.dW]
  resH := by rw [State.finish_resH _ _ _ rfl, h.dH]
  resFlags := by rw [State.finish_resFlags _ _ _ rfl, h.dModel, h.dScan]

theorem AnswersImage.image {r : Run State} {img : Reference.Image} (h : AnswersImage r (.ok img)) :
    ∃ t, r = .ok t ∧ t.dec.Describes img ∧ t.outLen.toNat = img.w * img.h ∧ t.output = img.pixels := by
  obtain ⟨t, ht, hlen, hout, hw, hh, hmodel, hscan⟩ := h
  exact ⟨t, ht, ⟨hw, hh, hmodel, hscan⟩, hlen, hout⟩

theorem AnswersImage.fault {r : Run State} {e : Err} (h : AnswersImage r (.error e)) : r = .error (.err e) := h

/-! ### RLE_DEC (R145, R149, R253) -/

/-- RLE_DEC is its engine on the input of the host. -/
theorem exec_rleDec {s : State} (h : s.inLen.toNat ≤ s.bufCap.toNat) :
    exec .rleDec s = s.outcome (s.begin.rleDecBody >>= fun t => .ok (t.finish t.rleResults)) :=
  State.command_body s (fun b => b.rleDecBody >>= fun t => .ok (t.finish t.rleResults)) h

theorem State.begin_rleDecBody_answers {s : State} (h : s.inLen.toNat ≤ s.bufCap.toNat) :
    AnswersImage s.begin.rleDecBody (Reference.rleImage s.bufCap.toNat s.input) :=
  State.rleDecBody_answers (State.begin_stage h).ready

theorem exec_rleDec_reports {s : State} {img : Reference.Image} (hfit : s.inLen.toNat ≤ s.bufCap.toNat)
    (himg : Reference.rleImage s.bufCap.toNat s.input = .ok img) :
    ∃ t, exec .rleDec s = .next t ∧ t.Reports img img.pixels := by
  have hbody := State.begin_rleDecBody_answers hfit
  rw [himg] at hbody
  obtain ⟨t, ht, hdec, hlen, hout⟩ := hbody.image
  refine ⟨t.finish t.rleResults, ?_, hout ▸ State.finish_reports hdec hlen⟩
  rw [exec_rleDec hfit, ht]
  rfl

theorem exec_rleDec_fault {s : State} {e : Err} (hfit : s.inLen.toNat ≤ s.bufCap.toNat)
    (hfault : Reference.rleImage s.bufCap.toNat s.input = .error e) :
    exec .rleDec s = .next (s.raise e) := by
  have hbody := State.begin_rleDecBody_answers hfit
  rw [hfault] at hbody
  rw [exec_rleDec hfit, hbody.fault]
  rfl

/-- Settles O47: the engine reads the frame as the reference does, and the command reports what the engine answers. -/
theorem rleDecoderReadsTheFrame : Obligations.RleDecoderReadsTheFrame := by
  intro s hfit
  refine ⟨fun img himg => ?_, fun e he => exec_rleDec_fault hfit he⟩
  obtain ⟨t, ht, hok, hlen, hout, hw, hh, hflags⟩ := exec_rleDec_reports hfit himg
  exact ⟨t, ht, hok, hlen, hout, hw, hh, hflags⟩

end Sys2Proof.Machine
end

section
/-! SUPPORT for O56: a decoder has stored every byte that it answers, so the next stage reads the same bytes. -/

namespace Sys2Proof.Machine

/-! ### Stored bytes (R17, R43) -/

theorem Memory.write_isSome {m : Memory} {a : Nat} (b : Nat) (v : Byte) (h : (m.read a).isSome) :
    ((m.write b v).read a).isSome := by
  by_cases hab : a = b
  · rw [hab, Memory.read_write_same]
    rfl
  · rwa [Memory.read_write_other _ _ _ _ hab]

/-- The next stage reads as its input what the stage before has answered (R229, R230). -/
theorem State.whole.toMid_input {s : State} (h : s.whole .out) :
    s.toMid.bytes s.toMid.src s.toMid.inputLen = s.output :=
  State.bytes_congr _ _ _ _ _ fun a ha => by
    obtain ⟨v, hv⟩ := Option.isSome_iff_exists.1 (h a ha)
    rw [s.toMid_peek a v hv ha, State.peek, hv, Option.getD_some]

/-- Every pixel that the RLE decoder has counted is stored at its place. -/
def State.PixelsStored (s : State) : Prop :=
  ∀ p, p < s.dec.written.toNat → (Memory.read s.outMem (s.dec.place p)).isSome

/-- What the position says of the bytes that a decoder has put out: all are stored. The encoder's scan is no position of
a decoder. -/
def State.OutStored (s : State) : Prop :=
  match s.seq with
  | .rleSet => True
  | .rleDimW => True
  | .rleDimH => True
  | .hufOuter => True
  | .rlePayload => s.PixelsStored
  | .hufRaw => s.whole .out
  | .hufBits => s.whole .out
  | .host => s.whole .out
  | .encScan => False
  | .encClose => False

/-- What is known of the position settles the claim. -/
theorem State.outStored_of {s : State} {seq : Seq} (hseq : s.seq = seq) (h : State.OutStored { s with seq := seq }) :
    s.OutStored := by
  subst hseq
  exact h

/-- A loop that has ended leaves its whole output stored. -/
theorem State.OutStored.whole {s : State} (h : s.OutStored) (hseq : s.seq = .host) : s.whole .out := by
  rwa [State.OutStored, hseq] at h

theorem State.OutStored.element {s : State} {i : Instr} (h : Yields (runElement i s) State.OutStored) :
    Yields (s.take (.element i)) State.OutStored := by
  refine h.bind fun t ht => ?_
  have hscan : t.seq ≠ .encScan := fun e => by
    rw [State.OutStored, e] at ht
    exact ht
  rw [State.afterElement, if_neg hscan]
  exact yields_ok ht

/-! ### The RLE decoder (R146 to R148) -/

theorem State.writePixelV_stored {s : State} (v : Byte) (hs : s.payloadSound) (hscan : s.dec.dScan = false)
    (hleft : s.dec.written.toNat < s.dec.dN.toNat) (h : s.PixelsStored) :
    Yields (s.writePixelV v) State.PixelsStored := by
  obtain ⟨hx, hy⟩ := State.payloadSound.cursor hs hscan
  obtain ⟨-, hcount⟩ := State.nextV_payloadSound hs hscan hleft
  have hplace : s.dec.vy.toNat * s.dec.dW.toNat + s.dec.vx.toNat = s.dec.place s.dec.written.toNat := by
    rw [hx, hy, DecRegs.place, hscan]
    rfl
  have hnext (p : Nat) : s.dec.nextV.place p = s.dec.place p := by
    unfold DecRegs.nextV
    split
    all_goals rfl
  obtain ⟨-, harea, hfit, -, hcursor⟩ := hs
  obtain ⟨hat, hrow⟩ := hcursor hscan
  have hin := (pixel_lt harea hat hrow hleft).2.trans_le hfit
  rw [State.writePixelV_eq, s.memWrite_eq .out _ v hin, hplace]
  refine yields_ok fun p hp => ?_
  change p < s.dec.nextV.written.toNat at hp
  change (Memory.read (s.outMem.write _ v) (s.dec.nextV.place p)).isSome
  rw [hnext]
  by_cases hlast : p = s.dec.written.toNat
  · rw [hlast, Memory.read_write_same]
    rfl
  · exact Memory.write_isSome _ v (h p (by omega))

theorem State.writePixelsV_stored (v : Byte) (k : Nat) {s : State} (hs : s.payloadSound) (hscan : s.dec.dScan = false)
    (hleft : s.dec.written.toNat + k ≤ s.dec.dN.toNat) (h : s.PixelsStored) :
    Yields (State.writePixelsV v k s) fun t => t.seq = s.seq ∧ t.PixelsStored := by
  induction k generalizing s with
  | zero => exact yields_ok ⟨rfl, h⟩
  | succ k ih =>
    obtain ⟨t, ht, hfilled, hcount⟩ := State.writePixelV_fills v hs hscan (by omega)
    obtain ⟨hframe, hregisters, hpayload, -, -⟩ := hfilled
    have hN : t.dec.dN = s.dec.dN := (congrArg DecRegs.dN hregisters :)
    have hdir : t.dec.dScan = s.dec.dScan := (congrArg DecRegs.dScan hregisters :)
    have hstored := State.writePixelV_stored v hs hscan (by omega) h t ht
    have hrest := ih hpayload (hdir.trans hscan) (by rw [hN]; omega) hstored
    rw [State.writePixelsV, ht]
    exact hrest.mono fun u ⟨hseq, hu⟩ => ⟨hseq.trans (congrArg State.seq hframe :), hu⟩

theorem State.writeH_stored {s : State} (count : Nat) (v : Byte) (hs : s.payloadSound) (hscan : s.dec.dScan = true)
    (h : s.PixelsStored) : Yields (s.writeH count v) fun t => t.seq = s.seq ∧ t.PixelsStored := by
  obtain ⟨-, -, hfit, hwritten, -⟩ := hs
  obtain ⟨m, w, hw, -, hread⟩ := State.writeH_ok count v hwritten hfit
  rw [hw]
  refine yields_ok ⟨rfl, fun p (hp : p < w.toNat) => ?_⟩
  change (Memory.read m (s.dec.place p)).isSome
  have hplace : s.dec.place p = p := by
    rw [DecRegs.place, hscan]
    rfl
  have hp' := h p
  rw [hplace] at hp' ⊢
  rw [hread]
  split
  · rfl
  · exact hp' (by omega)

theorem runLit_stored {s : State} (v : Byte) (hseq : s.seq = .rlePayload) (hs : s.payloadSound) (h : s.PixelsStored) :
    Yields (runLit v s) State.OutStored := by
  have hend {t : State} (ht : t.seq = s.takeItem.seq ∧ t.PixelsStored) :
      Yields (.ok { t with dec := { t.dec with acc := 0#64, nfrag := false } }) State.OutStored :=
    yields_ok (State.outStored_of (ht.1.trans hseq) ht.2)
  cases hscan : s.dec.dScan with
  | true =>
    rw [runLit_horizontal v hscan]
    exact (State.writeH_stored (s := s.takeItem) _ v hs hscan h).bind fun t => hend
  | false =>
    rw [runLit_vertical v hscan]
    split
    · exact yields_error
    · obtain ⟨-, -, -, hwritten, -⟩ := id hs
      refine (State.writePixelsV_stored v _ (s := s.takeItem) hs hscan ?_ h).bind fun t => hend
      change s.dec.written.toNat + s.dec.count ≤ s.dec.dN.toNat
      omega

/-- The places of the pixels are all the addresses of the image. -/
theorem State.endRle_stored {s : State} (hs : s.payloadSound) (h : s.PixelsStored) :
    Yields s.endRle State.OutStored := by
  obtain ⟨-, harea, -, -, -⟩ := hs
  unfold State.endRle
  split
  · exact yields_error
  · refine yields_ok (show State.whole _ .out from fun a (ha : a < s.dec.dN.toNat) => ?_)
    change (Memory.read s.outMem a).isSome
    have hplace : ∃ p < s.dec.dN.toNat, s.dec.place p = a := by
      rw [harea] at ha ⊢
      cases hscan : s.dec.dScan with
      | true => exact ⟨a, ha, by rw [DecRegs.place, hscan]; rfl⟩
      | false =>
        rw [Nat.mul_comm] at ha
        refine ⟨scanAddress false s.dec.dH.toNat s.dec.dW.toNat a, ?_, ?_⟩
        · rw [Nat.mul_comm]
          exact scanAddress_lt false ha
        · rw [DecRegs.place, hscan, scanAddress_scanAddress ha]
    obtain ⟨p, hp, rfl⟩ := hplace
    exact h p (by omega)

/-- A turn in the payload of an RLE frame. -/
theorem State.take_stored_rlePayload {s : State} {n : Turn} (hseq : s.seq = .rlePayload) (hpos : s.payloadSound)
    (h : s.PixelsStored)
    (hn : n = .stop ∨ s.dec.rp.toNat < s.inputLen ∧
      ∃ b, n = .element (.grp b) ∨ s.dec.gbit ≠ 8#4 ∧ (n = .element (.cnt b) ∨ n = .element (.lit b))) :
    Yields (s.take n) State.OutStored := by
  obtain rfl | ⟨-, b, rfl | ⟨-, rfl | rfl⟩⟩ := hn
  · rw [State.take, State.endLoop, hseq]
    exact State.endRle_stored hpos h
  · exact State.OutStored.element (yields_ok (State.outStored_of hseq h))
  · refine State.OutStored.element (i := .cnt b) ?_
    intro t ht
    have hkeeps := accumulate_ends s.takeItem.dec b
    change s.takeItem.dec.accumulate b >>= (fun d => .ok { s with dec := d }) = .ok t at ht
    match s.takeItem.dec.accumulate b, hkeeps, ht with
    | .ok _, ⟨acc, rfl⟩, rfl => exact State.outStored_of hseq h
  · exact State.OutStored.element (i := .lit b) (runLit_stored b hseq hpos h)

/-! ### The Huffman decoder (R200 to R205) -/

/-- A byte that a coded or raw payload puts out. -/
theorem State.append_stored {s : State} (v : Byte) (hs : s.whole .out) :
    Yields (s.append .out v) fun t => t.seq = s.seq ∧ t.whole .out := fun t ht =>
  ⟨(State.append_out_frame ht).2.2.2, s.append_whole .out v t ht hs⟩

theorem runEsc_stored {s : State} (v : Byte) (hseq : s.seq = .hufBits) (h : s.whole .out) :
    Yields (runEsc v s) State.OutStored := by
  unfold runEsc
  split
  · exact yields_error
  · refine (State.append_stored v h).bind fun t ⟨hstay, ht⟩ => yields_bind fun p => yields_bind fun u => ?_
    exact yields_ok (State.outStored_of (hstay.trans hseq) ht)

theorem runCode_stored {s : State} (b : Bool) (hseq : s.seq = .hufBits) (h : s.whole .out) :
    Yields (runCode b s) State.OutStored := by
  by_cases hchild : s.tree.child s.huf.dcur b = nilLink
  · rw [runCode_absent hchild]
    exact yields_error
  · rw [runCode_present hchild]
    exact yields_ok (State.outStored_of hseq h)

theorem State.emitSymbol_stored {s : State} (hseq : s.seq = .hufBits) (h : s.whole .out) :
    Yields s.emitSymbol State.OutStored :=
  (State.append_stored _ h).bind fun _ ⟨hstay, ht⟩ => yields_bind fun _ =>
    yields_ok (State.outStored_of (hstay.trans hseq) ht)

theorem runRaw_stored {s : State} (x : Byte) (hseq : s.seq = .hufRaw) (h : s.whole .out) :
    Yields (runRaw x s) State.OutStored :=
  (State.append_stored x h).bind fun _ ⟨hstay, ht⟩ => yields_ok (State.outStored_of (hstay.trans hseq) ht)

/-- OUT is empty when the payload begins. -/
theorem runOut_stored (reserved : BitVec 4) (huf : Bool) (pad : BitVec 3) (s : State) :
    Yields (runOut reserved huf pad s) State.OutStored := by
  cases huf with
  | false => exact yields_ok (show State.whole _ .out from nofun)
  | true => exact yields_ok (show State.whole _ .out from nofun)

/-! ### A turn in every position, and the loop -/

theorem runSet_stored (scan model : Bool) (kw kh : BitVec 3) (s : State) :
    Yields (runSet scan model kw kh s) State.OutStored := by
  unfold runSet
  split
  · exact yields_error
  · exact yields_ok trivial

theorem runDimh_stored (k : BitVec 3) (x : Word) (s : State) : Yields (runDimh k x s) State.OutStored := by
  unfold runDimh
  split
  · exact yields_error
  · split
    · exact yields_error
    · exact yields_ok (show State.PixelsStored _ from nofun)

/-- A loop that ends with every byte stored. -/
theorem State.stop_stored {s : State} (h : s.whole .out)
    (hend : s.endLoop = .ok { s with seq := .host }) : Yields (s.take .stop) State.OutStored := by
  rw [State.take, hend]
  exact yields_ok h

theorem State.take_stored {s : State} {n : Turn} (hs : s.StreamSound) (hn : s.Selects n) (hopen : s.seq ≠ .host)
    (h : s.OutStored) : Yields (s.take n) State.OutStored := by
  have hpos := hs.position
  unfold State.positionSound at hpos
  unfold State.Selects at hn
  unfold State.OutStored at h
  cases hseq : s.seq
  all_goals
    rw [hseq] at hn hpos h
    dsimp only at hn hpos h
  case host => exact absurd hseq hopen
  case rleSet =>
    obtain ⟨scan, model, kw, kh, rfl⟩ := hn
    exact State.OutStored.element (runSet_stored scan model kw kh s)
  case rleDimW =>
    obtain ⟨k, w, rfl⟩ := hn
    exact State.OutStored.element (yields_ok trivial)
  case rleDimH =>
    obtain ⟨k, x, rfl⟩ := hn
    exact State.OutStored.element (runDimh_stored k x s)
  case rlePayload => exact State.take_stored_rlePayload hseq hpos h hn
  case hufOuter =>
    obtain ⟨reserved, huf, pad, rfl⟩ := hn
    exact State.OutStored.element (runOut_stored reserved huf pad s)
  case hufRaw =>
    obtain rfl | ⟨-, x, rfl⟩ := hn
    · exact State.stop_stored h (by rw [State.endLoop, hseq])
    · exact State.OutStored.element (runRaw_stored x hseq h)
  case hufBits =>
    obtain rfl | rfl | ⟨-, ⟨b, rfl⟩ | ⟨v, rfl⟩⟩ := hn
    · exact State.stop_stored h (by rw [State.endLoop, hseq])
    · exact State.emitSymbol_stored hseq h
    · exact State.OutStored.element (runCode_stored b hseq h)
    · exact State.OutStored.element (runEsc_stored v hseq h)

theorem State.turn_stored {s : State} (hs : s.StreamSound) (hopen : s.seq ≠ .host) (h : s.OutStored) :
    Yields s.turn State.OutStored := by
  rw [State.turn_eq]
  have hselects : Yields s.nextTurn s.Selects := fun n hn => by
    have hends := State.nextTurn_ends hs
    rwa [hn] at hends
  exact hselects.bind fun n hn => State.take_stored hs hn hopen h

/-- A decoder's loop ends with every byte of its output stored. -/
theorem runTurns_stored (fuel : Nat) {s : State} (hs : s.StreamSound) (h : s.OutStored) :
    Yields (runTurns fuel s) fun t => t.whole .out := by
  induction fuel generalizing s with
  | zero =>
    unfold runTurns
    split
    · exact yields_ok (h.whole ‹_›)
    · exact yields_error
  | succ fuel ih =>
    unfold runTurns
    split
    · exact yields_ok (h.whole ‹_›)
    · rename_i hopen
      have hturn : Yields s.turn fun t => t.StreamSound ∧ t.OutStored := fun t ht =>
        ⟨hs.turned (hs.of_turn hopen ht), State.turn_stored hs hopen h t ht⟩
      exact hturn.bind fun t ⟨hsound, ht⟩ => ih hsound ht

theorem State.hufDecBody_stored {s : State} (hs : s.Ready) : Yields s.hufDecBody fun t => t.whole .out :=
  runTurns_stored _ (s := { s with seq := .hufOuter }) ⟨hs.src, hs.dest, hs.input, trivial⟩ trivial

theorem State.rleDecBody_stored {s : State} (hs : s.Ready) : Yields s.rleDecBody fun t => t.whole .out :=
  have hready := hs.keeps (State.clear_keeps (sp := .out) (.inl rfl))
  runTurns_stored _ (s := { s.clear .out with seq := .rleSet })
    ⟨hready.src, hready.dest, hready.input, trivial⟩ trivial

end Sys2Proof.Machine
end

section
/-! PROOF for O56: DECOMPRESS is the Huffman decoder, the RLE decoder and the inverse differential, in turn. -/

namespace Sys2Proof

/-! ### The inverse differential (R224) -/

theorem Reference.undiffFrom_length (p : Byte) (ys : List Byte) : (undiffFrom p ys).length = ys.length := by
  induction ys generalizing p with
  | nil => rfl
  | cons y ys ih => exact congrArg (· + 1) (ih (p + y))

namespace Machine

/-- A byte put out by the differential unit, which remembers it. -/
theorem State.append_remembered {s : State} (x : Byte) (hs : s.Ready) (hroom : s.outLen.toNat < s.bufCap.toNat) :
    ∃ t, State.append { s with prev := x } .out x = .ok t ∧ s.Keeps t ∧ t.prev = x ∧
      t.outLen.toNat = s.outLen.toNat + 1 ∧ t.output = s.output ++ [x] ∧ t.frameFrom = s.frameFrom := by
  obtain ⟨t, ht⟩ := State.append_room (s := { s with prev := x }) (sp := .out) x hroom
  obtain ⟨hframe, -⟩ := State.append_out_frame ht
  obtain ⟨-, -, hcount, -⟩ := State.append_ok ht
  obtain ⟨-, hpeek⟩ := State.append_out_peek (s := { s with prev := x }) hs.src ht
  have hsame (sp : Space) : State.peek { s with prev := x } sp = s.peek sp := by
    cases sp
    all_goals rfl
  have hkeeps : s.Keeps t := (State.Keeps.refl s).registers.trans (State.append_keeps (.inl rfl) ht)
  refine ⟨t, ht, hkeeps, (congrArg State.prev hframe :), hcount,
    State.append_out_output (s := { s with prev := x }) ht, funext fun a => ?_⟩
  rw [State.frameFrom, State.frameFrom, hkeeps.inputLen hs.src, hkeeps.src, ← hsame, ← hpeek]

/-- From byte `i` on, `DIFF_INV` puts out the sums that begin with the byte before, none before the first. -/
theorem State.diffInvFrom_answers (k i : Nat) {s : State} (hs : s.Ready) (hik : i + k = s.inputLen)
    (hlen : s.outLen.toNat = i) :
    Answers (State.diffInvFrom k i s)
      (.ok (s.output ++ Reference.undiffFrom (if i = 0 then 0#8 else s.prev) (s.frameFrom i))) := by
  induction k generalizing i s with
  | zero =>
    refine ⟨s, rfl, ?_⟩
    rw [State.frameFrom, ← hik, Nat.add_zero, Nat.sub_self]
    exact (List.append_nil _).symm
  | succ k ih =>
    have hin := hs.input
    have hmore : i < s.inputLen := by omega
    have hsum (y : Byte) : (if i = 0 then y else s.prev + y) = (if i = 0 then 0#8 else s.prev) + y := by
      split
      · exact (BitVec.zero_add y).symm
      · rfl
    rw [State.frameFrom_of_lt hmore, Reference.undiffFrom, State.diffInvFrom, s.inputByte_eq i (by omega)]
    change Answers (State.append { s with prev := _ } .out _ >>= State.diffInvFrom k (i + 1)) _
    rw [hsum]
    generalize (if i = 0 then 0#8 else s.prev) + s.peek s.src i = x
    obtain ⟨t, ht, hkeeps, hprev, hcount, hout, hleft⟩ := State.append_remembered x hs (by omega)
    have hlength := hkeeps.inputLen hs.src
    have hrest := ih (i + 1) (hs.keeps hkeeps) (by omega) (by omega)
    rw [if_neg (Nat.succ_ne_zero i), hprev, hout, hleft, List.append_assoc] at hrest
    rw [ht]
    exact hrest

theorem State.diffInvBody_answers {s : State} (hs : s.Ready) :
    Answers s.diffInvBody (.ok (Reference.undiffFrom 0#8 (s.bytes s.src s.inputLen))) := by
  have hclear : s.Keeps (s.clear .out) := State.clear_keeps (.inl rfl)
  have hlen := hclear.inputLen hs.src
  have hanswers := State.diffInvFrom_answers s.inputLen 0 (hs.keeps hclear) (by rw [hlen, Nat.zero_add]) rfl
  have hinput : (s.clear .out).frameFrom 0 = s.bytes s.src s.inputLen := by
    rw [State.frameFrom, hlen, hclear.src, State.clear_out_peek hs.src, Nat.sub_zero, ← List.range_eq_range']
    rfl
  rw [hinput] at hanswers
  exact hanswers

/-! ### The stages of DECOMPRESS (R230) -/

/-- What is known of a stage that has completed. -/
theorem Ends.keeps {r : Run State} {s t : State} (h : Ends r s.Keeps) (ht : r = .ok t) : s.Keeps t := by
  rwa [ht] at h

/-- The Huffman decoder hands its bytes to the RLE decoder, or its fault is the answer. -/
theorem State.hufDecBody_hands {s b : State} {frame : List Byte} (hb : s.Stage b)
    (h : Reference.hufBytes b.bufCap.toNat b.tree.init (b.bytes b.src b.inputLen) = .ok frame) :
    ∃ f, b.hufDecBody = .ok f ∧ s.Stage f.toMid ∧ f.toMid.bytes f.toMid.src f.toMid.inputLen = frame := by
  have hanswers := State.hufDecBody_answers hb.ready
  rw [h] at hanswers
  obtain ⟨f, hf, rfl⟩ := hanswers
  exact ⟨f, hf, (hb.keeps ((State.hufDecBody_ends hb.ready).keeps hf)).toMid,
    (State.hufDecBody_stored hb.ready f hf).toMid_input⟩

/-- The last stage undoes the differential if the frame says so. -/
theorem State.decompressDiff_answers {s img : State} (h : s.Stage img) (hwhole : img.whole .out) :
    Answers img.decompressDiff
      (.ok (if img.dec.dModel then Reference.undiffFrom 0#8 img.output else img.output)) := by
  unfold State.decompressDiff
  split
  · rw [← hwhole.toMid_input]
    exact State.diffInvBody_answers h.toMid.ready
  · exact ⟨img, rfl, rfl⟩

/-- The stages behind the Huffman decoder, from the state that holds the RLE frame. -/
def State.decompressImage (x : State) : Run State :=
  x.rleDecBody >>= fun img => img.decompressDiff >>= fun y => .ok (y.finish img.rleResults)

theorem State.decompressImage_reports {s x : State} {img : Reference.Image} (hx : s.Stage x)
    (h : Reference.rleImage s.bufCap.toNat (x.bytes x.src x.inputLen) = .ok img) :
    ∃ t, x.decompressImage = .ok t ∧
      t.Reports img (if img.model then Reference.undiffFrom 0#8 img.pixels else img.pixels) := by
  have hanswers := State.rleDecBody_answers hx.ready
  rw [hx.bufCap, h] at hanswers
  obtain ⟨t, ht, hdec, hlen, hout⟩ := hanswers.image
  have hstage := hx.keeps ((State.rleDecBody_ends hx.ready).keeps ht)
  obtain ⟨y, hy, hpixels⟩ := State.decompressDiff_answers hstage (State.rleDecBody_stored hx.ready t ht)
  have hcount : y.outLen.toNat = img.w * img.h := by
    rw [← State.output_length, hpixels, ← hlen, ← State.output_length]
    split
    · exact Reference.undiffFrom_length _ _
    · rfl
  rw [hdec.dModel, hout] at hpixels
  refine ⟨y.finish t.rleResults, ?_, hpixels ▸ State.finish_reports hdec hcount⟩
  rw [State.decompressImage, ht]
  change t.decompressDiff >>= _ = _
  rw [hy]
  rfl

theorem State.decompressImage_fault {s x : State} {e : Err} (hx : s.Stage x)
    (h : Reference.rleImage s.bufCap.toNat (x.bytes x.src x.inputLen) = .error e) :
    x.decompressImage = .error (.err e) := by
  have hanswers := State.rleDecBody_answers hx.ready
  rw [hx.bufCap, h] at hanswers
  rw [State.decompressImage, hanswers.fault]
  rfl

/-! ### DECOMPRESS (R230, R253) -/

theorem exec_decompress {s : State} (h : s.inLen.toNat ≤ s.bufCap.toNat) :
    exec .decompress s = s.outcome (s.begin.hufDecBody >>= fun f => f.toMid.decompressImage) :=
  (State.command_body s decompressBody h).trans (congrArg s.outcome (decompressBody_eq s.begin))

theorem exec_decompress_hufFault {s : State} {e : Err} (h : s.inLen.toNat ≤ s.bufCap.toNat)
    (hfault : Reference.hufBytes s.bufCap.toNat s.tree.init s.input = .error e) :
    exec .decompress s = .next (s.raise e) := by
  have hanswers : Answers s.begin.hufDecBody (Reference.hufBytes s.bufCap.toNat s.tree.init s.input) :=
    State.hufDecBody_answers (State.begin_stage h).ready
  rw [hfault] at hanswers
  have hbody : s.begin.hufDecBody = .error (.err e) := hanswers
  rw [exec_decompress h, hbody]
  rfl

/-- Settles O56: each stage answers what the reference says of what the stage before has handed over. -/
theorem decompressComposesItsStages : Obligations.DecompressComposesItsStages := by
  intro s hfit
  refine ⟨fun e he => exec_decompress_hufFault hfit he, fun frame hframe => ?_⟩
  obtain ⟨f, hf, hstage, rfl⟩ := State.hufDecBody_hands (State.begin_stage hfit) hframe
  have hexec : exec .decompress s = s.outcome f.toMid.decompressImage := by
    rw [exec_decompress hfit, hf]
    rfl
  rw [hexec]
  refine ⟨fun e he => ?_, fun img himg => ?_⟩
  · rw [State.decompressImage_fault hstage he]
    rfl
  · obtain ⟨t, ht, hok, hlen, hout, hw, hh, hflags⟩ := State.decompressImage_reports hstage himg
    exact ⟨t, congrArg s.outcome ht, hok, hlen, hout, hw, hh, hflags⟩

end Machine

end Sys2Proof
end

section
/-! PROOFS for O31, O33 and O34: the operations of a symbol keep a tree valid, from the fresh tree on. -/

namespace Sys2Proof.Machine

/-! ### Valid trees (R161, R164, R167, R169 to R173) -/

/-- Settles O33: the NYT root is the only slot in use. -/
theorem freshTreeIsValid : Obligations.FreshTreeIsValid := Tree.init_valid

/-- Settles O34: a new symbol is introduced, and the update of a known symbol starts at its leaf. -/
theorem treeOperationsKeepTheTreeValid : Obligations.TreeOperationsKeepTheTreeValid := by
  intro t n b hvalid hn
  refine ⟨fun hnew => ?_, fun hknown => ?_⟩
  · obtain ⟨t1, u, hsplit, hupdate, hu, hsym, -⟩ := hvalid.introduce hn hnew
    exact ⟨t1, t.nyt, u, hsplit, rfl, hupdate, hu, hsym⟩
  · obtain ⟨hlive, hnyt, hleaf, -⟩ := hvalid.sym_leaf b hknown
    obtain ⟨u, hupdate, hu, hsym⟩ := hvalid.update_leaf hn hlive hnyt hleaf
    exact ⟨u, hupdate, hu, by rw [Tree.symOf, hsym, Tree.symOf]⟩

/-! ### The first split (R164, R204) -/

/-- The tree after its first symbol: the update from the root counts the symbol there. -/
def Tree.first (t : Tree) (b : Byte) : Tree := Tree.increment { t.init.grown b with unode := 0#10 }

theorem Tree.first_introduced (t : Tree) (b : Byte) :
    t.init.split b = some (t.init.grown b, 0#10) ∧ (t.init.grown b).update 0#10 = some (t.first b) :=
  ⟨rfl, (t.init.grown b).update_root⟩

/-- The three nodes of R164's example; no other slot is in use. -/
theorem Tree.node_first (t : Tree) (b : Byte) (m : Link) :
    (t.first b).node m =
      if m = 0#10 then
        { parent := nilLink, left := 1#10, right := 2#10, index := 513#32, weight := 1#64, value := 0#8 }
      else if m = 2#10 then
        { parent := 0#10, left := nilLink, right := nilLink, index := 512#32, weight := 1#64, value := b }
      else if m = 1#10 then
        { parent := 0#10, left := nilLink, right := nilLink, index := 511#32, weight := 0#64, value := 0#8 }
      else t.init.node m := by
  have hgrown := Tree.node_grown (t := t.init) b (show 1 + 2 ≤ 513 by decide) ((t.init_live _).2 rfl)
  have hcount := Tree.node_increment (t := { t.init.grown b with unode := 0#10 }) (show 0 < 3 by decide)
    (show 3 ≤ 513 by decide) m
  refine hcount.trans ?_
  change (if m = 0#10 then { (t.init.grown b).node 0#10 with weight := ((t.init.grown b).node 0#10).weight + 1#64 }
    else (t.init.grown b).node m) = _
  have hnyt : t.init.nyt = 0#10 := rfl
  have hnodes : t.init.nnodes = 1#10 := rfl
  rw [hgrown, hgrown, hnyt, hnodes, t.init_node_root, if_pos rfl]
  split
  · rfl
  · rfl

theorem Tree.symOf_first (t : Tree) (b c : Byte) :
    (t.first b).symOf c = if c = b then 2#10 else nilLink := by
  have hsym : (t.first b).sym = (t.init.grown b).sym := rfl
  have hgrown := t.init.symOf_grown b c
  rw [Tree.symOf, t.init_symOf] at hgrown
  rw [Tree.symOf, hsym]
  exact hgrown

/-- The reader at the start of the payload takes a literal, which is the first payload byte. -/
theorem HufRegs.takeBits_literal {h : HufRegs} (hrb : h.rb = 0#64) (hri : h.ri = 0#4) :
    (h.takeBits 8).rb = 0#64 ∧ (h.takeBits 8).ri = 8#4 := by
  have hstart : 8 * h.rb.toNat + h.ri.toNat = 0 := by rw [hrb, hri]; rfl
  obtain ⟨hposition, hhigh, hlow⟩ := h.takeBits_advance 8 (by omega) (by omega)
  have hlow := hlow (by decide)
  exact ⟨BitVec.eq_of_toNat_eq (show _ = 0 by omega), BitVec.eq_of_toNat_eq (show _ = 8 by omega)⟩

/-- The output is no matter of the tree and the reader. -/
theorem State.output_decoder (s : State) (tree : Tree) (huf : HufRegs) :
    State.output { s with tree := tree, huf := huf } = s.output := rfl

/-- Settles O31: OUT leaves a fresh tree and an empty output, and ESC appends the symbol and splits the root. -/
theorem firstLiteralMakesTheFirstSplit : Obligations.FirstLiteralMakesTheFirstSplit := by
  intro s pad v hcap
  have hstart : exec (.out 0#4 true pad) s = .next (s.codedStart pad) := rfl
  have hroom : ((s.codedStart pad).len .out).toNat < (s.codedStart pad).bufCap.toNat := hcap
  obtain ⟨hsplit, hupdate⟩ := s.tree.first_introduced v
  obtain ⟨t, happ⟩ := State.append_room v hroom
  obtain ⟨-, -, hcount, -⟩ := State.append_ok happ
  obtain ⟨-, -, hhuf, -⟩ := State.append_out_frame happ
  obtain ⟨hrb, hri⟩ := HufRegs.takeBits_literal (h := t.huf) (by rw [hhuf]) (by rw [hhuf])
  have hrun := exec_element (s.codedStart pad) (i := .esc v) rfl
  rw [runElement, runEsc_introduces (s.tree.init_symOf v) happ hsplit hupdate, State.outcome_ok] at hrun
  generalize t.huf.takeBits 8 = k at hrun hrb hri -- else Lean evaluates the reader where it compares states
  have hout := (t.output_decoder (s.tree.first v) { k with dcur := (s.tree.first v).root }).trans
    (State.append_out_output happ)
  have hnode := s.tree.node_first v
  exact ⟨s.codedStart pad, _, hstart, hrun, BitVec.eq_of_toNat_eq hcount, hout, rfl, rfl, rfl,
    hnode 0#10, hnode 1#10, hnode 2#10, s.tree.symOf_first v, rfl, hrb, hri⟩

end Sys2Proof.Machine
end

section
/-! PROOFS for O35 and O36: the codes of a tree. -/

namespace Sys2Proof

namespace Machine

/-! ### Descent from the root (R97, R168) -/

/-- The slot that the bits lead to from the slot `l` on. -/
def Tree.descend (t : Tree) (l : Link) (bits : List Bool) : Link := bits.foldl t.child l

@[simp] theorem Tree.descend_nil (t : Tree) (l : Link) : t.descend l [] = l := rfl

@[simp] theorem Tree.descend_cons (t : Tree) (l : Link) (b : Bool) (bits : List Bool) :
    t.descend l (b :: bits) = t.descend (t.child l b) bits := rfl

@[simp] theorem Tree.descend_append (t : Tree) (l : Link) (p q : List Bool) :
    t.descend l (p ++ q) = t.descend (t.descend l p) q := List.foldl_append

/-- No slot hangs under an absent one. -/
theorem Tree.descend_absent (t : Tree) (bits : List Bool) : t.descend nilLink bits = nilLink := by
  induction bits with
  | nil => rfl
  | cons b bits ih =>
    have hchild : t.child nilLink b = nilLink := by
      rw [Tree.child, t.node_nil]
      exact ite_self _
    rw [Tree.descend_cons, hchild, ih]

section Formed

variable {t : Tree} {d : Link → Nat}

/-- An internal node has a child for each bit. -/
theorem Tree.Formed.child_internal (h : t.Formed d) {l : Link} (hl : t.live l) (hi : t.isInternal l = true)
    (b : Bool) : t.live (t.child l b) := by
  obtain ⟨hleft, hright, -⟩ := h.internal hl hi
  cases b with
  | false => exact hleft
  | true => exact hright

/-- A symbol leaf is not the root, which has the NYT leaf under it. -/
theorem Tree.Formed.symbolLeaf_ne_root (h : t.Formed d) {l : Link} (hleaf : t.isInternal l = false)
    (hnyt : l ≠ t.nyt) : l ≠ t.root := by
  rintro rfl
  obtain ⟨hinternal, -⟩ := h.under_child (h.under_root h.nyt_live) hnyt.symm
  exact Bool.false_ne_true (hleaf.symm.trans hinternal)

/-- The bits of a code name the side on which each slot stands. -/
theorem Tree.Formed.child_isRight (h : t.Formed d) {l : Link} (hl : t.live l) (hroot : l ≠ t.root) :
    t.child (t.up l) (t.isRight l) = l := by
  obtain ⟨hright, hleft⟩ := h.isRight_iff hl hroot
  cases hside : t.isRight l with
  | true => exact (hright hside).1
  | false => exact (hleft hside).1

/-- Nothing hangs under a leaf. -/
theorem Tree.Formed.descend_leaf (h : t.Formed d) {l : Link} (hl : t.live l) (hleaf : t.isInternal l = false)
    (b : Bool) (bits : List Bool) : t.descend l (b :: bits) = nilLink := by
  rw [Tree.isInternal_eq_false_iff] at hleaf
  have hright : (t.node l).right = nilLink := by
    rcases h.children l hl with ⟨-, hright⟩ | ⟨hleft, -⟩
    · exact hright
    · exact absurd hleaf (h.live_ne_nil hleft)
  have hchild : t.child l b = nilLink := by
    rw [Tree.child, hleaf, hright]
    exact ite_self _
  rw [Tree.descend_cons, hchild, t.descend_absent]

/-- The bits that the walk of `Path` puts in front lead from the root to where it started. -/
theorem Tree.Formed.pathFrom_descends (h : t.Formed d) {fuel : Nat} {l : Link} {bits p : List Bool} (hl : t.live l)
    (hp : t.pathFrom fuel l bits = some p) : ∃ q, p = q ++ bits ∧ t.descend t.root q = l := by
  induction fuel generalizing l bits with
  | zero => cases hp
  | succ fuel ih =>
    unfold Tree.pathFrom at hp
    split at hp
    · cases hp
      exact ⟨[], rfl, Eq.symm ‹_›⟩
    · rename_i hroot
      obtain ⟨q, rfl, hq⟩ := ih (h.parents l hl hroot).1 hp
      refine ⟨q ++ [t.isRight l], List.append_cons .., ?_⟩
      rw [Tree.descend_append, hq]
      exact h.child_isRight hl hroot

/-- The walk of `Path` reaches the root within the node's depth. -/
theorem Tree.Formed.pathFrom_completes (h : t.Formed d) {fuel : Nat} {l : Link} (bits : List Bool) (hl : t.live l)
    (hfuel : d l < fuel) : ∃ p, t.pathFrom fuel l bits = some p := by
  induction fuel generalizing l bits with
  | zero => exact absurd hfuel (Nat.not_lt_zero _)
  | succ fuel ih =>
    unfold Tree.pathFrom
    split
    · exact ⟨bits, rfl⟩
    · rename_i hroot
      have hup : d l = d (t.node l).parent + 1 := h.depth_up l hl hroot
      exact ih _ (h.parents l hl hroot).1 (by omega)

/-- A node's code leads from the root to the node. -/
theorem Tree.Formed.path_descends (h : t.Formed d) {l : Link} {p : List Bool} (hl : t.live l)
    (hp : t.path l = some p) : t.descend t.root p = l := by
  obtain ⟨q, rfl, hq⟩ := h.pathFrom_descends hl hp
  rwa [List.append_nil]

/-- Every slot in use has a code. -/
theorem Tree.Formed.path_completes (h : t.Formed d) {l : Link} (hl : t.live l) : ∃ p, t.path l = some p :=
  h.pathFrom_completes [] hl (h.depth_bound hl)

end Formed

/-- Settles O35: the descent along the longer code stops where the shorter one has reached its leaf. -/
theorem codesAreAPrefixCode : Obligations.CodesAreAPrefixCode := by
  rintro t n l m p _ hvalid hl hm hleaf - hp hq ⟨rest, rfl⟩
  obtain ⟨d, hf⟩ := hvalid.formed
  have hmeet : t.descend l rest = m := by
    rw [← hf.path_descends hl hp, ← Tree.descend_append, hf.path_descends hm hq]
  cases rest with
  | nil => exact hmeet
  | cons b rest =>
    rw [hf.descend_leaf hl hleaf] at hmeet
    exact absurd hmeet.symm (hf.live_ne_nil hm)

end Machine

namespace Reference

open Machine

/-! ### The worked example (R176) -/

/-- What a symbol costs, and the tree it leaves, are decided by the slots in use. -/
theorem symbolCode_similar {t u : Tree} (h : t.Similar u) (b : Byte) :
    Option.Rel (fun p q => q.1 = p.1 ∧ p.2.Similar q.2) (symbolCode t b) (symbolCode u b) := by
  have code {l : Link} (hl : t.link l) : Option.Rel (fun p q => q = p) (t.path l) (u.path l) := by
    rw [h.path hl]
    cases t.path l with
    | none => exact .none
    | some p => exact .some rfl
  unfold symbolCode
  rw [h.symOf, h.nyt]
  split
  · refine optionRel_bind (code (.inl h.nyt_live)) fun p q hpq => ?_
    refine optionRel_bind (h.split b) fun r r' ⟨hr, hnyt, hlink⟩ => ?_
    rw [hnyt]
    exact optionRel_bind (hr.update hlink) fun v w hvw => .some ⟨congrArg (· ++ literalBits b) hpq, hvw⟩
  · refine optionRel_bind (code (h.sym_link b)) fun p q hpq => ?_
    exact optionRel_bind (h.update (h.sym_link b)) fun v w hvw => .some ⟨hpq, hvw⟩

theorem symbolCode_eq_some_of_similar {t u u' : Tree} {b : Byte} {p : List Bool} (h : t.Similar u)
    (hu : symbolCode u b = some (p, u')) : ∃ t', symbolCode t b = some (p, t') ∧ t'.Similar u' := by
  have hrel := symbolCode_similar h b
  rw [hu] at hrel
  generalize symbolCode t b = x at hrel
  obtain ⟨rfl, hsimilar⟩ | _ := hrel
  exact ⟨_, rfl, hsimilar⟩

/-- The lengths of what the symbols `61 62 63` cost in the fresh tree of a reset machine, and the codes of the three
symbols and of the NYT leaf after them. -/
def exampleCodes : Option (List Nat × List (Option (List Bool))) := do
  let r ← symbolCode Tree.reset.init 0x61#8
  let s ← symbolCode r.2 0x62#8
  let t ← symbolCode s.2 0x63#8
  some ([r.1.length, s.1.length, t.1.length],
    [t.2.path (t.2.symOf 0x61#8), t.2.path (t.2.symOf 0x62#8), t.2.path (t.2.symOf 0x63#8), t.2.path t.2.nyt])

theorem exampleCodes_eq : exampleCodes =
    some ([8, 9, 10], [some [false], some [true, true], some [true, false, true], some [true, false, false]]) := by
  decide +kernel

/-- Settles O36: the codes of one fresh tree are evaluated, and every fresh tree is similar to it. -/
theorem codesOfTheWorkedExample : Obligations.CodesOfTheWorkedExample := by
  intro t
  have hcodes := exampleCodes_eq
  unfold exampleCodes at hcodes
  obtain ⟨⟨c1, u1⟩, h1, hrest⟩ := Option.bind_eq_some_iff.1 hcodes
  obtain ⟨⟨c2, u2⟩, h2, hrest⟩ := Option.bind_eq_some_iff.1 hrest
  obtain ⟨⟨c3, u3⟩, h3, hrest⟩ := Option.bind_eq_some_iff.1 hrest
  obtain ⟨t1, ht1, hs1⟩ := symbolCode_eq_some_of_similar (t.init_similar Tree.reset) h1
  obtain ⟨t2, ht2, hs2⟩ := symbolCode_eq_some_of_similar hs1 h2
  obtain ⟨t3, ht3, hs3⟩ := symbolCode_eq_some_of_similar hs2 h3
  have code (b : Byte) : t3.path (t3.symOf b) = u3.path (u3.symOf b) := by
    rw [hs3.symOf, hs3.path (hs3.sym_link b)]
  have hnyt : t3.path t3.nyt = u3.path u3.nyt := by rw [hs3.nyt, hs3.path (.inl hs3.nyt_live)]
  simp only [Option.some.injEq, Prod.mk.injEq, List.cons.injEq, and_true] at hrest
  obtain ⟨⟨hl1, hl2, hl3⟩, h61, h62, h63, hesc⟩ := hrest
  exact ⟨t1, t2, t3, c1, c2, c3, ht1, ht2, ht3, hl1, hl2, hl3, (code _).trans h61, (code _).trans h62,
    (code _).trans h63, hnyt.trans hesc⟩

end Reference

end Sys2Proof
end

section
/-! SUPPORT for O40: a valid tree codes every byte sequence, and the reference reads a payload along a valid tree. -/

namespace Sys2Proof

open Machine

/-! ### Faults that are reported (R241) -/

/-- The faults but code 14, an absent child, and code 16, a corrupt tree (R172, R203). -/
abbrev Machine.Err.reachable (e : Err) : Prop := e ≠ .hufDecAbsentChild ∧ e ≠ .hufTreeCorrupt

theorem Machine.Err.reachable.code {e : Err} (h : e.reachable) : e.code ≠ 14#8 ∧ e.code ≠ 16#8 := by
  revert h
  cases e
  all_goals decide

namespace Reference

/-- What the reference answers is a result or a fault that can be reported. -/
def Reachable {α : Type} (x : Except Err α) : Prop := ∀ e, x = .error e → e.reachable

theorem reachable_ok {α : Type} {a : α} : Reachable (.ok a : Except Err α) := nofun

theorem reachable_error {α : Type} {e : Err} (h : e.reachable) : Reachable (.error e : Except Err α) := by
  rintro _ ⟨⟩
  exact h

/-! ### The bit stream (R186, R187) -/

/-- On a valid tree every symbol has a code, and leaves a valid tree with one symbol more. -/
theorem symbolCode_completes {t : Tree} {n : Nat} (h : t.Valid n) (hn : n + 1 < 2 ^ 64) (b : Byte) :
    ∃ p u, symbolCode t b = some (p, u) ∧ u.Valid (n + 1) := by
  obtain ⟨d, hf⟩ := h.formed
  by_cases hnew : t.symOf b = nilLink
  · obtain ⟨t1, u, hsplit, hupdate, hvalid, -⟩ := h.introduce hn hnew
    obtain ⟨p, hp⟩ := hf.path_completes hf.nyt_live
    refine ⟨p ++ literalBits b, u, ?_, hvalid⟩
    rw [symbolCode, if_pos hnew, hp, hsplit]
    exact congrArg (Option.bind · _) hupdate
  · obtain ⟨hlive, hnyt, hleaf, -⟩ := h.sym_leaf b hnew
    obtain ⟨u, hupdate, hvalid, -⟩ := h.update_leaf hn hlive hnyt hleaf
    obtain ⟨p, hp⟩ := hf.path_completes hlive
    refine ⟨p, u, ?_, hvalid⟩
    rw [symbolCode, if_neg hnew, hp]
    exact congrArg (Option.bind · _) hupdate

theorem streamBits_completes {t : Tree} {n : Nat} {bs : List Byte} (h : t.Valid n) (hn : n + bs.length < 2 ^ 64) :
    ∃ bits, streamBits t bs = some bits := by
  induction bs generalizing t n with
  | nil => exact ⟨[], rfl⟩
  | cons b bs ih =>
    rw [List.length_cons] at hn
    obtain ⟨p, u, hcode, hvalid⟩ := symbolCode_completes h (by omega) b
    obtain ⟨rest, hrest⟩ := ih hvalid (by omega)
    refine ⟨p ++ rest, ?_⟩
    rw [streamBits, hcode]
    exact congrArg (Option.bind · _) hrest

/-! ### The coded payload (R198 to R206) -/

/-- Along a valid tree every code bit names a child, every operation completes, and two turns a bit are enough. -/
theorem hufSymbols_reachable {cap pad fuel : Nat} (hcap : cap < 2 ^ 64) {t : Tree} {l : Link} {bits : List Bool}
    {out : List Byte} (h : t.Valid out.length) (hl : t.live l) (hdue : t.turnsDue l bits < fuel) :
    Reachable (hufSymbols cap pad fuel t l bits out) := by
  induction fuel generalizing t l bits out with
  | zero => exact absurd hdue (Nat.not_lt_zero _)
  | succ fuel ih =>
    obtain ⟨d, hf⟩ := h.formed
    have grown (u : Tree) (v : Byte) (bits' : List Bool) (hu : u.Valid (out.length + 1))
        (hless : 2 * bits'.length < fuel) : Reachable (hufSymbols cap pad fuel u u.root bits' (out ++ [v])) := by
      obtain ⟨d', hf'⟩ := hu.formed
      refine ih (by rwa [List.length_append]) hf'.root_live ?_
      rwa [u.turnsDue_root]
    have hdues := (t.turnsDue_le l bits).1
    unfold hufSymbols
    by_cases hend : bits.length + 1 = pad
    · rw [if_pos hend]
      exact reachable_ok
    rw [if_neg hend]
    cases hi : t.isInternal l with
    | true =>
      rw [if_pos rfl]
      cases bits with
      | nil => exact reachable_ok
      | cons b rest =>
        have hchild := hf.child_internal hl hi b
        rw [List.length_cons] at hdues
        dsimp only
        rw [if_neg (hf.live_ne_nil hchild)]
        exact ih h hchild ((t.turnsDue_le _ rest).2.trans_lt (by omega))
    | false =>
      rw [if_neg Bool.false_ne_true]
      by_cases hnyt : l = t.nyt
      · rw [if_pos hnyt]
        dsimp only
        by_cases hlen : bits.length < 8
        · rw [if_pos hlen]
          exact reachable_error (by decide)
        rw [if_neg hlen]
        by_cases hnew : t.symOf (literalValue (bits.take 8)) = nilLink
        · rw [if_neg (not_not.2 hnew)]
          by_cases hfull : cap ≤ out.length
          · rw [if_pos hfull]
            exact reachable_error (by decide)
          obtain ⟨p, u, hsplit, hupdate, hu, -⟩ := h.introduce (by omega) hnew
          rw [if_neg hfull, hsplit, Option.bind_some, hupdate]
          exact grown u _ _ hu (by rw [List.length_drop]; omega)
        · rw [if_pos hnew]
          exact reachable_error (by decide)
      · rw [if_neg hnyt]
        by_cases hfull : cap ≤ out.length
        · rw [if_pos hfull]
          exact reachable_error (by decide)
        obtain ⟨u, hupdate, hu, -⟩ := h.update_leaf (by omega) hl hnyt hi
        rw [Tree.turnsDue_of_ne (hf.symbolLeaf_ne_root hi hnyt)] at hdue
        rw [if_neg hfull, hupdate]
        exact grown u _ _ hu (by omega)

theorem hufBytes_reachable {cap : Nat} (hcap : cap < 2 ^ 64) (t : Tree) (frame : List Byte) :
    Reachable (hufBytes cap t.init frame) := by
  cases frame with
  | nil => exact reachable_error (by decide)
  | cons outer payload =>
    rw [hufBytes]
    split
    · exact reachable_ok
    · split
      · exact reachable_error (by decide)
      · refine hufSymbols_reachable hcap t.init_valid ((t.init_live _).2 rfl) ?_
        rw [Tree.turnsDue_root, payloadBits_length]
        omega

/-! ### The RLE frame (R141 to R149) -/

theorem payloadPixels_reachable (scan : Bool) (n : Nat) (bytes : List Byte) (cls : List Bool) (acc : Option Nat)
    (out : List Byte) : Reachable (payloadPixels scan n bytes cls acc out) := by
  induction bytes generalizing cls acc out with
  | nil =>
    unfold payloadPixels
    split
    · exact reachable_error (by decide)
    · exact reachable_ok
  | cons b bytes ih =>
    by_cases hfull : n ≤ out.length
    · rw [payloadPixels_full scan (b :: bytes) acc cls hfull]
      exact reachable_ok
    have hmore := Nat.not_le.1 hfull
    match cls with
    | [] =>
      rw [payloadPixels_group scan b bytes acc hmore]
      exact ih _ _ _
    | true :: cls =>
      rw [payloadPixels_counter scan b bytes cls acc hmore]
      split
      · exact reachable_error (by decide)
      · exact ih _ _ _
    | false :: cls =>
      rw [payloadPixels_literal scan b bytes cls acc hmore]
      split
      · exact ih _ _ _
      · split
        · exact reachable_error (by decide)
        · exact ih _ _ _

theorem rleImage_reachable (cap : Nat) (frame : List Byte) : Reachable (rleImage cap frame) := by
  cases frame with
  | nil => exact reachable_error (by decide)
  | cons b rest =>
    rw [rleImage_cons]
    split
    · exact reachable_error (by decide)
    · unfold imageOf
      split
      · exact reachable_error (by decide)
      · split
        · exact reachable_error (by decide)
        · split
          · rename_i e he
            exact reachable_error (payloadPixels_reachable _ _ _ _ _ _ e he)
          · exact reachable_ok

end Reference

end Sys2Proof
end

section
/-! PROOF for O40: no stage of a command raises code 14 or 16. -/

namespace Sys2Proof.Machine

open Reference (Reachable)

/-! ### Operations that raise reportable faults -/

/-- What the operation raises, if it raises, is a fault that can be reported. -/
def RaisesReachable {α : Type} (r : Run α) : Prop := ∀ e, r = .error (.err e) → e.reachable

theorem raisesReachable_ok {α : Type} {r : Run α} {a : α} (h : r = .ok a) : RaisesReachable r := by
  subst h
  exact nofun

theorem raisesReachable_err {α : Type} {r : Run α} {e : Err} (h : r = .error (.err e)) (he : e.reachable) :
    RaisesReachable r := by
  subst h
  rintro _ ⟨⟩
  exact he

theorem RaisesReachable.bind {α β : Type} {r : Run α} {f : α → Run β} {P : α → Prop} (h : RaisesReachable r)
    (hends : Ends r P) (hf : ∀ a, P a → RaisesReachable (f a)) : RaisesReachable (r >>= f) := by
  match r, h, hends with
  | .ok a, _, ha => exact hf a ha
  | .error (.err e), h, _ => exact raisesReachable_err rfl (h e rfl)

/-- Nothing is raised after the first operation. -/
theorem RaisesReachable.then_ok {α β : Type} {r : Run α} {f : α → β} {P : α → Prop} (h : RaisesReachable r)
    (hends : Ends r P) : RaisesReachable (r >>= fun a => .ok (f a)) :=
  h.bind hends fun _ _ => raisesReachable_ok rfl

theorem Answers.raisesReachable {r : Run State} {x : Except Err (List Byte)} (h : Answers r x) (hx : Reachable x) :
    RaisesReachable r := by
  match x, h, hx with
  | .ok _, ⟨_, ht, _⟩, _ => exact raisesReachable_ok ht
  | .error e, h, hx => exact raisesReachable_err h (hx e rfl)

theorem AnswersImage.raisesReachable {r : Run State} {x : Except Err Reference.Image} (h : AnswersImage r x)
    (hx : Reachable x) : RaisesReachable r := by
  match x, h, hx with
  | .ok _, ⟨_, ht, _⟩, _ => exact raisesReachable_ok ht
  | .error e, h, hx => exact raisesReachable_err h (hx e rfl)

/-! ### The RLE encoder (R121, R122, R135) -/

theorem State.append_raises (s : State) (sp : Space) (v : Byte) : RaisesReachable (s.append sp v) := by
  rcases Nat.lt_or_ge (s.len sp).toNat s.bufCap.toNat with hroom | hfull
  · exact raisesReachable_ok (s.append_eq sp v hroom)
  · exact raisesReachable_err (s.append_full sp v hfull) (by decide)

theorem State.checkDims_raises (s : State) (w h : Word) : RaisesReachable (s.checkDims w h) := by
  unfold State.checkDims
  split
  · exact raisesReachable_err rfl (by decide)
  · split
    · exact raisesReachable_err rfl (by decide)
    · exact raisesReachable_ok rfl

theorem State.encodePass_raises {s : State} (scan : Bool) {dest : Space} (hs : s.Ready) (hm : s.Measured)
    (hdest : dest.written) : RaisesReachable (s.encodePass scan dest) := by
  rcases Nat.lt_or_ge s.bufCap.toNat (s.frameOf scan).length with hfull | hfits
  · exact raisesReachable_err (State.encodePass_full hs hm hdest hfull) (by decide)
  · obtain ⟨t, ht, -⟩ := State.encodePass_fits hs hm hdest hfits
    exact raisesReachable_ok ht

theorem State.rleEncBody_raises {s : State} (scan : Bool) (w h : Word) (hs : s.Ready) :
    RaisesReachable (State.rleEncBody scan w h s) :=
  (s.checkDims_raises w h).bind (State.checkDims_ends w h) fun _ ⟨ht, hm⟩ =>
    State.encodePass_raises scan (hs.keeps ht) hm (.inl rfl)

theorem State.rleEncABody_raises {s : State} (w h : Word) (hs : s.Ready) :
    RaisesReachable (State.rleEncABody w h s) := by
  refine (s.checkDims_raises w h).bind (State.checkDims_ends w h) fun t ⟨ht, hm⟩ => ?_
  have hst := hs.keeps ht
  refine (State.encodePass_raises true hst hm (.inl rfl)).bind (State.encodePass_ends true hst hm (.inl rfl))
    fun a ⟨ha, hdims⟩ => ?_
  have hsa := hst.keeps ha
  have hma := hm.keeps hst.src ha hdims
  refine (State.encodePass_raises false hsa hma (.inr rfl)).bind (State.encodePass_ends false hsa hma (.inr rfl))
    fun b _ => ?_
  split
  · exact raisesReachable_ok rfl
  · exact raisesReachable_ok rfl

/-! ### The differential unit (R223, R224) -/

theorem State.diffFwdFrom_raises (k i : Nat) {s : State} (hs : s.Ready) (hik : i + k ≤ s.inputLen) :
    RaisesReachable (State.diffFwdFrom k i s) := by
  induction k generalizing i s with
  | zero => exact raisesReachable_ok rfl
  | succ k ih =>
    have hin := hs.input
    refine (raisesReachable_ok (s.inputByte_eq i (by omega))).bind (State.inputByte_ends (by omega)) fun x _ => ?_
    refine (s.append_raises .out _).bind (State.append_ends _ (.inl rfl)) fun t ⟨_, ht⟩ => ?_
    have hkeeps : s.Keeps { t with prev := x } := ht.registers
    exact ih (i + 1) (hs.keeps hkeeps) (by rw [hkeeps.inputLen hs.src]; omega)

theorem State.diffFwdBody_raises {s : State} (hs : s.Ready) : RaisesReachable s.diffFwdBody := by
  have hclear : s.Keeps (s.clear .out) := State.clear_keeps (.inl rfl)
  have hlen := hclear.inputLen hs.src
  exact State.diffFwdFrom_raises _ 0 (hs.keeps hclear) (by omega)

theorem State.diffInvBody_raises {s : State} (hs : s.Ready) : RaisesReachable s.diffInvBody :=
  (State.diffInvBody_answers hs).raisesReachable Reference.reachable_ok

/-! ### The decoders and the Huffman encoder (R145, R187, R200) -/

theorem State.rleDecBody_raises {s : State} (hs : s.Ready) : RaisesReachable s.rleDecBody :=
  (State.rleDecBody_answers hs).raisesReachable (Reference.rleImage_reachable _ _)

theorem State.hufDecBody_raises {s : State} (hs : s.Ready) : RaisesReachable s.hufDecBody :=
  (State.hufDecBody_answers hs).raisesReachable (Reference.hufBytes_reachable s.bufCap.isLt s.tree _)

/-- The Huffman encoder completes on every input but the empty one. -/
theorem State.hufEncBody_completes {s : State} (hs : s.Ready) (hne : s.inputLen ≠ 0) :
    ∃ t, s.hufEncBody = .ok t := by
  have hlen : s.inputLen < 2 ^ 64 := (s.len s.src).isLt
  obtain ⟨bits, hbits⟩ := Reference.streamBits_completes s.tree.init_valid (bs := s.bytes s.src s.inputLen)
    (by rw [State.bytes_length]; omega)
  obtain ⟨t, ht, -⟩ := State.hufEncBody_writes hs hne hbits
  exact ⟨t, ht⟩

theorem State.hufEncBody_raises {s : State} (hs : s.Ready) : RaisesReachable s.hufEncBody := by
  by_cases hempty : s.inputLen = 0
  · exact raisesReachable_err (State.hufEncBody_empty hempty) (by decide)
  · obtain ⟨t, ht⟩ := State.hufEncBody_completes hs hempty
    exact raisesReachable_ok ht

/-! ### Whole commands (R229, R230, R241) -/

theorem State.compressRle_raises {s : State} (h : Word) (hs : s.Ready) : RaisesReachable (s.compressRle h) := by
  unfold State.compressRle
  split
  · exact State.rleEncABody_raises _ h hs
  · exact (State.rleEncBody_raises true _ h hs).then_ok (State.rleEncBody_ends true _ h hs)

theorem State.compressDiff_raises {s : State} (hs : s.Ready) : RaisesReachable s.compressDiff := by
  unfold State.compressDiff
  split
  · exact (State.diffFwdBody_raises hs).then_ok (State.diffFwdBody_ends hs)
  · exact raisesReachable_ok rfl

theorem State.compressCode_raises {s x : State} (h : Word) (hx : s.Stage x) : RaisesReachable (x.compressCode h) := by
  refine (State.compressRle_raises h hx.ready).bind (State.compressRle_ends h hx.ready) fun f hf => ?_
  have hmid := (hx.keeps hf).toMid
  refine (State.hufEncBody_raises hmid.ready).bind (State.hufEncBody_ends hmid.ready) fun p _ => ?_
  split
  · exact raisesReachable_err rfl (by decide)
  · exact raisesReachable_ok rfl

theorem compressBody_raises {s b : State} (hb : s.Stage b) : RaisesReachable (compressBody b) := by
  rw [compressBody_eq]
  split
  · exact raisesReachable_err rfl (by decide)
  · split
    · exact raisesReachable_err rfl (by decide)
    · exact (State.compressDiff_raises hb.ready).bind (State.compressDiff_ends hb) fun _ hx =>
        State.compressCode_raises _ hx

theorem State.decompressDiff_raises {s img : State} (h : s.Stage img) : RaisesReachable img.decompressDiff := by
  unfold State.decompressDiff
  split
  · exact State.diffInvBody_raises h.toMid.ready
  · exact raisesReachable_ok rfl

theorem decompressBody_raises {s b : State} (hb : s.Stage b) : RaisesReachable (decompressBody b) := by
  rw [decompressBody_eq]
  refine (State.hufDecBody_raises hb.ready).bind (State.hufDecBody_ends hb.ready) fun f hf => ?_
  have hmid := (hb.keeps hf).toMid
  refine (State.rleDecBody_raises hmid.ready).bind (State.rleDecBody_ends hmid.ready) fun img himg => ?_
  have himage := hmid.keeps himg
  exact (State.decompressDiff_raises himage).then_ok (State.decompressDiff_ends himage)

/-- What a raise or a success shows in `ERR` (R252). -/
theorem command_reports {s t : State} {body : State → Run State} (h : s.command body = .next t)
    (hends : ∀ b, s.Stage b → Ends (body b) s.Finished) (hraises : ∀ b, s.Stage b → RaisesReachable (body b)) :
    t.err ≠ 14#8 ∧ t.err ≠ 16#8 := by
  rcases Nat.lt_or_ge s.bufCap.toNat s.inLen.toNat with hlong | hfit
  · rw [s.command_overlong body hlong] at h
    cases h
    exact (show Err.alloc.reachable by decide).code
  · rw [s.command_body body hfit] at h
    have hbegin := State.begin_stage hfit
    rcases State.outcome_next h with hok | ⟨e, he, rfl⟩
    · have hfinished := hends _ hbegin
      rw [hok] at hfinished
      obtain ⟨u, r, rfl, -⟩ := hfinished
      exact ⟨(by decide : (0#8 : Byte) ≠ 14#8), (by decide : (0#8 : Byte) ≠ 16#8)⟩
    · exact (hraises _ hbegin e he).code

/-- A command of one stage. -/
theorem stage_command_reports {s t : State} {stage : State → Run State} {results : State → Results}
    (h : s.command (fun b => stage b >>= fun t => .ok (t.finish (results t))) = .next t)
    (hends : ∀ b, s.Stage b → Ends (stage b) b.Keeps) (hraises : ∀ b, s.Stage b → RaisesReachable (stage b)) :
    t.err ≠ 14#8 ∧ t.err ≠ 16#8 :=
  command_reports h (fun b hb => (hends b hb).bind fun _ ht => (hb.keeps ht).finish _)
    fun b hb => (hraises b hb).then_ok (hends b hb)

/-- Settles O40: the trees that the Huffman engines use are valid, and no other engine has such a fault. -/
theorem unreachableFaultsAreNotReported : Obligations.UnreachableFaultsAreNotReported := by
  intro i s t hi h
  cases i
  case compress => exact command_reports h (fun _ => compressBody_ends) fun _ => compressBody_raises
  case decompress => exact command_reports h (fun _ => decompressBody_ends) fun _ => decompressBody_raises
  case rleEncA =>
    have h : s.command (fun b => State.rleEncABody b.argW b.argH b >>= fun p =>
      .ok (p.1.finish { flags := some (resultFlags false p.2) })) = .next t := h
    refine command_reports h (fun b hb => ?_) fun b hb => ?_
    · exact (State.rleEncABody_ends _ _ hb.ready).bind fun p hp => (hb.keeps hp).finish _
    · exact (State.rleEncABody_raises _ _ hb.ready).then_ok (State.rleEncABody_ends _ _ hb.ready)
  case rleEncH =>
    exact stage_command_reports h (fun b hb => State.rleEncBody_ends true _ _ hb.ready)
      fun b hb => State.rleEncBody_raises true _ _ hb.ready
  case rleEncV =>
    exact stage_command_reports h (fun b hb => State.rleEncBody_ends false _ _ hb.ready)
      fun b hb => State.rleEncBody_raises false _ _ hb.ready
  case rleDec =>
    exact stage_command_reports h (fun b hb => State.rleDecBody_ends hb.ready)
      fun b hb => State.rleDecBody_raises hb.ready
  case hufEnc =>
    exact stage_command_reports h (fun b hb => State.hufEncBody_ends hb.ready)
      fun b hb => State.hufEncBody_raises hb.ready
  case hufDec =>
    exact stage_command_reports h (fun b hb => State.hufDecBody_ends hb.ready)
      fun b hb => State.hufDecBody_raises hb.ready
  case diffFwd =>
    exact stage_command_reports h (fun b hb => State.diffFwdBody_ends hb.ready)
      fun b hb => State.diffFwdBody_raises hb.ready
  case diffInv =>
    exact stage_command_reports h (fun b hb => State.diffInvBody_ends hb.ready)
      fun b hb => State.diffInvBody_raises hb.ready
  all_goals exact absurd hi Bool.false_ne_true

end Sys2Proof.Machine
end

section
/-! PROOF for O50: HUF_ENC completes on every input. -/

namespace Sys2Proof.Machine

/-- From the fresh tree every input of a command has a bit stream (R187). -/
theorem State.input_streamBits (s : State) : ∃ bits, Reference.streamBits s.tree.init s.input = some bits := by
  refine Reference.streamBits_completes s.tree.init_valid ?_
  rw [State.input_length, Nat.zero_add]
  exact s.inLen.isLt

/-- Settles O50: the input has a bit stream, and HUF_ENC writes it or the input itself. -/
theorem hufEncoderNeverFaultsOnInput : Obligations.HufEncoderNeverFaultsOnInput := by
  intro s hne hfit
  obtain ⟨bits, hbits⟩ := s.input_streamBits
  obtain ⟨t, ht, hok, -⟩ := hufEncoderWritesTheStream s bits hne hfit hbits
  exact ⟨t, ht, hok⟩

end Sys2Proof.Machine
end

section
/-! SUPPORT for O54: the reference reads back, symbol by symbol, the bit stream that it has made. -/

namespace Sys2Proof.Reference

open Machine

/-! ### Codes and streams (R186, R187) -/

/-- The bit stream is decided by the slots in use. -/
theorem streamBits_similar {t u : Tree} (h : t.Similar u) (bs : List Byte) : streamBits u bs = streamBits t bs := by
  induction bs generalizing t u with
  | nil => rfl
  | cons b bs ih =>
    have hrel := symbolCode_similar h b
    rw [streamBits, streamBits]
    generalize symbolCode t b = x at hrel ⊢
    generalize symbolCode u b = y at hrel ⊢
    obtain ⟨hcode, hsimilar⟩ | _ := hrel
    · simp only [Option.bind_eq_bind, Option.bind_some, hcode, ih hsimilar]
    · rfl

/-- The stream of a sequence begins with the bits of its first symbol. -/
theorem streamBits_cons {t u : Tree} {b : Byte} {p : List Bool} (h : symbolCode t b = some (p, u)) (bs : List Byte) :
    streamBits t (b :: bs) = (streamBits u bs).map (p ++ ·) := by
  rw [streamBits, h]
  exact Option.map_eq_bind.symm

/-- The stream of the first symbol of an input begins with a literal. -/
theorem streamBits_init_pos {t : Tree} {bs : List Byte} {bits : List Bool} (hne : bs ≠ [])
    (hbits : streamBits t.init bs = some bits) : 8 ≤ bits.length := by
  obtain ⟨b, bs, rfl⟩ := List.exists_cons_of_ne_nil hne
  obtain ⟨u, hu⟩ := symbolCode_init t b
  rw [streamBits_cons hu] at hbits
  obtain ⟨rest, -, rfl⟩ := Option.map_eq_some_iff.1 hbits
  rw [List.length_append]
  exact Nat.le_add_right 8 _

/-! ### Turns of a decoder that no stop rule ends (R199, R200) -/

section Turns

variable {cap pad : Nat} {t u : Tree} {l : Link} {bits rest : List Bool} {out : List Byte} {b : Byte}

/-- A code leads down to its node (R203). -/
theorem hufSymbols_descends {d : Link → Nat} (hf : t.Formed d) (p : List Bool) (hl : t.live l)
    (hend : t.live (t.descend l p)) (hpad : pad ≤ rest.length) (fuel : Nat) :
    hufSymbols cap pad (fuel + p.length) t l (p ++ rest) out =
      hufSymbols cap pad fuel t (t.descend l p) rest out := by
  induction p generalizing l with
  | nil => rfl
  | cons b p ih =>
    have hnode : t.isInternal l = true := by
      refine Bool.of_not_eq_false fun hleaf => ?_
      rw [hf.descend_leaf hl hleaf] at hend
      exact hf.live_ne_nil hend rfl
    have hchild := hf.child_internal hl hnode b
    rw [List.length_cons, ← Nat.add_assoc]
    conv_lhs => unfold hufSymbols
    rw [if_neg (by rw [List.length_append, List.length_cons]; omega), if_pos hnode]
    exact (if_neg (hf.live_ne_nil hchild)).trans (ih hchild hend)

/-- At a symbol leaf the symbol is put out (R205). -/
theorem hufSymbols_emits (hleaf : t.isInternal l = false) (hnyt : l ≠ t.nyt) (hroom : out.length < cap)
    (hupdate : t.update l = some u) (hpad : pad ≤ bits.length) (fuel : Nat) :
    hufSymbols cap pad (fuel + 1) t l bits out =
      hufSymbols cap pad fuel u u.root bits (out ++ [(t.node l).value]) := by
  conv_lhs => unfold hufSymbols
  rw [if_neg (by omega), if_neg (Bool.eq_false_iff.1 hleaf), if_neg hnyt, if_neg (Nat.not_le.2 hroom),
    hupdate]

/-- At the NYT leaf the literal of a new symbol introduces it (R204). -/
theorem hufSymbols_introduces {r : Tree × Link} (hleaf : t.isInternal t.nyt = false) (hnew : t.symOf b = nilLink)
    (hroom : out.length < cap) (hsplit : t.split b = some r) (hupdate : r.1.update r.2 = some u)
    (hpad : pad ≤ rest.length) (fuel : Nat) :
    hufSymbols cap pad (fuel + 1) t t.nyt (literalBits b ++ rest) out =
      hufSymbols cap pad fuel u u.root rest (out ++ [b]) := by
  have hlen : (literalBits b).length = 8 := rfl
  have htake : (literalBits b ++ rest).take 8 = literalBits b := List.take_left' hlen
  have hdrop : (literalBits b ++ rest).drop 8 = rest := List.drop_left' hlen
  have hall : (literalBits b ++ rest).length = 8 + rest.length := List.length_append
  conv_lhs => unfold hufSymbols
  rw [if_neg (by omega), if_neg (Bool.eq_false_iff.1 hleaf), if_pos rfl]
  dsimp only
  rw [htake, hdrop, literalValue_literalBits, if_neg (by omega), if_neg (not_not.2 hnew),
    if_neg (Nat.not_le.2 hroom), hsplit, Option.bind_some, hupdate]

/-- What a symbol costs reads back as the symbol, in at most two turns a bit. -/
theorem hufSymbols_symbolCode (h : t.Valid out.length) (hroom : out.length < cap) (hpad : pad ≤ rest.length)
    (hcode : symbolCode t b = some (bits, u)) :
    ∃ k, k ≤ 2 * bits.length ∧ ∀ fuel,
      hufSymbols cap pad (fuel + k) t t.root (bits ++ rest) out =
        hufSymbols cap pad fuel u u.root rest (out ++ [b]) := by
  obtain ⟨d, hf⟩ := h.formed
  unfold symbolCode at hcode
  split at hcode
  · obtain ⟨p, hp, hcode⟩ := Option.bind_eq_some_iff.1 hcode
    obtain ⟨r, hr, hcode⟩ := Option.bind_eq_some_iff.1 hcode
    obtain ⟨w, hw, hcode⟩ := Option.bind_eq_some_iff.1 hcode
    cases hcode
    have hnyt := hf.path_descends hf.nyt_live hp
    have hlen : (literalBits b).length = 8 := rfl
    refine ⟨1 + p.length, by rw [List.length_append]; omega, fun fuel => ?_⟩
    rw [← Nat.add_assoc, List.append_assoc,
      hufSymbols_descends hf p hf.root_live (hnyt.symm ▸ hf.nyt_live) (by rw [List.length_append]; omega), hnyt]
    exact hufSymbols_introduces ((t.isInternal_eq_false_iff _).2 h.nyt_leaf.1) ‹_› hroom hr hw hpad fuel
  · obtain ⟨p, hp, hcode⟩ := Option.bind_eq_some_iff.1 hcode
    obtain ⟨w, hw, hcode⟩ := Option.bind_eq_some_iff.1 hcode
    cases hcode
    obtain ⟨hlive, hnyt, hleaf, hvalue⟩ := h.sym_leaf b ‹_›
    have hat := hf.path_descends hlive hp
    have hpos : 1 ≤ bits.length := by
      refine List.length_pos_of_ne_nil ?_
      rintro rfl
      exact hf.symbolLeaf_ne_root hleaf hnyt hat.symm
    refine ⟨1 + bits.length, by omega, fun fuel => ?_⟩
    rw [← Nat.add_assoc, hufSymbols_descends hf bits hf.root_live (hat.symm ▸ hlive) hpad, hat,
      hufSymbols_emits hleaf hnyt hroom hw hpad, hvalue]

/-! ### The end of the stream (R198, R200) -/

/-- After its first symbol the root has children. -/
theorem root_internal {n : Nat} (h : t.Valid n) (hn : 0 < n) : t.isInternal t.root = true := by
  obtain ⟨d, hf⟩ := h.formed
  have hnyt : t.root ≠ t.nyt := fun e =>
    hn.ne' (h.root_weight.symm.trans ((h.zero_weight t.root hf.root_live).2 e))
  exact Bool.of_not_eq_false fun hleaf => hf.symbolLeaf_ne_root hleaf hnyt rfl

/-- With the pad bits left the decoder ends at once, or with the first of them by the stop rule. -/
theorem hufSymbols_pad (h : t.Valid out.length) (hpos : 0 < out.length) {fuel : Nat} (hfuel : 2 * pad < fuel) :
    hufSymbols cap pad fuel t t.root (List.replicate pad false) out = .ok out := by
  obtain ⟨d, hf⟩ := h.formed
  have hnode := root_internal h hpos
  obtain ⟨fuel, rfl⟩ := Nat.exists_eq_add_one.2 (Nat.zero_lt_of_lt hfuel)
  unfold hufSymbols
  rw [if_neg (by simp), if_pos hnode]
  cases pad with
  | zero => rfl
  | succ k =>
    obtain ⟨fuel, rfl⟩ : ∃ n, fuel = n + 1 := Nat.exists_eq_add_one.2 (by omega)
    refine (if_neg (hf.live_ne_nil (hf.child_internal hf.root_live hnode false))).trans ?_
    unfold hufSymbols
    rw [if_pos (by rw [List.length_replicate])]

/-- A bit stream with its pad bits reads back as the bytes that it codes (R193, R201). -/
theorem hufSymbols_streamBits {bs : List Byte} (hcap : cap < 2 ^ 64) (h : t.Valid out.length)
    (hpos : 0 < out.length + bs.length) (hroom : out.length + bs.length ≤ cap) (hbits : streamBits t bs = some bits)
    {fuel : Nat} (hfuel : 2 * (bits.length + pad) < fuel) :
    hufSymbols cap pad fuel t t.root (bits ++ List.replicate pad false) out = .ok (out ++ bs) := by
  induction bs generalizing t bits out fuel with
  | nil =>
    cases hbits
    rw [List.append_nil]
    exact hufSymbols_pad h hpos (by simpa using hfuel)
  | cons b bs ih =>
    rw [List.length_cons] at hroom
    obtain ⟨p, u, hcode, hu⟩ := symbolCode_completes h (by omega) b
    rw [streamBits_cons hcode] at hbits
    obtain ⟨rest, hrest, rfl⟩ := Option.map_eq_some_iff.1 hbits
    rw [List.length_append] at hfuel
    have hleft : pad ≤ (rest ++ List.replicate pad false).length := by simp
    have hlt : out.length < cap := by omega
    obtain ⟨k, hk, hturns⟩ := hufSymbols_symbolCode h hlt hleft hcode
    obtain ⟨fuel, rfl⟩ := Nat.exists_eq_add_of_le' (show k ≤ fuel by omega)
    have hgrown : (out ++ [b]).length = out.length + 1 := List.length_append
    have hnext := ih (out := out ++ [b]) (by rwa [hgrown]) (by omega) (by omega) hrest (fuel := fuel) (by omega)
    rw [List.append_assoc, List.singleton_append] at hnext
    rw [List.append_assoc, hturns, hnext]

end Turns

/-! ### The frame (R188 to R190, R195, R198) -/

/-- The number of unused bits in the last byte of a payload of `n` bits (R189). -/
abbrev padBits (n : Nat) : Nat := (8 - n % 8) % 8

/-- The bits of packed bytes are the bits packed, and zeros up to the end of the last byte (R65, R99). -/
theorem packBits_classifiers (bits : List Bool) :
    (packBits bits.length bits).flatMap classifiers = bits ++ List.replicate (padBits bits.length) false := by
  refine List.ext_getElem? fun p => ?_
  rw [payloadBits_getElem?, packBits_getElem? _ _ (by omega), padBits]
  have hmod : p % 8 < 8 := Nat.mod_lt _ (by decide)
  rcases Nat.lt_or_ge p bits.length with hp | hp
  · rw [if_pos (by omega), Option.map_some, packedByte_getLsbD _ _ hmod, Nat.div_add_mod,
      List.getElem?_append_left hp, List.getD_eq_getElem?_getD, List.getElem?_eq_getElem hp, Option.getD_some]
  · rw [List.getElem?_append_right hp, List.getElem?_replicate]
    by_cases hbyte : 8 * (p / 8) < bits.length
    · rw [if_pos hbyte, if_pos (by omega), Option.map_some, packedByte_getLsbD _ _ hmod, Nat.div_add_mod,
        List.getD_eq_default _ _ hp]
    · rw [if_neg hbyte, if_neg (by omega), Option.map_none]

/-- The fields of the outer byte of a coded payload (R95, R190). -/
theorem codedOuter_fields {pad : Nat} (h : pad < 8) :
    (BitVec.ofNat 8 (8 + pad)).getLsbD 3 = true ∧ ((BitVec.ofNat 8 (8 + pad)).extractLsb' 0 3).toNat = pad := by
  revert pad
  decide

/-- The frame of an input holds the input (R193, R201). -/
theorem hufBytes_hufFrame {cap : Nat} {t : Tree} {bs : List Byte} {bits : List Bool} (hcap : cap < 2 ^ 64)
    (hne : bs ≠ []) (hfit : bs.length ≤ cap) (hbits : streamBits t.init bs = some bits) :
    hufBytes cap t.init ((hufFrame bs bits).1 :: (hufFrame bs bits).2) = .ok bs := by
  unfold hufFrame
  split
  · rw [hufBytes]
    exact if_pos BitVec.getLsbD_zero
  · obtain ⟨hcoded, hpad⟩ := codedOuter_fields (pad := padBits bits.length) (Nat.mod_lt _ (by decide))
    have hlen := congrArg List.length (packBits_classifiers bits)
    have hpos := streamBits_init_pos hne hbits
    rw [payloadBits_length, List.length_append, List.length_replicate] at hlen
    have hpayload : packBits bits.length bits ≠ [] := List.ne_nil_of_length_pos (by omega)
    rw [hufBytes, hcoded, if_neg nofun, if_neg hpayload, hpad, packBits_classifiers]
    have hread := hufSymbols_streamBits (out := []) (pad := padBits bits.length) hcap t.init_valid
      (by simpa using List.length_pos_of_ne_nil hne) (by simpa using hfit) hbits
      (fuel := 16 * (packBits bits.length bits).length + 1) (by omega)
    exact hread

end Sys2Proof.Reference
end

section
/-! PROOF for O54: HUF_DEC behind HUF_ENC. -/

namespace Sys2Proof.Machine

/-- R181, R253: an input that HUF_ENC succeeds on is one byte or more, and fits in IN. -/
theorem exec_hufEnc_input {s t : State} (ht : exec .hufEnc s = .next t) (hok : t.succeeded) :
    1 ≤ s.inLen.toNat ∧ s.inLen.toNat ≤ s.bufCap.toNat := by
  have hraise {e : Err} (h : exec .hufEnc s = .next (s.raise e)) : False := by
    cases ht.symm.trans h
    exact s.raise_not_succeeded e hok
  have hfit : s.inLen.toNat ≤ s.bufCap.toNat :=
    Nat.not_lt.1 fun hlong => hraise (e := .alloc) (if_pos hlong)
  refine ⟨Nat.pos_of_ne_zero fun hzero => hraise (e := .hufEncEmpty) ?_, hfit⟩
  rw [exec_hufEnc hfit, State.hufEncBody_empty (s := s.begin) hzero]
  rfl

/-- Settles O54: the frame of a success reads back as the input, and HUF_DEC reads frames as the reference does. The
trees of the two commands start alike. -/
theorem huffmanRoundTrip : Obligations.HuffmanRoundTrip := by
  intro s t ht hok hroom
  obtain ⟨hne, hfit⟩ := exec_hufEnc_input ht hok
  obtain ⟨bits, hbits⟩ := s.input_streamBits
  obtain ⟨t', ht', -, hframe, -⟩ := hufEncoderWritesTheStream s bits hne hfit hbits
  cases ht.symm.trans ht'
  obtain ⟨-, -, -, -, -, -, hcap, -⟩ := commandsKeepTheHostsRegisters .hufEnc s t rfl ht
  have hlen : (t.resOuter :: t.output).length = t.outLen.toNat + 1 := by rw [List.length_cons, State.output_length]
  have hcount : (t.feed (t.resOuter :: t.output)).inLen.toNat = t.outLen.toNat + 1 := by
    rw [State.feed_inLen, hlen, BitVec.toNat_ofNat, Nat.mod_eq_of_lt (hroom.trans_lt s.bufCap.isLt)]
  have hinput := t.feed_input (bs := t.resOuter :: t.output) (hlen.trans_lt (hroom.trans_lt s.bufCap.isLt))
  obtain ⟨hdecodes, -⟩ := hufDecoderReadsTheFrame (t.feed (t.resOuter :: t.output))
    (by rwa [hcount, State.feed_bufCap, hcap])
  obtain ⟨u, hu, hok', -, hout⟩ := hdecodes s.input (by
    obtain ⟨houter, hout⟩ := Prod.ext_iff.1 hframe
    rw [hinput, State.feed_bufCap, hcap, State.feed_tree, show t.resOuter = _ from houter,
      show t.output = _ from hout]
    refine Reference.hufBytes_hufFrame s.bufCap.isLt ?_ ?_ ?_
    · exact List.ne_nil_of_length_pos (by rwa [State.input_length])
    · rwa [State.input_length]
    · rw [Reference.streamBits_similar (s.tree.init_similar t.tree), hbits])
  exact ⟨u, hu, hok', hout⟩

end Sys2Proof.Machine
end

section
/-! SUPPORT for O55: what the stages of COMPRESS in front of the Huffman encoder hand on. -/

namespace Sys2Proof

theorem Reference.diffFrom_length (p : Byte) (xs : List Byte) : (diffFrom p xs).length = xs.length := by
  induction xs generalizing p with
  | nil => rfl
  | cons x xs ih => exact congrArg (· + 1) (ih x)

namespace Machine

/-- OUT holds `out`, each byte of it stored. -/
structure State.Holds (s : State) (out : List Byte) : Prop where
  whole : s.whole .out
  output : s.output = out

/-- The next stage reads what OUT holds. -/
theorem State.Holds.toMid_input {s : State} {out : List Byte} (h : s.Holds out) :
    s.toMid.bytes s.toMid.src s.toMid.inputLen = out :=
  h.whole.toMid_input.trans h.output

/-! ### The forward differential (R223) -/

/-- A byte put out by the differential unit, which remembers the input byte `x` that it has read. -/
theorem State.append_remembers {s : State} {out : List Byte} (v x : Byte) (hs : s.Ready) (h : s.Holds out)
    (hroom : s.outLen.toNat < s.bufCap.toNat) :
    ∃ t, s.append .out v = .ok t ∧ s.Keeps { t with prev := x } ∧ t.outLen.toNat = s.outLen.toNat + 1 ∧
      State.Holds { t with prev := x } (out ++ [v]) ∧ State.frameFrom { t with prev := x } = s.frameFrom := by
  obtain ⟨t, ht⟩ := State.append_room (sp := .out) v hroom
  obtain ⟨-, -, hcount, -⟩ := State.append_ok ht
  obtain ⟨hsrc, hpeek⟩ := State.append_out_peek hs.src ht
  have hkeeps : s.Keeps { t with prev := x } := (State.append_keeps (.inl rfl) ht).registers
  have hsame : State.peek { t with prev := x } t.src = s.peek s.src := by
    rw [← hpeek, hsrc]
    cases s.src <;> rfl
  refine ⟨t, ht, hkeeps, hcount, ⟨s.append_whole .out v t ht h.whole, ?_⟩, funext fun a => ?_⟩
  · exact (State.append_out_output ht).trans (congrArg (· ++ [v]) h.output)
  · rw [State.frameFrom, State.frameFrom, hkeeps.inputLen hs.src, hsame]

/-- From byte `i` on, `DIFF_FWD` puts out each byte less the one before, 0 before the first. -/
theorem State.diffFwdFrom_holds (k i : Nat) {s : State} {out : List Byte} (hs : s.Ready) (h : s.Holds out)
    (hik : i + k = s.inputLen) (hlen : s.outLen.toNat = i) :
    ∃ t, State.diffFwdFrom k i s = .ok t ∧
      t.Holds (out ++ Reference.diffFrom (if i = 0 then 0#8 else s.prev) (s.frameFrom i)) := by
  induction k generalizing i s out with
  | zero =>
    refine ⟨s, rfl, ?_⟩
    rw [State.frameFrom, ← hik, Nat.add_zero, Nat.sub_self]
    exact (List.append_nil out).symm ▸ h
  | succ k ih =>
    have hin := hs.input
    have hmore : i < s.inputLen := by omega
    have hdiff (x : Byte) : (if i = 0 then x else x - s.prev) = x - if i = 0 then 0#8 else s.prev := by
      split
      · exact (BitVec.sub_zero x).symm
      · rfl
    rw [State.frameFrom_of_lt hmore, Reference.diffFrom, State.diffFwdFrom, s.inputByte_eq i (by omega), ← hdiff]
    generalize s.peek s.src i = x
    obtain ⟨t, ht, hkeeps, hcount, hholds, hleft⟩ :=
      State.append_remembers (if i = 0 then x else x - s.prev) x hs h (by omega)
    obtain ⟨u, hu, hout⟩ := ih (i + 1) (hs.keeps hkeeps) hholds (by rw [hkeeps.inputLen hs.src]; omega)
      (hcount.trans (congrArg (· + 1) hlen))
    rw [if_neg (Nat.succ_ne_zero i), hleft, List.append_assoc] at hout
    refine ⟨u, ?_, hout⟩
    change State.append s .out _ >>= _ = _
    rw [ht]
    exact hu

theorem State.diffFwdBody_holds {s : State} (hs : s.Ready) :
    ∃ t, s.diffFwdBody = .ok t ∧ t.Holds (Reference.diffFrom 0#8 (s.bytes s.src s.inputLen)) := by
  have hclear : s.Keeps (s.clear .out) := State.clear_keeps (.inl rfl)
  have hlen := hclear.inputLen hs.src
  have hempty : (s.clear .out).Holds [] := ⟨fun a ha => absurd ha (Nat.not_lt_zero a), rfl⟩
  have hinput : (s.clear .out).frameFrom 0 = s.bytes s.src s.inputLen := by
    rw [State.frameFrom, hlen, hclear.src, State.clear_out_peek hs.src, Nat.sub_zero, ← List.range_eq_range']
    rfl
  obtain ⟨t, ht, hout⟩ :=
    State.diffFwdFrom_holds s.inputLen 0 (hs.keeps hclear) hempty (by rw [hlen, Nat.zero_add]) rfl
  rw [hinput] at hout
  exact ⟨t, ht, hout⟩

/-- The bytes of the image that the RLE stage of COMPRESS codes (R229). -/
abbrev codedPixels (model : Bool) (bytes : List Byte) : List Byte :=
  if model then Reference.diffFrom 0#8 bytes else bytes

theorem codedPixels_length (model : Bool) (bytes : List Byte) : (codedPixels model bytes).length = bytes.length := by
  unfold codedPixels
  split
  · exact Reference.diffFrom_length _ _
  · rfl

/-- The differential stage hands on the pixels to code, and the host's registers as they were. -/
theorem State.compressDiff_hands {s b : State} (hb : s.Stage b) :
    ∃ x, b.compressDiff = .ok x ∧ s.Stage x ∧ b.HostKept x ∧
      x.bytes x.src x.inputLen = codedPixels b.argModel (b.bytes b.src b.inputLen) := by
  have hpixels : ∃ x, b.compressDiff = .ok x ∧
      x.bytes x.src x.inputLen = codedPixels b.argModel (b.bytes b.src b.inputLen) := by
    unfold State.compressDiff codedPixels
    split
    · obtain ⟨d, hd, hholds⟩ := State.diffFwdBody_holds hb.ready
      rw [hd]
      exact ⟨d.toMid, rfl, hholds.toMid_input⟩
    · exact ⟨b, rfl, rfl⟩
  obtain ⟨x, hx, hbytes⟩ := hpixels
  have hstage := State.compressDiff_ends hb
  rw [hx] at hstage
  exact ⟨x, hx, hstage, b.compressDiff_host x hx, hbytes⟩

/-! ### The RLE stage (R135, R229) -/

/-- Of the frames in the two scan directions the one that the RLE stage of COMPRESS keeps, and its direction. -/
def keptFrame (adaptive : Bool) (fh fv : List Byte) : List Byte × Bool :=
  if adaptive ∧ fv.length ≤ fh.length then (fv, false) else (fh, true)

theorem State.rleEncABody_eq {s : State} {w h : Word} (hp : s.Pictures w h) :
    State.rleEncABody w h s =
      (s.sized w h).encodePass true .out >>= fun a => a.encodePass false .outb >>= fun b =>
        if b.outbLen.toNat ≤ b.outLen.toNat then .ok ({ b with outMem := b.outbMem, outLen := b.outbLen }, false)
        else .ok (b, true) := by
  rw [State.rleEncABody, State.checkDims_fits hp.width hp.height hp.area]
  rfl

/-- The second pass of the adaptive encoder leaves the frame of the first one stored in OUT. -/
theorem State.Passed.out_stored {a b : State} {scan : Bool} (h : a.Passed scan .outb b) (ha : a.whole .out) :
    b.whole .out := by
  obtain ⟨hmem, hlen⟩ := h.appended.elsewhere .out nofun
  obtain ⟨hmem', hlen'⟩ := a.startPass_elsewhere scan (dest := .outb) (sp := .out) nofun
  intro p hp
  rw [hlen, hlen'] at hp
  rw [hmem, hmem']
  exact ha p hp

/-- After both passes the first frame is stored in OUT. -/
theorem State.passes_out_stored {s a b : State} (hs : s.Ready) (hm : s.Measured)
    (hfitH : (s.frameOf true).length ≤ s.bufCap.toNat) (hfitV : (s.frameOf false).length ≤ s.bufCap.toNat)
    (ha : s.encodePass true .out = .ok a) (hb : a.encodePass false .outb = .ok b) : b.whole .out := by
  obtain ⟨a', ha', hpassed⟩ := State.encodePass_fits hs hm (.inl rfl) hfitH (dest := .out)
  cases ha.symm.trans ha'
  obtain ⟨hready, hmeasured, hcap, hframe⟩ := hpassed.next hs hm (.inl rfl)
  rw [← hframe false, ← hcap] at hfitV
  obtain ⟨b', hb', hpassed'⟩ := State.encodePass_fits hready hmeasured (.inr rfl) hfitV (dest := .outb)
  cases hb.symm.trans hb'
  exact hpassed'.out_stored hpassed.whole

/-- The adaptive encoder leaves the shorter frame stored in OUT, the vertical one on a tie. -/
theorem State.rleEncABody_holds {s : State} {w h : Word} (hp : s.Pictures w h)
    (hfitH : ((s.sized w h).frameOf true).length ≤ s.bufCap.toNat)
    (hfitV : ((s.sized w h).frameOf false).length ≤ s.bufCap.toNat) :
    ∃ f, State.rleEncABody w h s = .ok f ∧
      f.1.Holds (keptFrame true ((s.sized w h).frameOf true) ((s.sized w h).frameOf false)).1 ∧
      f.2 = (keptFrame true ((s.sized w h).frameOf true) ((s.sized w h).frameOf false)).2 := by
  obtain ⟨hready, hmeasured⟩ := hp.sized_ready
  obtain ⟨a, b, ha, hb, hlenH, houtH, hlenV, houtV, hwholeV⟩ := State.passes_fit hready hmeasured hfitH hfitV
  have hwholeH := State.passes_out_stored hready hmeasured hfitH hfitV ha hb
  have hrun : State.rleEncABody w h s = if b.outbLen.toNat ≤ b.outLen.toNat then
      .ok ({ b with outMem := b.outbMem, outLen := b.outbLen }, false) else .ok (b, true) := by
    rw [State.rleEncABody_eq hp, ha]
    change a.encodePass false .outb >>= _ = _
    rw [hb]
    rfl
  rw [hrun, keptFrame, hlenH, hlenV]
  by_cases hshorter : ((s.sized w h).frameOf false).length ≤ ((s.sized w h).frameOf true).length
  · rw [if_pos hshorter, if_pos ⟨rfl, hshorter⟩]
    exact ⟨_, rfl, ⟨hwholeV, hwholeV.moved.trans houtV⟩, rfl⟩
  · rw [if_neg hshorter, if_neg fun e => hshorter e.2]
    exact ⟨_, rfl, ⟨hwholeH, houtH⟩, rfl⟩

/-- The RLE stage leaves the kept frame stored in OUT. -/
theorem State.compressRle_holds {x : State} {h : Word} (hp : x.Pictures x.argW h)
    (hfitH : ((x.sized x.argW h).frameOf true).length ≤ x.bufCap.toNat)
    (hfitV : x.argAdaptive = true → ((x.sized x.argW h).frameOf false).length ≤ x.bufCap.toNat) :
    ∃ f, x.compressRle h = .ok f ∧
      f.1.Holds (keptFrame x.argAdaptive ((x.sized x.argW h).frameOf true) ((x.sized x.argW h).frameOf false)).1 ∧
      f.2 = (keptFrame x.argAdaptive ((x.sized x.argW h).frameOf true) ((x.sized x.argW h).frameOf false)).2 := by
  unfold State.compressRle
  cases hadaptive : x.argAdaptive with
  | true => exact State.rleEncABody_holds hp hfitH (hfitV hadaptive)
  | false =>
    obtain ⟨hready, hmeasured⟩ := hp.sized_ready
    obtain ⟨t, ht, hpassed⟩ := State.encodePass_fits hready hmeasured (.inl rfl) hfitH (dest := .out)
    rw [State.rleEncBody_eq hp, ht, keptFrame, if_neg fun e : _ ∧ _ => Bool.false_ne_true e.1]
    exact ⟨_, rfl, ⟨hpassed.whole, hpassed.stored⟩, rfl⟩

/-- A pass of the adaptive encoder whose frame does not fit ends it. -/
theorem State.rleEncABody_full {s : State} {w h : Word} (hp : s.Pictures w h)
    (hfull : s.bufCap.toNat < ((s.sized w h).frameOf true).length ∨
      s.bufCap.toNat < ((s.sized w h).frameOf false).length) :
    State.rleEncABody w h s = .error (.err .alloc) := by
  obtain ⟨hready, hmeasured⟩ := hp.sized_ready
  have hpasses := State.passes_full hready hmeasured pure hfull
  simp only [bind_pure] at hpasses
  rw [State.rleEncABody_eq hp, ← bind_assoc, hpasses]
  rfl

/-- A frame that the RLE stage has to write and that does not fit ends the stage. -/
theorem State.compressRle_full {x : State} {h : Word} (hp : x.Pictures x.argW h)
    (hfull : x.bufCap.toNat < ((x.sized x.argW h).frameOf true).length ∨
      x.argAdaptive = true ∧ x.bufCap.toNat < ((x.sized x.argW h).frameOf false).length) :
    x.compressRle h = .error (.err .alloc) := by
  unfold State.compressRle
  cases hadaptive : x.argAdaptive with
  | true => exact State.rleEncABody_full hp (hfull.imp_right And.right)
  | false =>
    obtain ⟨hready, hmeasured⟩ := hp.sized_ready
    have hfirst := hfull.resolve_right fun e => Bool.false_ne_true (hadaptive.symm.trans e.1)
    rw [if_neg Bool.false_ne_true, State.rleEncBody_eq hp, State.encodePass_full hready hmeasured (.inl rfl) hfirst]
    rfl

end Machine

end Sys2Proof
end

section
/-! PROOF for O55: COMPRESS is the differential, the RLE encoder and the Huffman encoder in turn, and the outer byte. -/

namespace Sys2Proof.Machine

/-! ### The coding stages (R188 to R190, R229) -/

/-- The payload with the outer byte in front (R229). -/
abbrev State.withOuter (p : State) : State :=
  { p with outMem := Memory.ofBytes 0 (p.resOuter :: p.output), outLen := p.outLen + 1#64 }

theorem State.withOuter_output {p : State} (h : p.outLen.toNat + 1 < 2 ^ 64) :
    p.withOuter.outLen.toNat = 1 + p.output.length ∧ p.withOuter.output = p.resOuter :: p.output := by
  have hlen : (p.outLen + 1#64).toNat = (p.resOuter :: p.output).length := by
    rw [List.length_cons, State.output_length]
    bv_omega
  refine ⟨by rw [Nat.add_comm]; exact hlen, List.ext_getElem? fun i => ?_⟩
  have hread := Memory.read_ofBytes 0 (p.resOuter :: p.output) i
  rw [Nat.zero_add] at hread
  rw [State.output, State.bytes_getElem?, hlen]
  split
  · rw [State.peek]
    change some ((Memory.read (Memory.ofBytes 0 (p.resOuter :: p.output)) i).getD _) = _
    rw [hread, List.getElem?_eq_getElem ‹_›, Option.getD_some]
  · exact (List.getElem?_eq_none (Nat.not_lt.1 ‹_›)).symm

/-- From a frame in OUT the Huffman stage makes its payload, to which the outer byte is added if there is room. -/
theorem State.compressCode_eq {s x : State} {h : Word} {f : State × Bool} {frame : List Byte} {bits : List Bool}
    (hx : s.Stage x) (hf : x.compressRle h = .ok f) (hholds : f.1.Holds frame) (hne : frame ≠ [])
    (hbits : Reference.streamBits s.tree.init frame = some bits) :
    ∃ p : State, p.bufCap = s.bufCap ∧ (p.resOuter, p.output) = Reference.hufFrame frame bits ∧
      x.compressCode h = if p.bufCap.toNat < 1 + p.outLen.toNat then .error (.err .alloc)
        else .ok (p.withOuter.finish { outer := some p.resOuter, flags := some (resultFlags false f.2) }) := by
  have hkeeps := State.compressRle_ends h hx.ready
  rw [hf] at hkeeps
  have hmid := (hx.keeps hkeeps).toMid
  have hinput := hholds.toMid_input
  have hlength := congrArg List.length hinput
  rw [State.bytes_length] at hlength
  have hpos : f.1.toMid.inputLen ≠ 0 := fun e => hne (List.eq_nil_of_length_eq_zero (hlength.symm.trans e))
  obtain ⟨p, hp, hreport⟩ := State.hufEncBody_writes (bits := bits) hmid.ready hpos (by
    rw [hinput, Reference.streamBits_similar (s.tree.init_similar f.1.toMid.tree), hbits])
  rw [hinput] at hreport
  refine ⟨p, (hmid.keeps ((State.hufEncBody_ends hmid.ready).keeps hp)).bufCap, hreport, ?_⟩
  rw [State.compressCode, hf]
  change f.1.toMid.hufEncBody >>= _ = _
  rw [hp]
  rfl

/-! ### The frames of the RLE stage (R229) -/

/-- The RLE frame of the image that COMPRESS codes, in a scan direction. -/
def State.compressFrame (s : State) (scan : Bool) : List Byte :=
  Reference.rleFrame scan s.argModel s.argW.toNat (s.inLen.toNat / s.argW.toNat) (codedPixels s.argModel s.input)

theorem State.stageFrame_eq (s : State) :
    s.stageFrame = keptFrame s.argAdaptive (s.compressFrame true) (s.compressFrame false) := rfl

theorem State.stageFrame_ne_nil (s : State) : s.stageFrame.1 ≠ [] := by
  rw [State.stageFrame_eq, keptFrame]
  split <;> exact List.cons_ne_nil _ _

theorem compressBody_stages {s : State} (hw : s.argW ≠ 0#64) (hlen : s.inLen ≠ 0#64)
    (h : s.inLen.toNat % s.argW.toNat = 0) :
    compressBody s = s.compressDiff >>= State.compressCode (BitVec.ofNat 64 (s.inLen.toNat / s.argW.toNat)) := by
  rw [compressBody_eq, if_neg (not_or.2 ⟨hw, hlen⟩), if_neg (not_not.2 h)]

/-- The coding stages of COMPRESS start from an image of the width in the arguments, and of the pixels to code. -/
structure State.Imaged (s x : State) : Prop where
  stage : s.Stage x
  adaptive : x.argAdaptive = s.argAdaptive
  pictures : x.Pictures x.argW (BitVec.ofNat 64 (s.inLen.toNat / s.argW.toNat))
  frame : ∀ scan, (x.sized x.argW (BitVec.ofNat 64 (s.inLen.toNat / s.argW.toNat))).frameOf scan =
    s.compressFrame scan

theorem exec_compress_imaged {s : State} (hfit : s.inLen.toNat ≤ s.bufCap.toNat) (hw : s.argW ≠ 0#64)
    (hlen : s.inLen ≠ 0#64) (hmod : s.inLen.toNat % s.argW.toNat = 0) :
    ∃ x, s.Imaged x ∧
      exec .compress s = s.outcome (x.compressCode (BitVec.ofNat 64 (s.inLen.toNat / s.argW.toNat))) := by
  obtain ⟨x, hx, hstage, ⟨hview, -⟩, hbytes⟩ := State.compressDiff_hands (State.begin_stage hfit)
  have hargW : x.argW = s.argW := congrArg (·.2.1) hview
  have hflags : x.argFlags = s.argFlags := congrArg (·.2.2.2.1) hview
  have hmodel : x.argModel = s.argModel := congrArg (·.getLsbD 0) hflags
  have hbytes : x.bytes x.src x.inputLen = codedPixels s.argModel s.input := hbytes
  have hheight : (BitVec.ofNat 64 (s.inLen.toNat / s.argW.toNat)).toNat = s.inLen.toNat / s.argW.toNat := by
    rw [BitVec.toNat_ofNat, Nat.mod_eq_of_lt ((Nat.div_le_self ..).trans_lt s.inLen.isLt)]
  have harea : s.argW.toNat * (s.inLen.toNat / s.argW.toNat) = s.inLen.toNat :=
    Nat.mul_div_cancel' (Nat.dvd_of_mod_eq_zero hmod)
  have hcount := congrArg List.length hbytes
  rw [State.bytes_length, codedPixels_length, State.input_length] at hcount
  refine ⟨x, ⟨hstage, congrArg (·.getLsbD 1) hflags, ⟨hstage.ready, hargW ▸ hw, fun e => ?_, ?_⟩, fun scan => ?_⟩, ?_⟩
  · rw [← hheight, e] at harea
    exact hlen (BitVec.eq_of_toNat_eq harea.symm)
  · rw [hargW, hheight, harea, hcount]
  · change Reference.rleFrame scan x.argModel x.argW.toNat (BitVec.ofNat 64 _).toNat (x.bytes x.src x.inputLen) = _
    rw [hmodel, hargW, hheight, hbytes, State.compressFrame]
  · rw [exec_compress hfit, compressBody_stages (s := s.begin) hw hlen hmod, hx]
    rfl

/-- Settles O55: the first stage without room raises, and otherwise each stage writes what the reference makes of the
output of the stage before. -/
theorem compressComposesItsStages : Obligations.CompressComposesItsStages := by
  rintro s _ _ _ hfit hw hlen hmod rfl rfl rfl
  obtain ⟨x, ⟨hstage, hadaptive, hpictures, hframe⟩, hexec⟩ := exec_compress_imaged hfit hw hlen hmod
  rw [hexec]
  refine ⟨fun hfull => ?_, fun hfitH hfitV bits q hbits hq => ?_⟩
  · rw [State.compressCode, State.compressRle_full hpictures (by
      rw [hframe, hframe, hstage.bufCap, hadaptive]
      exact hfull)]
    rfl
  · obtain ⟨f, hf, hholds, hscan⟩ := State.compressRle_holds hpictures (by rwa [hframe, hstage.bufCap]) (by
      rwa [hframe, hstage.bufCap, hadaptive])
    rw [hframe, hframe, hadaptive, ← State.stageFrame_eq] at hholds hscan
    obtain ⟨p, hcap, hreport, hcode⟩ :=
      State.compressCode_eq hstage hf hholds s.stageFrame_ne_nil hbits
    subst hq
    rw [hcode, ← hreport, hcap, ← p.output_length]
    refine ⟨fun hroom => ?_, fun hfull => ?_⟩
    · have hlast := State.withOuter_output (p := p) (by
        rw [p.output_length] at hroom
        exact (Nat.add_comm ..).trans_lt (hroom.trans_lt s.bufCap.isLt))
      rw [if_neg (Nat.not_lt.2 hroom)]
      refine ⟨_, rfl, State.finish_succeeded _ _, (State.finish_output _ _).trans hlast.2, hlast.1,
        State.finish_resOuter _ _ _ rfl, ?_⟩
      rw [State.finish_resFlags _ _ _ rfl, resultFlags_scan, hscan]
    · rw [if_pos hfull]
      rfl

end Sys2Proof.Machine
end

section
/-! PROOFS for O5, O13 and O18: what every write to `CMD` makes of its value, and of an input that IN cannot hold. -/

namespace Sys2Proof

/-! ### The values of `CMD` (R215) -/

/-- A value from 1 to 10 has an arm of the decoder. -/
theorem decodeCommand_command {c : Byte} (h : 1 ≤ c.toNat ∧ c.toNat ≤ 10) :
    ∃ i, decodeCommand c = .ok i ∧ i.isCommand = true := by
  obtain ⟨hlow, hhigh⟩ := h
  unfold decodeCommand
  generalize c.toNat = n at *
  interval_cases n
  all_goals exact ⟨_, rfl, rfl⟩

/-- Any other value has none. -/
theorem decodeCommand_unknown {c : Byte} (h : c.toNat = 0 ∨ 10 < c.toNat) :
    decodeCommand c = .error (.unknownCommand c) := by
  unfold decodeCommand
  split
  case h_11 => rfl
  all_goals omega

/-- Settles O5: a `CMD` value stands for what the table of commands says. -/
theorem commandCodesAreOneToTen : Obligations.CommandCodesAreOneToTen := fun _ =>
  ⟨decodeCommand_command, decodeCommand_unknown⟩

namespace Machine

theorem State.writeCmd_unknown {s : State} {c : Byte} (h : c.toNat = 0 ∨ 10 < c.toNat) :
    s.writeCmd c = .next (State.raise { s with cmd := c } .badCmd) := by
  have hdecode : decode .cmd (.bytes [c]) = .error (.unknownCommand c) := decodeCommand_unknown h
  rw [State.writeCmd, hdecode]

/-- Settles O13: the access is the write, which raises at once; a raise leaves what the host has written. -/
theorem unknownCommandIsBadCmd : Obligations.UnknownCommandIsBadCmd := by
  intro s c rest hseq hbusy hpending hc
  refine ⟨State.raise { s with pending := rest, cmd := c } .badCmd, ?_, State.raise_failed _ _, ?_⟩
  · rw [step_access hseq hbusy hpending, State.access]
    exact State.writeCmd_unknown hc
  · exact ⟨rfl, rfl, rfl, rfl, rfl, rfl, rfl, rfl⟩

/-! ### The start of a command (R216, R253) -/

/-- Settles O18: the start of a command refuses the input before its body runs. -/
theorem overlongInputIsAllocFault : Obligations.OverlongInputIsAllocFault := by
  intro i s hi hlong
  cases i
  case rleEncH | rleEncV | rleEncA | rleDec | hufEnc | hufDec | diffFwd | diffInv | compress | decompress =>
    exact if_pos hlong
  all_goals exact absurd hi Bool.false_ne_true

end Machine

end Sys2Proof
end

section
/-! PROOFS for O41 to O43: what DIFF_FWD and DIFF_INV write, and that the second undoes the first. -/

namespace Sys2Proof

namespace Reference

/-! ### Differences and sums (R223 to R225) -/

/-- A difference is a byte less the one before, where `p` stands before the first. -/
theorem diffFrom_getElem (p : Byte) (xs : List Byte) (i : Nat) (h : i < (diffFrom p xs).length) :
    (diffFrom p xs)[i] =
      xs[i]'(diffFrom_length p xs ▸ h) - (p :: xs)[i]'(by rw [diffFrom_length] at h; exact Nat.lt_succ_of_lt h) := by
  induction xs generalizing p i with
  | nil => exact absurd h (Nat.not_lt_zero i)
  | cons x xs ih =>
    cases i with
    | zero => rfl
    | succ i => exact ih x i (Nat.lt_of_succ_lt_succ h)

/-- A sum is the sum before, `p` before the first, and a byte. -/
theorem undiffFrom_getElem (p : Byte) (ys : List Byte) (i : Nat) (h : i < (undiffFrom p ys).length) :
    (undiffFrom p ys)[i] =
      (p :: undiffFrom p ys)[i]'(Nat.lt_succ_of_lt h) + ys[i]'(undiffFrom_length p ys ▸ h) := by
  induction ys generalizing p i with
  | nil => exact absurd h (Nat.not_lt_zero i)
  | cons y ys ih =>
    cases i with
    | zero => rfl
    | succ i => exact ih (p + y) i (Nat.lt_of_succ_lt_succ h)

/-- The running sums of the differences are the bytes (R225). -/
theorem undiffFrom_diffFrom (p : Byte) (xs : List Byte) : undiffFrom p (diffFrom p xs) = xs := by
  induction xs generalizing p with
  | nil => rfl
  | cons x xs ih =>
    have hsum : p + (x - p) = x := by rw [BitVec.add_comm, BitVec.sub_add_cancel]
    rw [diffFrom, undiffFrom, hsum, ih]

end Reference

namespace Machine

/-! ### A command that is given a byte sequence (R75, R275) -/

theorem exec_command_bufCap {i : Instr} {s t : State} (hi : i.isCommand = true) (h : exec i s = .next t) :
    t.bufCap = s.bufCap := by
  obtain ⟨-, -, -, -, -, -, hcap, -⟩ := commandsKeepTheHostsRegisters i s t hi h
  exact hcap

/-- A byte sequence that IN can hold is the input once the host has written it. -/
theorem State.feed_fits {s : State} {bs : List Byte} (h : bs.length ≤ s.bufCap.toNat) :
    (s.feed bs).inLen.toNat ≤ (s.feed bs).bufCap.toNat ∧ (s.feed bs).input = bs := by
  have hlen : bs.length < 2 ^ 64 := h.trans_lt s.bufCap.isLt
  refine ⟨?_, s.feed_input hlen⟩
  rw [State.feed_inLen, BitVec.toNat_ofNat, Nat.mod_eq_of_lt hlen]
  exact h

/-! ### The differential unit (R223, R224) -/

theorem State.output_getElem (s : State) (i : Nat) (h : i < s.output.length) : s.output[i] = s.peek .out i := by
  simp [State.output, State.bytes]

theorem State.input_getElem (s : State) (i : Nat) (h : i < s.input.length) : s.input[i] = s.peek .inp i := by
  simp [State.input, State.bytes]

/-- The output of a command that answers as many bytes as it is given. -/
theorem State.outLen_eq_inLen {s t : State} (h : t.output.length = s.input.length) : t.outLen = s.inLen :=
  BitVec.eq_of_toNat_eq (by rwa [State.output_length, State.input_length] at h)

theorem exec_diffFwd {s : State} (h : s.inLen.toNat ≤ s.bufCap.toNat) :
    exec .diffFwd s = s.outcome (s.begin.diffFwdBody >>= fun t => .ok (t.finish {})) :=
  State.command_body s (fun b => b.diffFwdBody >>= fun t => .ok (t.finish {})) h

theorem exec_diffInv {s : State} (h : s.inLen.toNat ≤ s.bufCap.toNat) :
    exec .diffInv s = s.outcome (s.begin.diffInvBody >>= fun t => .ok (t.finish {})) :=
  State.command_body s (fun b => b.diffInvBody >>= fun t => .ok (t.finish {})) h

/-- DIFF_FWD answers the differences. -/
theorem exec_diffFwd_output {s : State} (h : s.inLen.toNat ≤ s.bufCap.toNat) :
    ∃ t, exec .diffFwd s = .next t ∧ t.succeeded ∧ t.output = Reference.diffFrom 0#8 s.input := by
  obtain ⟨t, ht, hholds⟩ := State.diffFwdBody_holds (State.begin_stage h).ready
  refine ⟨t.finish {}, ?_, t.finish_succeeded _, (t.finish_output _).trans hholds.output⟩
  rw [exec_diffFwd h, ht]
  rfl

/-- DIFF_INV answers the running sums. -/
theorem exec_diffInv_output {s : State} (h : s.inLen.toNat ≤ s.bufCap.toNat) :
    ∃ t, exec .diffInv s = .next t ∧ t.succeeded ∧ t.output = Reference.undiffFrom 0#8 s.input := by
  obtain ⟨t, ht, hout⟩ := State.diffInvBody_answers (State.begin_stage h).ready
  refine ⟨t.finish {}, ?_, t.finish_succeeded _, (t.finish_output _).trans hout⟩
  rw [exec_diffInv h, ht]
  rfl

/-- Settles O41: the bytes of the output are the differences, one for each byte of the input. -/
theorem diffFwdWritesDifferences : Obligations.DiffFwdWritesDifferences := by
  intro s hfit
  obtain ⟨t, ht, hok, hout⟩ := exec_diffFwd_output hfit
  have hcount : t.output.length = s.input.length := by rw [hout, Reference.diffFrom_length]
  refine ⟨t, ht, hok, State.outLen_eq_inLen hcount, hout, fun i hi => ?_⟩
  rw [← State.input_length] at hi
  have hbyte := Reference.diffFrom_getElem 0#8 s.input i (by rwa [Reference.diffFrom_length])
  simp only [← hout] at hbyte
  rw [State.output_getElem, State.input_getElem] at hbyte
  cases i with
  | zero => exact hbyte.trans (BitVec.sub_zero _)
  | succ i => rwa [List.getElem_cons_succ, State.input_getElem] at hbyte

/-- Settles O42: the bytes of the output are the sums, one for each byte of the input. -/
theorem diffInvWritesSums : Obligations.DiffInvWritesSums := by
  intro s hfit
  obtain ⟨t, ht, hok, hout⟩ := exec_diffInv_output hfit
  have hcount : t.output.length = s.input.length := by rw [hout, Reference.undiffFrom_length]
  refine ⟨t, ht, hok, State.outLen_eq_inLen hcount, hout, fun i hi => ?_⟩
  rw [← State.input_length] at hi
  have hbyte := Reference.undiffFrom_getElem 0#8 s.input i (by rwa [Reference.undiffFrom_length])
  simp only [← hout] at hbyte
  rw [State.output_getElem, State.input_getElem] at hbyte
  cases i with
  | zero => exact hbyte.trans (BitVec.zero_add _)
  | succ i => rwa [List.getElem_cons_succ, State.output_getElem] at hbyte

/-- Settles O43: DIFF_INV sums the differences that DIFF_FWD has written. -/
theorem diffInvUndoesDiffFwd : Obligations.DiffInvUndoesDiffFwd := by
  intro s hfit
  obtain ⟨t, ht, hok, hout⟩ := exec_diffFwd_output hfit
  obtain ⟨hfit', hinput⟩ := State.feed_fits (s := t) (bs := t.output) (by
    rwa [hout, Reference.diffFrom_length, State.input_length, exec_command_bufCap rfl ht])
  obtain ⟨u, hu, hok', hout'⟩ := exec_diffInv_output hfit'
  rw [hinput, hout, Reference.undiffFrom_diffFrom] at hout'
  exact ⟨t, u, ht, hok, hu, hok', hout'⟩

end Machine

end Sys2Proof
end

section
/-! PROOF for O57: DECOMPRESS behind COMPRESS, and buffers in which COMPRESS has room. -/

namespace Sys2Proof

namespace Reference

/-! ### Lengths of the frames (R131, R192) -/

/-- An RLE frame takes less than twice the bytes of its image, and some for the header and an open group. -/
theorem rleFrame_length_le (scan model : Bool) {w h : Nat} (pixels : List Byte) (hw : 1 ≤ w ∧ w < 2 ^ 64)
    (hh : 1 ≤ h ∧ h < 2 ^ 64) (hfit : w * h < 2 ^ 64) :
    (rleFrame scan model w h pixels).length ≤ 2 * (w * h) + 32 := by
  obtain ⟨hlen, -, hitems⟩ := frameLength scan model w h _ pixels hw.1 hw.2 hh.1 hh.2 rfl
  have hitems := hitems hfit
  have hkw := byteCount_le w
  have hkh := byteCount_le h
  rw [hlen]
  split <;> omega

theorem packBits_length (bits : List Bool) : (packBits bits.length bits).length = (bits.length + 7) / 8 := by
  have hlen := congrArg List.length (packBits_classifiers bits)
  rw [payloadBits_length, List.length_append, List.length_replicate, padBits] at hlen
  omega

/-- The payload is no longer than what it codes. -/
theorem hufFrame_length_le (bs : List Byte) (bits : List Bool) : (hufFrame bs bits).2.length ≤ bs.length := by
  unfold hufFrame
  split
  · exact le_rfl
  · exact (packBits_length bits).trans_le (Nat.not_lt.1 ‹_›)

end Reference

namespace Machine

/-! ### The arguments of COMPRESS (R216, R229) -/

/-- The input of COMPRESS fits in IN, and is an image of the width in the arguments. -/
structure State.Compressible (s : State) : Prop where
  fits : s.inLen.toNat ≤ s.bufCap.toNat
  width : s.argW ≠ 0#64
  nonempty : s.inLen ≠ 0#64
  divides : s.inLen.toNat % s.argW.toNat = 0

theorem word_toNat_bounds {x : Word} (h : x ≠ 0#64) : 1 ≤ x.toNat ∧ x.toNat < 2 ^ 64 :=
  ⟨Nat.pos_of_ne_zero fun e => h (BitVec.eq_of_toNat_eq e), x.isLt⟩

theorem State.Compressible.area {s : State} (h : s.Compressible) :
    s.argW.toNat * (s.inLen.toNat / s.argW.toNat) = s.inLen.toNat :=
  Nat.mul_div_cancel' (Nat.dvd_of_mod_eq_zero h.divides)

theorem State.Compressible.height {s : State} (h : s.Compressible) :
    1 ≤ s.inLen.toNat / s.argW.toNat ∧ s.inLen.toNat / s.argW.toNat < 2 ^ 64 := by
  refine ⟨Nat.pos_of_ne_zero fun e => h.nonempty (BitVec.eq_of_toNat_eq ?_),
    (Nat.div_le_self ..).trans_lt s.inLen.isLt⟩
  rw [← h.area, e]
  rfl

/-- A command that succeeds has raised nothing (R252). -/
theorem exec_ne_raise {i : Instr} {s t : State} (ht : exec i s = .next t) (hok : t.succeeded) (e : Err) :
    exec i s ≠ .next (s.raise e) := by
  intro h
  cases ht.symm.trans h
  exact s.raise_not_succeeded e hok

/-- The input of a COMPRESS that succeeds passes its first tests. -/
theorem exec_compress_compressible {s t : State} (ht : exec .compress s = .next t) (hok : t.succeeded) :
    s.Compressible := by
  have hraise := exec_ne_raise ht hok
  have hfit : s.inLen.toNat ≤ s.bufCap.toNat :=
    Nat.not_lt.1 fun hlong => hraise _ (overlongInputIsAllocFault .compress s rfl hlong)
  obtain ⟨-, hzero, hdim, -⟩ := argumentTestsRaiseTheirFaults s hfit
  have hw : s.argW ≠ 0#64 := fun h => hraise _ (hzero (.inl h))
  have hlen : s.inLen ≠ 0#64 := fun h => hraise _ (hzero (.inr h))
  exact ⟨hfit, hw, hlen, not_not.1 fun h => hraise _ (hdim hw hlen h)⟩

/-! ### The frame between the stages (R229) -/

theorem State.Compressible.frame_length_le {s : State} (h : s.Compressible) (scan : Bool) :
    (s.compressFrame scan).length ≤ 2 * s.inLen.toNat + 32 := by
  have hlen := Reference.rleFrame_length_le scan s.argModel (codedPixels s.argModel s.input)
    (word_toNat_bounds h.width) h.height (h.area.trans_lt s.inLen.isLt)
  rwa [h.area] at hlen

/-- The RLE decoder reads back the pixels that were coded. -/
theorem State.Compressible.frame_image {s : State} (h : s.Compressible) (scan : Bool) :
    Reference.rleImage s.bufCap.toNat (s.compressFrame scan) =
      .ok { w := s.argW.toNat, h := s.inLen.toNat / s.argW.toNat, model := s.argModel, scan := scan,
            pixels := codedPixels s.argModel s.input } :=
  Reference.rleImage_rleFrame scan s.argModel (word_toNat_bounds h.width) h.height
    (by rw [codedPixels_length, State.input_length, h.area]) (h.area.trans_le h.fits) (h.area.trans_lt s.inLen.isLt)

/-- Undoing the differential, if there was one, gives the image. -/
theorem undiff_codedPixels (model : Bool) (bytes : List Byte) :
    (if model then Reference.undiffFrom 0#8 (codedPixels model bytes) else codedPixels model bytes) = bytes := by
  cases model with
  | true => exact Reference.undiffFrom_diffFrom 0#8 bytes
  | false => rfl

/-- Every frame that the RLE stage writes has room. -/
def State.framesFit (s : State) : Prop :=
  (s.compressFrame true).length ≤ s.bufCap.toNat ∧
    (s.argAdaptive = true → (s.compressFrame false).length ≤ s.bufCap.toNat)

/-- The frame that the RLE stage keeps is one that it has written. -/
theorem State.framesFit.stageFrame {s : State} (h : s.framesFit) :
    ∃ scan, s.stageFrame.1 = s.compressFrame scan ∧ (s.compressFrame scan).length ≤ s.bufCap.toNat := by
  rw [State.stageFrame_eq, keptFrame]
  split
  · rename_i hshorter
    exact ⟨false, rfl, h.2 hshorter.1⟩
  · exact ⟨true, rfl, h.1⟩

/-- The file that COMPRESS makes of a frame whose bit stream is `bits`: outer byte and payload (R229). -/
def compressFile (frame : List Byte) (bits : List Bool) : List Byte :=
  (Reference.hufFrame frame bits).1 :: (Reference.hufFrame frame bits).2

theorem compressFile_length_le (frame : List Byte) (bits : List Bool) :
    (compressFile frame bits).length ≤ frame.length + 1 :=
  Nat.succ_le_succ (Reference.hufFrame_length_le frame bits)

/-! ### COMPRESS (R229, R244) -/

theorem exec_compress_full {s : State} (h : s.Compressible) (hfull : ¬ s.framesFit) :
    exec .compress s = .next (s.raise .alloc) := by
  obtain ⟨hraises, -⟩ := compressComposesItsStages s _ _ _ h.fits h.width h.nonempty h.divides rfl rfl rfl
  refine hraises ?_
  unfold State.framesFit at hfull
  by_contra hroom
  obtain ⟨hfitH, hfitV⟩ := not_or.1 hroom
  exact hfull ⟨Nat.not_lt.1 hfitH, fun ha => Nat.not_lt.1 fun hv => hfitV ⟨ha, hv⟩⟩

/-- When the frames have room, COMPRESS writes the file of one of them, or the file has no room. -/
theorem exec_compress_file {s : State} (h : s.Compressible) (hframes : s.framesFit) :
    ∃ scan bits, (s.compressFrame scan).length ≤ s.bufCap.toNat ∧
      Reference.streamBits s.tree.init (s.compressFrame scan) = some bits ∧
      ((compressFile (s.compressFrame scan) bits).length ≤ s.bufCap.toNat →
        ∃ t, exec .compress s = .next t ∧ t.succeeded ∧ t.output = compressFile (s.compressFrame scan) bits) ∧
      (s.bufCap.toNat < (compressFile (s.compressFrame scan) bits).length →
        exec .compress s = .next (s.raise .alloc)) := by
  obtain ⟨-, hcodes⟩ := compressComposesItsStages s _ _ _ h.fits h.width h.nonempty h.divides rfl rfl rfl
  obtain ⟨scan, hstage, hfit⟩ := hframes.stageFrame
  obtain ⟨bits, hbits⟩ := Reference.streamBits_completes s.tree.init_valid (bs := s.compressFrame scan)
    (by rw [Nat.zero_add]; exact hfit.trans_lt s.bufCap.isLt)
  have hcodes := hcodes hframes.1 hframes.2 bits _ (by rw [hstage, hbits]) rfl
  rw [hstage, Nat.add_comm] at hcodes
  obtain ⟨hroom, hfull⟩ := hcodes
  refine ⟨scan, bits, hfit, hbits, fun hle => ?_, hfull⟩
  obtain ⟨t, ht, hok, hout, -⟩ := hroom hle
  exact ⟨t, ht, hok, hout⟩

/-- A COMPRESS that succeeds leaves the file of a frame that has room, as the file has. -/
theorem exec_compress_output {s t : State} (ht : exec .compress s = .next t) (hok : t.succeeded) :
    ∃ scan bits, (s.compressFrame scan).length ≤ s.bufCap.toNat ∧
      Reference.streamBits s.tree.init (s.compressFrame scan) = some bits ∧
      t.output = compressFile (s.compressFrame scan) bits ∧ t.output.length ≤ s.bufCap.toNat := by
  have hraise := exec_ne_raise ht hok
  have hs := exec_compress_compressible ht hok
  have hframes : s.framesFit := by_contra fun hfull => hraise _ (exec_compress_full hs hfull)
  obtain ⟨scan, bits, hfit, hbits, hwrites, hfull⟩ := exec_compress_file hs hframes
  have hroom := Nat.not_lt.1 fun hlong => hraise _ (hfull hlong)
  obtain ⟨t', ht', -, hout⟩ := hwrites hroom
  cases ht.symm.trans ht'
  exact ⟨scan, bits, hfit, hbits, hout, hout ▸ hroom⟩

/-- With twice the image and 64 bytes both frames have room, and so has the file. -/
theorem exec_compress_succeeds {s : State} (h : s.Compressible) (hcap : 2 * s.inLen.toNat + 64 ≤ s.bufCap.toNat) :
    ∃ t, exec .compress s = .next t ∧ t.succeeded := by
  have hlen := h.frame_length_le
  have hframes : s.framesFit := ⟨(hlen true).trans (by omega), fun _ => (hlen false).trans (by omega)⟩
  obtain ⟨scan, bits, -, -, hwrites, -⟩ := exec_compress_file h hframes
  have hfile := compressFile_length_le (s.compressFrame scan) bits
  obtain ⟨t, ht, hok, -⟩ := hwrites ((hfile.trans (Nat.succ_le_succ (hlen scan))).trans (by omega))
  exact ⟨t, ht, hok⟩

/-! ### DECOMPRESS behind COMPRESS (R231) -/

/-- DECOMPRESS of the file of a frame answers the image of the frame. -/
theorem exec_decompress_file {s v : State} {scan : Bool} {bits : List Bool} (hs : s.Compressible)
    (hfit : (s.compressFrame scan).length ≤ s.bufCap.toNat)
    (hbits : Reference.streamBits s.tree.init (s.compressFrame scan) = some bits) (hcap : v.bufCap = s.bufCap)
    (hroom : v.inLen.toNat ≤ v.bufCap.toNat) (hinput : v.input = compressFile (s.compressFrame scan) bits) :
    ∃ u, exec .decompress v = .next u ∧ u.succeeded ∧ u.output = s.input ∧ u.resW = s.argW ∧
      u.resH.toNat = s.inLen.toNat / s.argW.toNat := by
  have hframe : Reference.hufBytes v.bufCap.toNat v.tree.init v.input = .ok (s.compressFrame scan) := by
    rw [hinput, hcap]
    exact Reference.hufBytes_hufFrame s.bufCap.isLt (List.cons_ne_nil _ _) hfit
      ((Reference.streamBits_similar (s.tree.init_similar v.tree) _).trans hbits)
  obtain ⟨-, hstages⟩ := decompressComposesItsStages v hroom
  obtain ⟨-, himages⟩ := hstages _ hframe
  obtain ⟨u, hu, hok, -, hout, hw, hh, -⟩ := himages _ (by rw [hcap]; exact hs.frame_image scan)
  exact ⟨u, hu, hok, hout.trans (undiff_codedPixels _ _), BitVec.eq_of_toNat_eq hw, hh⟩

/-- Settles O57: the file of a success reads back stage by stage, last stage first; and the bounds on the frame's and
the file's length give COMPRESS its room. -/
theorem pipelineRoundTrip : Obligations.PipelineRoundTrip := by
  refine ⟨fun s t ht hok => ?_, fun s hpos hw hmod hcap => ?_⟩
  · obtain ⟨scan, bits, hfit, hbits, hout, hroom⟩ := exec_compress_output ht hok
    have hbufCap := exec_command_bufCap rfl ht
    obtain ⟨hfeed, hinput⟩ := State.feed_fits (s := t) (bs := t.output) (by rwa [hbufCap])
    exact exec_decompress_file (exec_compress_compressible ht hok) hfit hbits hbufCap hfeed (hinput.trans hout)
  · have hne : s.inLen ≠ 0#64 := fun e => (Nat.pos_iff_ne_zero.1 hpos) (congrArg BitVec.toNat e)
    exact exec_compress_succeeds ⟨by omega, hw, hne, hmod⟩ hcap

end Machine

end Sys2Proof
end

section
/-! PROOF for O17: what a raise leaves in the registers that the host reads, and the codes of the faults. -/

namespace Sys2Proof.Machine

/-- A host finds no output behind a fault, whatever OUT held: `OUT_LEN` is 0 (R252). -/
@[simp] theorem State.raise_output (s : State) (e : Err) : (s.raise e).output = [] :=
  List.length_eq_zero_iff.1 ((s.raise e).output_length.trans (congrArg BitVec.toNat (s.raise_outLen e)))

/-- Settles O17: the reports of a raise, then the host's registers that it keeps; the codes are the table of R241. -/
theorem raiseSetsTheFault : Obligations.RaiseSetsTheFault := by
  refine ⟨fun s e => ?_, ?_⟩
  · exact ⟨s.raise_err e, s.raise_outLen e, s.raise_status e, s.raise_output e, s.raise_inMem e, s.raise_inLen e,
      s.raise_argW e, s.raise_argH e, s.raise_argFlags e, s.raise_cmd e⟩
  · decide

end Sys2Proof.Machine
end
